-- ==== Sys2Proof/Word.lean ====
section
/-!
DEFINITION. The machine's words.  Registers, descriptors and memory bytes are bit vectors (00_scope R5, R6); a sparse
array of them is a `Store`, a list of index and value pairs whose form the operations of Machine/Mem.lean keep.
-/

namespace Sys2Proof

/-- A byte of memory. -/
abbrev Byte := BitVec 8

/-- A scalar of the sequencer (R41). -/
abbrev Word := BitVec 64

/-- A sparse array of `w`-bit values: strictly rising indices, no entry equal to what an unlisted index reads as. -/
abbrev Store (w : Nat) := List (Nat × BitVec w)

end Sys2Proof
end

