-- ==== Sys2Proof/Syntax.lean ====
section
/-!
DEFINITION. The abstract syntax of the Kazros: every instruction of every stream and every event of the machine, one
constructor per row of the opcode table.  Instruction words carry all their fields as they stand in the word
(03_encodings R67 to R82, 18_fabric R368); a field the spec calls reserved is kept here and tested in WellFormed.
-/

namespace Sys2Proof

/-- The kinds of instruction word: the five streams of a core that fetch words (R39) and the sieve processor (R365). -/
inductive Strm where
  | sq | ve | me | gu | ld | sv
deriving DecidableEq, Repr

/-- The register format VR of a vector-engine word below its opcode (R73). -/
structure VR where
  vd : BitVec 6
  va : BitVec 6
  ma : BitVec 4
  vb : BitVec 6
  mb : BitVec 4
  vc : BitVec 6
  mc : BitVec 4
  km : BitVec 3
  bc : BitVec 6
  be : BitVec 1
  rq : BitVec 3
  sat : BitVec 1
  hold : BitVec 3
  i : BitVec 3
deriving DecidableEq, Repr

/-- The memory format VM of a vector-engine word (R73). -/
structure VM where
  v : BitVec 6
  did : BitVec 8
  off : BitVec 22
  km : BitVec 3
  bc : BitVec 6
  be : BitVec 1
  res : BitVec 7
  i : BitVec 3
deriving DecidableEq, Repr

/-- The tile format VT of a vector-engine word (R73). -/
structure VT where
  v : BitVec 6
  tn : BitVec 3
  dir : BitVec 1
  idx : BitVec 4
  rows : BitVec 5
  cols : BitVec 5
  zr : BitVec 1
  res : BitVec 11
  km : BitVec 3
  res2 : BitVec 14
  i : BitVec 3
deriving DecidableEq, Repr

/-- The control format VC of a vector-engine word (R73). -/
structure VC where
  imm : BitVec 24
  res : BitVec 15
  bc : BitVec 6
  be : BitVec 1
  res2 : BitVec 7
  i : BitVec 3
deriving DecidableEq, Repr

/-- The operation format MX of a matrix-engine word (R77). -/
structure MX where
  acc : BitVec 4
  da : BitVec 8
  db : BitVec 8
  ta : BitVec 1
  tb : BitVec 1
  ga : BitVec 1
  asy : BitVec 1
  mov : BitVec 1
  tsm : BitVec 1
  lvl : BitVec 3
  zc : BitVec 1
  rq : BitVec 3
  sat : BitVec 1
  bc : BitVec 6
  be : BitVec 1
  res : BitVec 9
  i : BitVec 8
deriving DecidableEq, Repr

/-- The control format MC of a matrix-engine word (R77). -/
structure MC where
  imm : BitVec 24
  res : BitVec 10
  bc : BitVec 6
  be : BitVec 1
  res2 : BitVec 9
  i : BitVec 8
deriving DecidableEq, Repr

/-- A gather-unit word below its opcode (R79). -/
structure GW where
  did : BitVec 8
  off : BitVec 22
  cnt : BitVec 5
  bc : BitVec 6
  be : BitVec 1
  res : BitVec 8
  i : BitVec 8
deriving DecidableEq, Repr

/-- A Ladle command word below its opcode (R80). -/
structure LW where
  qn : BitVec 2
  oc : BitVec 4
  sco : BitVec 4
  ord : BitVec 1
  mov : BitVec 1
  cw : BitVec 1
  ba : BitVec 1
  bdie : BitVec 1
  bid : BitVec 6
  dd : BitVec 8
  ds : BitVec 8
  dc : BitVec 8
  offc : BitVec 8
  offd : BitVec 20
  offs : BitVec 20
  cnt : BitVec 16
  aop : BitVec 3
  i : BitVec 8
deriving DecidableEq, Repr

/-- One constructor per row of the opcode table: instructions of the sequencer, the vector engine, the matrix engine,
the gather unit, the Ladle and the sieves, and the machine's events.  An event takes its operands from the machine's
state, where the agent that causes it has placed them, so its constructor carries none.  Instructions stand first. -/
inductive Instr where
  | add (d : BitVec 6) (a : BitVec 6) (b : BitVec 6) (i : BitVec 3)
  | sub (d : BitVec 6) (a : BitVec 6) (b : BitVec 6) (i : BitVec 3)
  | band (d : BitVec 6) (a : BitVec 6) (b : BitVec 6) (i : BitVec 3)
  | bor (d : BitVec 6) (a : BitVec 6) (b : BitVec 6) (i : BitVec 3)
  | bxor (d : BitVec 6) (a : BitVec 6) (b : BitVec 6) (i : BitVec 3)
  | sll (d : BitVec 6) (a : BitVec 6) (b : BitVec 6) (i : BitVec 3)
  | srl (d : BitVec 6) (a : BitVec 6) (b : BitVec 6) (i : BitVec 3)
  | sra (d : BitVec 6) (a : BitVec 6) (b : BitVec 6) (i : BitVec 3)
  | mul (d : BitVec 6) (a : BitVec 6) (b : BitVec 6) (i : BitVec 3)
  | mulh (d : BitVec 6) (a : BitVec 6) (b : BitVec 6) (i : BitVec 3)
  | mulhu (d : BitVec 6) (a : BitVec 6) (b : BitVec 6) (i : BitVec 3)
  | div (d : BitVec 6) (a : BitVec 6) (b : BitVec 6) (i : BitVec 3)
  | divu (d : BitVec 6) (a : BitVec 6) (b : BitVec 6) (i : BitVec 3)
  | rem (d : BitVec 6) (a : BitVec 6) (b : BitVec 6) (i : BitVec 3)
  | remu (d : BitVec 6) (a : BitVec 6) (b : BitVec 6) (i : BitVec 3)
  | slt (d : BitVec 6) (a : BitVec 6) (b : BitVec 6) (i : BitVec 3)
  | sltu (d : BitVec 6) (a : BitVec 6) (b : BitVec 6) (i : BitVec 3)
  | min (d : BitVec 6) (a : BitVec 6) (b : BitVec 6) (i : BitVec 3)
  | max (d : BitVec 6) (a : BitVec 6) (b : BitVec 6) (i : BitVec 3)
  | addi (d : BitVec 6) (a : BitVec 6) (m : BitVec 11) (i : BitVec 3)
  | andi (d : BitVec 6) (a : BitVec 6) (m : BitVec 11) (i : BitVec 3)
  | ori (d : BitVec 6) (a : BitVec 6) (m : BitVec 11) (i : BitVec 3)
  | xori (d : BitVec 6) (a : BitVec 6) (m : BitVec 11) (i : BitVec 3)
  | slti (d : BitVec 6) (a : BitVec 6) (m : BitVec 11) (i : BitVec 3)
  | slli (d : BitVec 6) (a : BitVec 6) (s : BitVec 6) (i : BitVec 3)
  | srli (d : BitVec 6) (a : BitVec 6) (s : BitVec 6) (i : BitVec 3)
  | srai (d : BitVec 6) (a : BitVec 6) (s : BitVec 6) (i : BitVec 3)
  | insw0 (d : BitVec 6) (m : BitVec 16) (i : BitVec 3)
  | insw16 (d : BitVec 6) (m : BitVec 16) (i : BitVec 3)
  | insw32 (d : BitVec 6) (m : BitVec 16) (i : BitVec 3)
  | insw48 (d : BitVec 6) (m : BitVec 16) (i : BitVec 3)
  | ld (d : BitVec 6) (a : BitVec 6) (c : BitVec 4) (z : BitVec 2) (s : BitVec 1) (o : BitVec 4) (i : BitVec 3)
  | st (d : BitVec 6) (a : BitVec 6) (c : BitVec 4) (z : BitVec 2) (o : BitVec 4) (i : BitVec 3)
  | beq (a : BitVec 6) (b : BitVec 6) (o : BitVec 11) (i : BitVec 3)
  | bne (a : BitVec 6) (b : BitVec 6) (o : BitVec 11) (i : BitVec 3)
  | blt (a : BitVec 6) (b : BitVec 6) (o : BitVec 11) (i : BitVec 3)
  | bge (a : BitVec 6) (b : BitVec 6) (o : BitVec 11) (i : BitVec 3)
  | bltu (a : BitVec 6) (b : BitVec 6) (o : BitVec 11) (i : BitVec 3)
  | bgeu (a : BitVec 6) (b : BitVec 6) (o : BitVec 11) (i : BitVec 3)
  | j (o : BitVec 23) (i : BitVec 3)
  | jal (o : BitVec 23) (i : BitVec 3)
  | jr (a : BitVec 6) (m : BitVec 11) (i : BitVec 3)
  | jalr (a : BitVec 6) (m : BitVec 11) (i : BitVec 3)
  | loop (a : BitVec 6) (e : BitVec 17) (i : BitVec 3)
  | loopi (c : BitVec 12) (e : BitVec 11) (i : BitVec 3)
  | hld (h : BitVec 4) (a : BitVec 6) (i : BitVec 3)
  | hst (h : BitVec 4) (a : BitVec 6) (i : BitVec 3)
  | dput (h : BitVec 4) (n : BitVec 8) (i : BitVec 3)
  | dget (h : BitVec 4) (n : BitVec 8) (i : BitVec 3)
  | hset (h : BitVec 4) (a : BitVec 6) (f : BitVec 4) (i : BitVec 3)
  | hget (h : BitVec 4) (a : BitVec 6) (f : BitVec 4) (i : BitVec 3)
  | lntw (a : BitVec 6) (l : BitVec 3) (f : BitVec 3) (i : BitVec 3)
  | fork (a : BitVec 6) (m : BitVec 11) (i : BitVec 3)
  | rdv (m : BitVec 4) (i : BitVec 3)
  | waitf (n : BitVec 7) (g : BitVec 4) (i : BitVec 3)
  | waite (e : BitVec 8) (i : BitVec 3)
  | waita (d : BitVec 6) (a : BitVec 6) (b : BitVec 6) (c : BitVec 2) (i : BitVec 3)
  | bara (x : BitVec 1) (b : BitVec 6) (i : BitVec 3)
  | barw (d : BitVec 6) (x : BitVec 1) (b : BitVec 6) (i : BitVec 3)
  | evset (e : BitVec 8) (i : BitVec 3)
  | evclr (e : BitVec 8) (i : BitVec 3)
  | fenceC (m : BitVec 16) (s : BitVec 4) (i : BitVec 3)
  | clkdiv (a : BitVec 6) (i : BitVec 3)
  | swpt (n : BitVec 10) (i : BitVec 3)
  | idle (n : BitVec 23) (i : BitVec 3)
  | csrr (d : BitVec 6) (x : BitVec 6) (i : BitVec 3)
  | csrw (a : BitVec 6) (x : BitVec 6) (i : BitVec 3)
  | yield (i : BitVec 3)
  | trap (x : BitVec 6) (i : BitVec 3)
  | exit (i : BitVec 3)
  | rett (i : BitVec 3)
  | launch (d : BitVec 6) (a : BitVec 6) (i : BitVec 3)
  | bkpt (i : BitVec 3)
  | nop (x : BitVec 23) (i : BitVec 3)
  | vadd (t : BitVec 3) (f : VR)
  | vsub (t : BitVec 3) (f : VR)
  | vmul (t : BitVec 3) (f : VR)
  | vfma (t : BitVec 3) (f : VR)
  | vmin (t : BitVec 3) (f : VR)
  | vmax (t : BitVec 3) (f : VR)
  | vdiv (f : VR)
  | vsqrt (f : VR)
  | vrcp (f : VR)
  | vrsq (f : VR)
  | vexp2 (f : VR)
  | vlog2 (f : VR)
  | vabs (f : VR)
  | vneg (f : VR)
  | vand (f : VR)
  | vor (f : VR)
  | vxor (f : VR)
  | vnot (f : VR)
  | vsll (f : VR)
  | vsrl (f : VR)
  | vsra (f : VR)
  | vsel (f : VR)
  | vcmp (t : BitVec 3) (f : VR)
  | vcvt (f : VR)
  | vcvtb (f : VR)
  | vrsum (t : BitVec 3) (f : VR)
  | vrmax (t : BitVec 3) (f : VR)
  | vrmin (t : BitVec 3) (f : VR)
  | vscan (t : BitVec 3) (f : VR)
  | vcomp2of4 (f : VR)
  | dot16E4 (f : VR)
  | radd (f : VR)
  | rsub (f : VR)
  | fprint (f : VM)
  | vmov (f : VR)
  | vbcast (f : VR)
  | viota (f : VR)
  | kand (f : VR)
  | kor (f : VR)
  | kxor (f : VR)
  | knot (f : VR)
  | kfromv (f : VR)
  | vfromk (f : VR)
  | vld (f : VM)
  | vst (f : VM)
  | tcfg (f : VT)
  | tcfgZ (f : VT)
  | tset (f : VT)
  | tget (f : VT)
  | tzero (f : VT)
  | tld (f : VM)
  | tst (f : VM)
  | trsum (f : VT)
  | qadd (f : VR)
  | qsub (f : VR)
  | qmul (f : VR)
  | qfma (f : VR)
  | qrelu (f : VR)
  | qmake (f : VR)
  | qcolMean (f : VR)
  | qcolVar (f : VR)
  | qcolSd (f : VR)
  | qscl (f : VR)
  | qld (f : VM)
  | qst (f : VM)
  | vloop (f : VC)
  | vcsrr (f : VC)
  | vcsrw (f : VC)
  | vrdv (f : VC)
  | vrdvEnd (f : VC)
  | vidle (f : VC)
  | vnop (o : BitVec 3) (x : BitVec 53) (i : BitVec 3)
  | mmaF8 (f : MX)
  | mmaBf16 (f : MX)
  | mmaF32 (f : MX)
  | mmaB2e8 (f : MX)
  | mmaB2e4 (f : MX)
  | mmaMom (f : MX)
  | mmv (f : MX)
  | drain (f : MX)
  | drainMom (f : MX)
  | azero (f : MX)
  | aload (f : MX)
  | go (f : MC)
  | mwait (f : MC)
  | mrdv (f : MC)
  | mrdvEnd (f : MC)
  | mcsrr (f : MC)
  | mcsrw (f : MC)
  | midle (f : MC)
  | mnop (o : BitVec 3) (x : BitVec 50) (i : BitVec 8)
  | gidx (f : GW)
  | gfill (f : GW)
  | grdv (f : GW)
  | grdvEnd (f : GW)
  | gidle (f : GW)
  | gnop (o : BitVec 3) (x : BitVec 50) (i : BitVec 8)
  | copy1d (f : LW)
  | copy2d (f : LW)
  | copy3d (f : LW)
  | copyx (f : LW)
  | scan (f : LW)
  | xchg (f : LW)
  | cmpx (f : LW)
  | enq (f : LW)
  | deq (f : LW)
  | copy1dAcc (t : BitVec 3) (f : LW)
  | copy2dAcc (t : BitVec 3) (f : LW)
  | copy3dAcc (t : BitVec 3) (f : LW)
  | qfence (f : LW)
  | cwrite (f : LW)
  | barrive (f : LW)
  | lrdv (f : LW)
  | lrdvEnd (f : LW)
  | lidle (f : LW)
  | lnop (o : BitVec 4) (x : BitVec 112) (i : BitVec 8)
  | sieveAdd (d : BitVec 4) (a : BitVec 4) (b : BitVec 4)
  | sieveSub (d : BitVec 4) (a : BitVec 4) (b : BitVec 4)
  | sieveAnd (d : BitVec 4) (a : BitVec 4) (b : BitVec 4)
  | sieveOr (d : BitVec 4) (a : BitVec 4) (b : BitVec 4)
  | sieveXor (d : BitVec 4) (a : BitVec 4) (b : BitVec 4)
  | sieveShl (d : BitVec 4) (a : BitVec 4) (b : BitVec 4)
  | sieveShr (d : BitVec 4) (a : BitVec 4) (b : BitVec 4)
  | sieveSar (d : BitVec 4) (a : BitVec 4) (b : BitVec 4)
  | sieveSltu (d : BitVec 4) (a : BitVec 4) (b : BitVec 4)
  | sieveAddi (d : BitVec 4) (a : BitVec 4) (m : BitVec 18)
  | sieveMovi (d : BitVec 4) (m : BitVec 18)
  | sieveMovhi (d : BitVec 4) (m : BitVec 14)
  | sieveVadd (d : BitVec 4) (a : BitVec 4) (b : BitVec 4) (t : BitVec 3) (m : BitVec 2)
  | sieveVsub (d : BitVec 4) (a : BitVec 4) (b : BitVec 4) (t : BitVec 3) (m : BitVec 2)
  | sieveVmin (d : BitVec 4) (a : BitVec 4) (b : BitVec 4) (t : BitVec 3) (m : BitVec 2)
  | sieveVmax (d : BitVec 4) (a : BitVec 4) (b : BitVec 4) (t : BitVec 3) (m : BitVec 2)
  | sieveVmul (d : BitVec 4) (a : BitVec 4) (b : BitVec 4) (t : BitVec 3) (m : BitVec 2)
  | vscn (d : BitVec 4) (a : BitVec 4) (b : BitVec 4) (t : BitVec 3) (m : BitVec 2)
  | vsplat (d : BitVec 4) (a : BitVec 4) (m : BitVec 2)
  | sieveVcmp (d : BitVec 2) (a : BitVec 4) (b : BitVec 4) (t : BitVec 3) (m : BitVec 2) (c : BitVec 3)
  | sieveVsel (d : BitVec 4) (a : BitVec 4) (b : BitVec 4) (m : BitVec 2)
  | vext (d : BitVec 4) (a : BitVec 4) (l : BitVec 4)
  | vins (d : BitVec 4) (a : BitVec 4) (l : BitVec 4)
  | pld (d : BitVec 4) (a : BitVec 4) (f : BitVec 6)
  | pst (d : BitVec 4) (a : BitVec 4) (f : BitVec 6)
  | fld (d : BitVec 4) (w : BitVec 2)
  | fst (a : BitVec 4) (w : BitVec 2)
  | hdr (d : BitVec 4) (f : BitVec 3)
  | sieveBeq (a : BitVec 4) (b : BitVec 4) (o : BitVec 18)
  | sieveBne (a : BitVec 4) (b : BitVec 4) (o : BitVec 18)
  | sieveBltu (a : BitVec 4) (b : BitVec 4) (o : BitVec 18)
  | sieveLoop (n : BitVec 8) (e : BitVec 10)
  | send (a : BitVec 4) (b : BitVec 4)
  | traps (n : BitVec 8)
  | snop (o : BitVec 3) (x : BitVec 26)
  | rendezvousRelease
  | divisorSwitch
  | variantSwitch
  | kernelExitReport
  | outwardActionPerform
  | tasterRetry
  | resultLand
  | farLoadReturn
  | coreResume
  | tileSwap
  | asyncCommandRun
  | matrixReplay
  | portAction
  | ordContributionApply
  | ladleCommandRetire
  | ladleReperform
  | barrierPhaseComplete
  | movableTake
  | translationWalk
  | asyncTrapDelivery
  | preemptRequest
  | escalateToLoopDrain
  | escalateToTrap
  | loopDrainStop
  | trapGradeStop
  | evict
  | contextResume
  | resumeRequest
  | kill
  | killQuiesceDone
  | hostEntrySubmit
  | launchStart
  | launchFinish
  | firmwareKernelStart
  | ttFire
  | hobRotate
  | hobcfgWrite
  | planSelect
  | invgo
  | invalidationComplete
  | hostApertureAccess
  | notifyMessage
  | write
  | wreduce
  | read
  | readrsp
  | cadd
  | packetDrop
  | portRemoved
  | planreq
  | planrel
  | setupReserve
  | setupGrant
  | setupRefuse
  | setupCommit
  | setupRelease
  | setupTimeout
  | triggerWrite
  | qpPost
  | workEntryFire
  | sievePacket
  | drop
  | sieveDone
  | loadgo
  | loadCheckDone
  | partitionUnload
  | syncMessage
  | followUpMessage
  | delayRespMessage
  | announceMessage
  | syncTimeout
  | tokenGrant
  | leaseExpiry
  | ptrade
  | tokenOffer
  | tokenAccept
  | tokenCommit
  | powerOverdraw
  | simmerTick
  | plock
  | plvlthWrite
  | prampWrite
  | registerWrite
  | status
  | logread
  | health
  | attest
  | pregrd
  | pregwr
  | fnreset
  | fwstage
  | correctedWriteback
  | bankFailure
  | rebuildWalk
  | scrubRead
  | scrubWriteback
  | violation
  | partRemoval
  | powerGood
  | romVerify
  | selftest
  | hbmtrain
  | links
  | ready
  | moduleReset
  | patternTestGo
  | patternTestDone
  | phySettingWrite
  | portRetrain
  | delayReq
  | mailboxUnknownOp
deriving DecidableEq, Repr

end Sys2Proof
end

