-- ==== Sys2Proof/Machine/Types.lean ====
section
/-!
DEFINITION. The plain data types the machine's operations share: number formats, exact values, fabric packets, the
operands of an event, and the places in memory an access can reach.
-/

namespace Sys2Proof

/-- The element formats of R11 and R52. -/
inductive Fm where
  | fp32 | bf16 | fp16 | e4m3 | e5m2 | b2e8 | b2e4
  | i8 | i16 | i32 | i64 | n8 | n16 | n32 | n64 | rq32 | mom
deriving DecidableEq, Repr

/-- An exact value (R38): not a number, an infinity, or (−1)^neg·m·2^e.  `more` says that the true magnitude lies
strictly between m and m + 1 in units of 2^e.  `zc` is the zero of a cancelling sum, whose sign its rounding decides. -/
inductive Val where
  | nan
  | inf (neg : Bool)
  | zc
  | fin (neg : Bool) (m : Nat) (e : Int) (more : Bool)
deriving DecidableEq, Repr

/-- A fabric packet: the eight dwords of its header flit, dw0 in the lowest bits, and its payload flits (R348). -/
structure Packet where
  head : BitVec 512
  body : List (BitVec 512)
deriving DecidableEq, Repr

/-- The violations of R401, each with the master that commits it: a core that bears a pair never assigned, a queue pair that
does, a core's store or a Ladle queue's access that either of the first two rows names, a sieve, a host function. -/
inductive Viol where
  | pairUnknown (core : Nat)
  | pairQueue (iod queue : Nat)
  | tableWrite (core queue : Nat) (ladle : Bool)
  | sieveCycles (iod sieve : Nat)
  | hostPoison (link : Nat)
deriving DecidableEq, Repr

/-- The operands of an event, placed by the agent that causes it: up to four numbers, a flag, a value, a wide value, a
packet and bytes.  Each event's docstring says which it reads. -/
structure EvArg where
  n : Nat := 0
  m : Nat := 0
  k : Nat := 0
  j : Nat := 0
  b : Bool := false
  v : BitVec 64 := 0
  u : BitVec 64 := 0
  w : BitVec 512 := 0
  pkt : Packet := { head := 0, body := [] }
  bytes : List (BitVec 8) := []
  viol : Viol := .hostPoison 0
deriving DecidableEq, Repr

/-- The memories of R256, with the PHY registers of R412 that scalar window 0xC reaches. -/
inductive Mem where
  | spm | pantry | hbm | host | cxl | phy
deriving DecidableEq, Repr

/-- A place in memory: which memory, which core, die or link holds it, and the byte offset there. -/
structure Loc where
  mem : Mem
  unit : Nat
  off : Nat
deriving DecidableEq, Repr

end Sys2Proof
end

