-- ==== Sys2Proof/Machine/Crypt.lean ====
section
/-!
DEFINITION. The standards that secure boot and attestation name (21_bringup R407, R408): SHA-256 (FIPS 180-4), MGF1 and
RSASSA-PSS (PKCS #1 v2.2) with SHA-256, a salt of 32 bytes and 3,072-bit moduli.  Octet strings are most significant octet
first (log entry 26).
-/

namespace Sys2Proof

/-- A number as `n` octets, the most significant first. -/
def octets (n v : Nat) : List (BitVec 8) := (List.range n).map fun i => BitVec.ofNat 8 (v / 2 ^ (8 * (n - 1 - i)))

/-- The number of an octet string. -/
def ofOctets (bs : List (BitVec 8)) : Nat := bs.foldl (fun a b => a * 256 + b.toNat) 0

/-! ### SHA-256 -/

def shaK : List (BitVec 32) :=
  [0x428a2f98, 0x71374491, 0xb5c0fbcf, 0xe9b5dba5, 0x3956c25b, 0x59f111f1, 0x923f82a4, 0xab1c5ed5]
  ++ [0xd807aa98, 0x12835b01, 0x243185be, 0x550c7dc3, 0x72be5d74, 0x80deb1fe, 0x9bdc06a7, 0xc19bf174]
  ++ [0xe49b69c1, 0xefbe4786, 0x0fc19dc6, 0x240ca1cc, 0x2de92c6f, 0x4a7484aa, 0x5cb0a9dc, 0x76f988da]
  ++ [0x983e5152, 0xa831c66d, 0xb00327c8, 0xbf597fc7, 0xc6e00bf3, 0xd5a79147, 0x06ca6351, 0x14292967]
  ++ [0x27b70a85, 0x2e1b2138, 0x4d2c6dfc, 0x53380d13, 0x650a7354, 0x766a0abb, 0x81c2c92e, 0x92722c85]
  ++ [0xa2bfe8a1, 0xa81a664b, 0xc24b8b70, 0xc76c51a3, 0xd192e819, 0xd6990624, 0xf40e3585, 0x106aa070]
  ++ [0x19a4c116, 0x1e376c08, 0x2748774c, 0x34b0bcb5, 0x391c0cb3, 0x4ed8aa4a, 0x5b9cca4f, 0x682e6ff3]
  ++ [0x748f82ee, 0x78a5636f, 0x84c87814, 0x8cc70208, 0x90befffa, 0xa4506ceb, 0xbef9a3f7, 0xc67178f2]

def shaInit : List (BitVec 32) :=
  [0x6a09e667, 0xbb67ae85, 0x3c6ef372, 0xa54ff53a, 0x510e527f, 0x9b05688c, 0x1f83d9ab, 0x5be0cd19]

/-- The padded message. -/
def shaPad (bs : List (BitVec 8)) : List (BitVec 8) :=
  let n := bs.length
  bs ++ [0x80] ++ List.replicate ((64 - (n + 9) % 64) % 64) 0 ++ octets 8 (8 * n)

/-- The next `n` words of a message schedule, newest first. -/
def shaSchedule : Nat → List (BitVec 32) → List (BitVec 32)
  | 0, w => w
  | n + 1, w =>
    let a := w.getD 1 0
    let b := w.getD 14 0
    let s1 := a.rotateRight 17 ^^^ a.rotateRight 19 ^^^ (a >>> 10)
    let s0 := b.rotateRight 7 ^^^ b.rotateRight 18 ^^^ (b >>> 3)
    shaSchedule n ((s1 + w.getD 6 0 + s0 + w.getD 15 0) :: w)

/-- One round on the eight working variables. -/
def shaRound (v : List (BitVec 32)) (kw : BitVec 32 × BitVec 32) : List (BitVec 32) :=
  match v with
  | [a, b, c, d, e, f, g, h] =>
    let s1 := e.rotateRight 6 ^^^ e.rotateRight 11 ^^^ e.rotateRight 25
    let ch := (e &&& f) ^^^ (~~~e &&& g)
    let t1 := h + s1 + ch + kw.1 + kw.2
    let s0 := a.rotateRight 2 ^^^ a.rotateRight 13 ^^^ a.rotateRight 22
    let maj := (a &&& b) ^^^ (a &&& c) ^^^ (b &&& c)
    [t1 + s0 + maj, a, b, c, d + t1, e, f, g]
  | v => v

/-- The words of a block, in order. -/
def shaWords : Nat → List (BitVec 8) → List (BitVec 32)
  | 0, _ => []
  | n + 1, bs => BitVec.ofNat 32 (ofOctets (bs.take 4)) :: shaWords n (bs.drop 4)

/-- The hash value after each of the blocks. -/
def shaBlocks : Nat → List (BitVec 32) → List (BitVec 8) → List (BitVec 32)
  | 0, h, _ => h
  | n + 1, h, bs =>
    let w := (shaSchedule 48 (shaWords 16 (bs.take 64)).reverse).reverse
    let v := (shaK.zip w).foldl shaRound h
    shaBlocks n (h.zipWith (· + ·) v) (bs.drop 64)

/-- The SHA-256 digest, 32 octets. -/
def sha256 (bs : List (BitVec 8)) : List (BitVec 8) :=
  let m := shaPad bs
  (shaBlocks (m.length / 64) shaInit m).flatMap fun w => octets 4 w.toNat

/-! ### MGF1 and RSASSA-PSS -/

/-- The first `n` octets of MGF1. -/
def mgf1 (seed : List (BitVec 8)) (n : Nat) : List (BitVec 8) :=
  ((List.range ((n + 31) / 32)).flatMap fun i => sha256 (seed ++ octets 4 i)).take n

def xorOctets (a b : List (BitVec 8)) : List (BitVec 8) := a.zipWith (· ^^^ ·) b

/-- b^e mod n, by the lowest `f` bits of e. -/
def powMod (n : Nat) : Nat → Nat → Nat → Nat → Nat
  | 0, _, _, acc => acc
  | f + 1, b, e, acc => powMod n f (b * b % n) (e / 2) (if e % 2 = 1 then acc * b % n else acc)

/-- EMSA-PSS of a digest, 384 octets with the topmost bit 0. -/
def pssEncode (digest salt : List (BitVec 8)) : List (BitVec 8) :=
  let h := sha256 (List.replicate 8 0 ++ digest ++ salt)
  let db := List.replicate 318 0 ++ [1] ++ salt
  let m := xorOctets db (mgf1 h 351)
  ((m.headD 0 &&& 0x7F) :: m.drop 1) ++ h ++ [0xBC]

/-- Whether an encoded message of 384 octets is EMSA-PSS of a digest. -/
def pssOk (digest em : List (BitVec 8)) : Bool :=
  let m := em.take 351
  let h := (em.drop 351).take 32
  let db := xorOctets m (mgf1 h 351)
  let db := (db.headD 0 &&& 0x7F) :: db.drop 1
  em.length = 384 && em.drop 383 = [0xBC] && (em.headD 0).getLsbD 7 = false && db.take 319 = List.replicate 318 0 ++ [1]
    && h = sha256 (List.replicate 8 0 ++ digest ++ db.drop 319)

/-- A signature of 384 octets by a private exponent. -/
def rsaSign (n d : Nat) (digest salt : List (BitVec 8)) : List (BitVec 8) :=
  octets 384 (powMod n 3072 (ofOctets (pssEncode digest salt)) d 1)

/-- Whether a signature verifies under a modulus with exponent 65,537. -/
def rsaOk (n : Nat) (digest sig : List (BitVec 8)) : Bool :=
  decide (ofOctets sig < n) && pssOk digest (octets 384 (powMod n 17 (ofOctets sig) 65537 1))

end Sys2Proof
end

