-- ==== Sys2Proof/Machine/Num.lean ====
section
/-!
DEFINITION. Exact values, the one rounding, and the conversions of 01_numbers: formats (R11 to R18), rounding modes and
flags (R20 to R25), conversions (R27, R28), exact sums, products, quotients and roots.  Flags are a 6-bit word in the
order of ARITH[21:16]: NV, DZ, OF, UF, NX, SA from bit 0 (R21).
-/

namespace Sys2Proof

/-- The flags of R22 in the order of ARITH[21:16]. -/
abbrev Flags := BitVec 6
def fNone : Flags := 0
def fNV : Flags := 1
def fDZ : Flags := 2
def fOF : Flags := 4
def fUF : Flags := 8
def fNX : Flags := 16
def fSA : Flags := 32

/-- The four rounding modes by their code (R20): 0 nearest even, 1 toward zero, 2 down, 3 up. -/
abbrev RMode := BitVec 2

namespace Fm

/-- Element width in bits. -/
def bits : Fm → Nat
  | .fp32 | .i32 | .n32 | .rq32 => 32
  | .bf16 | .fp16 | .i16 | .n16 => 16
  | .e4m3 | .e5m2 | .b2e8 | .i8 | .n8 => 8
  | .b2e4 => 4
  | .i64 | .n64 | .mom => 64

/-- The format of a code of R52. -/
def ofCode : Nat → Option Fm
  | 0x00 => some .fp32
  | 0x01 => some .bf16
  | 0x02 => some .fp16
  | 0x03 => some .e4m3
  | 0x04 => some .e5m2
  | 0x05 => some .b2e8
  | 0x06 => some .b2e4
  | 0x08 => some .i8
  | 0x09 => some .i16
  | 0x0A => some .i32
  | 0x0B => some .i64
  | 0x0C => some .n8
  | 0x0D => some .n16
  | 0x0E => some .n32
  | 0x0F => some .n64
  | 0x10 => some .rq32
  | 0x11 => some .mom
  | _ => none

/-- The element type of a T field (R74). -/
def ofT (t : BitVec 3) : Fm :=
  match t.toNat with
  | 0 => .fp32
  | 1 => .bf16
  | 2 => .fp16
  | 3 => .e4m3
  | 4 => .e5m2
  | 5 => .i32
  | 6 => .i16
  | _ => .i8

/-- The local format of an accumulate form (R82). -/
def ofAcc (t : BitVec 3) : Fm :=
  match t.toNat with
  | 0 => .fp32
  | 1 => .bf16
  | 2 => .fp16
  | 3 => .i32
  | 4 => .i64
  | 5 => .n32
  | 6 => .n64
  | _ => .rq32

/-- The wire and sieve set-up formats of R369. -/
def ofWire : Nat → Option Fm
  | 0 => some .fp32
  | 1 => some .bf16
  | 2 => some .fp16
  | 3 => some .e4m3
  | 4 => some .e5m2
  | 5 => some .i16
  | 6 => some .i32
  | 7 => some .n32
  | 8 => some .rq32
  | _ => none

/-- The element types of a sieve word (R368). -/
def ofSieve (t : BitVec 3) : Fm :=
  match t.toNat with
  | 0 => .fp32
  | 1 => .bf16
  | 2 => .fp16
  | 3 => .i32
  | 4 => .i16
  | 5 => .i8
  | _ => .n32

def isFloat : Fm → Bool
  | .fp32 | .bf16 | .fp16 | .e4m3 | .e5m2 => true
  | _ => false

def isBlock : Fm → Bool
  | .b2e8 | .b2e4 => true
  | _ => false

/-- Two's complement integers. -/
def isSigned : Fm → Bool
  | .i8 | .i16 | .i32 | .i64 => true
  | _ => false

/-- Integers of either signedness. -/
def isInt : Fm → Bool
  | .i8 | .i16 | .i32 | .i64 | .n8 | .n16 | .n32 | .n64 => true
  | _ => false

/-- Exponent width of a floating format (R11). -/
def expBits : Fm → Nat
  | .fp32 | .bf16 => 8
  | .fp16 | .e5m2 => 5
  | _ => 4

/-- Fraction width of a floating format (R11). -/
def fracBits : Fm → Nat
  | .fp32 => 23
  | .bf16 => 7
  | .fp16 => 10
  | .e4m3 => 3
  | _ => 2

/-- Exponent bias of a floating format (R11). -/
def bias : Fm → Nat
  | .fp32 | .bf16 => 127
  | .fp16 | .e5m2 => 15
  | _ => 7

/-- The canonical NaN of a floating format (R12 to R14). -/
def nanBits : Fm → Nat
  | .fp32 => 0x7FC00000
  | .bf16 => 0x7FC0
  | .fp16 => 0x7E00
  | .e4m3 => 0x7F
  | .e5m2 => 0x7E
  | _ => 0

/-- The encoding of the largest finite value, sign clear (R12 to R14). -/
def maxBits : Fm → Nat
  | .fp32 => 0x7F7FFFFF
  | .bf16 => 0x7F7F
  | .fp16 => 0x7BFF
  | .e4m3 => 0x7E
  | .e5m2 => 0x7B
  | _ => 0

/-- The encoding of +∞; E4M3 has none and holds its NaN there. -/
def infBits : Fm → Nat
  | .fp32 => 0x7F800000
  | .bf16 => 0x7F80
  | .fp16 => 0x7C00
  | .e5m2 => 0x7C
  | _ => 0x7F

end Fm

/-- Two's complement reading of `n`-bit value `v` (R16). -/
def sgn (n : Nat) (v : Nat) : Int := if v % 2 ^ n < 2 ^ (n - 1) then (v % 2 ^ n : Nat) else (v % 2 ^ n : Nat) - (2 ^ n : Nat)

/-- An integer modulo 2^n (R16, R38). -/
def wrapN (n : Nat) (v : Int) : Nat := (v % (2 ^ n : Nat)).toNat

/-- The least and greatest integers of an integer format; RQ32 is read as the integer of its word. -/
def intLo (f : Fm) : Int := if f.isSigned || f == .rq32 then -(2 ^ (f.bits - 1) : Nat) else 0
def intHi (f : Fm) : Int := if f.isSigned || f == .rq32 then (2 ^ (f.bits - 1) : Nat) - 1 else (2 ^ f.bits : Nat) - 1

/-- An integer clamped to a range (R38). -/
def clampI (n lo hi : Int) : Int := if n < lo then lo else if n > hi then hi else n

namespace Val

def zero (neg : Bool) : Val := .fin neg 0 0 false

def ofInt (n : Int) : Val := if n = 0 then .zero false else .fin (n < 0) n.natAbs 0 false

def isNan : Val → Bool
  | .nan => true
  | _ => false

def isInf : Val → Bool
  | .inf _ => true
  | _ => false

def isZero : Val → Bool
  | .zc => true
  | .fin _ 0 _ more => !more
  | _ => false

def neg : Val → Val
  | .nan => .nan
  | .inf s => .inf (!s)
  | .zc => .zc
  | .fin s m e k => .fin (!s) m e k

/-- Sign bit; a cancelled zero counts as positive. -/
def sign : Val → Bool
  | .inf s => s
  | .fin s _ _ _ => s
  | _ => false

/-- Multiply by a power of two. -/
def scale (x : Val) (k : Int) : Val :=
  match x with
  | .fin s m e more => .fin s m (e + k) more
  | v => v

/-- The signed significand of a finite value at exponent `e0` not above its own. -/
def atExp (s : Bool) (m : Nat) (e e0 : Int) : Int :=
  let n : Int := (m * 2 ^ (e - e0).toNat : Nat)
  if s then -n else n

/-- Exact sum, with NV for ∞ − ∞ (R24 rule 1). -/
def add (x y : Val) : Val × Flags :=
  match x, y with
  | .nan, _ => (.nan, fNone)
  | _, .nan => (.nan, fNone)
  | .inf a, .inf b => if a = b then (.inf a, fNone) else (.nan, fNV)
  | .inf a, _ => (.inf a, fNone)
  | _, .inf b => (.inf b, fNone)
  | .zc, .zc => (.zc, fNone)
  | .zc, .fin s m e k => (if m = 0 && !k then .zc else .fin s m e k, fNone)
  | .fin s m e k, .zc => (if m = 0 && !k then .zc else .fin s m e k, fNone)
  | .fin s m e k, .fin s' m' e' k' =>
    if m = 0 && !k then
      if m' = 0 && !k' then (if s = s' then .zero s else .zc, fNone) else (.fin s' m' e' k', fNone)
    else if m' = 0 && !k' then (.fin s m e k, fNone)
    else
      let e0 := min e e'
      let n := atExp s m e e0 + atExp s' m' e' e0
      (if n = 0 then .zc else .fin (n < 0) n.natAbs e0 false, fNone)

/-- Exact product, with NV for 0 × ∞ (R24 rule 1). -/
def mul (x y : Val) : Val × Flags :=
  match x, y with
  | .nan, _ => (.nan, fNone)
  | _, .nan => (.nan, fNone)
  | .inf a, v => if v.isZero then (.nan, fNV) else (.inf (a != v.sign), fNone)
  | v, .inf b => if v.isZero then (.nan, fNV) else (.inf (v.sign != b), fNone)
  | .fin s m e _, .fin s' m' e' _ => (.fin (s != s') (m * m') (e + e') false, fNone)
  | v, w => (.zero (v.sign != w.sign), fNone)

/-- a · b + c, exact (R131).  Where c is NaN the result is a NaN that passes on, whatever the product is: no flag (R22,
R24 rank 1). -/
def fma (a b c : Val) : Val × Flags :=
  if c.isNan then (.nan, fNone) else
  let (p, f) := mul a b
  let (r, g) := add p c
  (r, f ||| g)

/-- Quotient (R24, R132): DZ for a finite nonzero value over zero. -/
def div (x y : Val) : Val × Flags :=
  match x, y with
  | .nan, _ => (.nan, fNone)
  | _, .nan => (.nan, fNone)
  | .inf _, .inf _ => (.nan, fNV)
  | .inf a, v => (.inf (a != v.sign), fNone)
  | v, .inf b => (.zero (v.sign != b), fNone)
  | v, w =>
    match v, w with
    | .fin s m e _, .fin s' m' e' _ =>
      if m' = 0 then (if m = 0 then (.nan, fNV) else (.inf (s != s'), fDZ))
      else if m = 0 then (.zero (s != s'), fNone)
      else
        let k := 80 + (Nat.log2 m') - min (Nat.log2 m') (Nat.log2 m)
        let n := m * 2 ^ k
        (.fin (s != s') (n / m') (e - e' - k) (n % m' != 0), fNone)
    | v, w => if w.isZero then (if v.isZero then (.nan, fNV) else (.inf (v.sign != w.sign), fDZ))
              else (.zero (v.sign != w.sign), fNone)

/-- Square root (R132). -/
def sqrt (x : Val) : Val × Flags :=
  match x with
  | .nan => (.nan, fNone)
  | .inf true => (.nan, fNV)
  | .inf false => (.inf false, fNone)
  | .zc => (.zc, fNone)
  | .fin s 0 _ _ => (.zero s, fNone)
  | .fin true _ _ _ => (.nan, fNV)
  | .fin false m e _ =>
    -- an even exponent, and enough bits for the root to have 80
    let k : Nat := 160 + (if e % 2 = 0 then 0 else 1)
    let n := m * 2 ^ k
    let r := Nat.sqrt n
    (.fin false r ((e - k) / 2) (r * r != n), fNone)

/-- Compare two values that are not NaN: −1, 0 or 1; zeros of either sign are equal (R135). -/
def cmp (x y : Val) : Int :=
  match x, y with
  | .inf a, .inf b => if a = b then 0 else if a then -1 else 1
  | .inf a, _ => if a then -1 else 1
  | _, .inf b => if b then 1 else -1
  | .fin s m e _, .fin s' m' e' _ =>
    let e0 := min e e'
    let d := atExp s m e e0 - atExp s' m' e' e0
    if d < 0 then -1 else if d > 0 then 1 else 0
  | .fin s m _ _, _ => if m = 0 then 0 else if s then -1 else 1
  | _, .fin s m _ _ => if m = 0 then 0 else if s then 1 else -1
  | _, _ => 0

/-- Floor of log2 of a nonzero finite magnitude. -/
def ilog (m : Nat) (e : Int) : Int := (Nat.log2 m : Int) + e

end Val

/-- Whether a magnitude `n` with remainder `r` of `2^sh` (and possibly more below) rounds up (R20). -/
def roundUp (mode : RMode) (neg : Bool) (n r sh : Nat) (more : Bool) : Bool :=
  match mode.toNat with
  | 0 =>
    if sh = 0 then false
    else r > 2 ^ (sh - 1) || (r == 2 ^ (sh - 1) && (more || n % 2 == 1))
  | 1 => false
  | 2 => neg && (r != 0 || more)
  | _ => !neg && (r != 0 || more)

/-- A finite magnitude rounded to a multiple of 2^q: the multiple, and whether it is inexact. -/
def roundAt (mode : RMode) (neg : Bool) (m : Nat) (e : Int) (more : Bool) (q : Int) : Nat × Bool :=
  if q ≤ e then (m * 2 ^ (e - q).toNat, more)
  else
    let sh := (q - e).toNat
    let n := m / 2 ^ sh
    let r := m % 2 ^ sh
    (if roundUp mode neg n r sh more then n + 1 else n, r != 0 || more)

/-- The value of an encoding (R11 to R18); block elements are read with their header by `blockVal`. -/
def valOf (f : Fm) (x : Nat) : Val :=
  if f.isFloat then
    let fb := f.fracBits
    let s := x / 2 ^ (fb + f.expBits) % 2 == 1
    let ex := x / 2 ^ fb % 2 ^ f.expBits
    let fr := x % 2 ^ fb
    if ex = 2 ^ f.expBits - 1 && f != .e4m3 then (if fr = 0 then .inf s else .nan)
    else if f == .e4m3 && ex = 15 && fr = 7 then .nan
    else if ex = 0 then .fin s fr (1 - (f.bias : Int) - fb) false
    else .fin s (2 ^ fb + fr) ((ex : Int) - f.bias - fb) false
  else if f == .rq32 then
    (Val.ofInt (sgn 32 x)).scale (-24)
  else if f.isSigned then .ofInt (sgn f.bits x)
  else .ofInt (x % 2 ^ f.bits : Nat)

/-- A NaN of a floating format with the sign given (R24 rule 3 keeps the sign in E4M3). -/
def withSign (f : Fm) (neg : Bool) (x : Nat) : Nat := if neg then x + 2 ^ (f.bits - 1) else x

/-- What an infinite result becomes in a floating format (R22, R24).  DESIGN CHOICE: the infinite quotient of a finite
number and zero raises SA and no OF or NX under saturation (log entry 82). -/
def infTo (f : Fm) (neg sat : Bool) : Nat × Flags :=
  if sat then (withSign f neg f.maxBits, fSA)
  else if f == .e4m3 then (withSign f neg f.nanBits, fNV)
  else (withSign f neg f.infBits, fNone)

/-- What an overflowing finite result becomes (R22, R24, R25). -/
def overflowTo (f : Fm) (mode : RMode) (neg sat : Bool) : Nat × Flags :=
  if sat then (withSign f neg f.maxBits, fSA ||| fOF ||| fNX)
  else if mode.toNat = 1 || (mode.toNat = 2 && !neg) || (mode.toNat = 3 && neg) then
    (withSign f neg f.maxBits, fOF ||| fNX)
  else if f == .e4m3 then (withSign f neg f.nanBits, fOF ||| fNX)
  else (withSign f neg f.infBits, fOF ||| fNX)

/-- The one rounding of an exact value into a floating format (R20, R24, R25, R38). -/
def roundF (f : Fm) (v : Val) (mode : RMode) (sat : Bool) : Nat × Flags :=
  match v with
  | .nan => (f.nanBits, fNone)
  | .inf s => infTo f s sat
  | .zc => (withSign f (mode.toNat = 2) 0, fNone)
  | .fin s m e more =>
    if m = 0 && !more then (withSign f s 0, fNone)
    else
      let fb := f.fracBits
      let emin : Int := 1 - f.bias
      let q := max (Val.ilog m e - fb) (emin - fb)
      let (n, ix) := roundAt mode s m e more q
      -- a carry out of the significand only doubles the quantum
      let q' := if n = 2 ^ (fb + 1) then q + 1 else q
      let n' := if n = 2 ^ (fb + 1) then 2 ^ fb else n
      let ex : Int := if n' < 2 ^ fb then 0 else q' + fb + f.bias
      let top : Int := if f == .e4m3 then 15 else 2 ^ f.expBits - 2
      if ex > top || (f == .e4m3 && ex = 15 && n' = 15) then overflowTo f mode s sat
      else
        let x := if n' < 2 ^ fb then n' else ex.toNat * 2 ^ fb + (n' - 2 ^ fb)
        (withSign f s x, if ix then (if n' < 2 ^ fb then fNX ||| fUF else fNX) else fNone)

/-- An exact value rounded to an integer by mode, and whether it is inexact. -/
def roundI (s : Bool) (m : Nat) (e : Int) (more : Bool) (mode : RMode) : Int × Bool :=
  let (n, ix) := roundAt mode s m e more 0
  (if s then -(n : Int) else n, ix)

/-- A value that is not an integer encoding, converted to an integer format (R27): it clamps with NV and SA. -/
def roundToInt (f : Fm) (v : Val) (mode : RMode) : Nat × Flags :=
  match v with
  | .nan => (0, fNV)
  | .inf s => (wrapN f.bits (if s then intLo f else intHi f), fNV ||| fSA)
  | .zc => (0, fNone)
  | .fin s m e more =>
    let (n, ix) := roundI s m e more mode
    if n < intLo f || n > intHi f then (wrapN f.bits (clampI n (intLo f) (intHi f)), fNV ||| fSA)
    else (wrapN f.bits n, if ix then fNX else fNone)

/-- ToRQ32 of R38. -/
def toRQ32 (v : Val) (mode : RMode) : Nat × Flags := roundToInt .rq32 (v.scale 24) mode

/-- The one rounding of an exact value into a non-block format (R27, R38). -/
def roundTo (f : Fm) (v : Val) (mode : RMode) (sat : Bool) : Nat × Flags :=
  if f.isFloat then roundF f v mode sat
  else if f == .rq32 then toRQ32 v mode
  else roundToInt f v mode

/-- An exact integer taken into an integer format: modulo 2^n, or clamped with SA (R16, R27). -/
def intTo (f : Fm) (n : Int) (sat : Bool) : Nat × Flags :=
  if sat && (n < intLo f || n > intHi f) then (wrapN f.bits (clampI n (intLo f) (intHi f)), fSA)
  else (wrapN f.bits n, fNone)

/-- The integer an integer encoding holds. -/
def intVal (f : Fm) (x : Nat) : Int :=
  if f.isSigned || f == .rq32 then sgn f.bits x else (x % 2 ^ f.bits : Nat)

/-- Conversion of one element between non-block formats (R27). -/
def convert (src dst : Fm) (x : Nat) (mode : RMode) (sat : Bool) : Nat × Flags :=
  if src.isInt && dst.isInt then intTo dst (intVal src x) sat
  else if src == .rq32 && dst == .rq32 then (x % 2 ^ 32, fNone)
  else
    let v := valOf src x
    match v with
    | .nan => if dst.isFloat then (dst.nanBits, fNone) else (0, fNV)
    | _ => roundTo dst v mode sat

/-- The value of a block element under header E and D (R18). -/
def blockVal (f : Fm) (x hdr : Nat) : Val :=
  let fw : Nat := if f == .b2e8 then 6 else 2
  let ex := hdr % 256
  let d := hdr / 256 % 16
  if ex = 255 then .nan
  else
    let m := x % 2 ^ fw
    let sel := x / 2 ^ fw % 2
    .fin (x / 2 ^ (fw + 1) % 2 == 1) m ((ex : Int) - 127 - sel * d - fw) false

/-- One element of a block of header E, shift D (R28): its bits and flags. -/
def blockElem (fw : Nat) (e : Int) (d : Nat) (clamped : Bool) (mode : RMode) (v : Val) : Nat × Flags :=
  let top := 2 ^ fw - 1
  let put (s : Bool) (sel m : Nat) : Nat := (if s then 2 ^ (fw + 1) else 0) + sel * 2 ^ fw + m
  match v with
  | .inf s => (put s 0 top, fSA)
  | .fin s m ex more =>
    let q1 : Int := e - 127 - d - fw
    -- sel is 1 when |x| / 2^q1 < top + 1/2, that is when 2|x| / 2^q1 < 2·top + 1
    let fits := m = 0 || (if q1 ≤ ex + 1 then m * 2 ^ (ex + 1 - q1).toNat < 2 * top + 1
                          else m / 2 ^ (q1 - ex - 1).toNat < 2 * top + 1)
    let sel : Nat := if d > 0 && fits then 1 else 0
    let (n, ix) := roundAt mode s m ex more (e - 127 - sel * d - fw)
    let fl := (if ix then fNX else fNone) ||| (if n = 0 && m != 0 then fUF else fNone)
    if n > top then (put s sel top, fl ||| fNX ||| (if clamped then fSA ||| fOF else fNone))
    else (put s sel n, fl)
  | _ => (0, fNone)

/-- A block of values converted to a block format (R28): the header, the element bits, the flags.  DESIGN CHOICE: a NaN
block holds 0 in every element and D in its header (log entry 81). -/
def toBlock (f : Fm) (d : Nat) (xs : List Val) (mode : RMode) (sat : Bool) : Nat × List Nat × Flags :=
  let fw := if f == .b2e8 then 6 else 2
  let hdr (e : Nat) : Nat := d * 256 + e
  let blank := xs.map fun _ => 0
  if xs.any Val.isNan then (hdr 255, blank, fNone)
  else if xs.any Val.isInf && !sat then (hdr 255, blank, fNV)
  else if xs.all Val.isZero then
    (hdr 0, xs.map fun v => if v.sign then 2 ^ (fw + 1) else 0, fNone)
  else
    let emax : Int := xs.foldl (fun a v => match v with
      | .fin _ m e _ => if m = 0 then a else max a (Val.ilog m e)
      | _ => a) (-10000)
    let exceeds := emax + 128 > 254
    if !xs.any Val.isInf && exceeds && !sat then (hdr 255, blank, fOF ||| fNX)
    else
      let clamped := xs.any Val.isInf || exceeds
      let e := if clamped then 254 else max (emax + 128) 0
      let rs := xs.map (blockElem fw e d clamped mode)
      (hdr e.toNat, rs.map (·.1), rs.foldl (fun a r => a ||| r.2) fNone)

/-- The maximum or minimum of two elements by value (R131): a NaN gives the canonical NaN. -/
def minMax (f : Fm) (isMax : Bool) (x y : Nat) : Nat :=
  if f.isFloat then
    let a := valOf f x
    let b := valOf f y
    if a.isNan || b.isNan then f.nanBits
    else
      let c := a.cmp b
      if c = 0 then
        -- equal values: zeros of opposite sign are told apart
        (if a.sign == b.sign then x else if a.sign == isMax then y else x)
      else if (c > 0) == isMax then x else y
  else
    let c := intVal f x - intVal f y
    if (c ≥ 0) == isMax then x else y

/-- Addition of two elements of a format (R16, R17, R20): floating sums round once, integers wrap or clamp. -/
def addF (f : Fm) (x y : Nat) (mode : RMode) (sat : Bool) : Nat × Flags :=
  if f.isFloat then
    let (v, fl) := (valOf f x).add (valOf f y)
    let (r, fl') := roundF f v mode sat
    (r, fl ||| fl')
  else intTo f (intVal f x + intVal f y) sat

/-- The pairwise tree of R32 over elements that may be absent (R33). -/
def treeStep (op : Nat → Nat → Nat × Flags) : List (Option Nat) → List (Option Nat) × Flags
  | a :: b :: l =>
    let (rest, fl) := treeStep op l
    match a, b with
    | some x, some y => let (r, g) := op x y; (some r :: rest, fl ||| g)
    | some x, none => (some x :: rest, fl)
    | none, y => (y :: rest, fl)
  | l => (l, fNone)

/-- The tree of R32, level by level; `fuel` levels suffice for 2^fuel elements. -/
def treeFold (op : Nat → Nat → Nat × Flags) : Nat → List (Option Nat) → Option Nat × Flags
  | 0, l => (l.headD none, fNone)
  | n + 1, l =>
    let (l', fl) := treeStep op l
    let (r, fl') := treeFold op n l'
    (r, fl ||| fl')

/-- The left fold of R34: the running values, with an element that takes no part given as `none`. -/
def scanFold (op : Nat → Nat → Nat × Flags) : Nat → List (Option Nat) → List Nat × Flags
  | _, [] => ([], fNone)
  | c, none :: l => let (r, fl) := scanFold op c l; (c :: r, fl)
  | c, some x :: l =>
    let (y, fl) := op c x
    let (r, fl') := scanFold op y l
    (y :: r, fl ||| fl')

/-- The result of a tree whose members are all absent (R33). -/
def emptySum (_f : Fm) : Nat := 0
def emptyMax (f : Fm) : Nat := if f.isFloat then withSign f true f.infBits else wrapN f.bits (intLo f)
def emptyMin (f : Fm) : Nat := if f.isFloat then f.infBits else wrapN f.bits (intHi f)

/-- The carry of the first piece of a scan (R34): −0 for a floating sum, 0 otherwise. -/
def scanZero (f : Fm) : Nat := if f.isFloat then withSign f true 0 else 0

/-! ### The leaf adder (R29) -/

/-- One product of a multiply group: not a number, 0 × ∞ (which raises NV), an infinity, or P·2^X. -/
inductive Prod where
  | nan
  | bad
  | inf (neg : Bool)
  | fin (p : Int) (x : Int)
deriving DecidableEq, Repr

/-- The product of two elements as an integer significand and an exponent (R29). -/
def prodOf (a b : Val) : Prod :=
  if a.isNan || b.isNan then .nan
  else
    match a, b with
    | .fin s m e _, .fin s' m' e' _ =>
      let p : Int := (m * m' : Nat)
      .fin (if s != s' then -p else p) (e + e')
    | _, _ => if a.isZero || b.isZero then .bad else .inf (a.sign != b.sign)

/-- AlignTrunc of R38: the sum of the aligned, truncated terms and the exponent of its unit. -/
def alignTrunc (fw : Nat) (ps : List (Int × Int)) : Int × Int :=
  let nz := ps.filter fun p => p.1 != 0
  match nz with
  | [] => (0, 0)
  | p :: l =>
    let xm := l.foldl (fun a q => max a q.2) p.2
    let term (q : Int × Int) : Int :=
      let k := q.2 - xm + fw
      if 0 ≤ k then q.1 * (2 ^ k.toNat : Nat) else q.1 / (2 ^ (-k).toNat : Nat)
    (nz.foldl (fun a q => a + term q) 0, xm - fw)

/-- A multiply group: its value after the adder, the exact sum of its products, its NV flag. -/
structure Group where
  v : Val
  exact : Val
  fl : Flags
deriving DecidableEq, Repr

/-- A signed integer in units of 2^e. -/
def intVal2 (s : Int) (e : Int) : Val := if s = 0 then .zero false else .fin (s < 0) s.natAbs e false

/-- The exact sum of finite products (R30, R236). -/
def exactSum (fs : List (Int × Int)) : Val :=
  let x0 := fs.foldl (fun a (q : Int × Int) => min a q.2) 0
  intVal2 (fs.foldl (fun a (q : Int × Int) => a + q.1 * (2 ^ (q.2 - x0).toNat : Nat)) 0) x0

/-- The value of a multiply group (R29); `fw` is `none` for a group summed exactly (R30). -/
def groupVal (fw : Option Nat) (ps : List Prod) : Group :=
  let infs := ps.filterMap fun p => match p with
    | .inf s => some s
    | _ => none
  let nv := ps.any (· == .bad) || (infs.any id && infs.any (!·))
  let fl := if nv then fNV else fNone
  if nv || ps.any (· == .nan) then { v := .nan, exact := .nan, fl := fl }
  else
    match infs with
    | s :: _ => { v := .inf s, exact := .inf s, fl := fl }
    | [] =>
      let fs := ps.filterMap fun p => match p with
        | .fin p x => some (p, x)
        | _ => none
      let ex := exactSum fs
      match fw with
      | some w => let (s, e) := alignTrunc w fs; { v := intVal2 s e, exact := ex, fl := fl }
      | none => { v := ex, exact := ex, fl := fl }

/-- A group entering an FP32 accumulator (R31): one rounding to nearest even; a zero group leaves it as it stands.  NX
and UF compare what is stored with the exact sum of the products, before the adder truncates them (R22, 09_prog_fp8_dot
R236). -/
def accumulate (c : Nat) (g : Group) (sat : Bool) : Nat × Flags :=
  let (r, fl) : Nat × Flags := match g.v with
    | .fin _ 0 _ _ => (c, fNone)
    | v =>
      let (s, fl) := (valOf .fp32 c).add v
      let (r, fl') := roundF .fp32 s 0 sat
      (r, fl ||| fl')
  let cut := !g.v.isNan && !g.v.isInf && g.v.cmp g.exact != 0
  if cut && !(valOf .fp32 c).isNan && !(valOf .fp32 c).isInf && !fl.getLsbD 2 then
    let whole := ((valOf .fp32 c).add g.exact).1
    let inexact := (valOf .fp32 r).cmp whole != 0
    let tiny := if r % 2 ^ 31 = 0 then (roundF .fp32 whole 0 sat).2 &&& fUF != fNone else decide (r % 2 ^ 31 < 2 ^ 23)
    (r, g.fl ||| (if inexact then (if tiny then fNX ||| fUF else fNX) else fNone))
  else (r, g.fl ||| fl)

/-! ### Fingerprint64 (R38): CRC-64 of ECMA-182, not reflected -/

def crcBit (c : BitVec 64) : BitVec 64 :=
  if c.getLsbD 63 then (c <<< 1) ^^^ 0x42F0E1EBA9EA3693 else c <<< 1

def crcBits : Nat → BitVec 64 → BitVec 64
  | 0, c => c
  | n + 1, c => crcBits n (crcBit c)

/-- Fold bytes into a running fingerprint. -/
def fingerprint (c : BitVec 64) : List Byte → BitVec 64
  | [] => c
  | b :: bs => fingerprint (crcBits 8 (c ^^^ (b.zeroExtend 64 <<< 56))) bs

end Sys2Proof
end

