-- ==== Sys2Proof/Machine/Func.lean ====
section
/-!
DEFINITION. The functions whose exact results are not rational: 2^a and log2 a (05_vector_tile_isa R132), and the
normal distribution and density of the ReLU rule (06_matrix_moment_isa R188).  Each is enclosed between two fixed-point
numbers whose precision grows until both agree to well over FP32's precision; the value returned carries `more`, so the
one rounding that follows is the rounding of the exact result.
-/

namespace Sys2Proof

/-- An enclosure: a lower and an upper bound in units of 2^−p, with p fixed by context. -/
structure Encl where
  lo : Int
  hi : Int
deriving DecidableEq, Repr

namespace Encl

/-- Floor and ceiling of a quotient by 2^p. -/
def downShift (p : Nat) (n : Int) : Int := n / (2 ^ p : Nat)
def upShift (p : Nat) (n : Int) : Int := -((-n) / (2 ^ p : Nat))

def add (x y : Encl) : Encl := { lo := x.lo + y.lo, hi := x.hi + y.hi }

def neg (x : Encl) : Encl := { lo := -x.hi, hi := -x.lo }

def sub (x y : Encl) : Encl := x.add y.neg

def mul (p : Nat) (x y : Encl) : Encl :=
  let a := x.lo * y.lo
  let b := x.lo * y.hi
  let c := x.hi * y.lo
  let d := x.hi * y.hi
  { lo := downShift p (min (min a b) (min c d)), hi := upShift p (max (max a b) (max c d)) }

def divNat (x : Encl) (n : Nat) : Encl := { lo := x.lo / n, hi := -((-x.hi) / n) }

/-- An integer number of units of 2^−p scaled from a rational n / d, d positive. -/
def ofRat (p : Nat) (n : Int) (d : Nat) : Encl :=
  { lo := n * (2 ^ p : Nat) / d, hi := -((-(n * (2 ^ p : Nat))) / d) }

/-- m · 2^e, e of either sign. -/
def ofDyad (p : Nat) (n : Int) (e : Int) : Encl :=
  if 0 ≤ e then ofRat p (n * (2 ^ e.toNat : Nat)) 1 else ofRat p n (2 ^ (-e).toNat)

end Encl

/-- Terms 1/(k·2^k) of ln 2, from k downward. -/
def ln2Sum (p : Nat) : Nat → Encl
  | 0 => { lo := 0, hi := 1 }
  | k + 1 => (Encl.ofRat p 1 ((k + 1) * 2 ^ (k + 1))).add (ln2Sum p k)

/-- ln 2 to p bits: the tail past p + 2 terms is below one unit. -/
def ln2 (p : Nat) : Encl := ln2Sum p (p + 2)

/-- Σ y^k / k! from term `t` of index `k` on. -/
def expSum (p : Nat) (y : Encl) : Nat → Nat → Encl → Encl → Encl
  | 0, _, _, acc => { lo := acc.lo, hi := acc.hi + 1 }
  | n + 1, k, t, acc =>
    let t' := (t.mul p y).divNat (k + 1)
    expSum p y n (k + 1) t' (acc.add t')

/-- e^y for y between 0 and 1, p bits. -/
def expSmall (p : Nat) (y : Encl) : Encl :=
  let one : Encl := { lo := 2 ^ p, hi := 2 ^ p }
  expSum p y (p + 4) 0 one one

/-- The 48-bit truncation of a positive enclosure where both bounds agree on it: significand and exponent. -/
def agree (p : Nat) (x : Encl) : Option (Nat × Int) :=
  if x.lo ≤ 0 then none
  else
    let l := Nat.log2 x.lo.toNat
    if l < 48 then none
    else
      let sh := l - 47
      let a := x.lo.toNat / 2 ^ sh
      let b := x.hi.toNat / 2 ^ sh
      if a = b then some (a, (sh : Int) - p) else none

/-- The first precision of a list at which an enclosure decides; the lower bound of the last one otherwise. -/
def decideAt (f : Nat → Encl) : List Nat → Val
  | [] => .fin false 1 (-2000) true
  | [p] =>
    match agree p (f p) with
    | some (m, e) => .fin false m e true
    | none => .fin false (f p).lo.toNat (-(p : Int)) true
  | p :: ps =>
    match agree p (f p) with
    | some (m, e) => .fin false m e true
    | none => decideAt f ps

/-- 2^a (R132). -/
def exp2V (x : Val) : Val :=
  match x with
  | .nan => .nan
  | .inf s => if s then .zero false else .inf false
  | .zc => .ofInt 1
  | .fin s m e _ =>
    if m = 0 then .ofInt 1
    else
      let n : Int := if s then -(m : Int) else m
      -- beyond these bounds every rounding is that of an overflow or of the least positive value
      if Val.ilog m e ≥ 12 then (if s then .fin false 1 (-2000) true else .fin false 1 2000 true)
      else
        let d : Nat := if e < 0 then 2 ^ (-e).toNat else 1
        let num : Int := if e < 0 then n else n * (2 ^ e.toNat : Nat)
        let k : Int := num / d
        let r : Int := num - k * d
        if r = 0 then .fin false 1 k false
        else
          (decideAt (fun p => expSmall p ((Encl.ofRat p r d).mul p (ln2 p))) [80, 160, 400]).scale k

/-- Bits of log2 of y in [1, 2) by repeated squaring on an enclosure of p bits; `none` when the bounds part. -/
def log2Bits (p : Nat) : Nat → Nat → Encl → Option Nat
  | 0, acc, _ => some acc
  | n + 1, acc, y =>
    let z := y.mul p y
    let two : Int := 2 ^ (p + 1)
    if z.lo ≥ two then log2Bits p n (2 * acc + 1) { lo := z.lo / 2, hi := -((-z.hi) / 2) }
    else if z.hi < two then log2Bits p n (2 * acc) z
    else none

/-- The first precision at which the bits of log2 are decided. -/
def log2At (m : Nat) (l : Nat) : List Nat → Nat
  | [] => 0
  | p :: ps =>
    match log2Bits p 100 0 (Encl.ofRat p m (2 ^ l)) with
    | some b => b
    | none => log2At m l ps

/-- log2 of a positive finite value (R132). -/
def log2Pos (m : Nat) (e : Int) : Val :=
  let l := Nat.log2 m
  let n : Int := l + e
  if m = 2 ^ l then (if n = 0 then .zero false else .ofInt n)
  else
    let t : Int := n * (2 ^ 100 : Nat) + log2At m l [260, 400, 800]
    if 0 ≤ t then .fin false t.toNat (-100) true else .fin true (-t - 1).toNat (-100) true

/-- The table of R132: each function's value and the flags its special operands raise. -/
def vsqrtV (x : Val) : Val × Flags := x.sqrt

def vrcpV (x : Val) : Val × Flags :=
  match x with
  | .nan => (.nan, fNone)
  | .inf s => (.zero s, fNone)
  | v => Val.div (.ofInt 1) v

def vrsqV (x : Val) : Val × Flags :=
  match x with
  | .nan => (.nan, fNone)
  | .inf s => if s then (.nan, fNV) else (.zero false, fNone)
  | .zc => (.inf false, fDZ)
  | .fin s m e _ =>
    if m = 0 then (.inf s, fDZ)
    else if s then (.nan, fNV)
    else
      -- 1/√(m·2^e) with e made even: √(2^(2k)/m') at 2^(−k)
      let m' := if e % 2 = 0 then m else 2 * m
      let e' := if e % 2 = 0 then e else e - 1
      let k := 60 + Nat.log2 m'
      let q := 2 ^ (2 * k) / m'
      let r := Nat.sqrt q
      (.fin false r (-(k : Int) - e' / 2) (r * r * m' != 2 ^ (2 * k)), fNone)

def vexp2V (x : Val) : Val × Flags := (exp2V x, fNone)

def vlog2V (x : Val) : Val × Flags :=
  match x with
  | .nan => (.nan, fNone)
  | .inf s => if s then (.nan, fNV) else (.inf false, fNone)
  | .zc => (.inf true, fDZ)
  | .fin s m e _ =>
    if m = 0 then (.inf true, fDZ) else if s then (.nan, fNV) else (log2Pos m e, fNone)

/-! ### The normal distribution (R188) -/

/-- e^y for y ≥ 0 of any size: the square of the half, `n` times. -/
def expBig (p : Nat) : Nat → Encl → Encl
  | 0, y => expSmall p y
  | n + 1, y =>
    let h := expBig p n { lo := y.lo / 2, hi := -((-y.hi) / 2) }
    h.mul p h

/-- Reciprocal of an enclosure of numbers ≥ 1. -/
def reciprocal (p : Nat) (x : Encl) : Encl :=
  { lo := (2 ^ (2 * p) : Nat) / x.hi, hi := -((-(2 ^ (2 * p) : Nat) : Int) / x.lo) }

/-- Terms of arctan(1/k) from index n down, alternating in sign. -/
def arctanSum (p : Nat) (k : Nat) : Nat → Encl
  | 0 => { lo := -1, hi := 1 }
  | n + 1 =>
    let t := Encl.ofRat p (if n % 2 = 0 then 1 else -1) ((2 * n + 1) * k ^ (2 * n + 1))
    t.add (arctanSum p k n)

/-- π by 16·arctan(1/5) − 4·arctan(1/239). -/
def piE (p : Nat) : Encl :=
  let a := arctanSum p 5 (p / 4 + 4)
  let b := arctanSum p 239 (p / 15 + 4)
  { lo := 16 * a.lo - 4 * b.hi, hi := 16 * a.hi - 4 * b.lo }

/-- 1/√(2π). -/
def invSqrt2Pi (p : Nat) : Encl :=
  let t := piE p
  let r (n : Int) : Int := (Nat.sqrt ((2 * n).toNat * 2 ^ p) : Nat)
  reciprocal p { lo := r t.lo, hi := r t.hi + 1 }

/-- φ(α), α given by an enclosure of |α| below 64. -/
def densityE (p : Nat) (a : Encl) : Encl :=
  let h := (a.mul p a)
  let y : Encl := { lo := max (h.lo / 2) 0, hi := -((-h.hi) / 2) }
  (invSqrt2Pi p).mul p (reciprocal p (expBig p 12 y))

/-- Σ x^(2k+1)/(2k+1)!! from term t on. -/
def oddSum (p : Nat) (x2 : Encl) : Nat → Nat → Encl → Encl → Encl
  | 0, _, t, acc => { lo := acc.lo, hi := acc.hi + t.hi + 1 }
  | n + 1, k, t, acc =>
    let t' := (t.mul p x2).divNat (2 * k + 3)
    oddSum p x2 n (k + 1) t' (acc.add t')

/-- Φ(α) for α of either sign, from |α| (below 64). -/
def distE (p : Nat) (neg : Bool) (a : Encl) : Encl :=
  let s := oddSum p (a.mul p a) (2 * p + 5000) 0 a a
  let t := (densityE p a).mul p s
  let half : Encl := { lo := 2 ^ (p - 1), hi := 2 ^ (p - 1) }
  if neg then half.sub t else half.add t

/-- The signed enclosure of a finite value. -/
def dyadE (p : Nat) (v : Val) : Encl :=
  match v with
  | .fin s m e _ => Encl.ofDyad p (if s then -(m : Int) else m) e
  | _ => { lo := 0, hi := 0 }

/-- μ·Φ(α) + s·φ(α), α = μ/s, and (μ² + s²)·Φ(α) + μ·s·φ(α) − mean², for finite μ and finite s > 0. -/
def reluE (p : Nat) (mu s : Val) : Encl × Encl :=
  let m := dyadE p mu
  let d := dyadE p s
  let a : Encl :=
    match mu, s with
    | .fin _ m1 e1 _, .fin _ m2 e2 _ =>
      if e2 ≤ e1 then Encl.ofRat p (m1 * 2 ^ (e1 - e2).toNat : Nat) m2
      else Encl.ofRat p m1 (m2 * 2 ^ (e2 - e1).toNat)
    | _, _ => { lo := 0, hi := 0 }
  let f := densityE p a
  let g := distE p mu.sign a
  let mean := (m.mul p g).add (d.mul p f)
  let var := (((m.mul p m).add (d.mul p d)).mul p g).add ((m.mul p d).mul p f)
  (mean, var.sub (mean.mul p mean))

/-- The mean and variance of ReLU for finite μ and finite s > 0, exact up to their one rounding (R188).  Where |α| is 40
or more, Φ and φ differ from their limits by less than any rounding can see. -/
def reluV (mu s : Val) : Val × Val :=
  match mu, s with
  | .fin neg m e _, .fin _ m2 e2 _ =>
    let far := m != 0 && (if e2 ≤ e then m * 2 ^ (e - e2).toNat ≥ 40 * m2 else m ≥ 40 * m2 * 2 ^ (e2 - e).toNat)
    if far then
      if neg then (.fin false 1 (-1000) true, .fin false 1 (-1000) true)
      else (.fin false (m * 2 ^ 80) (e - 80) true, .fin false (m2 * m2 * 2 ^ 80 - 1) (2 * e2 - 80) true)
    else
      -- scaled so that s lies between 1/2 and 1: the rule is homogeneous in (μ, s)
      let k := Val.ilog m2 e2 + 1
      let f (p : Nat) := reluE p (mu.scale (-k)) (s.scale (-k))
      ((decideAt (fun p => (f p).1) [200, 800, 1600]).scale k, (decideAt (fun p => (f p).2) [200, 800, 1600]).scale (2 * k))
  | _, _ => (.nan, .nan)

end Sys2Proof
end

