-- ==== Sys2Proof/WellFormed.lean ====
section
/-!
DEFINITION. Which instruction words are legal encodings (03_encodings R64, R8): no reserved or unused field is nonzero,
no code is marked illegal, and every register field names a register that exists.  A word outside raises cause 0x01 at
its issue edge.  Limits that a kernel's header sets (11_kernels R242) are not encodings and are tested at issue.
-/

namespace Sys2Proof

/-- A broadcast scalar is named only where the broadcast is enabled (R64: an unused field is zero). -/
def bcOk (be : BitVec 1) (bc : BitVec 6) : Bool := be == 1 || bc == 0

/-- The legal codes of the RQ field (R74). -/
def rqOk (rq : BitVec 3) : Bool := rq == 0 || rq.toNat ≥ 4

/-- A modifier whose SEL is 0b00 (R61). -/
def selZero (m : BitVec 4) : Bool := m.toNat < 4

/-- The element types that are floating (R74). -/
def tFloat (t : BitVec 3) : Bool := t.toNat < 5

namespace VR

/-- Position A reads a vector register below `lim`, without SEL. -/
def aReg (f : VR) : Bool := f.va.toNat < 48 && selZero f.ma

/-- Position B reads a vector register, or the broadcast in its place (R75). -/
def bReg (f : VR) : Bool :=
  if f.be == 1 then f.vb == 0 && f.mb == 0 && !f.hold.getLsbD 1
  else f.vb.toNat < 48 && selZero f.mb && f.bc == 0

/-- Position C reads a vector register. -/
def cReg (f : VR) : Bool := f.vc.toNat < 48 && selZero f.mc

/-- Position A, B or C and its modifier and hold bit are unused. -/
def aNone (f : VR) : Bool := f.va == 0 && f.ma == 0 && !f.hold.getLsbD 2
def bNone (f : VR) : Bool := f.vb == 0 && f.mb == 0 && !f.hold.getLsbD 1
def cNone (f : VR) : Bool := f.vc == 0 && f.mc == 0 && !f.hold.getLsbD 0

/-- No broadcast. -/
def noBc (f : VR) : Bool := f.be == 0 && f.bc == 0

/-- Neither a rounding qualifier nor a saturation qualifier. -/
def noRq (f : VR) : Bool := f.rq == 0 && f.sat == 0

/-- The destination names a vector register. -/
def dReg (f : VR) : Bool := f.vd.toNat < 48

/-- Two sources, A and B, no C. -/
def two (f : VR) : Bool := f.dReg && f.aReg && f.bReg && f.cNone

/-- One source, A. -/
def one (f : VR) : Bool := f.dReg && f.aReg && f.bNone && f.cNone && f.noBc

/-- Rounding and saturation of an arithmetic group on type `t`: an integer type takes no rounding qualifier (R131). -/
def arith (f : VR) (t : BitVec 3) : Bool := if tFloat t then rqOk f.rq else f.rq == 0

/-- The rules common to the moment words: no modifier, no hold, no rounding qualifier (R186, R189). -/
def moment (f : VR) : Bool := f.ma == 0 && f.mb == 0 && f.mc == 0 && f.hold == 0 && f.rq == 0

/-- A moment word that takes neither the C field nor the broadcast. -/
def momentTwo (f : VR) : Bool :=
  f.moment && f.noBc && f.vc == 0 && f.vd.toNat < 16 && f.va.toNat < 16 && f.vb.toNat < 16

/-- The fields of QCOL with code `c` (R190). -/
def qcol (f : VR) (c : BitVec 6) : Bool :=
  f.moment && f.noBc && f.vc == c && f.vb == 0 && f.sat == 0 && f.dReg && f.va.toNat < 16

/-- The fields of the mask group (R135). -/
def mask (f : VR) : Bool :=
  f.vd.toNat < 8 && f.va.toNat < 8 && f.vb.toNat < 8 && f.vc == 0 && f.ma == 0 && f.mb == 0 && f.mc == 0 &&
    f.km == 0 && f.noBc && f.noRq && f.hold == 0

/-- The width in bits of a format code of R52 that VCVT takes, 0 for any other code (R136). -/
def cvtWidth (c : BitVec 6) : Nat :=
  match c.toNat with
  | 0x00 | 0x0A | 0x0E | 0x10 => 32
  | 0x01 | 0x02 | 0x09 | 0x0D => 16
  | 0x03 | 0x04 | 0x08 | 0x0C => 8
  | _ => 0

/-- The fields of VCVT: the two codes are legal and the modifiers fit the widths (R136). -/
def cvt (f : VR) : Bool :=
  let wd := cvtWidth f.vb
  let ws := cvtWidth f.vc
  f.dReg && f.va.toNat < 48 && wd != 0 && ws != 0 && f.mb == 0 && !f.hold.getLsbD 1 && !f.hold.getLsbD 0 && f.noBc &&
    rqOk f.rq && f.mc.toNat % 4 == 0 &&
    (if wd > ws then f.mc == 0 else selZero f.ma && (wd != ws || f.mc == 0))

end VR

namespace VM

/-- A reserved bit of the memory format is zero and the broadcast is named only where enabled. -/
def base (f : VM) : Bool := f.res == 0 && bcOk f.be f.bc

end VM

namespace VT

/-- The fields of TCFG (R147). -/
def cfg (f : VT) : Bool :=
  f.v == 0 && f.dir == 0 && f.idx == 0 && f.km == 0 && f.res == 0 && f.res2 == 0

/-- The shape fields and reserved bits of the other tile instructions (R148). -/
def plain (f : VT) : Bool := f.rows == 0 && f.cols == 0 && f.zr == 0 && f.res == 0 && f.res2 == 0

end VT

namespace VC

/-- Reserved bits of the control format. -/
def base (f : VC) : Bool := f.res == 0 && f.res2 == 0

end VC

namespace MX

/-- Reserved bits, level and broadcast of an operation word (R77). -/
def base (f : MX) : Bool := f.res == 0 && f.lvl.toNat < 6 && bcOk f.be f.bc

/-- The fields of a multiply form (R162): movable only when asynchronous (R77). -/
def mul (f : MX) : Bool := f.base && f.rq == 0 && f.sat == 0 && (f.mov == 0 || f.asy == 1)

/-- The fields no drain, zero or load form uses (R162). -/
def notMul (f : MX) : Bool := f.base && f.db == 0 && f.tb == 0 && f.ga == 0 && f.asy == 0 && f.mov == 0 && f.tsm == 0

end MX

namespace MC

/-- Reserved bits of the control format. -/
def base (f : MC) : Bool := f.res == 0 && f.res2 == 0

end MC

namespace LW

/-- Scope, barrier and completion-word fields (R72, R81). -/
def base (f : LW) : Bool :=
  f.sco.toNat < 10 &&
    (if f.ba == 1 then f.bdie == 1 || f.bid.toNat < 16 else f.bdie == 0 && f.bid == 0)

/-- A completion-word tensor is named only with CW. -/
def cwOk (f : LW) : Bool := f.cw == 1 || (f.dc == 0 && f.offc == 0)

/-- A one-dimensional move without accumulation. -/
def move (f : LW) : Bool := f.base && f.cwOk && f.ord == 0 && f.aop == 0

/-- The operands and count are unused. -/
def noOps (f : LW) : Bool :=
  f.dd == 0 && f.ds == 0 && f.offd == 0 && f.offs == 0 && f.aop == 0 && f.ord == 0 && f.mov == 0

/-- An accumulate form with local format `t` (R81, R82): the bitwise operations are illegal with floating formats and RQ32. -/
def acc (f : LW) (t : BitVec 3) : Bool :=
  f.base && f.cwOk && f.aop.toNat < 6 && (f.aop.toNat < 3 || (3 ≤ t.toNat && t.toNat < 7))

/-- A control word of the Ladle that uses no queue. -/
def ctl (f : LW) : Bool :=
  f.qn == 0 && f.oc == 0 && f.sco == 0 && f.cw == 0 && f.ba == 0 && f.bdie == 0 && f.bid == 0 && f.dc == 0 &&
    f.offc == 0 && f.dd == 0 && f.ds == 0 && f.aop == 0 && f.ord == 0 && f.mov == 0

end LW

/-- The control registers CSRR reads (R71). -/
def csrOk (x : BitVec 6) : Bool := x.toNat < 6 || (0x10 ≤ x.toNat && x.toNat < 0x30)

/-- The legal instruction words.  Every event of the machine is well formed. -/
def Instr.wf : Instr → Bool
  | .ld _ _ _ z s _ _ => s == 0 || z != 3
  | .loop _ e _ => e != 0
  | .loopi _ e _ => e != 0
  | .hset _ _ f _ => f.toNat < 12
  | .hget _ _ f _ => f.toNat < 12
  | .lntw _ l f _ => l.toNat < 6 && f.toNat < 5
  | .rdv m _ => m != 0
  | .waitf n _ _ => n != 0
  | .waita _ _ _ c _ => c.toNat < 4
  | .bara x b _ => x == 1 || b.toNat < 16
  | .barw _ x b _ => x == 1 || b.toNat < 16
  | .fenceC _ s _ => s.toNat < 10
  | .csrr _ x _ => csrOk x
  | .csrw _ x _ => csrOk x && x != 0
  | .trap x _ => x != 0
  | .vadd t f | .vsub t f | .vmul t f => f.two && f.arith t
  | .vfma t f => tFloat t && f.dReg && f.aReg && f.bReg && f.cReg && rqOk f.rq
  | .vmin _ f | .vmax _ f => f.two && f.noRq
  | .vdiv f => f.two && rqOk f.rq
  | .vsqrt f | .vrcp f | .vrsq f | .vexp2 f | .vlog2 f => f.one && rqOk f.rq
  | .vabs f | .vneg f => f.one && f.noRq
  | .vand f | .vor f | .vxor f | .vsll f | .vsrl f | .vsra f => f.two && f.noRq
  | .vnot f => f.one && f.noRq
  | .vsel f => f.dReg && f.aReg && f.bReg && f.vc.toNat < 8 && f.mc == 0 && !f.hold.getLsbD 0 && f.noRq
  | .vcmp t f => f.vd.toNat < 8 && f.aReg && f.bReg && f.vc.toNat < 7 && (f.vc.toNat != 6 || tFloat t) && f.mc == 0 &&
      !f.hold.getLsbD 0 && f.noRq
  | .vcvt f => f.cvt
  | .vcvtb f => f.dReg && f.aReg && (f.vb == 5 || f.vb == 6) && f.mb == 0 && f.vc == 0 && f.km == 0 &&
      f.hold.toNat % 4 == 0 && f.noBc && rqOk f.rq
  | .vrsum t f => f.one && t != 3 && t != 4 && f.arith t
  | .vrmax t f | .vrmin t f => f.one && t != 3 && t != 4 && f.noRq
  | .vscan t f => t != 3 && t != 4 && f.arith t && f.dReg && f.aReg && f.mc == 0 && !f.hold.getLsbD 0 &&
      (if f.vc == 1 then f.bNone && f.noBc else f.vc == 0 && f.bReg)
  | .vcomp2of4 f => f.dReg && f.aReg && f.bNone && f.noBc && f.vc.toNat < 5 && f.mc == 0 && !f.hold.getLsbD 0 &&
      f.km == 0 && f.noRq
  | .dot16E4 f => f.dReg && f.aReg && f.bReg && f.cReg && f.rq == 0
  | .radd f | .rsub f => f.two && f.noRq
  | .fprint f => f.base && f.v.toNat < 48 && f.km == 0
  | .vmov f => f.dReg && f.va.toNat < 48 && (selZero f.ma || f.ma.toNat % 4 == 3) && f.bNone && f.cNone && f.noBc && f.noRq
  | .vbcast f => f.dReg && f.aNone && f.bNone && f.cNone && f.be == 1 && f.noRq
  | .viota f => f.dReg && f.aNone && f.bNone && f.cNone && bcOk f.be f.bc && f.noRq
  | .kand f | .kor f | .kxor f => f.mask
  | .knot f => f.mask && f.vb == 0
  | .kfromv f => f.vd.toNat < 8 && f.aReg && f.bNone && f.cNone && f.noBc && f.km == 0 && f.noRq
  | .vfromk f => f.dReg && f.va.toNat < 8 && f.ma == 0 && f.hold == 0 && f.vb == 0 && f.mb == 0 && f.cNone && f.noBc && f.noRq
  | .vld f | .vst f => f.base && f.v.toNat < 48
  | .tcfg f => f.cfg && f.zr == 0
  | .tcfgZ f => f.cfg && f.zr == 1
  | .tset f | .tget f => f.plain && f.v.toNat < 48
  | .tzero f => f.plain && f.v == 0 && f.dir == 0 && f.idx == 0 && f.km == 0
  | .tld f | .tst f => f.res == 0 && f.v.toNat < 8 && f.km == 0 && f.be == 0 && f.bc == 0
  | .trsum f => f.plain && f.v.toNat < 48 && f.idx == 0
  | .qadd f | .qsub f | .qmul f => f.momentTwo
  | .qfma f => f.moment && f.noBc && f.vd.toNat < 16 && f.va.toNat < 16 && f.vb.toNat < 16 && f.vc.toNat < 16
  | .qrelu f => f.momentTwo && f.vb == 0
  | .qmake f => f.moment && f.noBc && f.vc == 0 && f.sat == 0 && f.vd.toNat < 16 && f.va.toNat < 48 && f.vb.toNat < 48
  | .qcolMean f => f.qcol 0
  | .qcolVar f => f.qcol 1
  | .qcolSd f => f.qcol 2
  | .qscl f => f.moment && f.be == 1 && f.vb == 0 && f.vc == 0 && f.vd.toNat < 16 && f.va.toNat < 16
  | .qld f | .qst f => f.base && f.v.toNat < 16
  | .vloop f => f.base && bcOk f.be f.bc && f.imm.toNat / 4096 != 0 && (f.be == 0 || f.imm.toNat % 4096 == 0)
  | .vcsrr f => f.base && f.imm.toNat < 5 && f.be == 0
  | .vcsrw f => f.base && f.imm.toNat < 3 && f.be == 1
  | .vrdv f => f.base && f.imm == 0 && f.be == 0 && f.bc == 0
  | .vrdvEnd f => f.base && f.imm == 1 && f.be == 0 && f.bc == 0
  | .vidle f => f.base && (if f.be == 1 then f.imm == 0 else f.bc == 0)
  | .mmaF8 f | .mmaBf16 f | .mmaF32 f | .mmaB2e8 f | .mmaB2e4 f => f.mul
  | .mmaMom f => f.mul && f.acc.toNat < 8
  | .mmv f => f.mul && f.ga == 0
  | .drain f => f.notMul && rqOk f.rq
  | .drainMom f => f.notMul && rqOk f.rq && f.acc.toNat < 8
  | .azero f => f.notMul && f.da == 0 && f.ta == 0 && f.zc == 0 && f.rq == 0 && f.sat == 0 && f.be == 0 && f.bc == 0
  | .aload f => f.notMul && f.zc == 0 && f.rq == 0 && f.sat == 0
  | .go f => f.base && f.imm == 0 && f.be == 0 && f.bc == 0
  | .mwait f => f.base && (if f.be == 1 then f.imm == 0 else f.bc == 0 && f.imm.toNat < 17)
  | .mrdv f => f.base && f.imm == 0 && f.be == 0 && f.bc == 0
  | .mrdvEnd f => f.base && f.imm == 1 && f.be == 0 && f.bc == 0
  | .mcsrr f => f.base && f.imm.toNat < 3 && f.be == 0
  | .mcsrw f => f.base && f.imm.toNat < 3 && f.be == 1
  | .midle f => f.base && (if f.be == 1 then f.imm == 0 else f.bc == 0)
  | .gidx f => f.res == 0 && bcOk f.be f.bc
  | .gfill f => f.res == 0 && bcOk f.be f.bc && f.did == 0
  | .grdv f => f.did == 0 && f.off == 0 && f.cnt == 0 && f.be == 0 && f.bc == 0 && f.res == 0
  | .grdvEnd f => f.did == 1 && f.off == 0 && f.cnt == 0 && f.be == 0 && f.bc == 0 && f.res == 0
  | .gidle f => f.res == 0 && f.cnt == 0 && f.off.toNat % 64 == 0 &&
      (if f.be == 1 then f.did == 0 && f.off == 0 else f.bc == 0)
  | .copy1d f | .copyx f => f.move
  | .copy2d f | .copy3d f => f.move && f.cnt == 0
  | .scan f | .xchg f | .cmpx f => f.move && f.mov == 0
  | .copy1dAcc t f => f.acc t
  | .copy2dAcc t f | .copy3dAcc t f => f.acc t && f.cnt == 0
  | .enq f => f.base && f.cw == 0 && f.dc.toNat < 16 && f.offc == 0 && f.dd == 0 && f.offd == 0 && f.ord == 0 &&
      f.mov == 0 && f.aop == 0
  | .deq f => f.base && f.cw == 0 && f.dc.toNat < 16 && f.offc == 0 && f.ds == 0 && f.offs == 0 && f.ord == 0 &&
      f.mov == 0 && f.aop == 0
  | .qfence f => f.base && f.cwOk && f.noOps && f.qn == 0 && f.oc == 0 && f.cnt.toNat < 16
  | .cwrite f => f.base && f.noOps && f.cw == 1 && f.ba == 0 && f.oc == 0 && f.cnt == 0
  | .barrive f => f.base && f.noOps && f.cw == 0 && f.cwOk && f.ba == 1 && f.oc == 0 && f.cnt == 0
  | .lrdv f => f.ctl && f.offd == 0 && f.offs == 0 && f.cnt == 0
  | .lrdvEnd f => f.ctl && f.offd == 0 && f.offs == 0 && f.cnt == 1
  | .lidle f => f.ctl && f.offs.toNat < 16 && f.cnt == 0
  | .sieveVadd _ _ _ t _ | .sieveVsub _ _ _ t _ | .sieveVmin _ _ _ t _ | .sieveVmax _ _ _ t _
  | .sieveVmul _ _ _ t _ | .vscn _ _ _ t _ => t != 7
  | .sieveVcmp _ _ _ t _ c => t != 7 && c != 7 && (c != 6 || t.toNat < 3)
  | .hdr _ f => f != 7
  | .traps n => n != 0
  | _ => true

end Sys2Proof
end

