-- ==== Sys2Proof/Decode.lean ====
section
/-!
DEFINITION. Decoding of instruction words, total on any bytes, and the encoder beside it, both written from the
encoding tables of the spec (03_encodings R67 to R82, 18_fabric R368, R370).  A word is read as its fields from bit 0
upward; a word that is no legal encoding is rejected by name.
-/

namespace Sys2Proof

/-- A word from its fields, each a width and a value, the first field in the lowest bits. -/
def pack : List (Nat × Nat) → Nat
  | [] => 0
  | (w, v) :: l => v % 2 ^ w + 2 ^ w * pack l

/-- The fields of a word, from widths, the first field in the lowest bits. -/
def unpack : List Nat → Nat → List Nat
  | [], _ => []
  | w :: ws, n => n % 2 ^ w :: unpack ws (n / 2 ^ w)

/-- Why a word is no instruction. -/
inductive Reject where
  /-- Fewer bytes than the stream's word has. -/
  | shortWord
  /-- The opcode or function code is marked illegal in the stream's map. -/
  | illegalOpcode
  /-- A reserved or unused field is nonzero, a code is illegal, or a register does not exist (R64). -/
  | illegalField
deriving DecidableEq, Repr

/-- The sequencer word by its opcode and function code (R67 to R71). -/
def rawSq (w : Nat) : Option Instr :=
  match w / 2 ^ 26 % 64 with
  | 0x00 =>
    match w / 8 % 32 with
    | 0 =>
      match unpack [3, 5, 6, 6, 6] w with
      | [i, 0, b, a, d] => some (.add (BitVec.ofNat 6 d) (BitVec.ofNat 6 a) (BitVec.ofNat 6 b) (BitVec.ofNat 3 i))
      | _ => none
    | 1 =>
      match unpack [3, 5, 6, 6, 6] w with
      | [i, 1, b, a, d] => some (.sub (BitVec.ofNat 6 d) (BitVec.ofNat 6 a) (BitVec.ofNat 6 b) (BitVec.ofNat 3 i))
      | _ => none
    | 2 =>
      match unpack [3, 5, 6, 6, 6] w with
      | [i, 2, b, a, d] => some (.band (BitVec.ofNat 6 d) (BitVec.ofNat 6 a) (BitVec.ofNat 6 b) (BitVec.ofNat 3 i))
      | _ => none
    | 3 =>
      match unpack [3, 5, 6, 6, 6] w with
      | [i, 3, b, a, d] => some (.bor (BitVec.ofNat 6 d) (BitVec.ofNat 6 a) (BitVec.ofNat 6 b) (BitVec.ofNat 3 i))
      | _ => none
    | 4 =>
      match unpack [3, 5, 6, 6, 6] w with
      | [i, 4, b, a, d] => some (.bxor (BitVec.ofNat 6 d) (BitVec.ofNat 6 a) (BitVec.ofNat 6 b) (BitVec.ofNat 3 i))
      | _ => none
    | 5 =>
      match unpack [3, 5, 6, 6, 6] w with
      | [i, 5, b, a, d] => some (.sll (BitVec.ofNat 6 d) (BitVec.ofNat 6 a) (BitVec.ofNat 6 b) (BitVec.ofNat 3 i))
      | _ => none
    | 6 =>
      match unpack [3, 5, 6, 6, 6] w with
      | [i, 6, b, a, d] => some (.srl (BitVec.ofNat 6 d) (BitVec.ofNat 6 a) (BitVec.ofNat 6 b) (BitVec.ofNat 3 i))
      | _ => none
    | 7 =>
      match unpack [3, 5, 6, 6, 6] w with
      | [i, 7, b, a, d] => some (.sra (BitVec.ofNat 6 d) (BitVec.ofNat 6 a) (BitVec.ofNat 6 b) (BitVec.ofNat 3 i))
      | _ => none
    | 8 =>
      match unpack [3, 5, 6, 6, 6] w with
      | [i, 8, b, a, d] => some (.mul (BitVec.ofNat 6 d) (BitVec.ofNat 6 a) (BitVec.ofNat 6 b) (BitVec.ofNat 3 i))
      | _ => none
    | 9 =>
      match unpack [3, 5, 6, 6, 6] w with
      | [i, 9, b, a, d] => some (.mulh (BitVec.ofNat 6 d) (BitVec.ofNat 6 a) (BitVec.ofNat 6 b) (BitVec.ofNat 3 i))
      | _ => none
    | 10 =>
      match unpack [3, 5, 6, 6, 6] w with
      | [i, 10, b, a, d] => some (.mulhu (BitVec.ofNat 6 d) (BitVec.ofNat 6 a) (BitVec.ofNat 6 b) (BitVec.ofNat 3 i))
      | _ => none
    | 11 =>
      match unpack [3, 5, 6, 6, 6] w with
      | [i, 11, b, a, d] => some (.div (BitVec.ofNat 6 d) (BitVec.ofNat 6 a) (BitVec.ofNat 6 b) (BitVec.ofNat 3 i))
      | _ => none
    | 12 =>
      match unpack [3, 5, 6, 6, 6] w with
      | [i, 12, b, a, d] => some (.divu (BitVec.ofNat 6 d) (BitVec.ofNat 6 a) (BitVec.ofNat 6 b) (BitVec.ofNat 3 i))
      | _ => none
    | 13 =>
      match unpack [3, 5, 6, 6, 6] w with
      | [i, 13, b, a, d] => some (.rem (BitVec.ofNat 6 d) (BitVec.ofNat 6 a) (BitVec.ofNat 6 b) (BitVec.ofNat 3 i))
      | _ => none
    | 14 =>
      match unpack [3, 5, 6, 6, 6] w with
      | [i, 14, b, a, d] => some (.remu (BitVec.ofNat 6 d) (BitVec.ofNat 6 a) (BitVec.ofNat 6 b) (BitVec.ofNat 3 i))
      | _ => none
    | 15 =>
      match unpack [3, 5, 6, 6, 6] w with
      | [i, 15, b, a, d] => some (.slt (BitVec.ofNat 6 d) (BitVec.ofNat 6 a) (BitVec.ofNat 6 b) (BitVec.ofNat 3 i))
      | _ => none
    | 16 =>
      match unpack [3, 5, 6, 6, 6] w with
      | [i, 16, b, a, d] => some (.sltu (BitVec.ofNat 6 d) (BitVec.ofNat 6 a) (BitVec.ofNat 6 b) (BitVec.ofNat 3 i))
      | _ => none
    | 17 =>
      match unpack [3, 5, 6, 6, 6] w with
      | [i, 17, b, a, d] => some (.min (BitVec.ofNat 6 d) (BitVec.ofNat 6 a) (BitVec.ofNat 6 b) (BitVec.ofNat 3 i))
      | _ => none
    | 18 =>
      match unpack [3, 5, 6, 6, 6] w with
      | [i, 18, b, a, d] => some (.max (BitVec.ofNat 6 d) (BitVec.ofNat 6 a) (BitVec.ofNat 6 b) (BitVec.ofNat 3 i))
      | _ => none
    | _ => none
  | 0x01 =>
    match unpack [3, 11, 6, 6] w with
    | [i, m, a, d] => some (.addi (BitVec.ofNat 6 d) (BitVec.ofNat 6 a) (BitVec.ofNat 11 m) (BitVec.ofNat 3 i))
    | _ => none
  | 0x02 =>
    match unpack [3, 11, 6, 6] w with
    | [i, m, a, d] => some (.andi (BitVec.ofNat 6 d) (BitVec.ofNat 6 a) (BitVec.ofNat 11 m) (BitVec.ofNat 3 i))
    | _ => none
  | 0x03 =>
    match unpack [3, 11, 6, 6] w with
    | [i, m, a, d] => some (.ori (BitVec.ofNat 6 d) (BitVec.ofNat 6 a) (BitVec.ofNat 11 m) (BitVec.ofNat 3 i))
    | _ => none
  | 0x04 =>
    match unpack [3, 11, 6, 6] w with
    | [i, m, a, d] => some (.xori (BitVec.ofNat 6 d) (BitVec.ofNat 6 a) (BitVec.ofNat 11 m) (BitVec.ofNat 3 i))
    | _ => none
  | 0x05 =>
    match unpack [3, 11, 6, 6] w with
    | [i, m, a, d] => some (.slti (BitVec.ofNat 6 d) (BitVec.ofNat 6 a) (BitVec.ofNat 11 m) (BitVec.ofNat 3 i))
    | _ => none
  | 0x06 =>
    match unpack [3, 6, 5, 6, 6] w with
    | [i, s, 0, a, d] => some (.slli (BitVec.ofNat 6 d) (BitVec.ofNat 6 a) (BitVec.ofNat 6 s) (BitVec.ofNat 3 i))
    | _ => none
  | 0x07 =>
    match unpack [3, 6, 5, 6, 6] w with
    | [i, s, 0, a, d] => some (.srli (BitVec.ofNat 6 d) (BitVec.ofNat 6 a) (BitVec.ofNat 6 s) (BitVec.ofNat 3 i))
    | _ => none
  | 0x08 =>
    match unpack [3, 6, 5, 6, 6] w with
    | [i, s, 0, a, d] => some (.srai (BitVec.ofNat 6 d) (BitVec.ofNat 6 a) (BitVec.ofNat 6 s) (BitVec.ofNat 3 i))
    | _ => none
  | 0x09 =>
    match unpack [3, 1, 16, 6] w with
    | [i, 0, m, d] => some (.insw0 (BitVec.ofNat 6 d) (BitVec.ofNat 16 m) (BitVec.ofNat 3 i))
    | _ => none
  | 0x0A =>
    match unpack [3, 1, 16, 6] w with
    | [i, 0, m, d] => some (.insw16 (BitVec.ofNat 6 d) (BitVec.ofNat 16 m) (BitVec.ofNat 3 i))
    | _ => none
  | 0x0B =>
    match unpack [3, 1, 16, 6] w with
    | [i, 0, m, d] => some (.insw32 (BitVec.ofNat 6 d) (BitVec.ofNat 16 m) (BitVec.ofNat 3 i))
    | _ => none
  | 0x0C =>
    match unpack [3, 1, 16, 6] w with
    | [i, 0, m, d] => some (.insw48 (BitVec.ofNat 6 d) (BitVec.ofNat 16 m) (BitVec.ofNat 3 i))
    | _ => none
  | 0x10 =>
    match unpack [3, 4, 1, 2, 4, 6, 6] w with
    | [i, o, s, z, c, a, d] => some (.ld (BitVec.ofNat 6 d) (BitVec.ofNat 6 a) (BitVec.ofNat 4 c) (BitVec.ofNat 2 z) (BitVec.ofNat 1 s) (BitVec.ofNat 4 o) (BitVec.ofNat 3 i))
    | _ => none
  | 0x11 =>
    match unpack [3, 4, 1, 2, 4, 6, 6] w with
    | [i, o, 0, z, c, a, d] => some (.st (BitVec.ofNat 6 d) (BitVec.ofNat 6 a) (BitVec.ofNat 4 c) (BitVec.ofNat 2 z) (BitVec.ofNat 4 o) (BitVec.ofNat 3 i))
    | _ => none
  | 0x18 =>
    match unpack [3, 11, 6, 6] w with
    | [i, o, b, a] => some (.beq (BitVec.ofNat 6 a) (BitVec.ofNat 6 b) (BitVec.ofNat 11 o) (BitVec.ofNat 3 i))
    | _ => none
  | 0x19 =>
    match unpack [3, 11, 6, 6] w with
    | [i, o, b, a] => some (.bne (BitVec.ofNat 6 a) (BitVec.ofNat 6 b) (BitVec.ofNat 11 o) (BitVec.ofNat 3 i))
    | _ => none
  | 0x1A =>
    match unpack [3, 11, 6, 6] w with
    | [i, o, b, a] => some (.blt (BitVec.ofNat 6 a) (BitVec.ofNat 6 b) (BitVec.ofNat 11 o) (BitVec.ofNat 3 i))
    | _ => none
  | 0x1B =>
    match unpack [3, 11, 6, 6] w with
    | [i, o, b, a] => some (.bge (BitVec.ofNat 6 a) (BitVec.ofNat 6 b) (BitVec.ofNat 11 o) (BitVec.ofNat 3 i))
    | _ => none
  | 0x1C =>
    match unpack [3, 11, 6, 6] w with
    | [i, o, b, a] => some (.bltu (BitVec.ofNat 6 a) (BitVec.ofNat 6 b) (BitVec.ofNat 11 o) (BitVec.ofNat 3 i))
    | _ => none
  | 0x1D =>
    match unpack [3, 11, 6, 6] w with
    | [i, o, b, a] => some (.bgeu (BitVec.ofNat 6 a) (BitVec.ofNat 6 b) (BitVec.ofNat 11 o) (BitVec.ofNat 3 i))
    | _ => none
  | 0x1E =>
    match unpack [3, 23] w with
    | [i, o] => some (.j (BitVec.ofNat 23 o) (BitVec.ofNat 3 i))
    | _ => none
  | 0x1F =>
    match unpack [3, 23] w with
    | [i, o] => some (.jal (BitVec.ofNat 23 o) (BitVec.ofNat 3 i))
    | _ => none
  | 0x20 =>
    match unpack [3, 11, 6, 6] w with
    | [i, m, a, 0] => some (.jr (BitVec.ofNat 6 a) (BitVec.ofNat 11 m) (BitVec.ofNat 3 i))
    | _ => none
  | 0x21 =>
    match unpack [3, 11, 6, 6] w with
    | [i, m, a, 0] => some (.jalr (BitVec.ofNat 6 a) (BitVec.ofNat 11 m) (BitVec.ofNat 3 i))
    | _ => none
  | 0x22 =>
    match unpack [3, 17, 6] w with
    | [i, e, a] => some (.loop (BitVec.ofNat 6 a) (BitVec.ofNat 17 e) (BitVec.ofNat 3 i))
    | _ => none
  | 0x23 =>
    match unpack [3, 11, 12] w with
    | [i, e, c] => some (.loopi (BitVec.ofNat 12 c) (BitVec.ofNat 11 e) (BitVec.ofNat 3 i))
    | _ => none
  | 0x28 =>
    match unpack [3, 13, 6, 4] w with
    | [i, 0, a, h] => some (.hld (BitVec.ofNat 4 h) (BitVec.ofNat 6 a) (BitVec.ofNat 3 i))
    | _ => none
  | 0x29 =>
    match unpack [3, 13, 6, 4] w with
    | [i, 0, a, h] => some (.hst (BitVec.ofNat 4 h) (BitVec.ofNat 6 a) (BitVec.ofNat 3 i))
    | _ => none
  | 0x2A =>
    match unpack [3, 5, 8, 6, 4] w with
    | [i, 0, n, 0, h] => some (.dput (BitVec.ofNat 4 h) (BitVec.ofNat 8 n) (BitVec.ofNat 3 i))
    | _ => none
  | 0x2B =>
    match unpack [3, 5, 8, 6, 4] w with
    | [i, 0, n, 0, h] => some (.dget (BitVec.ofNat 4 h) (BitVec.ofNat 8 n) (BitVec.ofNat 3 i))
    | _ => none
  | 0x2C =>
    match unpack [3, 1, 4, 8, 6, 4] w with
    | [i, 0, f, 0, a, h] => some (.hset (BitVec.ofNat 4 h) (BitVec.ofNat 6 a) (BitVec.ofNat 4 f) (BitVec.ofNat 3 i))
    | _ => none
  | 0x2D =>
    match unpack [3, 1, 4, 8, 6, 4] w with
    | [i, 0, f, 0, a, h] => some (.hget (BitVec.ofNat 4 h) (BitVec.ofNat 6 a) (BitVec.ofNat 4 f) (BitVec.ofNat 3 i))
    | _ => none
  | 0x2E =>
    match unpack [3, 11, 3, 3, 6] w with
    | [i, 0, f, l, a] => some (.lntw (BitVec.ofNat 6 a) (BitVec.ofNat 3 l) (BitVec.ofNat 3 f) (BitVec.ofNat 3 i))
    | _ => none
  | 0x30 =>
    match unpack [3, 11, 6, 6] w with
    | [i, m, a, 0] => some (.fork (BitVec.ofNat 6 a) (BitVec.ofNat 11 m) (BitVec.ofNat 3 i))
    | _ => none
  | 0x31 =>
    match unpack [3, 4, 19] w with
    | [i, m, 0] => some (.rdv (BitVec.ofNat 4 m) (BitVec.ofNat 3 i))
    | _ => none
  | 0x32 =>
    match unpack [3, 4, 7, 12] w with
    | [i, g, n, 0] => some (.waitf (BitVec.ofNat 7 n) (BitVec.ofNat 4 g) (BitVec.ofNat 3 i))
    | _ => none
  | 0x33 =>
    match unpack [3, 8, 15] w with
    | [i, e, 0] => some (.waite (BitVec.ofNat 8 e) (BitVec.ofNat 3 i))
    | _ => none
  | 0x34 =>
    match unpack [3, 2, 3, 6, 6, 6] w with
    | [i, c, 0, b, a, d] => some (.waita (BitVec.ofNat 6 d) (BitVec.ofNat 6 a) (BitVec.ofNat 6 b) (BitVec.ofNat 2 c) (BitVec.ofNat 3 i))
    | _ => none
  | 0x35 =>
    match unpack [3, 6, 1, 16] w with
    | [i, b, x, 0] => some (.bara (BitVec.ofNat 1 x) (BitVec.ofNat 6 b) (BitVec.ofNat 3 i))
    | _ => none
  | 0x36 =>
    match unpack [3, 6, 1, 10, 6] w with
    | [i, b, x, 0, d] => some (.barw (BitVec.ofNat 6 d) (BitVec.ofNat 1 x) (BitVec.ofNat 6 b) (BitVec.ofNat 3 i))
    | _ => none
  | 0x37 =>
    match unpack [3, 8, 15] w with
    | [i, e, 0] => some (.evset (BitVec.ofNat 8 e) (BitVec.ofNat 3 i))
    | _ => none
  | 0x38 =>
    match unpack [3, 8, 15] w with
    | [i, e, 0] => some (.evclr (BitVec.ofNat 8 e) (BitVec.ofNat 3 i))
    | _ => none
  | 0x39 =>
    match unpack [3, 3, 4, 16] w with
    | [i, 0, s, m] => some (.fenceC (BitVec.ofNat 16 m) (BitVec.ofNat 4 s) (BitVec.ofNat 3 i))
    | _ => none
  | 0x3A =>
    match unpack [3, 11, 6, 6] w with
    | [i, 0, a, 0] => some (.clkdiv (BitVec.ofNat 6 a) (BitVec.ofNat 3 i))
    | _ => none
  | 0x3B =>
    match unpack [3, 10, 13] w with
    | [i, n, 0] => some (.swpt (BitVec.ofNat 10 n) (BitVec.ofNat 3 i))
    | _ => none
  | 0x3D =>
    match unpack [3, 23] w with
    | [i, n] => some (.idle (BitVec.ofNat 23 n) (BitVec.ofNat 3 i))
    | _ => none
  | 0x3E =>
    match w / 8 % 32 with
    | 0 =>
      match unpack [3, 5, 6, 6, 6] w with
      | [i, 0, x, 0, d] => some (.csrr (BitVec.ofNat 6 d) (BitVec.ofNat 6 x) (BitVec.ofNat 3 i))
      | _ => none
    | 1 =>
      match unpack [3, 5, 6, 6, 6] w with
      | [i, 1, x, a, 0] => some (.csrw (BitVec.ofNat 6 a) (BitVec.ofNat 6 x) (BitVec.ofNat 3 i))
      | _ => none
    | 2 =>
      match unpack [3, 23] w with
      | [i, 2] => some (.yield (BitVec.ofNat 3 i))
      | _ => none
    | 3 =>
      match unpack [3, 5, 6, 12] w with
      | [i, _, x, 0] => if x == 0 then some (.exit (BitVec.ofNat 3 i)) else some (.trap (BitVec.ofNat 6 x) (BitVec.ofNat 3 i))
      | _ => none
    | 4 =>
      match unpack [3, 23] w with
      | [i, 4] => some (.rett (BitVec.ofNat 3 i))
      | _ => none
    | 5 =>
      match unpack [3, 11, 6, 6] w with
      | [i, 5, a, d] => some (.launch (BitVec.ofNat 6 d) (BitVec.ofNat 6 a) (BitVec.ofNat 3 i))
      | _ => none
    | 6 =>
      match unpack [3, 23] w with
      | [i, 6] => some (.bkpt (BitVec.ofNat 3 i))
      | _ => none
    | _ => none
  | 0x3F =>
    match unpack [3, 23] w with
    | [i, x] => some (.nop (BitVec.ofNat 23 x) (BitVec.ofNat 3 i))
    | _ => none
  | _ => none

/-- The sieve word by its opcode (R368, R370). -/
def rawSv (w : Nat) : Option Instr :=
  match w / 2 ^ 26 % 64 with
  | 0x00 =>
    match unpack [14, 4, 4, 4] w with
    | [0, b, a, d] => some (.sieveAdd (BitVec.ofNat 4 d) (BitVec.ofNat 4 a) (BitVec.ofNat 4 b))
    | _ => none
  | 0x01 =>
    match unpack [14, 4, 4, 4] w with
    | [0, b, a, d] => some (.sieveSub (BitVec.ofNat 4 d) (BitVec.ofNat 4 a) (BitVec.ofNat 4 b))
    | _ => none
  | 0x02 =>
    match unpack [14, 4, 4, 4] w with
    | [0, b, a, d] => some (.sieveAnd (BitVec.ofNat 4 d) (BitVec.ofNat 4 a) (BitVec.ofNat 4 b))
    | _ => none
  | 0x03 =>
    match unpack [14, 4, 4, 4] w with
    | [0, b, a, d] => some (.sieveOr (BitVec.ofNat 4 d) (BitVec.ofNat 4 a) (BitVec.ofNat 4 b))
    | _ => none
  | 0x04 =>
    match unpack [14, 4, 4, 4] w with
    | [0, b, a, d] => some (.sieveXor (BitVec.ofNat 4 d) (BitVec.ofNat 4 a) (BitVec.ofNat 4 b))
    | _ => none
  | 0x05 =>
    match unpack [14, 4, 4, 4] w with
    | [0, b, a, d] => some (.sieveShl (BitVec.ofNat 4 d) (BitVec.ofNat 4 a) (BitVec.ofNat 4 b))
    | _ => none
  | 0x06 =>
    match unpack [14, 4, 4, 4] w with
    | [0, b, a, d] => some (.sieveShr (BitVec.ofNat 4 d) (BitVec.ofNat 4 a) (BitVec.ofNat 4 b))
    | _ => none
  | 0x07 =>
    match unpack [14, 4, 4, 4] w with
    | [0, b, a, d] => some (.sieveSar (BitVec.ofNat 4 d) (BitVec.ofNat 4 a) (BitVec.ofNat 4 b))
    | _ => none
  | 0x08 =>
    match unpack [14, 4, 4, 4] w with
    | [0, b, a, d] => some (.sieveSltu (BitVec.ofNat 4 d) (BitVec.ofNat 4 a) (BitVec.ofNat 4 b))
    | _ => none
  | 0x09 =>
    match unpack [18, 4, 4] w with
    | [m, a, d] => some (.sieveAddi (BitVec.ofNat 4 d) (BitVec.ofNat 4 a) (BitVec.ofNat 18 m))
    | _ => none
  | 0x0A =>
    match unpack [18, 4, 4] w with
    | [m, 0, d] => some (.sieveMovi (BitVec.ofNat 4 d) (BitVec.ofNat 18 m))
    | _ => none
  | 0x0B =>
    match unpack [14, 8, 4] w with
    | [m, 0, d] => some (.sieveMovhi (BitVec.ofNat 4 d) (BitVec.ofNat 14 m))
    | _ => none
  | 0x10 =>
    match unpack [9, 2, 3, 4, 4, 4] w with
    | [0, m, t, b, a, d] => some (.sieveVadd (BitVec.ofNat 4 d) (BitVec.ofNat 4 a) (BitVec.ofNat 4 b) (BitVec.ofNat 3 t) (BitVec.ofNat 2 m))
    | _ => none
  | 0x11 =>
    match unpack [9, 2, 3, 4, 4, 4] w with
    | [0, m, t, b, a, d] => some (.sieveVsub (BitVec.ofNat 4 d) (BitVec.ofNat 4 a) (BitVec.ofNat 4 b) (BitVec.ofNat 3 t) (BitVec.ofNat 2 m))
    | _ => none
  | 0x12 =>
    match unpack [9, 2, 3, 4, 4, 4] w with
    | [0, m, t, b, a, d] => some (.sieveVmin (BitVec.ofNat 4 d) (BitVec.ofNat 4 a) (BitVec.ofNat 4 b) (BitVec.ofNat 3 t) (BitVec.ofNat 2 m))
    | _ => none
  | 0x13 =>
    match unpack [9, 2, 3, 4, 4, 4] w with
    | [0, m, t, b, a, d] => some (.sieveVmax (BitVec.ofNat 4 d) (BitVec.ofNat 4 a) (BitVec.ofNat 4 b) (BitVec.ofNat 3 t) (BitVec.ofNat 2 m))
    | _ => none
  | 0x14 =>
    match unpack [9, 2, 3, 4, 4, 4] w with
    | [0, m, t, b, a, d] => some (.sieveVmul (BitVec.ofNat 4 d) (BitVec.ofNat 4 a) (BitVec.ofNat 4 b) (BitVec.ofNat 3 t) (BitVec.ofNat 2 m))
    | _ => none
  | 0x15 =>
    match unpack [9, 2, 3, 4, 4, 4] w with
    | [0, m, t, b, a, d] => some (.vscn (BitVec.ofNat 4 d) (BitVec.ofNat 4 a) (BitVec.ofNat 4 b) (BitVec.ofNat 3 t) (BitVec.ofNat 2 m))
    | _ => none
  | 0x16 =>
    match unpack [9, 2, 7, 4, 4] w with
    | [0, m, 0, a, d] => some (.vsplat (BitVec.ofNat 4 d) (BitVec.ofNat 4 a) (BitVec.ofNat 2 m))
    | _ => none
  | 0x17 =>
    match unpack [6, 3, 2, 3, 4, 4, 2, 2] w with
    | [0, c, m, t, b, a, d, 0] => some (.sieveVcmp (BitVec.ofNat 2 d) (BitVec.ofNat 4 a) (BitVec.ofNat 4 b) (BitVec.ofNat 3 t) (BitVec.ofNat 2 m) (BitVec.ofNat 3 c))
    | _ => none
  | 0x18 =>
    match unpack [9, 2, 3, 4, 4, 4] w with
    | [0, m, 0, b, a, d] => some (.sieveVsel (BitVec.ofNat 4 d) (BitVec.ofNat 4 a) (BitVec.ofNat 4 b) (BitVec.ofNat 2 m))
    | _ => none
  | 0x19 =>
    match unpack [4, 14, 4, 4] w with
    | [l, 0, a, d] => some (.vext (BitVec.ofNat 4 d) (BitVec.ofNat 4 a) (BitVec.ofNat 4 l))
    | _ => none
  | 0x1A =>
    match unpack [4, 14, 4, 4] w with
    | [l, 0, a, d] => some (.vins (BitVec.ofNat 4 d) (BitVec.ofNat 4 a) (BitVec.ofNat 4 l))
    | _ => none
  | 0x20 =>
    match unpack [6, 12, 4, 4] w with
    | [f, 0, a, d] => some (.pld (BitVec.ofNat 4 d) (BitVec.ofNat 4 a) (BitVec.ofNat 6 f))
    | _ => none
  | 0x21 =>
    match unpack [6, 12, 4, 4] w with
    | [f, 0, a, d] => some (.pst (BitVec.ofNat 4 d) (BitVec.ofNat 4 a) (BitVec.ofNat 6 f))
    | _ => none
  | 0x22 =>
    match unpack [2, 20, 4] w with
    | [w, 0, d] => some (.fld (BitVec.ofNat 4 d) (BitVec.ofNat 2 w))
    | _ => none
  | 0x23 =>
    match unpack [2, 16, 4, 4] w with
    | [w, 0, a, 0] => some (.fst (BitVec.ofNat 4 a) (BitVec.ofNat 2 w))
    | _ => none
  | 0x24 =>
    match unpack [3, 19, 4] w with
    | [f, 0, d] => some (.hdr (BitVec.ofNat 4 d) (BitVec.ofNat 3 f))
    | _ => none
  | 0x28 =>
    match unpack [18, 4, 4] w with
    | [o, b, a] => some (.sieveBeq (BitVec.ofNat 4 a) (BitVec.ofNat 4 b) (BitVec.ofNat 18 o))
    | _ => none
  | 0x29 =>
    match unpack [18, 4, 4] w with
    | [o, b, a] => some (.sieveBne (BitVec.ofNat 4 a) (BitVec.ofNat 4 b) (BitVec.ofNat 18 o))
    | _ => none
  | 0x2A =>
    match unpack [18, 4, 4] w with
    | [o, b, a] => some (.sieveBltu (BitVec.ofNat 4 a) (BitVec.ofNat 4 b) (BitVec.ofNat 18 o))
    | _ => none
  | 0x2B =>
    match unpack [10, 8, 8] w with
    | [e, n, 0] => some (.sieveLoop (BitVec.ofNat 8 n) (BitVec.ofNat 10 e))
    | _ => none
  | 0x2C =>
    match unpack [14, 4, 4, 4] w with
    | [0, b, a, 0] => some (.send (BitVec.ofNat 4 a) (BitVec.ofNat 4 b))
    | _ => none
  | 0x2D =>
    match unpack [26] w with
    | [0] => some (.drop)
    | _ => none
  | 0x2E =>
    match unpack [26] w with
    | [0] => some (.sieveDone)
    | _ => none
  | 0x2F =>
    match unpack [8, 18] w with
    | [n, 0] => some (.traps (BitVec.ofNat 8 n))
    | _ => none
  | op =>
    if op / 8 == 7 then some (.snop (BitVec.ofNat 3 (op % 8)) (BitVec.ofNat 26 w)) else none

/-- The fields of format VR from bit 0 upward (R73). -/
def VR.fields (f : VR) : List (Nat × Nat) :=
  [(3, f.i.toNat), (3, f.hold.toNat), (1, f.sat.toNat), (3, f.rq.toNat), (1, f.be.toNat), (6, f.bc.toNat), (3, f.km.toNat), (4, f.mc.toNat), (6, f.vc.toNat), (4, f.mb.toNat), (6, f.vb.toNat), (4, f.ma.toNat), (6, f.va.toNat), (6, f.vd.toNat)]

/-- Format VR read from a word. -/
def VR.read (w : Nat) : Option VR :=
  match unpack [3, 3, 1, 3, 1, 6, 3, 4, 6, 4, 6, 4, 6, 6] w with
  | [xi, xhold, xsat, xrq, xbe, xbc, xkm, xmc, xvc, xmb, xvb, xma, xva, xvd] => some { i := BitVec.ofNat 3 xi, hold := BitVec.ofNat 3 xhold, sat := BitVec.ofNat 1 xsat, rq := BitVec.ofNat 3 xrq, be := BitVec.ofNat 1 xbe, bc := BitVec.ofNat 6 xbc, km := BitVec.ofNat 3 xkm, mc := BitVec.ofNat 4 xmc, vc := BitVec.ofNat 6 xvc, mb := BitVec.ofNat 4 xmb, vb := BitVec.ofNat 6 xvb, ma := BitVec.ofNat 4 xma, va := BitVec.ofNat 6 xva, vd := BitVec.ofNat 6 xvd }
  | _ => none

/-- The fields of format VM from bit 0 upward (R73). -/
def VM.fields (f : VM) : List (Nat × Nat) :=
  [(3, f.i.toNat), (7, f.res.toNat), (1, f.be.toNat), (6, f.bc.toNat), (3, f.km.toNat), (22, f.off.toNat), (8, f.did.toNat), (6, f.v.toNat)]

/-- Format VM read from a word. -/
def VM.read (w : Nat) : Option VM :=
  match unpack [3, 7, 1, 6, 3, 22, 8, 6] w with
  | [xi, xres, xbe, xbc, xkm, xoff, xdid, xv] => some { i := BitVec.ofNat 3 xi, res := BitVec.ofNat 7 xres, be := BitVec.ofNat 1 xbe, bc := BitVec.ofNat 6 xbc, km := BitVec.ofNat 3 xkm, off := BitVec.ofNat 22 xoff, did := BitVec.ofNat 8 xdid, v := BitVec.ofNat 6 xv }
  | _ => none

/-- The fields of format VT from bit 0 upward (R73). -/
def VT.fields (f : VT) : List (Nat × Nat) :=
  [(3, f.i.toNat), (14, f.res2.toNat), (3, f.km.toNat), (11, f.res.toNat), (1, f.zr.toNat), (5, f.cols.toNat), (5, f.rows.toNat), (4, f.idx.toNat), (1, f.dir.toNat), (3, f.tn.toNat), (6, f.v.toNat)]

/-- Format VT read from a word. -/
def VT.read (w : Nat) : Option VT :=
  match unpack [3, 14, 3, 11, 1, 5, 5, 4, 1, 3, 6] w with
  | [xi, xres2, xkm, xres, xzr, xcols, xrows, xidx, xdir, xtn, xv] => some { i := BitVec.ofNat 3 xi, res2 := BitVec.ofNat 14 xres2, km := BitVec.ofNat 3 xkm, res := BitVec.ofNat 11 xres, zr := BitVec.ofNat 1 xzr, cols := BitVec.ofNat 5 xcols, rows := BitVec.ofNat 5 xrows, idx := BitVec.ofNat 4 xidx, dir := BitVec.ofNat 1 xdir, tn := BitVec.ofNat 3 xtn, v := BitVec.ofNat 6 xv }
  | _ => none

/-- The fields of format VC from bit 0 upward (R73). -/
def VC.fields (f : VC) : List (Nat × Nat) :=
  [(3, f.i.toNat), (7, f.res2.toNat), (1, f.be.toNat), (6, f.bc.toNat), (15, f.res.toNat), (24, f.imm.toNat)]

/-- Format VC read from a word. -/
def VC.read (w : Nat) : Option VC :=
  match unpack [3, 7, 1, 6, 15, 24] w with
  | [xi, xres2, xbe, xbc, xres, ximm] => some { i := BitVec.ofNat 3 xi, res2 := BitVec.ofNat 7 xres2, be := BitVec.ofNat 1 xbe, bc := BitVec.ofNat 6 xbc, res := BitVec.ofNat 15 xres, imm := BitVec.ofNat 24 ximm }
  | _ => none

/-- The fields of format MX from bit 0 upward (R77). -/
def MX.fields (f : MX) : List (Nat × Nat) :=
  [(8, f.i.toNat), (9, f.res.toNat), (1, f.be.toNat), (6, f.bc.toNat), (1, f.sat.toNat), (3, f.rq.toNat), (1, f.zc.toNat), (3, f.lvl.toNat), (1, f.tsm.toNat), (1, f.mov.toNat), (1, f.asy.toNat), (1, f.ga.toNat), (1, f.tb.toNat), (1, f.ta.toNat), (8, f.db.toNat), (8, f.da.toNat), (4, f.acc.toNat)]

/-- Format MX read from a word. -/
def MX.read (w : Nat) : Option MX :=
  match unpack [8, 9, 1, 6, 1, 3, 1, 3, 1, 1, 1, 1, 1, 1, 8, 8, 4] w with
  | [xi, xres, xbe, xbc, xsat, xrq, xzc, xlvl, xtsm, xmov, xasy, xga, xtb, xta, xdb, xda, xacc] => some { i := BitVec.ofNat 8 xi, res := BitVec.ofNat 9 xres, be := BitVec.ofNat 1 xbe, bc := BitVec.ofNat 6 xbc, sat := BitVec.ofNat 1 xsat, rq := BitVec.ofNat 3 xrq, zc := BitVec.ofNat 1 xzc, lvl := BitVec.ofNat 3 xlvl, tsm := BitVec.ofNat 1 xtsm, mov := BitVec.ofNat 1 xmov, asy := BitVec.ofNat 1 xasy, ga := BitVec.ofNat 1 xga, tb := BitVec.ofNat 1 xtb, ta := BitVec.ofNat 1 xta, db := BitVec.ofNat 8 xdb, da := BitVec.ofNat 8 xda, acc := BitVec.ofNat 4 xacc }
  | _ => none

/-- The fields of format MC from bit 0 upward (R77). -/
def MC.fields (f : MC) : List (Nat × Nat) :=
  [(8, f.i.toNat), (9, f.res2.toNat), (1, f.be.toNat), (6, f.bc.toNat), (10, f.res.toNat), (24, f.imm.toNat)]

/-- Format MC read from a word. -/
def MC.read (w : Nat) : Option MC :=
  match unpack [8, 9, 1, 6, 10, 24] w with
  | [xi, xres2, xbe, xbc, xres, ximm] => some { i := BitVec.ofNat 8 xi, res2 := BitVec.ofNat 9 xres2, be := BitVec.ofNat 1 xbe, bc := BitVec.ofNat 6 xbc, res := BitVec.ofNat 10 xres, imm := BitVec.ofNat 24 ximm }
  | _ => none

/-- The fields of format GW from bit 0 upward (R79). -/
def GW.fields (f : GW) : List (Nat × Nat) :=
  [(8, f.i.toNat), (8, f.res.toNat), (1, f.be.toNat), (6, f.bc.toNat), (5, f.cnt.toNat), (22, f.off.toNat), (8, f.did.toNat)]

/-- Format GW read from a word. -/
def GW.read (w : Nat) : Option GW :=
  match unpack [8, 8, 1, 6, 5, 22, 8] w with
  | [xi, xres, xbe, xbc, xcnt, xoff, xdid] => some { i := BitVec.ofNat 8 xi, res := BitVec.ofNat 8 xres, be := BitVec.ofNat 1 xbe, bc := BitVec.ofNat 6 xbc, cnt := BitVec.ofNat 5 xcnt, off := BitVec.ofNat 22 xoff, did := BitVec.ofNat 8 xdid }
  | _ => none

/-- The fields of format LW from bit 0 upward (R80). -/
def LW.fields (f : LW) : List (Nat × Nat) :=
  [(8, f.i.toNat), (3, f.aop.toNat), (16, f.cnt.toNat), (20, f.offs.toNat), (20, f.offd.toNat), (8, f.offc.toNat), (8, f.dc.toNat), (8, f.ds.toNat), (8, f.dd.toNat), (6, f.bid.toNat), (1, f.bdie.toNat), (1, f.ba.toNat), (1, f.cw.toNat), (1, f.mov.toNat), (1, f.ord.toNat), (4, f.sco.toNat), (4, f.oc.toNat), (2, f.qn.toNat)]

/-- Format LW read from a word. -/
def LW.read (w : Nat) : Option LW :=
  match unpack [8, 3, 16, 20, 20, 8, 8, 8, 8, 6, 1, 1, 1, 1, 1, 4, 4, 2] w with
  | [xi, xaop, xcnt, xoffs, xoffd, xoffc, xdc, xds, xdd, xbid, xbdie, xba, xcw, xmov, xord, xsco, xoc, xqn] => some { i := BitVec.ofNat 8 xi, aop := BitVec.ofNat 3 xaop, cnt := BitVec.ofNat 16 xcnt, offs := BitVec.ofNat 20 xoffs, offd := BitVec.ofNat 20 xoffd, offc := BitVec.ofNat 8 xoffc, dc := BitVec.ofNat 8 xdc, ds := BitVec.ofNat 8 xds, dd := BitVec.ofNat 8 xdd, bid := BitVec.ofNat 6 xbid, bdie := BitVec.ofNat 1 xbdie, ba := BitVec.ofNat 1 xba, cw := BitVec.ofNat 1 xcw, mov := BitVec.ofNat 1 xmov, ord := BitVec.ofNat 1 xord, sco := BitVec.ofNat 4 xsco, oc := BitVec.ofNat 4 xoc, qn := BitVec.ofNat 2 xqn }
  | _ => none

/-- The vector-engine word by its opcode (R76). -/
def rawVe (w : Nat) : Option Instr :=
  match w / 2 ^ 56 % 256 with
  | 0x00 | 0x01 | 0x02 | 0x03 | 0x04 | 0x05 | 0x06 | 0x07 => (VR.read w).map (.vadd (BitVec.ofNat 3 (w / 2 ^ 56)))
  | 0x08 | 0x09 | 0x0A | 0x0B | 0x0C | 0x0D | 0x0E | 0x0F => (VR.read w).map (.vsub (BitVec.ofNat 3 (w / 2 ^ 56)))
  | 0x10 | 0x11 | 0x12 | 0x13 | 0x14 | 0x15 | 0x16 | 0x17 => (VR.read w).map (.vmul (BitVec.ofNat 3 (w / 2 ^ 56)))
  | 0x18 | 0x19 | 0x1A | 0x1B | 0x1C | 0x1D | 0x1E | 0x1F => (VR.read w).map (.vfma (BitVec.ofNat 3 (w / 2 ^ 56)))
  | 0x20 | 0x21 | 0x22 | 0x23 | 0x24 | 0x25 | 0x26 | 0x27 => (VR.read w).map (.vmin (BitVec.ofNat 3 (w / 2 ^ 56)))
  | 0x28 | 0x29 | 0x2A | 0x2B | 0x2C | 0x2D | 0x2E | 0x2F => (VR.read w).map (.vmax (BitVec.ofNat 3 (w / 2 ^ 56)))
  | 0x30 => (VR.read w).map .vdiv
  | 0x31 => (VR.read w).map .vsqrt
  | 0x32 => (VR.read w).map .vrcp
  | 0x33 => (VR.read w).map .vrsq
  | 0x34 => (VR.read w).map .vexp2
  | 0x35 => (VR.read w).map .vlog2
  | 0x36 => (VR.read w).map .vabs
  | 0x37 => (VR.read w).map .vneg
  | 0x38 => (VR.read w).map .vand
  | 0x39 => (VR.read w).map .vor
  | 0x3A => (VR.read w).map .vxor
  | 0x3B => (VR.read w).map .vnot
  | 0x3C => (VR.read w).map .vsll
  | 0x3D => (VR.read w).map .vsrl
  | 0x3E => (VR.read w).map .vsra
  | 0x3F => (VR.read w).map .vsel
  | 0x40 | 0x41 | 0x42 | 0x43 | 0x44 | 0x45 | 0x46 | 0x47 => (VR.read w).map (.vcmp (BitVec.ofNat 3 (w / 2 ^ 56)))
  | 0x48 => (VR.read w).map .vcvt
  | 0x49 => (VR.read w).map .vcvtb
  | 0x50 | 0x51 | 0x52 | 0x53 | 0x54 | 0x55 | 0x56 | 0x57 => (VR.read w).map (.vrsum (BitVec.ofNat 3 (w / 2 ^ 56)))
  | 0x58 | 0x59 | 0x5A | 0x5B | 0x5C | 0x5D | 0x5E | 0x5F => (VR.read w).map (.vrmax (BitVec.ofNat 3 (w / 2 ^ 56)))
  | 0x60 | 0x61 | 0x62 | 0x63 | 0x64 | 0x65 | 0x66 | 0x67 => (VR.read w).map (.vrmin (BitVec.ofNat 3 (w / 2 ^ 56)))
  | 0x68 | 0x69 | 0x6A | 0x6B | 0x6C | 0x6D | 0x6E | 0x6F => (VR.read w).map (.vscan (BitVec.ofNat 3 (w / 2 ^ 56)))
  | 0x70 => (VR.read w).map .vcomp2of4
  | 0x71 => (VR.read w).map .dot16E4
  | 0x72 => (VR.read w).map .radd
  | 0x73 => (VR.read w).map .rsub
  | 0x74 => (VM.read w).map .fprint
  | 0x75 => (VR.read w).map .vmov
  | 0x76 => (VR.read w).map .vbcast
  | 0x77 => (VR.read w).map .viota
  | 0x78 => (VR.read w).map .kand
  | 0x79 => (VR.read w).map .kor
  | 0x7A => (VR.read w).map .kxor
  | 0x7B => (VR.read w).map .knot
  | 0x7C => (VR.read w).map .kfromv
  | 0x7D => (VR.read w).map .vfromk
  | 0x80 => (VM.read w).map .vld
  | 0x81 => (VM.read w).map .vst
  | 0x89 => (VT.read w).map .tset
  | 0x8A => (VT.read w).map .tget
  | 0x8B => (VT.read w).map .tzero
  | 0x8C => (VM.read w).map .tld
  | 0x8D => (VM.read w).map .tst
  | 0x8E => (VT.read w).map .trsum
  | 0x90 => (VR.read w).map .qadd
  | 0x91 => (VR.read w).map .qsub
  | 0x92 => (VR.read w).map .qmul
  | 0x93 => (VR.read w).map .qfma
  | 0x94 => (VR.read w).map .qrelu
  | 0x95 => (VR.read w).map .qmake
  | 0x97 => (VR.read w).map .qscl
  | 0x98 => (VM.read w).map .qld
  | 0x99 => (VM.read w).map .qst
  | 0xA0 => (VC.read w).map .vloop
  | 0xA1 => (VC.read w).map .vcsrr
  | 0xA2 => (VC.read w).map .vcsrw
  | 0xF0 => (VC.read w).map .vidle
  | 0x88 => (VT.read w).map fun f => if f.zr == 1 then .tcfgZ f else .tcfg f
  | 0x96 => (VR.read w).map fun f => if f.vc == 1 then .qcolVar f else if f.vc == 2 then .qcolSd f else .qcolMean f
  | 0xA3 => (VC.read w).map fun f => if f.imm == 1 then .vrdvEnd f else .vrdv f
  | op =>
    if op / 8 == 31 then some (.vnop (BitVec.ofNat 3 op) (BitVec.ofNat 53 (w / 8)) (BitVec.ofNat 3 w)) else none

/-- The matrix-engine word by its opcode (R78). -/
def rawMe (w : Nat) : Option Instr :=
  match w / 2 ^ 58 % 64 with
  | 0x00 => (MX.read w).map .mmaF8
  | 0x01 => (MX.read w).map .mmaBf16
  | 0x02 => (MX.read w).map .mmaF32
  | 0x03 => (MX.read w).map .mmaB2e8
  | 0x04 => (MX.read w).map .mmaB2e4
  | 0x05 => (MX.read w).map .mmaMom
  | 0x06 => (MX.read w).map .mmv
  | 0x08 => (MX.read w).map .drain
  | 0x09 => (MX.read w).map .drainMom
  | 0x0A => (MX.read w).map .azero
  | 0x0B => (MX.read w).map .aload
  | 0x10 => (MC.read w).map .go
  | 0x11 => (MC.read w).map .mwait
  | 0x13 => (MC.read w).map .mcsrr
  | 0x14 => (MC.read w).map .mcsrw
  | 0x20 => (MC.read w).map .midle
  | 0x12 => (MC.read w).map fun f => if f.imm == 1 then .mrdvEnd f else .mrdv f
  | op =>
    if op / 8 == 7 then some (.mnop (BitVec.ofNat 3 op) (BitVec.ofNat 50 (w / 2 ^ 8)) (BitVec.ofNat 8 w)) else none

/-- The gather-unit word by its opcode (R79). -/
def rawGu (w : Nat) : Option Instr :=
  match w / 2 ^ 58 % 64 with
  | 0x00 => (GW.read w).map .gidx
  | 0x01 => (GW.read w).map .gfill
  | 0x02 => (GW.read w).map fun f => if f.did == 1 then .grdvEnd f else .grdv f
  | 0x03 => (GW.read w).map .gidle
  | op =>
    if op / 8 == 7 then some (.gnop (BitVec.ofNat 3 op) (BitVec.ofNat 50 (w / 2 ^ 8)) (BitVec.ofNat 8 w)) else none

/-- The Ladle word by its opcode (R82). -/
def rawLd (w : Nat) : Option Instr :=
  match w / 2 ^ 120 % 256 with
  | 0x00 => (LW.read w).map .copy1d
  | 0x01 => (LW.read w).map .copy2d
  | 0x02 => (LW.read w).map .copy3d
  | 0x03 => (LW.read w).map .copyx
  | 0x04 => (LW.read w).map .scan
  | 0x10 => (LW.read w).map .xchg
  | 0x11 => (LW.read w).map .cmpx
  | 0x18 => (LW.read w).map .enq
  | 0x19 => (LW.read w).map .deq
  | 0x20 => (LW.read w).map .qfence
  | 0x21 => (LW.read w).map .cwrite
  | 0x22 => (LW.read w).map .barrive
  | 0x30 => (LW.read w).map .lidle
  | 0x23 => (LW.read w).map fun f => if f.cnt == 1 then .lrdvEnd f else .lrdv f
  | 0x40 | 0x41 | 0x42 | 0x43 | 0x44 | 0x45 | 0x46 | 0x47 => (LW.read w).map (.copy1dAcc (BitVec.ofNat 3 (w / 2 ^ 120)))
  | 0x50 | 0x51 | 0x52 | 0x53 | 0x54 | 0x55 | 0x56 | 0x57 => (LW.read w).map (.copy2dAcc (BitVec.ofNat 3 (w / 2 ^ 120)))
  | 0x60 | 0x61 | 0x62 | 0x63 | 0x64 | 0x65 | 0x66 | 0x67 => (LW.read w).map (.copy3dAcc (BitVec.ofNat 3 (w / 2 ^ 120)))
  | op =>
    if op / 16 == 15 then some (.lnop (BitVec.ofNat 4 op) (BitVec.ofNat 112 (w / 2 ^ 8)) (BitVec.ofNat 8 w)) else none

/-- Bytes of one word of a stream (R63, R368). -/
def Strm.bytes : Strm → Nat
  | .sq => 4
  | .ve => 8
  | .me => 8
  | .gu => 8
  | .ld => 16
  | .sv => 4

/-- The word of a stream by its opcode map, before the field checks. -/
def rawDecode : Strm → Nat → Option Instr
  | .sq, w => rawSq w
  | .ve, w => rawVe w
  | .me, w => rawMe w
  | .gu, w => rawGu w
  | .ld, w => rawLd w
  | .sv, w => rawSv w

/-- The word of a stream, decoded and checked (R64). -/
def decodeWord (st : Strm) (w : Nat) : Except Reject Instr :=
  match rawDecode st w with
  | none => .error .illegalOpcode
  | some i => if i.wf then .ok i else .error .illegalField

/-- The value of little-endian bytes (R5). -/
def leNat : List Byte → Nat
  | [] => 0
  | b :: bs => b.toNat + 256 * leNat bs

/-- The first word in a stream's bytes (R63), with the bytes that follow it. -/
def decodeBytes (st : Strm) (bs : List Byte) : Except Reject (Instr × List Byte) :=
  if bs.length < st.bytes then .error .shortWord
  else (decodeWord st (leNat (bs.take st.bytes))).map fun i => (i, bs.drop st.bytes)

/-- The instruction read from a word whose bits the opcode table numbers.  A 32-bit word is a sequencer word, or a
sieve word where the sequencer has no such word; a 64-bit word a vector, matrix or gather word, in that order. -/
def decodeTableWord (nbits w : Nat) : Option Instr :=
  if nbits ≤ 32 then ((decodeWord .sq w).toOption).or (decodeWord .sv w).toOption
  else if nbits ≤ 64 then
    ((decodeWord .ve w).toOption).or (((decodeWord .me w).toOption).or (decodeWord .gu w).toOption)
  else (decodeWord .ld w).toOption

/-- The stream and the fields of an instruction's word from bit 0 upward; `none` for an event, which has no word. -/
def encodeFields : Instr → Option (Strm × List (Nat × Nat))
  | .add d a b i => some (.sq, [(3, i.toNat), (5, 0), (6, b.toNat), (6, a.toNat), (6, d.toNat), (6, 0)])
  | .sub d a b i => some (.sq, [(3, i.toNat), (5, 1), (6, b.toNat), (6, a.toNat), (6, d.toNat), (6, 0)])
  | .band d a b i => some (.sq, [(3, i.toNat), (5, 2), (6, b.toNat), (6, a.toNat), (6, d.toNat), (6, 0)])
  | .bor d a b i => some (.sq, [(3, i.toNat), (5, 3), (6, b.toNat), (6, a.toNat), (6, d.toNat), (6, 0)])
  | .bxor d a b i => some (.sq, [(3, i.toNat), (5, 4), (6, b.toNat), (6, a.toNat), (6, d.toNat), (6, 0)])
  | .sll d a b i => some (.sq, [(3, i.toNat), (5, 5), (6, b.toNat), (6, a.toNat), (6, d.toNat), (6, 0)])
  | .srl d a b i => some (.sq, [(3, i.toNat), (5, 6), (6, b.toNat), (6, a.toNat), (6, d.toNat), (6, 0)])
  | .sra d a b i => some (.sq, [(3, i.toNat), (5, 7), (6, b.toNat), (6, a.toNat), (6, d.toNat), (6, 0)])
  | .mul d a b i => some (.sq, [(3, i.toNat), (5, 8), (6, b.toNat), (6, a.toNat), (6, d.toNat), (6, 0)])
  | .mulh d a b i => some (.sq, [(3, i.toNat), (5, 9), (6, b.toNat), (6, a.toNat), (6, d.toNat), (6, 0)])
  | .mulhu d a b i => some (.sq, [(3, i.toNat), (5, 10), (6, b.toNat), (6, a.toNat), (6, d.toNat), (6, 0)])
  | .div d a b i => some (.sq, [(3, i.toNat), (5, 11), (6, b.toNat), (6, a.toNat), (6, d.toNat), (6, 0)])
  | .divu d a b i => some (.sq, [(3, i.toNat), (5, 12), (6, b.toNat), (6, a.toNat), (6, d.toNat), (6, 0)])
  | .rem d a b i => some (.sq, [(3, i.toNat), (5, 13), (6, b.toNat), (6, a.toNat), (6, d.toNat), (6, 0)])
  | .remu d a b i => some (.sq, [(3, i.toNat), (5, 14), (6, b.toNat), (6, a.toNat), (6, d.toNat), (6, 0)])
  | .slt d a b i => some (.sq, [(3, i.toNat), (5, 15), (6, b.toNat), (6, a.toNat), (6, d.toNat), (6, 0)])
  | .sltu d a b i => some (.sq, [(3, i.toNat), (5, 16), (6, b.toNat), (6, a.toNat), (6, d.toNat), (6, 0)])
  | .min d a b i => some (.sq, [(3, i.toNat), (5, 17), (6, b.toNat), (6, a.toNat), (6, d.toNat), (6, 0)])
  | .max d a b i => some (.sq, [(3, i.toNat), (5, 18), (6, b.toNat), (6, a.toNat), (6, d.toNat), (6, 0)])
  | .addi d a m i => some (.sq, [(3, i.toNat), (11, m.toNat), (6, a.toNat), (6, d.toNat), (6, 1)])
  | .andi d a m i => some (.sq, [(3, i.toNat), (11, m.toNat), (6, a.toNat), (6, d.toNat), (6, 2)])
  | .ori d a m i => some (.sq, [(3, i.toNat), (11, m.toNat), (6, a.toNat), (6, d.toNat), (6, 3)])
  | .xori d a m i => some (.sq, [(3, i.toNat), (11, m.toNat), (6, a.toNat), (6, d.toNat), (6, 4)])
  | .slti d a m i => some (.sq, [(3, i.toNat), (11, m.toNat), (6, a.toNat), (6, d.toNat), (6, 5)])
  | .slli d a s i => some (.sq, [(3, i.toNat), (6, s.toNat), (5, 0), (6, a.toNat), (6, d.toNat), (6, 6)])
  | .srli d a s i => some (.sq, [(3, i.toNat), (6, s.toNat), (5, 0), (6, a.toNat), (6, d.toNat), (6, 7)])
  | .srai d a s i => some (.sq, [(3, i.toNat), (6, s.toNat), (5, 0), (6, a.toNat), (6, d.toNat), (6, 8)])
  | .insw0 d m i => some (.sq, [(3, i.toNat), (1, 0), (16, m.toNat), (6, d.toNat), (6, 9)])
  | .insw16 d m i => some (.sq, [(3, i.toNat), (1, 0), (16, m.toNat), (6, d.toNat), (6, 10)])
  | .insw32 d m i => some (.sq, [(3, i.toNat), (1, 0), (16, m.toNat), (6, d.toNat), (6, 11)])
  | .insw48 d m i => some (.sq, [(3, i.toNat), (1, 0), (16, m.toNat), (6, d.toNat), (6, 12)])
  | .ld d a c z s o i => some (.sq, [(3, i.toNat), (4, o.toNat), (1, s.toNat), (2, z.toNat), (4, c.toNat), (6, a.toNat), (6, d.toNat), (6, 16)])
  | .st d a c z o i => some (.sq, [(3, i.toNat), (4, o.toNat), (1, 0), (2, z.toNat), (4, c.toNat), (6, a.toNat), (6, d.toNat), (6, 17)])
  | .beq a b o i => some (.sq, [(3, i.toNat), (11, o.toNat), (6, b.toNat), (6, a.toNat), (6, 24)])
  | .bne a b o i => some (.sq, [(3, i.toNat), (11, o.toNat), (6, b.toNat), (6, a.toNat), (6, 25)])
  | .blt a b o i => some (.sq, [(3, i.toNat), (11, o.toNat), (6, b.toNat), (6, a.toNat), (6, 26)])
  | .bge a b o i => some (.sq, [(3, i.toNat), (11, o.toNat), (6, b.toNat), (6, a.toNat), (6, 27)])
  | .bltu a b o i => some (.sq, [(3, i.toNat), (11, o.toNat), (6, b.toNat), (6, a.toNat), (6, 28)])
  | .bgeu a b o i => some (.sq, [(3, i.toNat), (11, o.toNat), (6, b.toNat), (6, a.toNat), (6, 29)])
  | .j o i => some (.sq, [(3, i.toNat), (23, o.toNat), (6, 30)])
  | .jal o i => some (.sq, [(3, i.toNat), (23, o.toNat), (6, 31)])
  | .jr a m i => some (.sq, [(3, i.toNat), (11, m.toNat), (6, a.toNat), (6, 0), (6, 32)])
  | .jalr a m i => some (.sq, [(3, i.toNat), (11, m.toNat), (6, a.toNat), (6, 0), (6, 33)])
  | .loop a e i => some (.sq, [(3, i.toNat), (17, e.toNat), (6, a.toNat), (6, 34)])
  | .loopi c e i => some (.sq, [(3, i.toNat), (11, e.toNat), (12, c.toNat), (6, 35)])
  | .hld h a i => some (.sq, [(3, i.toNat), (13, 0), (6, a.toNat), (4, h.toNat), (6, 40)])
  | .hst h a i => some (.sq, [(3, i.toNat), (13, 0), (6, a.toNat), (4, h.toNat), (6, 41)])
  | .dput h n i => some (.sq, [(3, i.toNat), (5, 0), (8, n.toNat), (6, 0), (4, h.toNat), (6, 42)])
  | .dget h n i => some (.sq, [(3, i.toNat), (5, 0), (8, n.toNat), (6, 0), (4, h.toNat), (6, 43)])
  | .hset h a f i => some (.sq, [(3, i.toNat), (1, 0), (4, f.toNat), (8, 0), (6, a.toNat), (4, h.toNat), (6, 44)])
  | .hget h a f i => some (.sq, [(3, i.toNat), (1, 0), (4, f.toNat), (8, 0), (6, a.toNat), (4, h.toNat), (6, 45)])
  | .lntw a l f i => some (.sq, [(3, i.toNat), (11, 0), (3, f.toNat), (3, l.toNat), (6, a.toNat), (6, 46)])
  | .fork a m i => some (.sq, [(3, i.toNat), (11, m.toNat), (6, a.toNat), (6, 0), (6, 48)])
  | .rdv m i => some (.sq, [(3, i.toNat), (4, m.toNat), (19, 0), (6, 49)])
  | .rendezvousRelease => none
  | .waitf n g i => some (.sq, [(3, i.toNat), (4, g.toNat), (7, n.toNat), (12, 0), (6, 50)])
  | .waite e i => some (.sq, [(3, i.toNat), (8, e.toNat), (15, 0), (6, 51)])
  | .waita d a b c i => some (.sq, [(3, i.toNat), (2, c.toNat), (3, 0), (6, b.toNat), (6, a.toNat), (6, d.toNat), (6, 52)])
  | .bara x b i => some (.sq, [(3, i.toNat), (6, b.toNat), (1, x.toNat), (16, 0), (6, 53)])
  | .barw d x b i => some (.sq, [(3, i.toNat), (6, b.toNat), (1, x.toNat), (10, 0), (6, d.toNat), (6, 54)])
  | .evset e i => some (.sq, [(3, i.toNat), (8, e.toNat), (15, 0), (6, 55)])
  | .evclr e i => some (.sq, [(3, i.toNat), (8, e.toNat), (15, 0), (6, 56)])
  | .fenceC m s i => some (.sq, [(3, i.toNat), (3, 0), (4, s.toNat), (16, m.toNat), (6, 57)])
  | .clkdiv a i => some (.sq, [(3, i.toNat), (11, 0), (6, a.toNat), (6, 0), (6, 58)])
  | .divisorSwitch => none
  | .swpt n i => some (.sq, [(3, i.toNat), (10, n.toNat), (13, 0), (6, 59)])
  | .variantSwitch => none
  | .idle n i => some (.sq, [(3, i.toNat), (23, n.toNat), (6, 61)])
  | .csrr d x i => some (.sq, [(3, i.toNat), (5, 0), (6, x.toNat), (6, 0), (6, d.toNat), (6, 62)])
  | .csrw a x i => some (.sq, [(3, i.toNat), (5, 1), (6, x.toNat), (6, a.toNat), (6, 0), (6, 62)])
  | .yield i => some (.sq, [(3, i.toNat), (23, 2), (6, 62)])
  | .trap x i => some (.sq, [(3, i.toNat), (5, 3), (6, x.toNat), (12, 0), (6, 62)])
  | .exit i => some (.sq, [(3, i.toNat), (23, 3), (6, 62)])
  | .kernelExitReport => none
  | .rett i => some (.sq, [(3, i.toNat), (23, 4), (6, 62)])
  | .launch d a i => some (.sq, [(3, i.toNat), (11, 5), (6, a.toNat), (6, d.toNat), (6, 62)])
  | .bkpt i => some (.sq, [(3, i.toNat), (23, 6), (6, 62)])
  | .nop x i => some (.sq, [(3, i.toNat), (23, x.toNat), (6, 63)])
  | .outwardActionPerform => none
  | .tasterRetry => none
  | .resultLand => none
  | .farLoadReturn => none
  | .coreResume => none
  | .vadd t f => some (.ve, f.fields ++ [(3, t.toNat), (5, 0)])
  | .vsub t f => some (.ve, f.fields ++ [(3, t.toNat), (5, 1)])
  | .vmul t f => some (.ve, f.fields ++ [(3, t.toNat), (5, 2)])
  | .vfma t f => some (.ve, f.fields ++ [(3, t.toNat), (5, 3)])
  | .vmin t f => some (.ve, f.fields ++ [(3, t.toNat), (5, 4)])
  | .vmax t f => some (.ve, f.fields ++ [(3, t.toNat), (5, 5)])
  | .vdiv f => some (.ve, f.fields ++ [(8, 0x30)])
  | .vsqrt f => some (.ve, f.fields ++ [(8, 0x31)])
  | .vrcp f => some (.ve, f.fields ++ [(8, 0x32)])
  | .vrsq f => some (.ve, f.fields ++ [(8, 0x33)])
  | .vexp2 f => some (.ve, f.fields ++ [(8, 0x34)])
  | .vlog2 f => some (.ve, f.fields ++ [(8, 0x35)])
  | .vabs f => some (.ve, f.fields ++ [(8, 0x36)])
  | .vneg f => some (.ve, f.fields ++ [(8, 0x37)])
  | .vand f => some (.ve, f.fields ++ [(8, 0x38)])
  | .vor f => some (.ve, f.fields ++ [(8, 0x39)])
  | .vxor f => some (.ve, f.fields ++ [(8, 0x3A)])
  | .vnot f => some (.ve, f.fields ++ [(8, 0x3B)])
  | .vsll f => some (.ve, f.fields ++ [(8, 0x3C)])
  | .vsrl f => some (.ve, f.fields ++ [(8, 0x3D)])
  | .vsra f => some (.ve, f.fields ++ [(8, 0x3E)])
  | .vsel f => some (.ve, f.fields ++ [(8, 0x3F)])
  | .vcmp t f => some (.ve, f.fields ++ [(3, t.toNat), (5, 8)])
  | .vcvt f => some (.ve, f.fields ++ [(8, 0x48)])
  | .vcvtb f => some (.ve, f.fields ++ [(8, 0x49)])
  | .vrsum t f => some (.ve, f.fields ++ [(3, t.toNat), (5, 10)])
  | .vrmax t f => some (.ve, f.fields ++ [(3, t.toNat), (5, 11)])
  | .vrmin t f => some (.ve, f.fields ++ [(3, t.toNat), (5, 12)])
  | .vscan t f => some (.ve, f.fields ++ [(3, t.toNat), (5, 13)])
  | .vcomp2of4 f => some (.ve, f.fields ++ [(8, 0x70)])
  | .dot16E4 f => some (.ve, f.fields ++ [(8, 0x71)])
  | .radd f => some (.ve, f.fields ++ [(8, 0x72)])
  | .rsub f => some (.ve, f.fields ++ [(8, 0x73)])
  | .fprint f => some (.ve, f.fields ++ [(8, 0x74)])
  | .vmov f => some (.ve, f.fields ++ [(8, 0x75)])
  | .vbcast f => some (.ve, f.fields ++ [(8, 0x76)])
  | .viota f => some (.ve, f.fields ++ [(8, 0x77)])
  | .kand f => some (.ve, f.fields ++ [(8, 0x78)])
  | .kor f => some (.ve, f.fields ++ [(8, 0x79)])
  | .kxor f => some (.ve, f.fields ++ [(8, 0x7A)])
  | .knot f => some (.ve, f.fields ++ [(8, 0x7B)])
  | .kfromv f => some (.ve, f.fields ++ [(8, 0x7C)])
  | .vfromk f => some (.ve, f.fields ++ [(8, 0x7D)])
  | .vld f => some (.ve, f.fields ++ [(8, 0x80)])
  | .vst f => some (.ve, f.fields ++ [(8, 0x81)])
  | .tcfg f => some (.ve, f.fields ++ [(8, 0x88)])
  | .tcfgZ f => some (.ve, f.fields ++ [(8, 0x88)])
  | .tset f => some (.ve, f.fields ++ [(8, 0x89)])
  | .tget f => some (.ve, f.fields ++ [(8, 0x8A)])
  | .tzero f => some (.ve, f.fields ++ [(8, 0x8B)])
  | .tld f => some (.ve, f.fields ++ [(8, 0x8C)])
  | .tst f => some (.ve, f.fields ++ [(8, 0x8D)])
  | .trsum f => some (.ve, f.fields ++ [(8, 0x8E)])
  | .tileSwap => none
  | .qadd f => some (.ve, f.fields ++ [(8, 0x90)])
  | .qsub f => some (.ve, f.fields ++ [(8, 0x91)])
  | .qmul f => some (.ve, f.fields ++ [(8, 0x92)])
  | .qfma f => some (.ve, f.fields ++ [(8, 0x93)])
  | .qrelu f => some (.ve, f.fields ++ [(8, 0x94)])
  | .qmake f => some (.ve, f.fields ++ [(8, 0x95)])
  | .qcolMean f => some (.ve, f.fields ++ [(8, 0x96)])
  | .qcolVar f => some (.ve, f.fields ++ [(8, 0x96)])
  | .qcolSd f => some (.ve, f.fields ++ [(8, 0x96)])
  | .qscl f => some (.ve, f.fields ++ [(8, 0x97)])
  | .qld f => some (.ve, f.fields ++ [(8, 0x98)])
  | .qst f => some (.ve, f.fields ++ [(8, 0x99)])
  | .vloop f => some (.ve, f.fields ++ [(8, 0xA0)])
  | .vcsrr f => some (.ve, f.fields ++ [(8, 0xA1)])
  | .vcsrw f => some (.ve, f.fields ++ [(8, 0xA2)])
  | .vrdv f => some (.ve, f.fields ++ [(8, 0xA3)])
  | .vrdvEnd f => some (.ve, f.fields ++ [(8, 0xA3)])
  | .vidle f => some (.ve, f.fields ++ [(8, 0xF0)])
  | .vnop p x i => some (.ve, [(3, i.toNat), (53, x.toNat), (3, p.toNat), (5, 31)])
  | .mmaF8 f => some (.me, f.fields ++ [(6, 0x00)])
  | .mmaBf16 f => some (.me, f.fields ++ [(6, 0x01)])
  | .mmaF32 f => some (.me, f.fields ++ [(6, 0x02)])
  | .mmaB2e8 f => some (.me, f.fields ++ [(6, 0x03)])
  | .mmaB2e4 f => some (.me, f.fields ++ [(6, 0x04)])
  | .mmaMom f => some (.me, f.fields ++ [(6, 0x05)])
  | .mmv f => some (.me, f.fields ++ [(6, 0x06)])
  | .drain f => some (.me, f.fields ++ [(6, 0x08)])
  | .drainMom f => some (.me, f.fields ++ [(6, 0x09)])
  | .azero f => some (.me, f.fields ++ [(6, 0x0A)])
  | .aload f => some (.me, f.fields ++ [(6, 0x0B)])
  | .asyncCommandRun => none
  | .matrixReplay => none
  | .go f => some (.me, f.fields ++ [(6, 0x10)])
  | .mwait f => some (.me, f.fields ++ [(6, 0x11)])
  | .mrdv f => some (.me, f.fields ++ [(6, 0x12)])
  | .mrdvEnd f => some (.me, f.fields ++ [(6, 0x12)])
  | .mcsrr f => some (.me, f.fields ++ [(6, 0x13)])
  | .mcsrw f => some (.me, f.fields ++ [(6, 0x14)])
  | .midle f => some (.me, f.fields ++ [(6, 0x20)])
  | .mnop p x i => some (.me, [(8, i.toNat), (50, x.toNat), (3, p.toNat), (3, 7)])
  | .gidx f => some (.gu, f.fields ++ [(6, 0x00)])
  | .gfill f => some (.gu, f.fields ++ [(6, 0x01)])
  | .grdv f => some (.gu, f.fields ++ [(6, 0x02)])
  | .grdvEnd f => some (.gu, f.fields ++ [(6, 0x02)])
  | .gidle f => some (.gu, f.fields ++ [(6, 0x03)])
  | .gnop p x i => some (.gu, [(8, i.toNat), (50, x.toNat), (3, p.toNat), (3, 7)])
  | .copy1d f => some (.ld, f.fields ++ [(8, 0x00)])
  | .copy2d f => some (.ld, f.fields ++ [(8, 0x01)])
  | .copy3d f => some (.ld, f.fields ++ [(8, 0x02)])
  | .copyx f => some (.ld, f.fields ++ [(8, 0x03)])
  | .scan f => some (.ld, f.fields ++ [(8, 0x04)])
  | .xchg f => some (.ld, f.fields ++ [(8, 0x10)])
  | .cmpx f => some (.ld, f.fields ++ [(8, 0x11)])
  | .enq f => some (.ld, f.fields ++ [(8, 0x18)])
  | .deq f => some (.ld, f.fields ++ [(8, 0x19)])
  | .copy1dAcc t f => some (.ld, f.fields ++ [(3, t.toNat), (5, 8)])
  | .copy2dAcc t f => some (.ld, f.fields ++ [(3, t.toNat), (5, 10)])
  | .copy3dAcc t f => some (.ld, f.fields ++ [(3, t.toNat), (5, 12)])
  | .qfence f => some (.ld, f.fields ++ [(8, 0x20)])
  | .cwrite f => some (.ld, f.fields ++ [(8, 0x21)])
  | .barrive f => some (.ld, f.fields ++ [(8, 0x22)])
  | .lrdv f => some (.ld, f.fields ++ [(8, 0x23)])
  | .lrdvEnd f => some (.ld, f.fields ++ [(8, 0x23)])
  | .lidle f => some (.ld, f.fields ++ [(8, 0x30)])
  | .lnop p x i => some (.ld, [(8, i.toNat), (112, x.toNat), (4, p.toNat), (4, 15)])
  | .portAction => none
  | .ordContributionApply => none
  | .ladleCommandRetire => none
  | .ladleReperform => none
  | .barrierPhaseComplete => none
  | .movableTake => none
  | .translationWalk => none
  | .asyncTrapDelivery => none
  | .preemptRequest => none
  | .escalateToLoopDrain => none
  | .escalateToTrap => none
  | .loopDrainStop => none
  | .trapGradeStop => none
  | .evict => none
  | .contextResume => none
  | .resumeRequest => none
  | .kill => none
  | .killQuiesceDone => none
  | .hostEntrySubmit => none
  | .launchStart => none
  | .launchFinish => none
  | .firmwareKernelStart => none
  | .ttFire => none
  | .hobRotate => none
  | .hobcfgWrite => none
  | .planSelect => none
  | .invgo => none
  | .invalidationComplete => none
  | .hostApertureAccess => none
  | .notifyMessage => none
  | .write => none
  | .wreduce => none
  | .read => none
  | .readrsp => none
  | .cadd => none
  | .packetDrop => none
  | .portRemoved => none
  | .planreq => none
  | .planrel => none
  | .setupReserve => none
  | .setupGrant => none
  | .setupRefuse => none
  | .setupCommit => none
  | .setupRelease => none
  | .setupTimeout => none
  | .triggerWrite => none
  | .qpPost => none
  | .workEntryFire => none
  | .sievePacket => none
  | .sieveAdd d a b => some (.sv, [(14, 0), (4, b.toNat), (4, a.toNat), (4, d.toNat), (6, 0)])
  | .sieveSub d a b => some (.sv, [(14, 0), (4, b.toNat), (4, a.toNat), (4, d.toNat), (6, 1)])
  | .sieveAnd d a b => some (.sv, [(14, 0), (4, b.toNat), (4, a.toNat), (4, d.toNat), (6, 2)])
  | .sieveOr d a b => some (.sv, [(14, 0), (4, b.toNat), (4, a.toNat), (4, d.toNat), (6, 3)])
  | .sieveXor d a b => some (.sv, [(14, 0), (4, b.toNat), (4, a.toNat), (4, d.toNat), (6, 4)])
  | .sieveShl d a b => some (.sv, [(14, 0), (4, b.toNat), (4, a.toNat), (4, d.toNat), (6, 5)])
  | .sieveShr d a b => some (.sv, [(14, 0), (4, b.toNat), (4, a.toNat), (4, d.toNat), (6, 6)])
  | .sieveSar d a b => some (.sv, [(14, 0), (4, b.toNat), (4, a.toNat), (4, d.toNat), (6, 7)])
  | .sieveSltu d a b => some (.sv, [(14, 0), (4, b.toNat), (4, a.toNat), (4, d.toNat), (6, 8)])
  | .sieveAddi d a m => some (.sv, [(18, m.toNat), (4, a.toNat), (4, d.toNat), (6, 9)])
  | .sieveMovi d m => some (.sv, [(18, m.toNat), (4, 0), (4, d.toNat), (6, 10)])
  | .sieveMovhi d m => some (.sv, [(14, m.toNat), (8, 0), (4, d.toNat), (6, 11)])
  | .sieveVadd d a b t m => some (.sv, [(9, 0), (2, m.toNat), (3, t.toNat), (4, b.toNat), (4, a.toNat), (4, d.toNat), (6, 16)])
  | .sieveVsub d a b t m => some (.sv, [(9, 0), (2, m.toNat), (3, t.toNat), (4, b.toNat), (4, a.toNat), (4, d.toNat), (6, 17)])
  | .sieveVmin d a b t m => some (.sv, [(9, 0), (2, m.toNat), (3, t.toNat), (4, b.toNat), (4, a.toNat), (4, d.toNat), (6, 18)])
  | .sieveVmax d a b t m => some (.sv, [(9, 0), (2, m.toNat), (3, t.toNat), (4, b.toNat), (4, a.toNat), (4, d.toNat), (6, 19)])
  | .sieveVmul d a b t m => some (.sv, [(9, 0), (2, m.toNat), (3, t.toNat), (4, b.toNat), (4, a.toNat), (4, d.toNat), (6, 20)])
  | .vscn d a b t m => some (.sv, [(9, 0), (2, m.toNat), (3, t.toNat), (4, b.toNat), (4, a.toNat), (4, d.toNat), (6, 21)])
  | .vsplat d a m => some (.sv, [(9, 0), (2, m.toNat), (7, 0), (4, a.toNat), (4, d.toNat), (6, 22)])
  | .sieveVcmp d a b t m c => some (.sv, [(6, 0), (3, c.toNat), (2, m.toNat), (3, t.toNat), (4, b.toNat), (4, a.toNat), (2, d.toNat), (2, 0), (6, 23)])
  | .sieveVsel d a b m => some (.sv, [(9, 0), (2, m.toNat), (3, 0), (4, b.toNat), (4, a.toNat), (4, d.toNat), (6, 24)])
  | .vext d a l => some (.sv, [(4, l.toNat), (14, 0), (4, a.toNat), (4, d.toNat), (6, 25)])
  | .vins d a l => some (.sv, [(4, l.toNat), (14, 0), (4, a.toNat), (4, d.toNat), (6, 26)])
  | .pld d a f => some (.sv, [(6, f.toNat), (12, 0), (4, a.toNat), (4, d.toNat), (6, 32)])
  | .pst d a f => some (.sv, [(6, f.toNat), (12, 0), (4, a.toNat), (4, d.toNat), (6, 33)])
  | .fld d w => some (.sv, [(2, w.toNat), (20, 0), (4, d.toNat), (6, 34)])
  | .fst a w => some (.sv, [(2, w.toNat), (16, 0), (4, a.toNat), (4, 0), (6, 35)])
  | .hdr d f => some (.sv, [(3, f.toNat), (19, 0), (4, d.toNat), (6, 36)])
  | .sieveBeq a b o => some (.sv, [(18, o.toNat), (4, b.toNat), (4, a.toNat), (6, 40)])
  | .sieveBne a b o => some (.sv, [(18, o.toNat), (4, b.toNat), (4, a.toNat), (6, 41)])
  | .sieveBltu a b o => some (.sv, [(18, o.toNat), (4, b.toNat), (4, a.toNat), (6, 42)])
  | .sieveLoop n e => some (.sv, [(10, e.toNat), (8, n.toNat), (8, 0), (6, 43)])
  | .send a b => some (.sv, [(14, 0), (4, b.toNat), (4, a.toNat), (4, 0), (6, 44)])
  | .drop => some (.sv, [(26, 0), (6, 45)])
  | .sieveDone => some (.sv, [(26, 0), (6, 46)])
  | .traps n => some (.sv, [(8, n.toNat), (18, 0), (6, 47)])
  | .snop o x => some (.sv, [(26, x.toNat), (3, o.toNat), (3, 7)])
  | .loadgo => none
  | .loadCheckDone => none
  | .partitionUnload => none
  | .syncMessage => none
  | .followUpMessage => none
  | .delayRespMessage => none
  | .announceMessage => none
  | .syncTimeout => none
  | .tokenGrant => none
  | .leaseExpiry => none
  | .ptrade => none
  | .tokenOffer => none
  | .tokenAccept => none
  | .tokenCommit => none
  | .powerOverdraw => none
  | .simmerTick => none
  | .plock => none
  | .plvlthWrite => none
  | .prampWrite => none
  | .registerWrite => none
  | .status => none
  | .logread => none
  | .health => none
  | .attest => none
  | .pregrd => none
  | .pregwr => none
  | .fnreset => none
  | .fwstage => none
  | .correctedWriteback => none
  | .bankFailure => none
  | .rebuildWalk => none
  | .scrubRead => none
  | .scrubWriteback => none
  | .violation => none
  | .partRemoval => none
  | .powerGood => none
  | .romVerify => none
  | .selftest => none
  | .hbmtrain => none
  | .links => none
  | .ready => none
  | .moduleReset => none
  | .patternTestGo => none
  | .patternTestDone => none
  | .phySettingWrite => none
  | .portRetrain => none
  | .delayReq => none
  | .mailboxUnknownOp => none

/-- The stream and the word of an instruction. -/
def encode (i : Instr) : Option (Strm × Nat) := (encodeFields i).map fun p => (p.1, pack p.2)

/-- The little-endian bytes of a value, `n` of them (R5). -/
def leBytes : Nat → Nat → List Byte
  | 0, _ => []
  | n + 1, v => BitVec.ofNat 8 v :: leBytes n (v / 256)

/-- The stream of an instruction, `none` for an event. -/
def Instr.strm (i : Instr) : Option Strm := (encodeFields i).map (·.1)

end Sys2Proof
end

