-- ==== Sys2Proof/Config.lean ====
section
/-!
DEFINITION. What one part or its firmware fixes, and the free values: what the spec leaves open, constants with no body,
so that no statement can lean on their value.
-/

namespace Sys2Proof.Config

/-- Which of several enabled actions of independent agents comes next, and what an agent free in time decides, by a
counter of such choices (00_scope R3, 02_core_state R55).  Log entry 1. -/
opaque pick : Nat → Nat

/-- What CSRR of CTIME reads before the opening rendezvous of a kernel (02_core_state R50).  Log entry 2. -/
opaque earlyTime : Nat → BitVec 64

/-- The lanes that pass pattern test number n (bits 0 to 7, and bit 8 the spare), by the registers under test
(21_bringup R412): what the silicon measures.  Log entry 3. -/
opaque patternTest : Nat → BitVec 9

/-- Whether a self test, training or link step of bring-up passes on its n-th run (21_bringup R405).  Log entry 3. -/
opaque stepPasses : Nat → Bool

/-- The vendor key hash fused into I/O die 0 (21_bringup R407).  Log entry 4. -/
opaque vendorKeyHash : BitVec 256

/-- The module's identity key pair, modulus and private exponent (21_bringup R408).  Log entry 4. -/
opaque identityModulus : BitVec 3072
opaque identityExponent : BitVec 3072

/-- The identity certificate in the boot flash (21_bringup R408).  Log entry 4. -/
opaque certificate : List (BitVec 8)

/-- The 32-byte salt of the n-th signature (21_bringup R407).  Log entry 4. -/
opaque salt : Nat → BitVec 256

/-- The digest M0 of the boot ROM (21_bringup R408).  Log entry 4. -/
opaque romDigest : BitVec 256

/-- Combining nodes of collective plans that one I/O die has room for (18_fabric R360).  Log entry 24. -/
opaque planNodes : Nat

/-- Physical die barriers of a die beyond the 64 that one kernel may declare (14_contexts R297).  Log entry 60. -/
opaque moreBarriers : Nat

/-- The CXL port to which firmware confines the second tier at boot, none where it interleaves the tier across both ports
at 4 KiB (18_fabric R345).  Log entry 5. -/
opaque cxlConfined : Option Nat

/-- The low bits of a value that the spec leaves open in a response or a log record, by a counter of such values.
Log entry 2. -/
opaque freeWord : Nat → BitVec 64

/-- A wide value that the spec leaves open, by a counter of such values: what a moment word, a matrix command or a gather
read makes of sources that a handler has changed (14_contexts R314).  Log entry 2. -/
opaque freeWide : Nat → BitVec 2048

/-- The 32 KiB slot of the scratchpad of die 0's service core in which firmware keeps the log (21_bringup R410).
Log entry 5. -/
opaque logSlot : BitVec 6

/-- The address firmware gives the region-node pool, module HBM, 512 MiB (18_fabric R341).  Log entry 5. -/
def poolBase : Nat := 0x10000000

/-- Bytes of the region-node pool (18_fabric R341). -/
def poolSize : Nat := 0x20000000

/-- The module HBM address of the module root node (14_contexts R287).  Log entry 5. -/
def rootNode : Nat := poolBase

/-- The module HBM address of the ASID root table (14_contexts R317).  Log entry 5. -/
def asidRoot : Nat := 0x40000000

/-- This module's number on the fabric (18_fabric R348).  Log entry 5. -/
def moduleId : Nat := 0

/-- The virtual address at which the loader places the HBM image of the kernel image at a module HBM address
(08_assembler R223).  Log entry 5. -/
opaque imageBase : Nat → BitVec 52

/-- Compute dies, cores of a die, fabric ports of an I/O die (00_scope R1). -/
def dies : Nat := 8
def coresPerDie : Nat := 192
def portsPerIod : Nat := 12

/-- What firmware writes in phase LINKS (21_bringup R405), which the spec leaves to it: the routing tables, by I/O die and
destination module (18_fabric R349); the dwords of HBM, by module HBM address, of the ASID root table and the region-node
pool (14_contexts R317, 18_fabric R341); the power registers by offset (19_power R379); and TMCTL (18_fabric R353).
Log entry 5. -/
opaque bootRoute : Nat → Nat → BitVec 16
opaque bootDwords : List (Nat × BitVec 64)
opaque bootPower : Nat → BitVec 64
opaque bootTmctl : BitVec 28

/-- What a pattern test writes on the pseudo-channel of a stack: offsets in the HBM of its die, and bytes (21_bringup R412).
Log entry 3. -/
opaque testWrites : Nat → Nat → List (Nat × BitVec 8)

/-- Reference cycles per 25 ns of the time base: 3.76 GHz is 94 cycles in 25 ns (00_scope R1, 18_fabric R352). -/
def refPer25ns : Nat := 94

/-- The time for which R346 lets a port retrain, and other waits of the spec, in nanoseconds. -/
def ms : Nat := 1000000
def us : Nat := 1000

end Sys2Proof.Config
end

