-- ==== Sys2Proof/Machine/State.lean ====
section
/-!
DEFINITION. The machine's state as plain data: the cores with their contexts, the compute dies, the I/O dies, the host
links, launches, power, time and bring-up.  A field's docstring names the rule that gives it.  Default values are the
values at reset.
-/

namespace Sys2Proof.Machine

/-- Reasons a step stops the machine.  There is none: every event the spec describes has an effect, and an event whose
condition does not hold changes nothing. -/
inductive Fault
deriving DecidableEq, Repr

/-- Reasons the model gives no step. -/
inductive Refusal where
  /-- Raised by an arm of `exec` whose instruction has no meaning yet; safe, since it only stops. -/
  | notModelled (mnemonic : String)
deriving DecidableEq, Repr

/-- An entry of a hardware loop stack (R97), with the address of the instruction that opened it (R151). -/
structure Loop where
  start : Nat
  stop : Nat
  rem : Nat
  opener : Nat
deriving DecidableEq, Repr

/-- Whether a stream stands at its rendezvous instruction, and in which form (R107). -/
inductive Park where
  | no | stand | ending
deriving DecidableEq, Repr

/-- One execution stream of a core: program counter (R63), the core time at which its next word is due (R55), its loop
stack (R97, R150) and its LOOPSAVE (R44). -/
structure Stream where
  on : Bool := false
  pc : BitVec 64 := 0
  due : Nat := 0
  park : Park := .no
  stalled : Bool := false
  loops : List Loop := []
  save : BitVec 64 := 0
deriving DecidableEq, Repr

/-- What an instruction reads of its engine's control registers at issue (R20, R21, R44), and its lane mask. -/
structure Env where
  rm : BitVec 2 := 0
  sat : Bool := false
  mom : BitVec 32 := 0
  km : BitVec 32 := 0
deriving DecidableEq, Repr

/-- A piece of an element in memory: bits [dst + w − 1 : dst] of a register stand at bit `sh` of the byte at `loc`. -/
structure Piece where
  dst : Nat
  w : Nat
  loc : Loc
  sh : Nat
deriving DecidableEq, Repr

/-- A plane's block tag (R167): block lengths, and E and D of every row group and column group. -/
structure Tag where
  la : Nat
  lb : Nat
  ea : List (Nat × Nat)
  eb : List (Nat × Nat)
deriving DecidableEq, Repr

/-- The shape of a matrix command (R155): which form, with MMV told by its operands' class. -/
inductive MForm where
  | f8 | bf16 | f32 | b2e8 | b2e4 | mom
deriving DecidableEq, Repr

/-- A matrix command with the copies it took at issue (R159, R170, R173, R182): operands, nest, latch, mode; of a queued one
its next step, the sibling that took it, and the time `ref` before which it neither steps again nor retires; of a retained
word that is no multiply, the planes it names and whether it loads them (R177). -/
structure Job where
  form : MForm := .f8
  mmv : Bool := false
  acc : Nat := 0
  da : BitVec 256 := 0
  db : BitVec 256 := 0
  ta : Bool := false
  tb : Bool := false
  ga : Bool := false
  zc : Bool := false
  tsm : Bool := false
  mov : Bool := false
  asy : Bool := false
  lvl : Nat := 0
  nest : List (BitVec 144) := []
  pa : Int := 0
  pb : Int := 0
  ix : List (BitVec 32) := []
  env : Env := {}
  next : Nat := 0
  total : Nat := 0
  id : Nat := 0
  taker : Option Nat := none
  ready : Nat := 0
  kept : List Nat := []
  load : Bool := false
deriving DecidableEq, Repr

/-- The ME's operand staging arrays A and B (R39): the operands of the latest step, and the vectors of B that an MMV holds
resident, by command and position (R172). -/
structure Stage where
  a : List (Option Nat) := []
  b : List (Option Nat) := []
  held : List ((Nat × Int) × List (Option Nat)) := []
deriving DecidableEq, Repr

/-- An action of the sequencer that reaches beyond the core (R88) or a register write the Taster holds (R119). -/
inductive Out where
  | store (loc : Loc) (bytes : List Byte) (cls : BitVec 4)
  /-- A further piece of a store that spans several units of its memory (R263). -/
  | piece (loc : Loc) (bytes : List Byte) (cls : BitVec 4)
  | evset (e : Nat)
  | evclr (e : Nat)
  | bara (die : Bool) (b : Nat)
  | launch (d : Nat) (entry : List Byte) (node : Nat)
  /-- FORK's streams, whose start the Taster compares (R397). -/
  | fork (en : Nat)
  | exitKernel
  | csrw (x : Nat) (v : BitVec 64)
deriving DecidableEq, Repr

/-- A condition that freezes a core (R56), with what ends it. -/
inductive Freeze where
  | ringFill (g n : Nat)
  | ringFree (g n dim : Nat)
  | event (e : Nat)
  | addr (loc : Loc) (cond : Nat) (b : BitVec 32)
  | barw (die : Bool) (b phase : Nat)
  | bara (die : Bool) (b phase : Nat)
  | pend (die : Bool) (b add : Nat)
  | fence (cls : BitVec 16)
  | asyncLe (n : Nat)
  | asyncRoom
  | far
  | xlat (asid va : Nat)
  | taster
  | ladleQ (mask : Nat)
  | locks (n : Nat)
  | order
  | tile (n : Nat)
  | clk (v : BitVec 32)
  | swpt (n : Nat)
  | rett
  /-- A replay (R400) for the next part of the schedule, or for a queued command. -/
  | replay (job : Option Nat)
  | launch
deriving DecidableEq, Repr

/-- What a scheduled part of an issued instruction does when its edge comes: a lockstep write, a read that schedules
what it lands, or a landing (R86, R127, R140, R165, R179). -/
inductive Eff where
  | store (ps : List Piece) (src : BitVec 2048)
  | rdS (d : Nat) (loc : Loc) (n : Nat) (sx : Bool) (land : Nat)
  | rdH (d : Nat) (loc : Loc) (land : Nat)
  | rdV (d : Nat) (ps : List Piece) (land : Nat)
  | rdQ (d : Nat) (ps : List Piece) (km : BitVec 32) (land : Nat)
  | rdT (n : Nat) (cells : List (Nat × Loc)) (land : Nat)
  | rdF (d : Nat) (locs : List Loc) (c : BitVec 1024) (ends : Bool) (off : BitVec 64) (land : Nat)
  | rdX (locs : List Loc) (land : Nat)
  | sreg (d : Nat) (v : BitVec 64)
  | hreg (d : Nat) (v : BitVec 256)
  | vreg (d : Nat) (m v : BitVec 1024) (fl : BitVec 6)
  | fold (d : Nat) (bs : List Byte) (c : BitVec 1024)
  | qreg (d : Nat) (km : BitVec 32) (v : BitVec 2048) (fl : BitVec 6)
  | kreg (d : Nat) (v : BitVec 32)
  | tcfg (n r c : Nat) (z : Bool)
  | tset (n : Nat) (cells : List (Nat × BitVec 32))
  | ix (v : List (BitVec 32))
  | desc (n : Nat) (v : BitVec 256)
  | lnt (lvl fld : Nat) (v : BitVec 64)
  | csr (me : Bool) (reg : Nat) (v : BitVec 64)
  | step (j : Job) (k : Nat)
  | grp (j : Job) (k : Nat) (a b : List (Option Nat))
  | pzero (ps : List Nat)
  | rdA (id : Nat) (d : BitVec 256) (p row : Nat) (pos : Int) (ta mom : Bool) (land : Nat)
  | prow (p row : Nat) (cells : List (BitVec 32))
  | out (o : Out)
  | far (d : Nat) (loc : Loc) (n : Nat) (sx hnd : Bool) (got : List Byte)
  | frz (f : Freeze)
  /-- The data that a vector word has read raises a cause (R154). -/
  | fault (cause : Nat) (addr : BitVec 64)
deriving DecidableEq, Repr

/-- An issued instruction with effects still to come (R127, R311): its stream, its place in issue order, its word, its
sources as captured, its engine mode, and its remaining schedule of (core time, phase, effect). -/
structure Flight where
  strm : Nat
  seq : Nat
  pc : BitVec 64
  word : Nat
  a : BitVec 1024 := 0
  b : BitVec 1024 := 0
  c : BitVec 1024 := 0
  env : Env := {}
  fin : Nat := 0
  script : List (Nat × Nat × Eff) := []
deriving DecidableEq, Repr

/-- An operand latch of the vector engine (R129). -/
structure Latch where
  v : BitVec 1024 := 0
  tag : Nat := 0
  valid : Bool := false
deriving DecidableEq, Repr

/-- The vector engine as it stood before the issue, at core time `at_`, of its word number `seq`, whose data can still fault
at its read: its stream, registers, latches, control registers, the tiles of its context, and what it had in flight (R140,
R154, R310). -/
structure Probe where
  seq : Nat
  at_ : Nat
  ve : Stream
  v : Store 1024
  k : Store 32
  q : Store 2048
  la : Latch
  lb : Latch
  lc : Latch
  arithV : BitVec 32
  momV : BitVec 32
  mine : List Nat
  tiles : Store 32
  tshape : Store 16
  flights : List Flight
deriving DecidableEq, Repr

/-- A barrier (R254): phase number, members that have arrived in it, members dropped, pending bytes, broken. -/
structure Bar where
  phase : Nat := 0
  members : List Nat := []
  arrived : List Nat := []
  pend : Nat := 0
  broken : Bool := false
deriving DecidableEq, Repr

/-- One element access of a Ladle command: the source bytes, the destination bytes, the bytes read, whether they could not
be decoded, whether the port holds the contribution or a returned value is still to be written (R207, R208), its ORD round,
and whether it is done. -/
structure LElem where
  src : List Loc
  dst : List Loc
  val : Option (List Byte) := none
  bad : Bool := false
  ret : Bool := false
  /-- What an I/O die has read of host memory for an accumulate that it has still to write (R277). -/
  old : Option (List Byte) := none
  round : Nat := 0
  done : Bool := false
deriving DecidableEq, Repr

/-- The kinds of Ladle command that move or combine data, and those that only order (R203 to R214). -/
inductive LKind where
  | copy
  | cvt (src dst : Fm)
  | scan (f : Fm) (carry : List Loc)
  | acc (f : Fm) (op : Nat)
  | xchg
  | cmpx
  | enq (g n : Nat)
  | deq (g n : Nat)
  | qfence (mask : Nat)
  | cwrite
  | barrive
deriving DecidableEq, Repr

/-- A Ladle command with the copies taken at issue (R194): its queue, class, scope and qualifiers, its completion word and
barrier, its element accesses, the carry of a scan, whether it has been performed again (R217), failed, performed its
completion actions, left its queue (R195), how many words the sequencer had issued (R281), its first ring entry, its
locked pages, the sibling that took it, and its payload bytes not yet performed. -/
structure LCmd where
  id : Nat
  kind : LKind
  qn : Nat
  cls : Nat
  sco : Nat
  ord : Bool := false
  mov : Bool := false
  cw : Option (List Loc) := none
  bar : Option (Bool × Nat) := none
  elems : List LElem := []
  acc : Option (List Byte) := none
  tries : Nat := 0
  failed : Bool := false
  cdone : Bool := false
  left : Bool := false
  seqAt : Nat := 0
  base : Nat := 0
  pages : List (Nat × Nat) := []
  taker : Option Nat := none
  payload : Nat := 0
deriving DecidableEq, Repr

/-- The trap frame (R310, R314): saved addresses and due times of the five streams, and the trap-frame registers. -/
structure Frame where
  pcs : List (BitVec 21) := [0, 0, 0, 0, 0]
  dues : List Nat := [0, 0, 0, 0, 0]
  ons : List Bool := [false, false, false, false, false]
  parks : List Park := [.no, .no, .no, .no, .no]
  loops : List Loop := []
  addr : BitVec 64 := 0
  time : Nat := 0
  rqsel : BitVec 10 := 0
  vec : BitVec 21 := 0
  step : BitVec 1 := 0
  bsel : BitVec 7 := 0
  info : BitVec 64 := 0
  scr : BitVec 64 := 0
  replay : List Flight := []
  s : Store 64 := []
  hist : List (Nat × Nat × BitVec 64) := []
deriving DecidableEq, Repr

/-- The grades of pre-emption (R303 to R306). -/
inductive Grade where
  | node | loop | trap
deriving DecidableEq, Repr

/-- How a context stands: running, draining its loops, stopped and why (R303 to R306, R312). -/
inductive CtxMode where
  | running
  | yielding
  | exiting
  | stoppedNode
  | stoppedLoop
  | stoppedTrap
  | faulted
deriving DecidableEq, Repr

/-- A core context (R301): everything of a kernel's presence on one core that pre-emption saves (R303, R305, R306). -/
structure Ctx where
  /-- Launch node (0 for a firmware kernel, R415), logical index p (R297), the node whose EV the kernel uses (R293). -/
  launch : Nat := 0
  p : Nat := 0
  evNode : Nat := 0
  asid : BitVec 16 := 0
  gen : BitVec 16 := 0
  spb : Nat := 0
  hdr : BitVec 512 := 0
  swmap : List Nat := []
  lenders : List Nat := []
  mode : CtxMode := .running
  -- sequencer
  s : Store 64 := []
  bank : Store 64 := []
  h : Store 256 := []
  desc : Store 256 := []
  saveh : BitVec 64 := 0
  trapcause : BitVec 32 := 0
  -- vector engine
  v : Store 1024 := []
  k : Store 32 := []
  q : Store 2048 := []
  la : Latch := {}
  lb : Latch := {}
  lc : Latch := {}
  arithV : BitVec 32 := 0
  momV : BitVec 32 := 0
  -- matrix engine and gather unit
  a : Store 32 := []
  tags : List (Nat × Tag) := []
  lnt : Store 144 := []
  lnts : Store 144 := []
  ix : Store 32 := []
  asyncQ : List Job := []
  window : List Job := []
  stage : Stage := {}
  meFree : Nat := 0
  arithM : BitVec 32 := 0
  momM : BitVec 32 := 0
  jobs : Nat := 0
  -- core time and streams
  clkdiv : BitVec 32 := 0x04040404
  ctime : Nat := 0
  opened : Bool := false
  segs : Nat := 0
  forked : Option Nat := none
  rdv : BitVec 4 := 0
  variant : Nat := 0
  sq : Stream := {}
  ve : Stream := {}
  me : Stream := {}
  gu : Stream := {}
  ld : Stream := {}
  flights : List Flight := []
  seq : Nat := 0
  hist : List (Nat × Nat × BitVec 64) := []
  freeze : List (Nat × Freeze) := []
  evSeen : List Nat := []
  /-- The phase for which an abandoned BARW waits, by barrier (R57, R113). -/
  waitOn : Option (Nat × Nat) := none
  -- rings, barriers, Ladle
  rings : Store 32 := []
  bars : List (Nat × Bar) := []
  lastArr : List (Nat × Nat) := []
  cmds : List LCmd := []
  lseq : Nat := 0
  lwin : List LCmd := []
  rounds : List (Loc × Nat) := []
  defer : List (Bool × Nat) := []
  vq : List Nat := []
  probes : List Probe := []
  privEv : BitVec 256 := 0
  -- traps and pre-emption
  handler : Bool := false
  frame : Frame := {}
  causes : List (BitVec 32 × BitVec 64 × BitVec 64) := []
  req : Option Grade := none
  reqAt : Nat := 0
  toDrain : List Nat := []
deriving DecidableEq, Repr

/-- An entry of a translation cache (R319): identifier, page base and size, the page's place, its permissions. -/
structure TlbE where
  asid : Nat
  base : Nat
  size : Nat
  tgt : Nat
  die : Nat
  addr : Nat
  rd : Bool
  wr : Bool
deriving DecidableEq, Repr

/-- A core (R39): its scratchpad and the errors standing in it (R389), with the banks that have failed and those that no
write clears (R392), the running context and a held one (R301), its
tiles with their owner tags (R308), its translation cache, its health record (R393), and, of a core that lends, what its
register files hold of the register portion of the lit core's save block (R246, R307). -/
structure Core where
  live : Bool := false
  ctx : Ctx := {}
  held : Option Ctx := none
  spm : Store 8 := []
  err : Store 36 := []
  failed : List Nat := []
  stuck : List Nat := []
  walk : Nat := 0
  walking : Bool := false
  hits : List (Nat × Nat) := []
  wb : List Nat := []
  tiles : Store 32 := []
  tshape : Store 16 := []
  towner : List (Nat × (Nat × Nat)) := []
  tlb : List TlbE := []
  xres : List (Nat × Nat × Option TlbE) := []
  mark : Option (Nat × Ctx) := none
  corr : BitVec 32 := 0
  mism : BitVec 32 := 0
  unc : BitVec 16 := 0
  svc : Nat := 0
  tasteBad : Nat := 0
  tasteNow : Bool := false
  retried : Bool := false
  ladleAt : Nat := 0
  served : Nat := 0
  lendTo : Option Nat := none
  taking : Nat := 0
  spill : Store 8 := []
deriving DecidableEq, Repr

/-- A contribution that waits at a port (R207): its round and producer, the command and element it belongs to, its bytes,
format and operation. -/
structure OrdWait where
  round : Nat
  prod : Nat
  cmd : Nat
  elem : Nat
  bytes : List Byte
  fm : Fm
  op : Nat
deriving DecidableEq, Repr

/-- Order state of an element that receives ORD contributions of a launch (R207), with the contributions that wait. -/
structure OrdSt where
  launch : Nat
  loc : Loc
  n : Nat
  round : Nat
  prod : Nat
  waits : List OrdWait
deriving DecidableEq, Repr

/-- A scrubber (R395, R396): the next unit of its pass (of a Pantry bank by the bank's number), and the units whose write-back is still due, each with whether a
write has entered it since the scrub read it. -/
structure Scrub where
  pos : Nat := 0
  due : List (Nat × Bool) := []
deriving DecidableEq, Repr

/-- A compute die: its memories and their errors (R394), time-triggered table (R295), rotation (R298), second-level
translation cache (R319), die barriers (R254), ORD state (R207), PHY registers (R412), scrubbers and their watch lists (R395), stacks that have been removed (R403); the training routine whose report the firmware of
the service core awaits, by stack, pseudo-channel and the scratchpad offset of its status, and the pseudo-channels that such
routines have trained (R415). -/
structure Die where
  pan : Store 8 := []
  hbm : Store 8 := []
  panErr : Store 36 := []
  hbmErr : Store 36 := []
  tt : Store 256 := []
  rot : Nat := 0
  rotAt : Nat := 0
  jour : Nat := 0
  hob : BitVec 5 := 4
  tlb : List TlbE := []
  bars : List ((Nat × Nat) × Bar) := []
  ords : List OrdSt := []
  phy : Store 64 := []
  phyHeld : List (Nat × BitVec 64) := []
  panScrub : List (Nat × Scrub) := []
  hbmScrub : List Scrub := [{}, {}, {}, {}]
  watch : List (Nat × Nat × Nat) := []
  gone : List Nat := []
  removed : Bool := false
  routine : Option (Nat × Nat × Nat) := none
  trained : List (Nat × Nat) := []
deriving DecidableEq, Repr

/-- Status of a host mailbox (R409). -/
structure Mailbox where
  go : Bool := false
  tag : BitVec 8 := 0
  op : BitVec 8 := 0
  doneTag : BitVec 8 := 0
  rlen : BitVec 12 := 0
  rc : BitVec 8 := 0
  args : Store 8 := []
  resp : Store 8 := []
deriving DecidableEq, Repr

/-- A host link (R340): aperture windows (R343), MSI-X table (R344), its function's freeze (R401), its mailbox. -/
structure Link where
  bars : Store 64 := []
  up : Bool := false
  width : Nat := 0xF
  rate : Nat := 0
  apwin : Store 64 := []
  msix : Store 128 := []
  pba : BitVec 64 := 0
  frozen : Bool := false
  mail : Mailbox := {}
  removed : Bool := false
deriving DecidableEq, Repr

/-- A work entry armed in a queue pair (R356). -/
structure Armed where
  slot : Nat
  entry : BitVec 512
  fired : Nat
deriving DecidableEq, Repr

/-- A node or rank part of a collective plan on this module (R359, R360): live after COMMIT; the module its right child's
contributions come from. -/
structure PlanPart where
  handle : Nat
  record : Nat
  ranks : List (Nat × BitVec 256)
  live : Bool
  right : Nat
deriving DecidableEq, Repr

/-- Set-up of a plan at its origin (R360): its handle, the request's address, the answers that are missing (module, node,
first rank), the modules a RESERVE went to, when it is too late, the trigger slots refused. -/
structure Setup where
  handle : Nat
  req : Nat
  wait : List (Nat × Nat × Nat)
  sent : List Nat
  deadline : Nat
  tries : List Nat
deriving DecidableEq, Repr

/-- A piece of a chunk that waits (R362): of a child's partial at a combining node, or of a result at a rank (node 0xFFF);
the rank where the child starts, iteration, chunk, escaped, failed, the piece's place in the chunk, its bytes. -/
structure Chunk where
  plan : Nat
  node : Nat
  rank : Nat
  iter : Nat
  chunk : Nat
  esc : Bool
  bad : Bool
  off : Nat
  bytes : List Byte
deriving DecidableEq, Repr

/-- The packet a sieve is running, whether an agent of the module sent it, and its registers (R365, R370). -/
structure SRun where
  pkt : Packet
  own : Bool := false
  part : Nat
  flow : Nat
  pc : Nat
  y : Store 32 := []
  z : Store 512 := []
  m : Store 16 := []
  loops : List Loop := []
  cycles : Nat := 0
  asid : BitVec 16 := 0
  gen : BitVec 16 := 0
deriving DecidableEq, Repr

/-- A sieve (R365), its partitions to be unloaded when their packet ends (R372). -/
structure Sieve where
  imem : Store 32 := []
  flow : Store 128 := []
  target : Store 128 := []
  part : Store 256 := []
  tcnt : Store 32 := []
  queue : List (Bool × Packet) := []
  unload : List Nat := []
  drops : BitVec 32 := 0
  run : Option SRun := none
deriving DecidableEq, Repr

/-- An I/O die: ports (R346), import table (R350), queue pairs (R354), plan registers (R358), the plans it has set up, each with
its request's header and its modules (R360), sieves (R365), loader (R372). -/
structure Iod where
  portDown : List Nat := []
  portDrops : List (Nat × Nat) := []
  route : Store 16 := []
  import_ : Store 64 := []
  importFaults : List (Nat × Nat) := []
  qp : Store 256 := []
  armed : List (Nat × Armed) := []
  qretired : List (Nat × Nat) := []
  qseen : List (Nat × Nat) := []
  planres : BitVec 64 := 0
  setup : Option Setup := none
  made : List (Nat × Nat × List Nat) := []
  serial : BitVec 8 := 0
  sieves : List (Nat × Sieve) := []
  loading : List (Nat × Nat) := []
  loadst : BitVec 64 := 0
  removed : Bool := false
deriving DecidableEq, Repr

/-- The time base (R352, R353). -/
structure Clock where
  ns : Nat := 0
  frac : Nat := 0
  ctl : BitVec 28 := 0xFC00000
  offset : BitVec 32 := 0
  lock : Bool := false
  stepped : Bool := false
  good : Nat := 0
  lastSync : Nat := 0
  sync : Option (Nat × Int × Nat) := none
  last : Option (Int × Nat) := none
  delayT3 : Option (Nat × Nat) := none
  delayNs : Int := 0
  slew : Int := 0
  slewAt : Nat := 0
  seqNo : Nat := 0
deriving DecidableEq, Repr

/-- A trade of tokens (R383): the other module, the trade number, tokens, expiry, and when it was offered or, at the
receiver, whether it has been applied. -/
structure Trade where
  who : Nat
  trade : Nat
  k : Nat
  expiry : Nat
  lease : Nat
  at_ : Nat
  applied : Bool
deriving DecidableEq, Repr

/-- The power registers and the lease they hold (R379 to R388): `out` and `inn` are the committed trades, `draw` the
working load in tokens at the last microsecond, `seen` as last measured, `fall` the floor F in thousandths of a token. -/
structure Power where
  lock : Bool := false
  floor : BitVec 16 := 280
  budget : Nat := 280
  level : Nat := 3
  hold : Bool := true
  lease : BitVec 64 := 0
  expiry : BitVec 64 := 0
  tokens : BitVec 16 := 0
  lvlth0 : BitVec 64 := 0x00F000A000500000
  lvlth1 : BitVec 64 := 0x023001E001900140
  tcost : BitVec 64 := 0x0B0A090807060504
  ramp : BitVec 16 := 16
  coord : BitVec 12 := 0
  nbr : BitVec 52 := 0
  simn : BitVec 32 := 0
  simt : BitVec 16 := 0
  pdrop : BitVec 32 := 0
  out : List (Nat × Nat) := []
  inn : List (Nat × Nat) := []
  trade : Nat := 0
  offers : List Trade := []
  accepted : List Trade := []
  draw : Nat := 0
  seen : Nat := 0
  fall : Nat := 0
  simAt : Nat := 0
deriving DecidableEq, Repr

/-- A launch that has started (R291, R293), or is being saved, resumed or killed. -/
structure Launch where
  node : Nat
  parent : Nat
  seq : Nat
  n : Nat
  heat : Nat
  prio : Nat
  dies : List Nat
  cores : List Nat
  asid : BitVec 16
  gen : BitVec 16
  hdr : BitVec 512
  set : BitVec 256
  image : Nat
  prec : Nat
  params : List (BitVec 64)
  started : Nat
  exited : List Nat
  saved : List (Nat × Ctx)
  byOwner : Bool
  wanted : Bool
  level : Nat
  killed : Bool
deriving DecidableEq, Repr

/-- Bring-up, boot flash, the number of the next record of the log, and whether the host links have retrained (R405 to R411). -/
structure Boot where
  power : Bool := false
  phase : BitVec 8 := 0
  fail : BitVec 8 := 0xFF
  sv : BitVec 32 := 0
  booted : Option Bool := none
  first : Bool := false
  rollback : BitVec 32 := 0
  flashA : List Byte := []
  flashB : List Byte := []
  m1 : List Byte := []
  m2 : List Byte := []
  logNext : Nat := 0
  tests : Nat := 0
  mailq : List Nat := []
  full : Bool := false
deriving DecidableEq, Repr

/-- What the module answers to the outside: packets sent, MSI-X messages, completions of host requests. -/
inductive Sent where
  | packet (iod port : Nat) (p : Packet)
  | msix (link vec : Nat)
  | completion (link : Nat) (status : Nat) (data : List Byte)
deriving DecidableEq, Repr

/-- The whole module. -/
structure State where
  /-- Reference-clock cycles since power on (R9). -/
  ref : Nat := 0
  /-- The model's own counters: choices made (`Config.pick`) and free values used.  Log entry 1. -/
  turn : Nat := 0
  free : Nat := 0
  /-- The core, the sieve and the operands of the instruction or event that executes now.  Log entry 6. -/
  focus : Nat := 0
  sfocus : Nat := 0
  arg : EvArg := {}
  cores : List (Nat × Core) := []
  diesT : List (Nat × Die) := []
  iods : List (Nat × Iod) := []
  links : List (Nat × Link) := []
  host : Store 8 := []
  cxl : Store 8 := []
  cxlBad : List Nat := []
  /-- 32-byte units of memory whose next read fails although what they hold is right (R217, R338). -/
  glitch : List Loc := []
  launches : List Launch := []
  /-- Nodes whose ring has work not yet started or that the module has been told of (R341). -/
  nodes : List Nat := []
  /-- Sequence number of the last started entry of a node, and of plan bookkeeping (R291, R299). -/
  startedSeq : List (Nat × Nat) := []
  ended : List (Nat × Nat) := []
  planAt : List (Nat × Nat) := []
  genNext : BitVec 16 := 1
  pairs : List (Nat × Nat) := []
  retired : List (Nat × Nat) := []
  kills : List (Nat × Nat × Nat) := []
  invBase : BitVec 64 := 0
  invLen : BitVec 64 := 0
  invAsid : BitVec 16 := 0
  invGo : Bool := false
  notify : Store 64 := []
  plans : List PlanPart := []
  trigs : List (Nat × Nat × Nat) := []
  iters : List ((Nat × Nat) × Nat) := []
  chunks : List Chunk := []
  clock : Clock := {}
  power : Power := {}
  boot : Boot := {}
  /-- Events from outside that wait, and events the machine has caused that wait. -/
  inputs : List (Instr × EvArg) := []
  pend : List (Instr × EvArg) := []
  sent : List Sent := []
deriving DecidableEq, Repr

/-- The machine right after reset: registers at the values the spec gives, memory with nothing listed, no power-good yet. -/
def State.reset : State := {}

end Sys2Proof.Machine
end

