-- ==== Sys2Proof/Machine/Mem.lean ====
section
/-!
DEFINITION. Sparse arrays and tables, and the bytes of every memory of R256, read and written through one `Loc`.
Multi-byte values are little-endian (00_scope R5).  A byte of memory that nothing has written reads as 0 (log entry 7).
-/

namespace Sys2Proof.Machine

/-- The entry of a table at `k`, or `d`. -/
def tget {α : Type} (d : α) : List (Nat × α) → Nat → α
  | [], _ => d
  | (k, v) :: l, n => if n = k then v else tget d l n

/-- Put an entry into a table, keeping rising keys. -/
def tput {α : Type} (k : Nat) (v : α) : List (Nat × α) → List (Nat × α)
  | [] => [(k, v)]
  | (k', v') :: l =>
    if k < k' then (k, v) :: (k', v') :: l else if k = k' then (k, v) :: l else (k', v') :: tput k v l

/-- Take an entry out of a table. -/
def tdel {α : Type} (k : Nat) : List (Nat × α) → List (Nat × α)
  | [] => []
  | (k', v') :: l => if k = k' then tdel k l else (k', v') :: tdel k l

/-- Set an entry of a sparse array whose unlisted entries read as `d`: setting `d` takes the entry out. -/
def tset {α : Type} [DecidableEq α] (d : α) (k : Nat) (v : α) (l : List (Nat × α)) : List (Nat × α) :=
  if v = d then tdel k l else tput k v l

/-- The canonical form of a sparse array: strictly rising keys, no entry equal to the default. -/
def twf {α : Type} [DecidableEq α] (d : α) : List (Nat × α) → Bool
  | [] => true
  | (_, v) :: [] => v != d
  | (k, v) :: (k', v') :: l => v != d && decide (k < k') && twf d ((k', v') :: l)

end Sys2Proof.Machine

namespace Sys2Proof

open Sys2Proof.Machine

namespace Store

/-- A sparse array of words reads as zero where nothing is listed. -/
def get {w : Nat} (s : Store w) (k : Nat) : BitVec w := tget 0 s k

def set {w : Nat} (s : Store w) (k : Nat) (v : BitVec w) : Store w := tset 0 k v s

end Store

/-- The `n` locations from one upward. -/
def Loc.run (l : Loc) : Nat → List Loc
  | 0 => []
  | n + 1 => l :: Loc.run { l with off := l.off + 1 } n

end Sys2Proof

namespace Sys2Proof.Machine

/-- The canonical form of a memory (a `Store` of bytes). -/
def Memory.wf (m : Store 8) : Bool := twf 0 m

/-- Fetch `n` bytes of a sparse byte array. -/
def getBytes (m : Store 8) (off : Nat) : Nat → List Byte
  | 0 => []
  | n + 1 => Store.get m off :: getBytes m (off + 1) n

/-- Write bytes from `off` upward. -/
def setBytes (m : Store 8) (off : Nat) : List Byte → Store 8
  | [] => m
  | b :: bs => setBytes (Store.set m off b) (off + 1) bs

namespace State

def core (s : State) (n : Nat) : Core := tget {} s.cores n

def setCore (s : State) (n : Nat) (c : Core) : State := { s with cores := tput n c s.cores }

def die (s : State) (n : Nat) : Die := tget {} s.diesT n

def setDie (s : State) (n : Nat) (d : Die) : State := { s with diesT := tput n d s.diesT }

def iod (s : State) (n : Nat) : Iod := tget {} s.iods n

def setIod (s : State) (n : Nat) (d : Iod) : State := { s with iods := tput n d s.iods }

def link (s : State) (n : Nat) : Link := tget {} s.links n

def setLink (s : State) (n : Nat) (l : Link) : State := { s with links := tput n l s.links }

def onCore (s : State) (n : Nat) (f : Core → Core) : State := s.setCore n (f (s.core n))

def onDie (s : State) (n : Nat) (f : Die → Die) : State := s.setDie n (f (s.die n))

def onIod (s : State) (n : Nat) (f : Iod → Iod) : State := s.setIod n (f (s.iod n))

def onLink (s : State) (n : Nat) (f : Link → Link) : State := s.setLink n (f (s.link n))

/-- The core of the instruction that executes, and its running context. -/
def me (s : State) : Core := s.core s.focus

def ctx (s : State) : Ctx := s.me.ctx

def setMe (s : State) (k : Core) : State := s.setCore s.focus k

def setCtx (s : State) (c : Ctx) : State := s.setMe { s.me with ctx := c }

/-- The bytes of the memory that holds a location (R256). -/
def memory (s : State) (m : Mem) (unit : Nat) : Store 8 :=
  match m with
  | .spm => (s.core unit).spm
  | .pantry => (s.die unit).pan
  | .hbm => (s.die unit).hbm
  | .host => s.host
  | .cxl => s.cxl
  | .phy => []

def setMemory (s : State) (m : Mem) (unit : Nat) (v : Store 8) : State :=
  match m with
  | .spm => s.onCore unit fun c => { c with spm := v }
  | .pantry => s.onDie unit fun d => { d with pan := v }
  | .hbm => s.onDie unit fun d => { d with hbm := v }
  | .host => { s with host := v }
  | .cxl => { s with cxl := v }
  | .phy => s

/-- The byte at a location. -/
def byteAt (s : State) (l : Loc) : Byte := Store.get (s.memory l.mem l.unit) l.off

def bytesAt (s : State) (ls : List Loc) : List Byte := ls.map s.byteAt

/-- The protected unit a location lies in: scratchpad rows and HBM and Pantry units of 32 bytes (R389, R394). -/
def errOf (s : State) (l : Loc) : BitVec 36 :=
  match l.mem with
  | .spm => (s.core l.unit).err.get (l.off / 32)
  | .pantry => (s.die l.unit).panErr.get (l.off / 32)
  | .hbm => (s.die l.unit).hbmErr.get (l.off / 32)
  | _ => 0

end State

/-- Number of ones among the lowest `n` bits. -/
def popCount {w : Nat} (v : BitVec w) : Nat → Nat
  | 0 => 0
  | n + 1 => popCount v n + (if v.getLsbD n then 1 else 0)

/-- Errors in banks that have not failed (R390, R392). -/
def liveErrs (failed : List Nat) (e : BitVec 36) : Nat → Nat
  | 0 => 0
  | n + 1 => liveErrs failed e n + (if e.getLsbD n && !failed.contains n then 1 else 0)

namespace State

/-- The first byte of the protected unit of 32 bytes that holds a location (R389, R394). -/
def rowStart (l : Loc) : Loc := { l with off := l.off / 32 * 32 }

/-- Whether the data at a location cannot be decoded (R390, R392, R394) or is poisoned (R345). -/
def badAt (s : State) (l : Loc) : Bool :=
  s.glitch.contains (rowStart l) ||
  match l.mem with
  | .spm =>
    let k := s.core l.unit
    let e := k.err.get (l.off / 32)
    e != 0 && decide (k.failed.length + 2 * liveErrs k.failed e 36 > 4)
  | .pantry => decide (popCount (s.errOf l) 36 > 2)
  | .hbm => decide (popCount (s.errOf l) 36 > 2) || (s.die l.unit).gone.contains (l.off / 2 ^ 36)
  | .cxl => s.cxlBad.contains (l.off / 64)
  | _ => false

def anyBad (s : State) (ls : List Loc) : Bool := ls.any s.badAt

/-- What reading a location does to the errors that stand there: corrections are counted and their write-back is due
(R390), failures counted (R391), hits kept for R392. -/
def touchRow (s : State) (unit row : Nat) : State :=
  let k := s.core unit
  let e := k.err.get row
  let once := s.glitch.contains { mem := .spm, unit := unit, off := 32 * row }
  if e = 0 && !once then s
  else
    let n := liveErrs k.failed e 36
    if once || k.failed.length + 2 * n > 4 then
      s.setCore unit { k with unc := if k.unc = 0xFFFF then k.unc else k.unc + 1 }
    else
      let banks := (List.range 36).filter fun b => e.getLsbD b && !k.failed.contains b
      s.setCore unit { k with
        corr := k.corr + BitVec.ofNat 32 n
        wb := if k.wb.contains row then k.wb else k.wb ++ [row]
        hits := k.hits ++ banks.map fun b => (b, s.ref) }

/-- The scratchpad rows that a list of locations touches, each once. -/
def rowsOf (ls : List Loc) : List (Nat × Nat) :=
  ls.foldl (fun a l => if l.mem = .spm && !a.contains (l.unit, l.off / 32) then a ++ [(l.unit, l.off / 32)] else a) []

/-- Record the corrections and failures of one read access; a read that fails once has failed (R217, R338). -/
def touch (s : State) (ls : List Loc) : State :=
  if (s.cores.all fun p => p.2.err.isEmpty) && s.glitch.isEmpty then s
  else
    let t := (rowsOf ls).foldl (fun s p => s.touchRow p.1 p.2) s
    { t with glitch := t.glitch.filter fun u => !ls.any fun l => rowStart l = u }

end State

/-- The banks that keep showing an error whatever is written to them (R392). -/
def Core.stuckBits (k : Core) : BitVec 36 := k.stuck.foldl (fun a b => a ||| (1#36 <<< b)) 0

/-- A write enters a unit (R396). -/
def Scrub.enter (x : Scrub) (u : Nat) : Scrub := { x with due := x.due.map fun y => if y.1 = u then (u, true) else y }

namespace State

/-- Put an event that the machine has caused into the queue of events to be performed. -/
def post (s : State) (i : Instr) (a : EvArg) : State := { s with pend := s.pend ++ [(i, a)] }

/-- An event that has to wait keeps its place. -/
def repost (s : State) (i : Instr) (a : EvArg) : State := { s with pend := (i, a) :: s.pend }

/-- The error mask of a unit that a write re-encodes: a unit that decodes carries no error but those of banks that no write
clears; one that does not decode stays so until a write of all of it (R389, R396; log entry 92). -/
def reEncoded (bad : Bool) (e stuck : BitVec 36) : BitVec 36 := if bad then e else e &&& stuck

/-- Write one byte; the write recomputes the check symbols of the row or unit that it touches (R389, R394), it supersedes the
write-back of a corrected row (R390), and it stops a scrub write-back of its unit (R396). -/
def setByte (s : State) (l : Loc) (b : Byte) : State :=
  let s := s.setMemory l.mem l.unit (Store.set (s.memory l.mem l.unit) l.off b)
  let u := l.off / 32
  match l.mem with
  | .spm =>
    let k := s.core l.unit
    if k.err.isEmpty then s
    else
      let e := k.err.get u
      let bad := decide (k.failed.length + 2 * liveErrs k.failed e 36 > 4)
      s.setCore l.unit { k with err := k.err.set u (reEncoded bad e k.stuckBits), wb := k.wb.filter (· != u) }
  | .pantry =>
    let d := s.die l.unit
    if d.panErr.isEmpty && !(d.panScrub.any fun x => x.2.due.any fun y => y.1 = u) then s
    else
      let e := d.panErr.get u
      s.setDie l.unit { d with
        panErr := d.panErr.set u (reEncoded (popCount e 36 > 2) e 0)
        panScrub := d.panScrub.map fun x => (x.1, x.2.enter u) }
  | .hbm =>
    let d := s.die l.unit
    if d.hbmErr.isEmpty && !(d.hbmScrub.any fun x => x.due.any fun y => y.1 = u) then s
    else
      let e := d.hbmErr.get u
      s.setDie l.unit { d with
        hbmErr := d.hbmErr.set u (reEncoded (popCount e 36 > 2) e 0)
        hbmScrub := d.hbmScrub.map fun x => x.enter u }
  | .cxl => if s.cxlBad.isEmpty then s else { s with cxlBad := s.cxlBad.filter (· != l.off / 64) }
  | _ => s

/-- No error stands anywhere. -/
def sound (s : State) : Bool :=
  (s.cores.all fun p => p.2.err.isEmpty) && (s.diesT.all fun p => p.2.panErr.isEmpty && p.2.hbmErr.isEmpty)
    && s.glitch.isEmpty

/-- A write of a whole protected unit ends its errors, but those that no write clears (R392, R396). -/
def freshUnit (s : State) (l : Loc) : State :=
  let u := l.off / 32
  match l.mem with
  | .spm => s.onCore l.unit fun k => { k with err := k.err.set u (k.err.get u &&& k.stuckBits) }
  | .pantry => s.onDie l.unit fun d => { d with panErr := d.panErr.set u 0 }
  | .hbm => s.onDie l.unit fun d => { d with hbmErr := d.hbmErr.set u 0 }
  | _ => s

/-- The units that one access writes whole lose their errors. -/
def fresh (s : State) (ls : List Loc) : State :=
  if s.sound then s
  else (ls.filter fun l => l.off % 32 = 0 && (l.run 32).all ls.contains).foldl
    (fun s l => { s.freshUnit l with glitch := s.glitch.filter (· != l) }) s

/-- A port action that reads a unit enters its coherence order, whether it writes or not (R394, R396). -/
def enterUnit (s : State) (l : Loc) : State :=
  match l.mem with
  | .pantry => s.onDie l.unit fun d => { d with panScrub := d.panScrub.map fun x => (x.1, x.2.enter (l.off / 32)) }
  | .hbm => s.onDie l.unit fun d => { d with hbmScrub := d.hbmScrub.map fun x => x.enter (l.off / 32) }
  | _ => s

/-- Write bytes at locations. -/
def putBytes (s : State) : List Loc → List Byte → State
  | l :: ls, b :: bs => (s.setByte l b).putBytes ls bs
  | _, _ => s

/-- A little-endian number at locations (R5). -/
def natAt (s : State) (ls : List Loc) : Nat := leNat (s.bytesAt ls)

/-- Whether a location lies in a trigger word (18_fabric R361). -/
def isTrigger (l : Loc) : Bool := l.mem = .pantry && decide (0x3FFF000 ≤ l.off) && decide (l.off < 0x3FFF800)

/-- Whether a location lies in the region-node window of its host link, as that link's BAR2 places it (R340). -/
def inWindow (s : State) (l : Loc) : Bool :=
  let b := ((s.link l.unit).bars.get 2).toNat
  l.mem = .host && b != 0 && decide (b ≤ l.off) && decide (l.off < b + 2 ^ 30)

/-- In SAFE no HBM command is issued (21_bringup R406). -/
def hbmHeld (s : State) (l : Loc) : Bool := l.mem = .hbm && s.boot.phase = 0x80

/-- Write bytes at locations.  A write of a trigger word reaches its sequencer (R361), a write into a host link's own
window is a write of its registers (R354), and in SAFE HBM is left untouched (R406). -/
def writeAt (s : State) (ls : List Loc) (bs : List Byte) : State :=
  match ls with
  | [] => s
  | l :: _ =>
    if s.hbmHeld l then s
    else if s.inWindow l then
      s.post .registerWrite
        { n := l.unit, m := 2, k := l.off - ((s.link l.unit).bars.get 2).toNat, bytes := bs.take ls.length }
    else
      let t := (s.fresh ls).putBytes ls bs
      let ws := (ls.filter isTrigger).foldl (fun a l =>
        if a.contains (l.unit, l.off / 8 % 256) then a else a ++ [(l.unit, l.off / 8 % 256)]) []
      ws.foldl (fun t w => t.post .triggerWrite
        { n := w.1, m := w.2
          v := BitVec.ofNat 64 (t.natAt (Loc.run { mem := .pantry, unit := w.1, off := 0x3FFF000 + 8 * w.2 } 8)) }) t

/-- A location whose unit holds no good copy of its data (R391). -/
def markBad (s : State) (l : Loc) : State :=
  match l.mem with
  | .spm => s.onCore l.unit fun k => { k with err := k.err.set (l.off / 32) (BitVec.allOnes 36) }
  | .pantry => s.onDie l.unit fun d => { d with panErr := d.panErr.set (l.off / 32) (BitVec.allOnes 36) }
  | .hbm => s.onDie l.unit fun d => { d with hbmErr := d.hbmErr.set (l.off / 32) (BitVec.allOnes 36) }
  | .cxl => { s with cxlBad := l.off / 64 :: s.cxlBad }
  | _ => s

/-- The scratchpad of core `k` from `off` for `n` bytes as `m` has it, written whole: its rows are re-encoded (R389), their
write-backs superseded (R390), and the rows for which `bad` holds stay without a good copy (R391). -/
def fillSpm (s : State) (k off n : Nat) (m : Store 8) (bad : Nat → Bool) : State :=
  s.onCore k fun x =>
    let inside (u : Nat) : Bool := decide (off ≤ 32 * u) && decide (32 * u + 32 ≤ off + n)
    let kept : Store 36 := x.err.filterMap fun e =>
      if !inside e.1 then some e
      else if e.2 &&& x.stuckBits = 0 then none else some (e.1, e.2 &&& x.stuckBits)
    { x with
      spm := m
      err := ((List.range (n / 32)).filter fun i => bad (32 * i)).foldl
        (fun e i => e.set (off / 32 + i) (BitVec.allOnes 36)) kept
      wb := x.wb.filter fun u => !(decide (off < 32 * u + 32) && decide (32 * u < off + n)) }

/-- Module HBM addresses (14_contexts R420): the die in bits [40:38], the offset in bits [37:0]. -/
def hbmLoc (a : Nat) : Loc := { mem := .hbm, unit := a / 2 ^ 38 % 8, off := a % 2 ^ 38 }

/-- A dword at a module HBM address. -/
def dword (s : State) (a : Nat) : BitVec 64 := BitVec.ofNat 64 (s.natAt ((hbmLoc a).run 8))

def setDword (s : State) (a : Nat) (v : BitVec 64) : State := s.writeAt ((hbmLoc a).run 8) (leBytes 8 v.toNat)

/-- Write a field [hi:lo] of the dword at a module HBM address. -/
def setField (s : State) (a hi lo v : Nat) : State :=
  let w := (s.dword a).toNat
  let n := hi + 1 - lo
  s.setDword a (BitVec.ofNat 64 (w - w / 2 ^ lo % 2 ^ n * 2 ^ lo + v % 2 ^ n * 2 ^ lo))

end State

/-- Bits [hi:lo] of a number. -/
def bits (v hi lo : Nat) : Nat := v / 2 ^ lo % 2 ^ (hi + 1 - lo)

/-- The number with bits [hi:lo] replaced. -/
def putBits (w hi lo v : Nat) : Nat :=
  let n := hi + 1 - lo
  w - w / 2 ^ lo % 2 ^ n * 2 ^ lo + v % 2 ^ n * 2 ^ lo

end Sys2Proof.Machine
end

