-- ==== Sys2Proof/Machine/Ops.lean ====
section
/-!
DEFINITION. The shared operations of a core: streams and their clocks (02_core_state R39, R48, R55), register access
(R41, R58), the limits of the kernel's header (11_kernels R242), events and region-node reports, the issue of one word
(R55, R127), taking a trap and returning from one (14_contexts R310 to R315).
-/

namespace Sys2Proof.Machine

/-- The streams by number: 0 sequencer, 1 VE, 2 ME, 3 gather unit, 4 Ladle (R313). -/
def strmOf : Nat → Strm
  | 0 => .sq
  | 1 => .ve
  | 2 => .me
  | 3 => .gu
  | _ => .ld

namespace Ctx

def strm (c : Ctx) : Nat → Stream
  | 0 => c.sq
  | 1 => c.ve
  | 2 => c.me
  | 3 => c.gu
  | _ => c.ld

def setStrm (c : Ctx) (n : Nat) (x : Stream) : Ctx :=
  match n with
  | 0 => { c with sq := x }
  | 1 => { c with ve := x }
  | 2 => { c with me := x }
  | 3 => { c with gu := x }
  | _ => { c with ld := x }

/-- The clock divisor of a stream (R48): the gather unit runs with the ME. -/
def div (c : Ctx) (n : Nat) : Nat :=
  match n with
  | 0 => bits c.clkdiv.toNat 4 0
  | 1 => bits c.clkdiv.toNat 12 8
  | 4 => bits c.clkdiv.toNat 28 24
  | _ => bits c.clkdiv.toNat 20 16

/-- The core time `n` ticks of a stream after now. -/
def tick (c : Ctx) (strm n : Nat) : Nat := c.ctime + n * c.div strm

/-- The edge at which the word of a stream came to issue: now, or, of a wait that a pre-emption abandoned, the edge at which
it had issued (R57, R324). -/
def issueEdge (c : Ctx) (strm : Nat) : Nat := min c.ctime (c.strm strm).due

/-- The next edge after now of a stream that runs, or of the sequencer (R306, R324). -/
def nextEdge (c : Ctx) : Nat :=
  ([1, 2, 3, 4].filter fun n => (c.strm n).on).foldl (fun m n => min m ((c.ctime / c.div n + 1) * c.div n))
    ((c.ctime / c.div 0 + 1) * c.div 0)

/-- Core time is an edge of a stream that runs, or of the sequencer. -/
def onEdge (c : Ctx) : Bool := [0, 1, 2, 3, 4].any fun n => (n = 0 || (c.strm n).on) && c.ctime % c.div n = 0

/-- A field of the kernel header (R240). -/
def head (c : Ctx) (hi lo : Nat) : Nat := bits c.hdr.toNat hi lo

def sregs (c : Ctx) : Nat := c.head 6 0
def vregs (c : Ctx) : Nat := c.head 12 7
def tilesN (c : Ctx) : Nat := c.head 16 13
def qregs (c : Ctx) : Nat := c.head 21 17
def planesN (c : Ctx) : Nat := c.head 26 22
def ringsN (c : Ctx) : Nat := c.head 31 27
def barsN (c : Ctx) : Nat := c.head 36 32
def dbarsN (c : Ctx) : Nat := c.head 43 37
/-- Declared scratchpad and lent window in bytes. -/
def spmSize (c : Ctx) : Nat := c.head 79 64 * 64
def lentSize (c : Ctx) : Nat := c.head 96 80 * 64

/-- Scalar register `n` (R41): s0 reads 0; in handler mode s56 to s63 name the handler bank (R312). -/
def rs (c : Ctx) (n : Nat) : Word :=
  if n = 0 then 0 else if c.handler && decide (56 ≤ n) then c.bank.get n else c.s.get n

/-- A write of scalar register `n` that lands now: s0 discards it; the broadcast history keeps the old value for 48
reference cycles (R58). -/
def ws (c : Ctx) (n : Nat) (v : Word) : Ctx :=
  if n = 0 then c
  else if c.handler && decide (56 ≤ n) then { c with bank := c.bank.set n v }
  else
    { c with
      s := c.s.set n v
      hist := (c.hist.filter fun e => decide (c.ctime ≤ e.1 + 48)) ++ [(c.ctime, n, c.s.get n)] }

/-- The value of sN that a broadcast of stream `n` supplies (R58): what it held three ticks ago. -/
def bcast (c : Ctx) (n r : Nat) : Word :=
  if r = 0 then 0
  else
    match c.hist.find? fun e => e.2.1 = r && decide (c.ctime < e.1 + 3 * c.div n) with
    | some e => e.2.2
    | none => c.s.get r

/-- Vector register: 32 lanes of 32 bits. -/
def rv (c : Ctx) (n : Nat) : BitVec 1024 := c.v.get n

/-- Masks hold all ones at kernel start; the array keeps their complement, so that an unlisted mask is all ones.
k0 reads all ones and discards writes (R41). -/
def rk (c : Ctx) (n : Nat) : BitVec 32 := if n = 0 then 0xFFFFFFFF else ~~~ c.k.get n

def wk (c : Ctx) (n : Nat) (v : BitVec 32) : Ctx := if n = 0 then c else { c with k := c.k.set n (~~~ v) }

/-- A write of vector register `n` under a bit mask; a latch tagged with it becomes invalid (R42, R129). -/
def wv (c : Ctx) (n : Nat) (m v : BitVec 1024) : Ctx :=
  let kill (l : Latch) : Latch := if l.tag = n then { l with valid := false } else l
  { c with v := c.v.set n ((c.v.get n &&& ~~~ m) ||| (v &&& m)), la := kill c.la, lb := kill c.lb, lc := kill c.lc }

/-- Moment register: pair `l` in bits [64l+63:64l], the mean in the lower half (R19). -/
def rq (c : Ctx) (n : Nat) : BitVec 2048 := c.q.get n

/-- Number of instructions outstanding (R127, R311). -/
def outstanding (c : Ctx) : Nat := c.flights.length

/-- Whether a lockstep stream other than the sequencer is running (R120, R122). -/
def othersRun (c : Ctx) : Bool := c.ve.on || c.me.on || c.gu.on || c.ld.on

end Ctx

/-- The first core-time edge of a clock of divisor `d` at or after `t`. -/
def edgeAt (t d : Nat) : Nat := if d = 0 then t else (t + d - 1) / d * d

/-- The compute die of a core (service core 1536 + d serves die d, R415). -/
def dieOf (core : Nat) : Nat := if core < 1536 then core / 192 else (core - 1536) % 8

/-- The quad position of a core within its die: row and column of the grid of 12 × 16, quads of 2 × 2 (R1, R297). -/
def quadOf (core : Nat) : Nat := core % 192 / 4
def posOf (core : Nat) : Nat := core % 4

namespace State

/-! ### Region nodes (14_contexts R287) -/

def nodeState (s : State) (node : Nat) : Nat := bits (s.dword node).toNat 7 4

def setNodeState (s : State) (node v : Nat) : State := s.setField node 7 4 v

def parentOf (s : State) (node : Nat) : Nat := bits (s.dword (node + 8)).toNat 51 0

/-- The node and its ancestors, from the node upward; PARENT is 0 in the module root only. -/
def lineage (s : State) : Nat → Nat → List Nat
  | 0, _ => []
  | n + 1, node => node :: (if s.parentOf node = 0 then [] else s.lineage n (s.parentOf node))

/-- Write LCAUSE of a node and of every ancestor: the last failure in their subtrees (R287). -/
def setLcause (s : State) (node cause : Nat) : State :=
  (s.lineage 9 node).foldl (fun s n => s.setField (n + 0x70) 7 0 cause) s

/-- DONE of a node rises past the entries that have ended, in sequence order (R291). -/
def riseDone (s : State) (node : Nat) : Nat → State
  | 0 => s
  | n + 1 =>
    let q := (s.dword (node + 56)).toNat + 1
    if s.ended.contains (node, q) then
      ({ s with ended := s.ended.erase (node, q) }.setDword (node + 56) (BitVec.ofNat 64 q)).riseDone node n
    else s

/-- Whether an entry has ended: DONE has passed it, or will once the entries before it have ended. -/
def entryEnded (s : State) (node q : Nat) : Bool := decide (q ≤ (s.dword (node + 56)).toNat) || s.ended.contains (node, q)

/-- An entry has ended (R291, R404), once. -/
def endEntry (s : State) (node q : Nat) : State :=
  if s.entryEnded node q then s
  else
    let s := { s with ended := s.ended ++ [(node, q)] }.riseDone node (s.ended.length + 1)
    -- a phase boundary, each time DONE reaches SEQ (R299)
    if s.dword (node + 56) = s.dword (node + 48) && bits (s.dword (node + 104)).toNat 55 52 != 0 then
      s.post .planSelect { n := node }
    else s

/-- The launch record of a node. -/
def launchOf (s : State) (node : Nat) : Option Launch := s.launches.find? fun l => l.node = node

def onLaunch (s : State) (node : Nat) (f : Launch → Launch) : State :=
  { s with launches := s.launches.map fun l => if l.node = node then f l else l }

/-! ### Event vectors (R110, R114, R293) -/

/-- Bit `e` of the event vector of a node. -/
def evBit (s : State) (node e : Nat) : Bool := (s.byteAt (hbmLoc (node + 0x40 + e / 8))).getLsbD (e % 8)

/-- Every WAITE that stands on a bit when it becomes 1 is satisfied (R114). -/
def wakeEv (s : State) (node e : Nat) : State :=
  { s with cores := s.cores.map fun p =>
      let c := p.2.ctx
      if p.2.live && c.launch != 0 && c.evNode = node && c.freeze.any (fun f => f.2 = .event e) then
        (p.1, { p.2 with ctx := { c with evSeen := e :: c.evSeen } })
      else p }

/-- A notify entry names a node and an event bit (18_fabric R344): [63] armed, [59:52] event, [51:0] node. -/
def notifyHits (s : State) (node e : Nat) : List Nat :=
  (s.notify.filter fun p => p.2.getLsbD 63 && bits p.2.toNat 51 0 = node && bits p.2.toNat 59 52 = e).map (·.1)

/-- Set or clear a bit of a node's event vector; a bit that becomes 1 wakes its waiters and arms its messages.  A unit that
cannot be decoded takes no action (R394). -/
def putEv (s : State) (node e : Nat) (v : Bool) : State :=
  let l := hbmLoc (node + 0x40 + e / 8)
  let b := s.byteAt l
  let m : Byte := 1#8 <<< (e % 8)
  if s.badAt l then s
  else if v then
    let was := b.getLsbD (e % 8)
    let s := (s.setByte l (b ||| m)).wakeEv node e
    if was then s else (s.notifyHits node e).foldl (fun s k => s.post .notifyMessage { n := k }) s
  else s.setByte l (b &&& ~~~ m)

/-- The event bit a context sees: EV of its node, or the private vector of a firmware kernel (R293, R415). -/
def ctxEv (s : State) (c : Ctx) (e : Nat) : Bool :=
  if c.launch = 0 then c.privEv.getLsbD e else s.evBit c.evNode e

/-- Set or clear an event bit for the running context of core `k`. -/
def ctxPutEv (s : State) (k e : Nat) (v : Bool) : State :=
  let c := (s.core k).ctx
  if c.launch = 0 then
    let m : BitVec 256 := 1#256 <<< e
    s.onCore k fun x => { x with ctx := { c with
      privEv := if v then c.privEv ||| m else c.privEv &&& ~~~ m
      evSeen := if v && c.freeze.any (fun f => f.2 = .event e) then e :: c.evSeen else c.evSeen } }
  else s.putEv c.evNode e v

end State

/-! ### Fetch (R63) -/

namespace State

/-- Locations of `n` bytes at scratchpad offset `off` of the running context: its base is SPB (R301). -/
def spmLocs (s : State) (off n : Nat) : List Loc :=
  Loc.run { mem := .spm, unit := s.focus, off := s.ctx.spb + off } n

/-- The word that a stream issues next, or the cause its fetch raises: 0x02 beyond the declared scratchpad (R63); 0x05
at a misaligned address, which only a write of a TFPC can make (log entry 8); 0x0B from a row that cannot be decoded
(log entry 8). -/
def fetch (s : State) (n : Nat) : Except Nat Nat :=
  let c := s.ctx
  let pc := (c.strm n).pc.toNat
  let w := (strmOf n).bytes
  if pc + w > c.spmSize then .error 0x02
  else if pc % w != 0 then .error 0x05
  else
    let ls := s.spmLocs pc w
    if s.anyBad ls then .error 0x0B else .ok (s.natAt ls)

/-- The reading of the next word's bytes: corrections and failures are counted, and a corrected row is to be written back
(R390, R391). -/
def fetched (s : State) (n : Nat) : State :=
  let c := s.ctx
  let pc := (c.strm n).pc.toNat
  let w := (strmOf n).bytes
  if pc + w > c.spmSize || pc % w != 0 then s else s.touch (s.spmLocs pc w)

end State

/-! ### Hardware loops (R98, R99, R150, R152) -/

/-- LOOPSAVE with V set for a loop drained at its end word (R151, R152, R304). -/
def drainedSave (save : BitVec 64) (opener rem : Nat) : BitVec 64 :=
  BitVec.ofNat 64 (2 ^ 63 + opener % 2 ^ 21 * 2 ^ 40 + bits save.toNat 39 32 * 2 ^ 32 + rem % 2 ^ 32)

/-- The next address after the word at `e` of a stream of `w`-byte words, with what becomes of the loop stack, top
first; `drain` asks the outermost loop to stop where it would iterate.  The third part is what was drained. -/
def loopEnd (w e : Nat) (drain : Bool) : List Loop → Nat × List Loop × Option (Nat × Nat)
  | [] => (e + w, [], none)
  | l :: ls =>
    if l.stop ≠ e then (e + w, l :: ls, none)
    else if l.rem > 1 then
      if drain && ls.isEmpty then (e + w, [], some (l.opener, l.rem - 1))
      else (l.start, { l with rem := l.rem - 1 } :: ls, none)
    else loopEnd w e drain ls

/-- Loops left by a transfer to `target`: those whose body does not hold it are popped (R101). -/
def leaveLoops (target : Nat) : List Loop → List Loop
  | [] => []
  | l :: ls => if l.start ≤ target && target ≤ l.stop then l :: ls else leaveLoops target ls

/-- A stream whose loops have ended has drained: a loop that it opens later is not drained for this request (R152). -/
def Ctx.leftLoops (c : Ctx) : Ctx :=
  if c.handler then c
  else { c with toDrain := c.toDrain.filter fun n => !(c.strm n).loops.isEmpty }

/-! ### What an issuing word does -/

/-- What a word does once it issues: the context with its immediate effects, its scheduled effects, the sources it
captured, a transfer of control, idle ticks beyond its own field, conditions that freeze the core from now on, a trap
that follows its issue, the core time of its last effect where its script will grow, the bytes that it has read at issue,
whether its step trap waits for the freeze that it causes (R125), and, of a Ladle word alone, an arrival with its payload
and the completion words that it counts at issue. -/
structure Go where
  ctx : Ctx
  script : List (Nat × Nat × Eff) := []
  a : BitVec 1024 := 0
  b : BitVec 1024 := 0
  c : BitVec 1024 := 0
  env : Env := {}
  jump : Option (BitVec 64) := none
  idle : Nat := 0
  post : List (Nat × Freeze) := []
  used : List TlbE := []
  after : Option (Nat × Nat) := none
  fin : Nat := 0
  arr : Option (Bool × Nat × Nat) := none
  adds : List (List Loc) := []
  seen : List Loc := []
  late : Bool := false
deriving DecidableEq, Repr

/-- The outcome of a word's checks at its issue edge (R64): a precise trap with its INFO and TFADDR, the trap of data that
it has read and that cannot be decoded (R391), a freeze, or its effects. -/
inductive Plan where
  | trap (cause info : Nat) (addr : BitVec 64)
  | bad (ls : List Loc) (addr : BitVec 64)
  | wait (f : Freeze)
  | go (g : Go)
deriving DecidableEq, Repr

/-- The first condition that holds raises its cause, in the order given; otherwise the plan. -/
def raise (addr : BitVec 64) : List (Bool × Nat) → Plan → Plan
  | [], p => p
  | (b, k) :: l, p => if b then .trap k 0 addr else raise addr l p

/-- Kernel limits on scalar registers (R242): a field names one at or above SREGS. -/
def Ctx.sOver (c : Ctx) (rs : List Nat) : Bool := rs.any fun r => decide (c.sregs ≤ r)

namespace State

/-! ### Taking a trap (R310, R312, R313) -/

/-- The core stops, faulted, and its launch node shows STATE 4 and LCAUSE (R312); its entry has ended, failed (R404).  A
firmware kernel has no node. -/
def stopFaulted (s : State) (cause : Nat) : State :=
  let c := s.ctx
  let s := s.setCtx { c with mode := .faulted, freeze := [] }
  if c.launch = 0 then s
  else
    let s := (s.setNodeState c.launch 4).setLcause c.launch cause
    match s.launchOf c.launch with
    | some l => s.endEntry l.parent l.seq
    | none => s

/-- A pair that was never assigned and is not retired (R401); the pair (0, 0) is the host's and the module's own. -/
def unassigned (s : State) (asid gen : Nat) : Bool :=
  (asid, gen) != (0, 0) && !s.pairs.contains (asid, gen) && !s.retired.contains (asid, gen)

/-- The trap frame of the running streams at core time now: next words and the times they are due (R310). -/
def frameOf (c : Ctx) : Frame :=
  { c.frame with
    pcs := (List.range 5).map fun n => BitVec.ofNat 21 (c.strm n).pc.toNat
    dues := (List.range 5).map fun n => (c.strm n).due
    ons := (List.range 5).map fun n => (c.strm n).on
    parks := (List.range 5).map fun n => (c.strm n).park
    loops := c.sq.loops
    time := c.ctime
    replay := c.flights
    s := c.s
    hist := c.hist }

/-- TRAPCAUSE (R313). -/
def trapWord (strm : Nat) (async : Bool) (info cause : Nat) : BitVec 32 :=
  BitVec.ofNat 32 (strm * 2 ^ 29 + (if async then 2 ^ 28 else 0) + info % 256 * 2 ^ 16 + cause % 256)

/-- A trap at the present edge (R310, R312): every stream stops, what is scheduled later waits in the replay queue, the
frame keeps the next word of each stream and when it is due, TRAPCAUSE, TFADDR and TFINFO say what happened, and the
sequencer enters handler mode at TFVEC with an empty loop stack; `c` is the context as the edge leaves it.  In handler
mode, with TFVEC 0, or for a cause of the fault domain, the core stops faulted instead. -/
def trapInto (s : State) (c : Ctx) (strm : Nat) (async : Bool) (cause info : Nat) (addr tinfo : BitVec 64) : State :=
  if c.handler then (s.setCtx c).stopFaulted 0x1A
  else
    let f := frameOf c
    let c1 := { c with
      frame := { f with addr := addr, info := tinfo }
      trapcause := trapWord strm async info cause
      flights := []
      freeze := [] }
    if f.vec = 0 || cause = 0x0A || cause = 0x1A then (s.setCtx c1).stopFaulted cause
    else
      s.setCtx { c1 with
        handler := true
        sq := { c.sq with pc := f.vec.zeroExtend 64, due := c.ctime + c.div 0, loops := [], park := .no } }

/-- A trap of a word that has not issued: words of other streams that issued at this edge are taken back, since no
stream issues at a trap edge (R310). -/
def trap (s : State) (strm cause info : Nat) (addr : BitVec 64) : State :=
  let k := s.me
  let c := match k.mark with
    | some (t, c) => if t = k.ctx.ctime then c else k.ctx
    | none => k.ctx
  -- an invalid operation under NVT sets NV of its engine and traps (01_numbers R23)
  let c := if cause = 0x10 then
      (if strm = 2 then { c with arithM := c.arithM ||| 0x10000 } else { c with arithV := c.arithV ||| 0x10000 })
    else c
  (s.setMe { k with mark := none, xres := [] }).trapInto c strm false cause info addr 0

/-! ### The Taster (R397 to R399) -/

/-- The Taster's next comparison disagrees (R398): the action is withheld and the core freezes. -/
def tasterHolds (s : State) : Option State :=
  if s.me.tasteBad = 0 then none
  else
    let c := s.ctx
    some (s.setMe { s.me with
      tasteBad := s.me.tasteBad - 1, retried := true
      ctx := if c.freeze.any fun x => x.2 = .taster then c else { c with freeze := c.freeze ++ [(0, .taster)] } })

/-- Values of the sequencer that the Taster has still to compare: outward actions and stores into the core's own windows. -/
def untasted (c : Ctx) : Bool :=
  c.flights.any fun f => f.script.any fun e =>
    match e.2.2 with
    | .out _ => true
    | .store .. => f.strm = 0
    | _ => false

/-- A precise trap of a word of stream `n` that has not issued.  A page fault of the sequencer is taken with the Taster
drained to the faulting word: what it withholds is retried first, and the word meets the fault again (R309, R399). -/
def trapDrained (s : State) (n cause info : Nat) (addr : BitVec 64) : State :=
  if n = 0 && cause = 0x04 && untasted s.ctx then (s.tasterHolds).getD (s.trap n cause info addr)
  else s.trap n cause info addr

/-- A wait of stream `n` freezes the core (R56). -/
def freezeOn (s : State) (n : Nat) (f : Freeze) : State :=
  let c := s.ctx
  s.setCtx { c with freeze := c.freeze ++ [(n, f)] }

/-- Return from a trap (R123, R315): handler mode ends, the streams stand as the frame recorded them, CTIME is TFTIME,
the replay queue is re-injected, and the broadcast history is as it was, with what the handler wrote placed at the trap
edge. -/
def returnFrom (c : Ctx) : Ctx :=
  let f := c.frame
  let put (n : Nat) (x : Stream) : Stream :=
    { x with
      pc := (f.pcs.getD n 0).zeroExtend 64
      due := f.dues.getD n 0
      on := f.ons.getD n false
      park := f.parks.getD n .no }
  let wrote := (List.range 64).filter fun n => c.s.get n != f.s.get n
  { c with
    handler := false
    ctime := f.time
    flights := f.replay
    hist := f.hist ++ wrote.map fun n => (f.time, n, f.s.get n)
    sq := { put 0 c.sq with loops := f.loops }
    ve := put 1 c.ve
    me := put 2 c.me
    gu := put 3 c.gu
    ld := put 4 c.ld
    frame := { f with replay := [] } }

/-! ### Issue (R55, R86, R127) -/

/-- The words that wait once they have issued (R108, R112, R175). -/
def isWait : Instr → Bool
  | .bara .. | .waitf .. | .waite .. | .waita .. | .barw .. | .fenceC .. | .mwait .. => true
  | _ => false

/-- A wait that was abandoned is evaluated again (R57). -/
def again (c : Ctx) (i : Instr) (n : Nat) : Bool := isWait i && decide ((c.strm n).due < c.ctime)

/-- The context after stream `n` has issued the word `i` with idle count `idle` and effects `g`: its flight is added,
its loops turned, its next word due; a word that traps turns no loop (R101, R124). -/
def issued (i : Instr) (n idle : Nat) (g : Go) : Ctx :=
  let c := g.ctx
  let x := c.strm n
  let w := (strmOf n).bytes
  let edge := if again c i n then x.due else c.ctime
  let due := (edge / c.div n + 1 + idle + g.idle) * c.div n
  let fl : Flight :=
    { strm := n, seq := c.seq, pc := x.pc, word := ((encode i).map (·.2)).getD 0, a := g.a, b := g.b, c := g.c
      env := g.env
      fin := g.script.foldl (fun m e => max m e.1) g.fin
      script := g.script }
  let c := if g.script.isEmpty then c else { c with flights := c.flights ++ [fl], seq := c.seq + 1 }
  match g.jump with
  | some t => (c.setStrm n { x with pc := t, due := due, stalled := false }).leftLoops
  | none =>
    if n ≤ 1 && g.after.isNone then
      let drain := c.toDrain.contains n && !c.handler
      let (p, ls, d) := loopEnd w x.pc.toNat drain x.loops
      let x := { x with pc := BitVec.ofNat 64 p, due := due, stalled := false, loops := ls }
      match d with
      | some (o, r) =>
        let c := (c.setStrm n { x with save := drainedSave x.save o r }).leftLoops
        if n = 0 then { c with saveh := BitVec.ofNat 64 (r / 2 ^ 32) } else c
      | none => (c.setStrm n x).leftLoops
    else c.setStrm n { x with pc := x.pc + BitVec.ofNat 64 w, due := due, stalled := false }

/-- The first word that issues at an edge keeps the context as it stood, for a trap at the same edge. -/
def markEdge (k : Core) : Core :=
  match k.mark with
  | some (t, _) => if t = k.ctx.ctime then k else { k with mark := some (k.ctx.ctime, k.ctx) }
  | none => { k with mark := some (k.ctx.ctime, k.ctx) }

/-- What a vector word leaves behind at issue for a fault of the data that it has still to read (R154). -/
def probeOf (s : State) : Probe :=
  let c := s.ctx
  let k := s.me
  let mine := (k.towner.filter fun o => o.2 = (c.launch, c.p)).map (·.1)
  { seq := c.seq, at_ := c.ctime, ve := c.ve, v := c.v, k := c.k, q := c.q, la := c.la, lb := c.lb, lc := c.lc
    arithV := c.arithV, momV := c.momV, mine := mine
    tiles := k.tiles.filter fun e => mine.contains (e.1 / 256)
    tshape := k.tshape.filter fun e => mine.contains e.1
    flights := c.flights.filter fun f => f.strm = 1 }

/-- The context with a word of the VE whose data can still fault. -/
def probed (s : State) : Ctx := { s.ctx with probes := s.ctx.probes ++ [s.probeOf] }

/-- The context as the issue of a word leaves it: its flight and due time, and what freezes the core from now on. -/
def leaving (i : Instr) (n idle : Nat) (g : Go) : Ctx :=
  let c := issued i n idle g
  { c with freeze := c.freeze ++ g.post }

/-- The state after the issue of a word with effects `g`: a wait that is evaluated again marks the edge anew (R57). -/
def afterIssue (s : State) (i : Instr) (n idle : Nat) (g : Go) : State :=
  let c := leaving i n idle g
  let k := if again s.ctx i n then { s.me with mark := some (c.ctime, c) } else markEdge s.me
  (s.setMe { k with ctx := c, xres := [], tlb := g.used ++ k.tlb.filter fun e => !g.used.contains e }).touch g.seen

/-- The issue of a word of stream `n`: an illegal word raises 0x01 (R64), its plan decides, a thirteenth outstanding
instruction raises 0x19 (R127), and a sequencer word that has issued under single step raises 0x0E (R125).  DESIGN CHOICE:
the words of a handler take no step trap (log entry 85), and 0x19, which R126 does not place, comes after every other
cause of the word (log entry 86). -/
def issue (i : Instr) (n idle : Nat) (plan : State → Plan) (s : State) : State :=
  if !i.wf then s.trap n 0x01 0 0
  else
    match plan s with
    | .trap k info a => s.trapDrained n k info a
    | .bad ls a => (s.touch ls).trap n 0x0B 0 a
    | .wait f => s.freezeOn n f
    | .go g =>
      if !g.script.isEmpty && decide (12 ≤ s.ctx.outstanding) then s.trap n 0x19 0 0
      else
        match g.after with
        | some (k, info) => (s.setMe { s.me with mark := none }).trapInto (leaving i n idle g) n false k info 0 0
        | none =>
          if n = 0 && g.ctx.frame.step = 1 && !g.ctx.handler && !g.late then
            ((s.setMe { s.me with mark := none }).trapInto (leaving i n idle g) n false 0x0E 0 0 0).touch g.seen
          else s.afterIssue i n idle g

end State

end Sys2Proof.Machine
end

