-- ==== Sys2Proof/Machine/Xlat.lean ====
section
/-!
DEFINITION. Translation (14_contexts R317 to R320): the three-level walk of tables in HBM, the two levels of
translation caches, and the scalar address windows of 04_sequencer_isa R92.
-/

namespace Sys2Proof.Machine

/-- What a lookup finds: no cached translation, an absent page (cause 0x04), or a page. -/
inductive Xl where
  | miss
  | absent
  | page (e : TlbE)
deriving DecidableEq, Repr

/-- The size of a target memory, none where the host sets it (R256, R318): 256 GiB of HBM and 64 MiB of Pantry per die, 64 TiB
of CXL tier. -/
def targetSize : Nat → Option Nat
  | 0 => some (2 ^ 38)
  | 1 => some (2 ^ 26)
  | 4 => some (2 ^ 46)
  | _ => none

/-- TGT of a table entry is reserved (R318). -/
def badTgt (e : Nat) : Bool := decide (4 < bits e 10 8)

/-- A leaf entry as a page (R318); reserved targets and misaligned bases are absent, and so is what lies beyond the end of the
target memory (log entry 93). -/
def leafPage (asid va size e : Nat) : Option TlbE :=
  let addr := bits e 51 16 * 2 ^ 16
  let tgt := bits e 10 8
  let base := va / size * size
  let n := (targetSize tgt).elim size fun m => min size (m - addr)
  if badTgt e || addr % size != 0 || decide (base + n ≤ va) then none
  else some { asid := asid, base := base, size := n, tgt := tgt, die := bits e 54 52, addr := addr
              rd := bits e 2 2 = 1, wr := bits e 3 3 = 1 }

namespace State

/-- Whether the 32 entries of a 2 MiB group agree apart from ADDR, which rises by 64 KiB (R318). -/
def groupOk (s : State) (base first : Nat) : Nat → Bool
  | 0 => true
  | k + 1 => (s.dword (base + 8 * k)).toNat = first + k * 2 ^ 16 && s.groupOk base first k

/-- The walk of the three levels for `va` (R317, R318): the page, or none where it is absent, as in SAFE, where the tables,
which lie in HBM, cannot be read (21_bringup R406). -/
def walk (s : State) (asid va : Nat) : Option TlbE :=
  let root := (s.dword (Config.asidRoot + 8 * (asid % 65536))).toNat
  if root % 2 = 0 || s.boot.phase = 0x80 then none
  else
    let e1 := (s.dword (bits root 51 16 * 2 ^ 16 + 8 * bits va 51 41)).toNat
    if e1 % 2 = 0 || bits e1 1 1 = 1 || badTgt e1 then none
    else
      let e2 := (s.dword (bits e1 51 16 * 2 ^ 16 + 8 * bits va 40 30)).toNat
      if e2 % 2 = 0 || badTgt e2 then none
      else if bits e2 1 1 = 1 then leafPage asid va (2 ^ 30) e2
      else
        let t3 := bits e2 51 16 * 2 ^ 16
        let i3 := bits va 29 16
        let e3 := (s.dword (t3 + 8 * i3)).toNat
        if e3 % 2 = 0 || bits e3 1 1 = 0 then none
        else if bits e3 5 5 = 0 then leafPage asid va (2 ^ 16) e3
        else
          let g := t3 + 8 * (i3 / 32 * 32)
          let f := (s.dword g).toNat
          if s.groupOk g f 32 then leafPage asid va (2 ^ 21) f else none

end State

/-- Whether a cached page holds an address. -/
def TlbE.holds (e : TlbE) (asid va : Nat) : Bool := e.asid = asid && decide (e.base ≤ va) && decide (va < e.base + e.size)

/-- The core's lookup: a walk's result that waits for the word that missed, then the core's cache (R319). -/
def Core.lookup (k : Core) (asid va : Nat) : Xl :=
  match k.xres.find? fun r => r.1 = asid && r.2.1 = va / 65536 with
  | some (_, _, some e) => .page e
  | some (_, _, none) => .absent
  | none =>
    match k.tlb.find? fun e => e.holds asid va with
    | some e => .page e
    | none => .miss

/-- The I/O die whose CXL port reaches an address of the tier (R256, R345). -/
def cxlPort (a : Nat) : Nat := (Config.cxlConfined.getD (a / 4096)) % 2

/-- The place of an address in a page (R256, R277, R318). -/
def TlbE.place (e : TlbE) (va : Nat) : Loc :=
  let a := e.addr + (va - e.base)
  match e.tgt with
  | 0 => { mem := .hbm, unit := e.die, off := a }
  | 1 => { mem := .pantry, unit := e.die, off := a }
  | 2 => { mem := .host, unit := 0, off := a }
  | 3 => { mem := .host, unit := 1, off := a }
  | _ => { mem := .cxl, unit := cxlPort a, off := a }

/-- Whether an invalidation in progress covers an address (R320, R342). -/
def State.invalidating (s : State) (asid va : Nat) : Bool :=
  s.invGo && s.invAsid.toNat = asid && decide (s.invBase.toNat / 65536 ≤ va / 65536)
    && (s.invLen = 0 || decide (va / 65536 < s.invBase.toNat / 65536 + s.invLen.toNat))

/-- Which path a scalar access takes: a fixed edge of the own scratchpad or the lent window, or far memory. -/
inductive Path where
  | own | lent | far
deriving DecidableEq, Repr

/-- A scalar address resolved (R92): a cause, a translation miss, or its bytes with the page used. -/
inductive Reach where
  | bad (cause : Nat)
  | miss (asid va : Nat)
  | at (p : Path) (ls : List Loc) (used : List TlbE)
deriving DecidableEq, Repr

/-- The lender and offset of a byte of the lent window (R245). -/
def Ctx.lentLoc (c : Ctx) (off : Nat) : Loc :=
  { mem := .spm, unit := c.lenders.getD (off / 2 ^ 21) 0, off := off % 2 ^ 21 }

/-- The windows of R92 for `n` bytes at scalar address `a`.  Window 0xC is the PHY window of service cores
under ASID 0, in units of 8 bytes; what lies between its registers is refused alike (R412, log entry 9). -/
def State.reach (s : State) (a : Word) (n : Nat) (write : Bool) : Reach :=
  let c := s.ctx
  let off := a.toNat % 2 ^ 60
  match a.toNat / 2 ^ 60 with
  | 0x0 =>
    if off ≥ 2 ^ 52 then .bad 0x03
    else if s.invalidating c.asid.toNat off then .miss c.asid.toNat off
    else
      match s.me.lookup c.asid.toNat off with
      | .miss => .miss c.asid.toNat off
      | .absent => .bad 0x04
      | .page e =>
        if (if write then e.wr else e.rd) then .at .far (Loc.run (e.place off) n) [e] else .bad 0x03
  | 0x8 =>
    if off ≥ 2 ^ 21 then .bad 0x03
    else if off + n > c.spmSize then .bad 0x02
    else .at .own (s.spmLocs off n) []
  | 0x9 =>
    if off ≥ 2 ^ 21 || c.lentSize = 0 then .bad 0x03
    else if off + n > c.lentSize then .bad 0x02
    else .at .lent ((List.range n).map fun k => c.lentLoc (off + k)) []
  | 0xA =>
    if off ≥ 2 ^ 26 then .bad 0x03
    else .at .far (Loc.run { mem := .pantry, unit := dieOf s.focus, off := off } n) []
  | 0xC =>
    if s.focus < 1536 || c.asid != 0 || n != 8 || off ≥ 2 ^ 22 || bits off 19 11 ≥ 384 || off % 0x800 > 0x20 then
      .bad 0x03
    else .at .far (Loc.run { mem := .phy, unit := dieOf s.focus, off := off } n) []
  | _ => .bad 0x03

/-- A walk for a miss of core `k` (R319): the second level or the tables answer; both caches take the page at the head
and drop their least recently used entry. -/
def State.fillXlat (s : State) (k asid va : Nat) : State :=
  let d := dieOf k
  let hit := (s.die d).tlb.find? fun e => e.holds asid va
  let r := match hit with
    | some e => some e
    | none => s.walk asid va
  let s := s.onCore k fun c =>
    { c with
      xres := c.xres.filter (fun x => !(x.1 = asid && x.2.1 = va / 65536)) ++ [(asid, va / 65536, r)]
      tlb := match r with
        | some e => (e :: c.tlb.filter (· != e)).take 512
        | none => c.tlb }
  match r with
  | some e => s.onDie d fun x => { x with tlb := (e :: x.tlb.filter (· != e)).take 16384 }
  | none => s

end Sys2Proof.Machine
end

