-- ==== Sys2Proof/Machine/Operands.lean ====
section
/-!
DEFINITION. Operand forms: container modifiers (02_core_state R61), packed elements (R60), operand latches
(05_vector_tile_isa R129, R130), tensor descriptors and element places (R51 to R53, R138, R139), and the bytes that
pending lockstep writes of the core will have stored (R88, R140, R266).
-/

namespace Sys2Proof.Machine

/-! ### Containers and elements (R60, R61) -/

/-- Lane `l` of a vector register. -/
def lane (v : BitVec 1024) (l : Nat) : Nat := v.toNat / 2 ^ (32 * l) % 2 ^ 32

/-- Element `i` of width `w` of a register or container. -/
def elemAt (w : Nat) (v : Nat) (i : Nat) : Nat := v / 2 ^ (i * w) % 2 ^ w

/-- Elements of width `w` packed from the lowest bits upward. -/
def packElems (w : Nat) : List Nat → Nat
  | [] => 0
  | x :: xs => x % 2 ^ w + 2 ^ w * packElems w xs

/-- The first `n` elements of width `w` of a value. -/
def elemsOf (w n : Nat) (v : Nat) : List Nat := (List.range n).map (elemAt w v)

def lanesOf (v : BitVec 1024) : List Nat := elemsOf 32 32 v.toNat

def ofLanes (xs : List Nat) : BitVec 1024 := BitVec.ofNat 1024 (packElems 32 xs)

/-- SWZ of R61 on one container, at element width `w`. -/
def swz (m : BitVec 4) (w c : Nat) : Nat :=
  match m.toNat % 4 with
  | 0 => c
  | 1 => c / 2 ^ 16 + c % 2 ^ 16 * 2 ^ 16
  | 2 => packElems 8 [elemAt 8 c 1, elemAt 8 c 0, elemAt 8 c 3, elemAt 8 c 2]
  | _ => packElems w (List.replicate (32 / w) (c % 2 ^ w))

def swzAll (m : BitVec 4) (w : Nat) (v : BitVec 1024) : BitVec 1024 :=
  if m.toNat % 4 = 0 then v else ofLanes ((lanesOf v).map (swz m w))

/-- The positions that a SEL code names among `n` (R61). -/
def selPos (sel n : Nat) : List Nat :=
  match sel % 4 with
  | 0 => List.range (n / 2)
  | 1 => (List.range (n / 2)).map (· + n / 2)
  | 2 => (List.range (n / 2)).map (2 * ·)
  | _ => (List.range (n / 2)).map (2 * · + 1)

/-- The bit mask of the lanes that a lane mask selects. -/
def laneMask (k : BitVec 32) : BitVec 1024 :=
  ofLanes ((List.range 32).map fun l => if k.getLsbD l then 2 ^ 32 - 1 else 0)

/-! ### Sources of VR words (R58, R129, R130) -/

/-- The three source positions. -/
inductive Pos where
  | a | b | c
deriving DecidableEq, Repr

def Ctx.latch (c : Ctx) : Pos → Latch
  | .a => c.la
  | .b => c.lb
  | .c => c.lc

def Ctx.fill (c : Ctx) (p : Pos) (n : Nat) : Ctx :=
  let l : Latch := { v := c.rv n, tag := n, valid := true }
  match p with
  | .a => { c with la := l }
  | .b => { c with lb := l }
  | .c => { c with lc := l }

def vrReg (f : VR) : Pos → Nat
  | .a => f.va.toNat
  | .b => f.vb.toNat
  | .c => f.vc.toNat

def vrHeld (f : VR) : Pos → Bool
  | .a => f.hold.getLsbD 2
  | .b => f.hold.getLsbD 1
  | .c => f.hold.getLsbD 0

/-- A held source that its latch does not hold raises 0x15 (R130). -/
def holdBad (c : Ctx) (f : VR) (p : Pos) : Bool :=
  vrHeld f p && (!(c.latch p).valid || (c.latch p).tag != vrReg f p)

/-- A source before its modifiers: the latch where it is held, the broadcast in place of B, else the register. -/
def srcOf (c : Ctx) (f : VR) (p : Pos) : BitVec 1024 :=
  if p = .b && f.be = 1 then ofLanes (List.replicate 32 ((c.bcast 1 f.bc.toNat).toNat % 2 ^ 32))
  else if vrHeld f p then (c.latch p).v
  else c.rv (vrReg f p)

/-- The latches after a word that reads the positions `ps` (R129). -/
def fillAll (c : Ctx) (f : VR) (ps : List Pos) : Ctx :=
  ps.foldl (fun c p => if vrHeld f p || (p = .b && f.be = 1) then c else c.fill p (vrReg f p)) c

/-- The vector registers a word reads from the banks: each once, held ones not (R59, R75). -/
def readRegs (f : VR) (ps : List Pos) : List Nat :=
  (ps.filter fun p => !(vrHeld f p) && !(p = .b && f.be = 1)).foldl
    (fun a p => if a.contains (vrReg f p) then a else a ++ [vrReg f p]) []

/-- Ticks of bank stall (R59): reads of one bank beyond the first. -/
def bankStall (rs : List Nat) : Nat :=
  (List.range 6).foldl (fun a b => a + ((rs.filter fun r => r % 6 = b).length - 1)) 0

/-! ### Descriptors (R51 to R53) -/

/-- The fields of a descriptor entry (R51). -/
structure Desc where
  v : Bool
  d : Nat
  blk : Nat
  scale : Nat
  s2 : Int
  s1 : Int
  dim2 : Nat
  dim1 : Nat
  dim0 : Nat
  fmt : Nat
  space : Nat
  base : Nat
deriving DecidableEq, Repr

def Desc.of (x : BitVec 256) : Desc :=
  let n := x.toNat
  { v := bits n 255 255 = 1, d := bits n 251 248, blk := bits n 247 246, scale := bits n 245 194
    s2 := sgn 32 (bits n 191 160), s1 := sgn 32 (bits n 159 128), dim2 := bits n 111 96, dim1 := bits n 95 80
    dim0 := bits n 79 64, fmt := bits n 63 56, space := bits n 55 52, base := bits n 51 0 }

namespace Desc

/-- Block length (R51). -/
def blkLen (d : Desc) : Nat := if d.blk = 0 then 0 else 2 ^ (d.blk + 2)

def fm (d : Desc) : Fm := (Fm.ofCode d.fmt).getD .fp32

/-- Width of one element in bits. -/
def w (d : Desc) : Nat := d.fm.bits

/-- The checks of R53 that raise 0x12. -/
def invalid (d : Desc) : Bool :=
  !d.v || (Fm.ofCode d.fmt).isNone || decide (d.space > 3) || d.dim0 = 0 || d.dim1 = 0 || d.dim2 = 0
    || (d.fm.isBlock != (d.blk != 0)) || (d.fm.isBlock && d.dim0 % d.blkLen != 0)

/-- The alignment checks of R53 that raise 0x05. -/
def misaligned (d : Desc) : Bool :=
  if d.fm.isBlock then
    let b : Int := (d.blkLen * d.w / 8 : Nat)
    d.scale % 2 != 0 || d.s1 % b != 0 || d.s2 % b != 0
  else
    let n := d.w / 8
    d.base % n != 0 || d.s1 % (n : Int) != 0 || d.s2 % (n : Int) != 0

/-- A linear element index split into its coordinates (R138). -/
def split (d : Desc) (l : Int) : Int × Int × Int :=
  (l % d.dim0, l / d.dim0 % d.dim1, l / ((d.dim0 : Int) * d.dim1))

/-- The bit address of an element (R51, R166): byte offset of its base times 8. -/
def bitAddr (d : Desc) (i0 i1 i2 : Int) : Int :=
  8 * (d.base : Int) + i0 * d.w + 8 * (i1 * d.s1 + i2 * d.s2)

/-- The byte address of an element's block header (R166). -/
def hdrAddr (d : Desc) (i0 i1 i2 : Int) : Int :=
  (d.scale : Int) + 2 * (i0 / d.blkLen + (d.dim0 / d.blkLen : Nat) * (i1 + d.dim1 * i2))

/-- Whether coordinates lie within the extents. -/
def inside (d : Desc) (i0 i1 i2 : Int) : Bool :=
  decide (0 ≤ i0) && decide (i0 < d.dim0) && decide (0 ≤ i1) && decide (i1 < d.dim1) && decide (0 ≤ i2)
    && decide (i2 < d.dim2)

end Desc

/-- The descriptor copy that an instruction takes (R53, R54). -/
def Ctx.descOf (c : Ctx) (n : Nat) : Desc := Desc.of (c.desc.get n)

/-- Bytes of the space of a descriptor that the kernel may reach (R51, R242). -/
def Ctx.spaceSize (c : Ctx) (space : Nat) : Nat :=
  match space with
  | 0 => c.spmSize
  | 1 => c.lentSize
  | 2 => 2 ^ 26
  | _ => 2 ^ 52

/-- Byte offset `a` of space 0, 1 or 2 as a place (R51, R245, R301). -/
def State.place (s : State) (space a : Nat) : Loc :=
  let c := s.ctx
  match space with
  | 0 => { mem := .spm, unit := s.focus, off := c.spb + a }
  | 1 => c.lentLoc a
  | _ => { mem := .pantry, unit := dieOf s.focus, off := a }

/-- Whether `n` bytes at byte address `a` leave their space (R51). -/
def Ctx.outside (c : Ctx) (space : Nat) (a : Int) (n : Nat) : Bool :=
  decide (a < 0) || decide (a + n > c.spaceSize space)

/-- Whether the element at coordinates leaves its space. -/
def Ctx.elemOut (c : Ctx) (d : Desc) (i : Int × Int × Int) : Bool :=
  let b := d.bitAddr i.1 i.2.1 i.2.2
  c.outside d.space (b / 8) ((d.w + 7) / 8)

/-- The pieces of an element of a descriptor in space 0 or 1, for register bits from `dst` upward. -/
def State.piecesOf (s : State) (d : Desc) (i : Int × Int × Int) (dst : Nat) : List Piece :=
  let b := (d.bitAddr i.1 i.2.1 i.2.2).toNat
  if d.w < 8 then [{ dst := dst, w := d.w, loc := s.place d.space (b / 8), sh := b % 8 }]
  else (List.range (d.w / 8)).map fun k => { dst := dst + 8 * k, w := 8, loc := s.place d.space (b / 8 + k), sh := 0 }

/-- The bytes of an element. -/
def State.elemLocs (s : State) (d : Desc) (i : Int × Int × Int) : List Loc := (s.piecesOf d i 0).map (·.loc)

/-! ### Pieces and pending writes -/

/-- The single-copy-atomic size of a memory in bytes (R49, R263). -/
def scaSize : Mem → Nat
  | .spm => 64
  | .pantry | .hbm => 32
  | _ => 8

/-- A byte with a piece of a register stored into it. -/
def putPiece (p : Piece) (src : BitVec 2048) (b : Byte) : Byte :=
  BitVec.ofNat 8 (putBits b.toNat (p.sh + p.w - 1) p.sh (src.toNat / 2 ^ p.dst))

/-- The value of pieces read through `rd`, placed at their register bits. -/
def gather (rd : Loc → Byte) (ps : List Piece) : Nat :=
  ps.foldl (fun a p => a + bits (rd p.loc).toNat (p.sh + p.w - 1) p.sh * 2 ^ p.dst) 0

/-- The register bits that pieces cover. -/
def pieceMask (ps : List Piece) : Nat := ps.foldl (fun a p => a + (2 ^ p.w - 1) * 2 ^ p.dst) 0

/-- Insertion into a list ordered by `le`, and the sort by it; equal entries keep their order. -/
def insertBy {α : Type} (le : α → α → Bool) (x : α) : List α → List α
  | [] => [x]
  | y :: ys => if le x y then x :: y :: ys else y :: insertBy le x ys

def isort {α : Type} (le : α → α → Bool) (l : List α) : List α := l.foldr (insertBy le) []

/-- Lockstep stores pending in the core, in the order in which they land (R266), that satisfy `ok`: the sequencer's
before the VE's before the ME's at one edge. -/
def pendingStores (c : Ctx) (ok : Flight → Nat → Bool) : List (Nat × Nat × Nat × List Piece × BitVec 2048) :=
  let all := c.flights.foldl (fun a f => a ++ f.script.filterMap fun e =>
    match e.2.2 with
    | .store ps src => if ok f e.1 then some (e.1, f.strm, f.seq, ps, src) else none
    | _ => none) []
  isort (fun x y => decide (x.1 < y.1) || (x.1 = y.1 && (decide (x.2.1 < y.2.1) || (x.2.1 = y.2.1 &&
    decide (x.2.2.1 ≤ y.2.2.1))))) all

/-- A byte as it will stand once the stores given have landed. -/
def overlay (ws : List (Nat × Nat × Nat × List Piece × BitVec 2048)) (l : Loc) (b : Byte) : Byte :=
  ws.foldl (fun b w => w.2.2.2.1.foldl (fun b p => if p.loc = l then putPiece p w.2.2.2.2 b else b) b) b

/-- The byte that a lockstep read at core time `t` will find (R140, R266). -/
def State.peekAt (s : State) (t : Nat) (l : Loc) : Byte :=
  overlay (pendingStores s.ctx fun _ u => decide (u ≤ t)) l (s.byteAt l)

/-- The byte that a sequencer read finds: the sequencer forwards its own pending stores (R88). -/
def State.forwarded (s : State) (seq : Nat) (l : Loc) : Byte :=
  overlay (pendingStores s.ctx fun f _ => f.strm = 0 && decide (f.seq < seq)) l (s.byteAt l)

end Sys2Proof.Machine
end

