-- ==== Sys2Proof/Machine/Flags.lean ====
section
/-!
DEFINITION. Flags and modes: the ARITH register of the vector and matrix engines (01_numbers R21, R23), the rounding
mode and saturation a word reads at issue (R20, R25, R74), and MOMCFG's correlation (06_matrix_moment_isa R185).
-/

namespace Sys2Proof.Machine

/-- Flags ORed into ARITH: NV stands at bit 16 and the others above it (R21, R22). -/
def orFlags (arith : BitVec 32) (fl : Flags) : BitVec 32 := arith ||| (fl.zeroExtend 32 <<< 16)

/-- RM, SAT and NVT of ARITH (R21). -/
def arithRm (arith : BitVec 32) : RMode := arith.extractLsb' 0 2
def arithSat (arith : BitVec 32) : Bool := arith.getLsbD 2
def arithNvt (arith : BitVec 32) : Bool := arith.getLsbD 3

/-- A software write of ARITH (R21, R153): RM, SAT and NVT as written, flags cleared where a 1 is written. -/
def writeArith (old v : BitVec 32) : BitVec 32 := (v &&& 0xF) ||| (old &&& 0x003F0000 &&& ~~~ v)

/-- Whether a MOMCFG value is invalid (R47): RHO is not a number, or above 1.0 in magnitude. -/
def momcfgBad (v : BitVec 32) : Bool := decide (v.toNat / 65536 % 32768 > 0x3C00)

/-- A software write of MOMCFG: reserved bits read zero (R47). -/
def writeMomcfg (v : BitVec 32) : BitVec 32 := v &&& 0xFFFF0003

/-- Whether a CLKDIV value is invalid (R48, R116). -/
def clkdivBad (v : BitVec 32) : Bool :=
  (v &&& 0xE0E0E0E0) != 0 || (List.range 4).any fun k =>
    decide (bits v.toNat (8 * k + 4) (8 * k) < 4) || decide (bits v.toNat (8 * k + 4) (8 * k) > 16)

/-- Whether a TSHAPE field is invalid (R45). -/
def shapeBad (rows cols : Nat) : Bool := decide (rows > 16) || decide (cols > 16) || ((rows = 0) != (cols = 0))

/-- The rounding mode of a qualifier field (R20, R74): RQ where bit 2 is set, else ARITH.RM. -/
def modeOf (rq : BitVec 3) (arith : BitVec 32) : RMode := if rq.getLsbD 2 then rq.extractLsb' 0 2 else arithRm arith

/-- What a vector-engine word reads of its control registers at issue (R20, R25). -/
def envV (c : Ctx) (rq : BitVec 3) (sat : BitVec 1) : Env :=
  { rm := modeOf rq c.arithV, sat := sat = 1 || arithSat c.arithV, mom := c.momV }

/-- The same for the matrix engine. -/
def envM (c : Ctx) (rq : BitVec 3) (sat : BitVec 1) : Env :=
  { rm := modeOf rq c.arithM, sat := sat = 1 || arithSat c.arithM, mom := c.momM }

/-- The correlation ρ of MOMCFG (R185). -/
def rhoOf (mom : BitVec 32) : Val :=
  match mom.toNat % 4 with
  | 0 => .zero false
  | 1 => .ofInt 1
  | 2 => .ofInt (-1)
  | _ => valOf .fp16 (mom.toNat / 65536)

end Sys2Proof.Machine
end

