-- ==== Sys2Proof/Machine/SeqAlu.lean ====
section
/-!
DEFINITION. The sequencer's integer arithmetic (04_sequencer_isa R86, R89 to R91).  Every operand is read at issue and
every result lands at issue plus its latency; no instruction raises a flag or an arithmetic fault.
-/

namespace Sys2Proof.Machine

/-- ADD (R89): (a + b) mod 2^64. -/
def opAdd (a b : Word) : Word := a + b

/-- SUB (R89): (a − b) mod 2^64. -/
def opSub (a b : Word) : Word := a - b

/-- AND (R89): bitwise and. -/
def opBand (a b : Word) : Word := a &&& b

/-- OR (R89): bitwise or. -/
def opBor (a b : Word) : Word := a ||| b

/-- XOR (R89): bitwise exclusive or. -/
def opBxor (a b : Word) : Word := a ^^^ b

/-- SLL (R89): a shifted left by b[5:0]. -/
def opSll (a b : Word) : Word := a <<< (b.toNat % 64)

/-- SRL (R89): a shifted right, logical, by b[5:0]. -/
def opSrl (a b : Word) : Word := a >>> (b.toNat % 64)

/-- SRA (R89): a shifted right, arithmetic, by b[5:0]. -/
def opSra (a b : Word) : Word := a.sshiftRight (b.toNat % 64)

/-- MUL (R89): (a · b) mod 2^64. -/
def opMul (a b : Word) : Word := a * b

/-- MULH (R89): bits [127:64] of the signed product. -/
def opMulh (a b : Word) : Word := BitVec.ofInt 64 (a.toInt * b.toInt / 2 ^ 64)

/-- MULHU (R89): bits [127:64] of the unsigned product. -/
def opMulhu (a b : Word) : Word := BitVec.ofNat 64 (a.toNat * b.toNat / 2 ^ 64)

/-- DIV (R89): signed quotient rounded toward zero; all ones for b = 0; −2^63 by −1 gives −2^63. -/
def opDiv (a b : Word) : Word := if b = 0 then BitVec.allOnes 64 else BitVec.ofInt 64 (a.toInt.tdiv b.toInt)

/-- DIVU (R89): unsigned quotient; all ones for b = 0. -/
def opDivu (a b : Word) : Word := if b = 0 then BitVec.allOnes 64 else a / b

/-- REM (R89): remainder with the sign of a; a itself for b = 0. -/
def opRem (a b : Word) : Word := if b = 0 then a else BitVec.ofInt 64 (a.toInt.tmod b.toInt)

/-- REMU (R89): unsigned remainder; a itself for b = 0. -/
def opRemu (a b : Word) : Word := if b = 0 then a else a % b

/-- SLT (R89): 1 if a < b, signed, else 0. -/
def opSlt (a b : Word) : Word := if a.slt b then 1 else 0

/-- SLTU (R89): 1 if a < b, unsigned, else 0. -/
def opSltu (a b : Word) : Word := if a.ult b then 1 else 0

/-- MIN (R89): signed minimum. -/
def opMin (a b : Word) : Word := if a.slt b then a else b

/-- MAX (R89): signed maximum. -/
def opMax (a b : Word) : Word := if a.slt b then b else a

/-- A source captured in dword 0 of its field of the replay entry (R314). -/
def cap (v : Word) : BitVec 1024 := v.zeroExtend 1024

/-- A three-register operation (R86, R89): the result lands `lat` ticks after issue. -/
def aluPlan (lat : Nat) (f : Word → Word → Word) (d a b : BitVec 6) (s : State) : Plan :=
  let c := s.ctx
  let x := c.rs a.toNat
  let y := c.rs b.toNat
  raise 0 [(c.sOver [d.toNat, a.toNat, b.toNat], 0x02)]
    (.go { ctx := c, script := [(c.tick 0 lat, 2, .sreg d.toNat (f x y))], a := cap x, b := cap y })

/-- An operation with an immediate in place of b (R90). -/
def immPlan (f : Word → Word → Word) (d a : BitVec 6) (m : Word) (s : State) : Plan :=
  let c := s.ctx
  let x := c.rs a.toNat
  raise 0 [(c.sOver [d.toNat, a.toNat], 0x02)]
    (.go { ctx := c, script := [(c.tick 0 1, 2, .sreg d.toNat (f x m))], a := cap x })

/-- A sequencer word (R86). -/
def seqIssue (i : Instr) (idle : BitVec 3) (plan : State → Plan) (s : State) : Host.Outcome State Fault Refusal :=
  .next (s.issue i 0 idle.toNat plan)

/-- ADD sD, sA, sB (R89). -/
def execAdd (d a b : BitVec 6) (i : BitVec 3) (s : State) : Host.Outcome State Fault Refusal :=
  seqIssue (.add d a b i) i (aluPlan 1 opAdd d a b) s

/-- SUB sD, sA, sB (R89). -/
def execSub (d a b : BitVec 6) (i : BitVec 3) (s : State) : Host.Outcome State Fault Refusal :=
  seqIssue (.sub d a b i) i (aluPlan 1 opSub d a b) s

/-- AND sD, sA, sB (R89). -/
def execBand (d a b : BitVec 6) (i : BitVec 3) (s : State) : Host.Outcome State Fault Refusal :=
  seqIssue (.band d a b i) i (aluPlan 1 opBand d a b) s

/-- OR sD, sA, sB (R89). -/
def execBor (d a b : BitVec 6) (i : BitVec 3) (s : State) : Host.Outcome State Fault Refusal :=
  seqIssue (.bor d a b i) i (aluPlan 1 opBor d a b) s

/-- XOR sD, sA, sB (R89). -/
def execBxor (d a b : BitVec 6) (i : BitVec 3) (s : State) : Host.Outcome State Fault Refusal :=
  seqIssue (.bxor d a b i) i (aluPlan 1 opBxor d a b) s

/-- SLL sD, sA, sB (R89). -/
def execSll (d a b : BitVec 6) (i : BitVec 3) (s : State) : Host.Outcome State Fault Refusal :=
  seqIssue (.sll d a b i) i (aluPlan 1 opSll d a b) s

/-- SRL sD, sA, sB (R89). -/
def execSrl (d a b : BitVec 6) (i : BitVec 3) (s : State) : Host.Outcome State Fault Refusal :=
  seqIssue (.srl d a b i) i (aluPlan 1 opSrl d a b) s

/-- SRA sD, sA, sB (R89). -/
def execSra (d a b : BitVec 6) (i : BitVec 3) (s : State) : Host.Outcome State Fault Refusal :=
  seqIssue (.sra d a b i) i (aluPlan 1 opSra d a b) s

/-- MUL sD, sA, sB (R89). -/
def execMul (d a b : BitVec 6) (i : BitVec 3) (s : State) : Host.Outcome State Fault Refusal :=
  seqIssue (.mul d a b i) i (aluPlan 3 opMul d a b) s

/-- MULH sD, sA, sB (R89). -/
def execMulh (d a b : BitVec 6) (i : BitVec 3) (s : State) : Host.Outcome State Fault Refusal :=
  seqIssue (.mulh d a b i) i (aluPlan 3 opMulh d a b) s

/-- MULHU sD, sA, sB (R89). -/
def execMulhu (d a b : BitVec 6) (i : BitVec 3) (s : State) : Host.Outcome State Fault Refusal :=
  seqIssue (.mulhu d a b i) i (aluPlan 3 opMulhu d a b) s

/-- DIV sD, sA, sB (R89). -/
def execDiv (d a b : BitVec 6) (i : BitVec 3) (s : State) : Host.Outcome State Fault Refusal :=
  seqIssue (.div d a b i) i (aluPlan 18 opDiv d a b) s

/-- DIVU sD, sA, sB (R89). -/
def execDivu (d a b : BitVec 6) (i : BitVec 3) (s : State) : Host.Outcome State Fault Refusal :=
  seqIssue (.divu d a b i) i (aluPlan 18 opDivu d a b) s

/-- REM sD, sA, sB (R89). -/
def execRem (d a b : BitVec 6) (i : BitVec 3) (s : State) : Host.Outcome State Fault Refusal :=
  seqIssue (.rem d a b i) i (aluPlan 18 opRem d a b) s

/-- REMU sD, sA, sB (R89). -/
def execRemu (d a b : BitVec 6) (i : BitVec 3) (s : State) : Host.Outcome State Fault Refusal :=
  seqIssue (.remu d a b i) i (aluPlan 18 opRemu d a b) s

/-- SLT sD, sA, sB (R89). -/
def execSlt (d a b : BitVec 6) (i : BitVec 3) (s : State) : Host.Outcome State Fault Refusal :=
  seqIssue (.slt d a b i) i (aluPlan 1 opSlt d a b) s

/-- SLTU sD, sA, sB (R89). -/
def execSltu (d a b : BitVec 6) (i : BitVec 3) (s : State) : Host.Outcome State Fault Refusal :=
  seqIssue (.sltu d a b i) i (aluPlan 1 opSltu d a b) s

/-- MIN sD, sA, sB (R89). -/
def execMin (d a b : BitVec 6) (i : BitVec 3) (s : State) : Host.Outcome State Fault Refusal :=
  seqIssue (.min d a b i) i (aluPlan 1 opMin d a b) s

/-- MAX sD, sA, sB (R89). -/
def execMax (d a b : BitVec 6) (i : BitVec 3) (s : State) : Host.Outcome State Fault Refusal :=
  seqIssue (.max d a b i) i (aluPlan 1 opMax d a b) s

/-- ADDI sD, sA, imm (R90): IMM11 is sign-extended. -/
def execAddi (d a : BitVec 6) (m : BitVec 11) (i : BitVec 3) (s : State) : Host.Outcome State Fault Refusal :=
  seqIssue (.addi d a m i) i (immPlan opAdd d a (m.signExtend 64)) s

/-- ANDI sD, sA, imm (R90): IMM11 is sign-extended. -/
def execAndi (d a : BitVec 6) (m : BitVec 11) (i : BitVec 3) (s : State) : Host.Outcome State Fault Refusal :=
  seqIssue (.andi d a m i) i (immPlan opBand d a (m.signExtend 64)) s

/-- ORI sD, sA, imm (R90): IMM11 is sign-extended. -/
def execOri (d a : BitVec 6) (m : BitVec 11) (i : BitVec 3) (s : State) : Host.Outcome State Fault Refusal :=
  seqIssue (.ori d a m i) i (immPlan opBor d a (m.signExtend 64)) s

/-- XORI sD, sA, imm (R90): IMM11 is sign-extended. -/
def execXori (d a : BitVec 6) (m : BitVec 11) (i : BitVec 3) (s : State) : Host.Outcome State Fault Refusal :=
  seqIssue (.xori d a m i) i (immPlan opBxor d a (m.signExtend 64)) s

/-- SLTI sD, sA, imm (R90): IMM11 is sign-extended. -/
def execSlti (d a : BitVec 6) (m : BitVec 11) (i : BitVec 3) (s : State) : Host.Outcome State Fault Refusal :=
  seqIssue (.slti d a m i) i (immPlan opSlt d a (m.signExtend 64)) s

/-- SLLI sD, sA, sh (R90). -/
def execSlli (d a : BitVec 6) (h : BitVec 6) (i : BitVec 3) (s : State) : Host.Outcome State Fault Refusal :=
  seqIssue (.slli d a h i) i (immPlan opSll d a (h.zeroExtend 64)) s

/-- SRLI sD, sA, sh (R90). -/
def execSrli (d a : BitVec 6) (h : BitVec 6) (i : BitVec 3) (s : State) : Host.Outcome State Fault Refusal :=
  seqIssue (.srli d a h i) i (immPlan opSrl d a (h.zeroExtend 64)) s

/-- SRAI sD, sA, sh (R90). -/
def execSrai (d a : BitVec 6) (h : BitVec 6) (i : BitVec 3) (s : State) : Host.Outcome State Fault Refusal :=
  seqIssue (.srai d a h i) i (immPlan opSra d a (h.zeroExtend 64)) s

/-- INSW (R91): bits [sh+15:sh] of s[D] become IMM16. -/
def opInsw (sh : Nat) (a m : Word) : Word := (a &&& ~~~ (0xFFFF#64 <<< sh)) ||| (m <<< sh)

/-- INSW sD, imm16, 0 (R91). -/
def execInsw0 (d : BitVec 6) (m : BitVec 16) (i : BitVec 3) (s : State) : Host.Outcome State Fault Refusal :=
  seqIssue (.insw0 d m i) i (immPlan (opInsw 0) d d (m.zeroExtend 64)) s

/-- INSW sD, imm16, 16 (R91). -/
def execInsw16 (d : BitVec 6) (m : BitVec 16) (i : BitVec 3) (s : State) : Host.Outcome State Fault Refusal :=
  seqIssue (.insw16 d m i) i (immPlan (opInsw 16) d d (m.zeroExtend 64)) s

/-- INSW sD, imm16, 32 (R91). -/
def execInsw32 (d : BitVec 6) (m : BitVec 16) (i : BitVec 3) (s : State) : Host.Outcome State Fault Refusal :=
  seqIssue (.insw32 d m i) i (immPlan (opInsw 32) d d (m.zeroExtend 64)) s

/-- INSW sD, imm16, 48 (R91). -/
def execInsw48 (d : BitVec 6) (m : BitVec 16) (i : BitVec 3) (s : State) : Host.Outcome State Fault Refusal :=
  seqIssue (.insw48 d m i) i (immPlan (opInsw 48) d d (m.zeroExtend 64)) s

/-- The operation of an ALU word, for a replay entry whose captured sources a handler has changed (R314). -/
def aluOf : Instr → Option (Word → Word → Word)
  | .add _ _ _ _ => some opAdd
  | .sub _ _ _ _ => some opSub
  | .band _ _ _ _ => some opBand
  | .bor _ _ _ _ => some opBor
  | .bxor _ _ _ _ => some opBxor
  | .sll _ _ _ _ => some opSll
  | .srl _ _ _ _ => some opSrl
  | .sra _ _ _ _ => some opSra
  | .mul _ _ _ _ => some opMul
  | .mulh _ _ _ _ => some opMulh
  | .mulhu _ _ _ _ => some opMulhu
  | .div _ _ _ _ => some opDiv
  | .divu _ _ _ _ => some opDivu
  | .rem _ _ _ _ => some opRem
  | .remu _ _ _ _ => some opRemu
  | .slt _ _ _ _ => some opSlt
  | .sltu _ _ _ _ => some opSltu
  | .min _ _ _ _ => some opMin
  | .max _ _ _ _ => some opMax
  | .addi _ _ m _ => some fun a _ => opAdd a (m.signExtend 64)
  | .andi _ _ m _ => some fun a _ => opBand a (m.signExtend 64)
  | .ori _ _ m _ => some fun a _ => opBor a (m.signExtend 64)
  | .xori _ _ m _ => some fun a _ => opBxor a (m.signExtend 64)
  | .slti _ _ m _ => some fun a _ => opSlt a (m.signExtend 64)
  | .slli _ _ h _ => some fun a _ => opSll a (h.zeroExtend 64)
  | .srli _ _ h _ => some fun a _ => opSrl a (h.zeroExtend 64)
  | .srai _ _ h _ => some fun a _ => opSra a (h.zeroExtend 64)
  | .insw0 _ m _ => some fun a _ => opInsw 0 a (m.zeroExtend 64)
  | .insw16 _ m _ => some fun a _ => opInsw 16 a (m.zeroExtend 64)
  | .insw32 _ m _ => some fun a _ => opInsw 32 a (m.zeroExtend 64)
  | .insw48 _ m _ => some fun a _ => opInsw 48 a (m.zeroExtend 64)
  | _ => none

end Sys2Proof.Machine
end

