-- ==== Sys2Proof/Machine/SeqMem.lean ====
section
/-!
DEFINITION. The sequencer's loads and stores, branches, jumps and loops, handles, descriptors and the loop-nest table
(04_sequencer_isa R92 to R105).
-/

namespace Sys2Proof.Machine

/-! ### Pending actions of the sequencer (R88, R94, R114, R419) -/

/-- The outward actions in flight, in program order (R88, R419). -/
def outsOf (c : Ctx) : List (Nat × Out) :=
  c.flights.foldl (fun a f => a ++ f.script.filterMap fun e =>
    match e.2.2 with
    | .out o => some (f.seq, o)
    | _ => none) []

/-- The ordering class of a sequencer access's word: OC of an LD or ST, oc15 otherwise (R93, R102, R111). -/
def classOf (f : Flight) : Nat :=
  if f.word / 2 ^ 26 = 0x10 || f.word / 2 ^ 26 = 0x11 then bits f.word 13 10 else 15

/-- Whether an outward action waits that R94 orders before an access of class `cls` to the bytes `ls`, issued as number `seq`
(R264, R418): a store of its class or of oc15, or to one of its bytes, and before an oc15 access any of them. -/
def orderedBefore (c : Ctx) (seq cls : Nat) (ls : List Loc) : Bool :=
  (outsOf c).any fun o => decide (o.1 < seq) && match o.2 with
    | .store l bs k | .piece l bs k => cls = 15 || k.toNat = cls || k.toNat = 15 || (l.run bs.length).any ls.contains
    | .evset _ | .evclr _ | .bara .. | .launch .. => cls = 15
    | _ => false

/-- The core time at which an outward action of class `cls` that issues now is performed: four ticks on (R88), or later,
after the stores into the own windows that R94 orders before it have landed (R114, R264, R271) and the earlier outward
actions have been performed.  A freeze performs it at once (R419). -/
def outEdge (c : Ctx) (cls : Nat) : Nat :=
  (c.flights.filter fun f => f.strm = 0).foldl (fun m f => f.script.foldl (fun m e =>
    match e.2.2 with
    | .store .. => if cls = 15 || classOf f = cls || classOf f = 15 then max m e.1 else m
    | .out (.csrw ..) | .out (.fork _) | .out .exitKernel => m
    | .out _ => max m e.1
    | _ => m) m) (c.issueEdge 0 + 4 * c.div 0)

/-- A byte as the sequencer's own pending stores leave it, those to other memory included (R88, R94, R419). -/
def State.ownByte (s : State) (l : Loc) : Byte :=
  (outsOf s.ctx).foldl (fun b o =>
    match o.2 with
    | .store p bs _ | .piece p bs _ =>
      if p.mem = l.mem && p.unit = l.unit && decide (p.off ≤ l.off) then bs.getD (l.off - p.off) b else b
    | _ => b) (s.forwarded s.ctx.seq l)

/-! ### Scalar memory (R92, R93, R102) -/

/-- A scalar address checked in the order of R126: alignment, window, then bounds; a translation miss freezes the core
before the check for an absent page (R126), and `over` is the limit of R242. -/
def reaching (s : State) (addr : Word) (n : Nat) (write exceeds : Bool) (k : Path → List Loc → List TlbE → Plan) : Plan :=
  if addr.toNat % n != 0 then .trap 0x05 0 addr
  else
    match s.reach addr n write with
    | .bad 0x03 => .trap 0x03 0 addr
    | .bad e => .trap (if exceeds then 0x02 else e) 0 addr
    | .miss a v => if exceeds then .trap 0x02 0 addr else .wait (.xlat a v)
    | .at p ls used => if exceeds then .trap 0x02 0 addr else k p ls used

/-- The first of some locations. -/
def firstLoc (ls : List Loc) : Loc := ls.headD { mem := .spm, unit := 0, off := 0 }

/-- A load of `n` bytes (R86, R93, R266): read at issue + 1 (lent + 4), landing at issue + 5 (lent + 8); from any other
memory the core freezes from issue + 1 and the value lands at issue + 5.  Uncorrectable data raises 0x0B (R126). -/
def loadPlan (d : Nat) (addr : Word) (n : Nat) (sx hnd exceeds : Bool) (x : Word) (s : State) : Plan :=
  let c := s.ctx
  reaching s addr n false exceeds fun p ls used =>
    let l := firstLoc ls
    if s.anyBad ls then .bad ls addr
    else
      let rd (t : Nat) : Eff := if hnd then .rdH d l t else .rdS d l n sx t
      .go { ctx := c, a := cap x, used := used
            script := match p with
              | .own => [(c.tick 0 1, 1, rd (c.tick 0 5))]
              | .lent => [(c.tick 0 4, 1, rd (c.tick 0 8))]
              | .far => [(c.tick 0 1, 1, .far d l n sx hnd [])] }

/-- The pieces of `n` consecutive bytes. -/
def bytePieces (l : Loc) (n : Nat) : List Piece :=
  (List.range n).map fun k => { dst := 8 * k, w := 8, loc := { l with off := l.off + k }, sh := 0 }

/-- A store to other memory: an outward action for each single-copy-atomic unit that it touches (R263), of which the Taster
compares the first. -/
def farStore (l : Loc) (cls : BitVec 4) (t : Nat) (bs : List Byte) : List (Nat × Nat × Eff) :=
  let w := scaSize l.mem
  if bs.length ≤ w then [(t, 4, .out (.store l bs cls))]
  else (List.range (bs.length / w)).map fun k =>
    let p : Loc := { l with off := l.off + w * k }
    let x := (bs.drop (w * k)).take w
    (t, 4, .out (if k = 0 then .store p x cls else .piece p x cls))

/-- A store of `n` bytes (R88, R266): it lands at issue + 4 (lent + 7) after the Taster has produced the same action;
to other memory it is an outward action (R419). -/
def storePlan (addr : Word) (n : Nat) (cls : BitVec 4) (exceeds : Bool) (x : Word) (data : BitVec 1024) (s : State) :
    Plan :=
  let c := s.ctx
  reaching s addr n true exceeds fun p ls used =>
    let l := firstLoc ls
    .go { ctx := c, a := cap x, c := data, used := used
          script := match p with
            | .own => [(c.tick 0 4, 0, .store (bytePieces l n) (data.zeroExtend 2048))]
            | .lent => [(c.tick 0 7, 0, .store (bytePieces l n) (data.zeroExtend 2048))]
            | .far => farStore l cls (outEdge c cls.toNat) (leBytes n data.toNat) }

/-- The address of a scalar access: A + OFF4 · size (R68). -/
def smAddr (c : Ctx) (a : BitVec 6) (o : BitVec 4) (z : BitVec 2) : Word :=
  c.rs a.toNat + BitVec.ofInt 64 (o.toInt * (2 ^ z.toNat : Nat))

/-- LD.sz sD, [sA+off], ocN (R93). -/
def execLd (d a : BitVec 6) (oc : BitVec 4) (z : BitVec 2) (g : BitVec 1) (o : BitVec 4) (i : BitVec 3) (s : State) :
    Host.Outcome State Fault Refusal :=
  seqIssue (.ld d a oc z g o i) i (fun s =>
    let c := s.ctx
    loadPlan d.toNat (smAddr c a o z) (2 ^ z.toNat) (g = 1) false (c.sOver [d.toNat, a.toNat]) (c.rs a.toNat) s) s

/-- ST.sz [sA+off], sD, ocN (R93). -/
def execSt (d a : BitVec 6) (oc : BitVec 4) (z : BitVec 2) (o : BitVec 4) (i : BitVec 3) (s : State) :
    Host.Outcome State Fault Refusal :=
  seqIssue (.st d a oc z o i) i (fun s =>
    let c := s.ctx
    storePlan (smAddr c a o z) (2 ^ z.toNat) oc (c.sOver [d.toNat, a.toNat]) (c.rs a.toNat)
      (cap (c.rs d.toNat)) s) s

/-- HLD hH, [sA] (R102): the 32 bytes at s[A]. -/
def execHld (h : BitVec 4) (a : BitVec 6) (i : BitVec 3) (s : State) : Host.Outcome State Fault Refusal :=
  seqIssue (.hld h a i) i (fun s =>
    let c := s.ctx
    loadPlan h.toNat (c.rs a.toNat) 32 false true (c.sOver [a.toNat]) (c.rs a.toNat) s) s

/-- HST [sA], hH (R102), of class oc15. -/
def execHst (h : BitVec 4) (a : BitVec 6) (i : BitVec 3) (s : State) : Host.Outcome State Fault Refusal :=
  seqIssue (.hst h a i) i (fun s =>
    let c := s.ctx
    storePlan (c.rs a.toNat) 32 15 (c.sOver [a.toNat]) (c.rs a.toNat) ((c.h.get h.toNat).zeroExtend 1024) s) s

/-! ### Branches and jumps (R95, R96, R101) -/

/-- A conditional branch: taken, it leaves the loops whose body does not hold its target (R101). -/
def branchPlan (cond : Word → Word → Bool) (a b : BitVec 6) (o : BitVec 11) (s : State) : Plan :=
  let c := s.ctx
  let t := c.sq.pc + BitVec.ofInt 64 (4 * o.toInt)
  raise 0 [(c.sOver [a.toNat, b.toNat], 0x02)]
    (if cond (c.rs a.toNat) (c.rs b.toNat) then
      .go { ctx := { c with sq := { c.sq with loops := leaveLoops t.toNat c.sq.loops } }, jump := some t }
    else .go { ctx := c })

def execBeq (a b : BitVec 6) (o : BitVec 11) (i : BitVec 3) (s : State) : Host.Outcome State Fault Refusal :=
  seqIssue (.beq a b o i) i (branchPlan (fun x y => x == y) a b o) s

def execBne (a b : BitVec 6) (o : BitVec 11) (i : BitVec 3) (s : State) : Host.Outcome State Fault Refusal :=
  seqIssue (.bne a b o i) i (branchPlan (fun x y => x != y) a b o) s

def execBlt (a b : BitVec 6) (o : BitVec 11) (i : BitVec 3) (s : State) : Host.Outcome State Fault Refusal :=
  seqIssue (.blt a b o i) i (branchPlan BitVec.slt a b o) s

def execBge (a b : BitVec 6) (o : BitVec 11) (i : BitVec 3) (s : State) : Host.Outcome State Fault Refusal :=
  seqIssue (.bge a b o i) i (branchPlan (fun x y => !x.slt y) a b o) s

def execBltu (a b : BitVec 6) (o : BitVec 11) (i : BitVec 3) (s : State) : Host.Outcome State Fault Refusal :=
  seqIssue (.bltu a b o i) i (branchPlan BitVec.ult a b o) s

def execBgeu (a b : BitVec 6) (o : BitVec 11) (i : BitVec 3) (s : State) : Host.Outcome State Fault Refusal :=
  seqIssue (.bgeu a b o i) i (branchPlan (fun x y => !x.ult y) a b o) s

/-- J label (R96): it leaves loops like a taken branch (R101). -/
def execJ (o : BitVec 23) (i : BitVec 3) (s : State) : Host.Outcome State Fault Refusal :=
  seqIssue (.j o i) i (fun s =>
    let c := s.ctx
    let t := c.sq.pc + BitVec.ofInt 64 (4 * o.toInt)
    .go { ctx := { c with sq := { c.sq with loops := leaveLoops t.toNat c.sq.loops } }, jump := some t }) s

/-- The link of JAL and JALR (R96): s63 takes the address of the next word one tick after issue. -/
def link (c : Ctx) : List (Nat × Nat × Eff) := [(c.tick 0 1, 2, .sreg 63 (c.sq.pc + 4))]

/-- JAL label (R96): loops stay (R101); the link write names s63 (R242). -/
def execJal (o : BitVec 23) (i : BitVec 3) (s : State) : Host.Outcome State Fault Refusal :=
  seqIssue (.jal o i) i (fun s =>
    let c := s.ctx
    raise 0 [(c.sOver [63], 0x02)]
      (.go { ctx := c, jump := some (c.sq.pc + BitVec.ofInt 64 (4 * o.toInt)), script := link c })) s

/-- JR sA, imm (R96): a target not aligned to 4 raises 0x05. -/
def execJr (a : BitVec 6) (m : BitVec 11) (i : BitVec 3) (s : State) : Host.Outcome State Fault Refusal :=
  seqIssue (.jr a m i) i (fun s =>
    let c := s.ctx
    let t := c.rs a.toNat + m.signExtend 64
    raise t [(t.toNat % 4 != 0, 0x05), (c.sOver [a.toNat], 0x02)]
      (.go { ctx := { c with sq := { c.sq with loops := leaveLoops t.toNat c.sq.loops } }, jump := some t })) s

/-- JALR sA, imm (R96): s[A] is read before the link is written. -/
def execJalr (a : BitVec 6) (m : BitVec 11) (i : BitVec 3) (s : State) : Host.Outcome State Fault Refusal :=
  seqIssue (.jalr a m i) i (fun s =>
    let c := s.ctx
    let t := c.rs a.toNat + m.signExtend 64
    raise t [(t.toNat % 4 != 0, 0x05), (c.sOver [a.toNat, 63], 0x02)]
      (.go { ctx := c, jump := some t, script := link c })) s

/-! ### Hardware loops (R98 to R100, R152, R304) -/

/-- The words that may not end a sequencer loop (R100). -/
def badEnd (w : Nat) : Bool :=
  let op := w / 2 ^ 26 % 64
  (decide (0x18 ≤ op) && decide (op ≤ 0x23)) || (op = 0x3E && (w / 8 % 32 = 2 || w / 8 % 32 = 3 || w / 8 % 32 = 4))

/-- The count of a loop: LOOPSAVE's REM at the address that a drain recorded, else the word's own (R152, R304). -/
def loopCount (x : Stream) (hi : BitVec 64) (own : Nat) : Nat × Stream :=
  if x.save.getLsbD 63 && bits x.save.toNat 60 40 = x.pc.toNat then
    (hi.toNat % 2 ^ 32 * 2 ^ 32 + x.save.toNat % 2 ^ 32,
      { x with save := x.save &&& 0x7FFFFFFFFFFFFFFF#64 })
  else (own, x)

/-- LOOP and LOOPI at the sequencer's address (R98, R100): `e` words to the last word of the body. -/
def loopPlan (count e : Nat) (regs : List Nat) (s : State) : Plan :=
  let c := s.ctx
  let p := c.sq.pc.toNat
  let stop := p + 4 * e
  let w := s.natAt (s.spmLocs stop 4)
  let outer := match c.sq.loops with
    | [] => false
    | l :: _ => decide (l.stop < stop)
  raise 0 [(decide (4 ≤ c.sq.loops.length) || (decide (stop + 4 ≤ c.spmSize) && badEnd w) || outer, 0x08),
           (c.sOver regs || decide (c.spmSize < stop + 4), 0x02)]
    (let (n, x) := loopCount c.sq c.saveh count
     if n = 0 then .go { ctx := { c with sq := x }, jump := some (BitVec.ofNat 64 (stop + 4)) }
     else
      .go { ctx := { c with sq := { x with
              loops := { start := p + 4, stop := stop, rem := n, opener := p } :: x.loops } }
            jump := some (BitVec.ofNat 64 (p + 4)) })

def execLoop (a : BitVec 6) (e : BitVec 17) (i : BitVec 3) (s : State) : Host.Outcome State Fault Refusal :=
  seqIssue (.loop a e i) i (fun s => loopPlan (s.ctx.rs a.toNat).toNat e.toNat [a.toNat] s) s

def execLoopi (n : BitVec 12) (e : BitVec 11) (i : BitVec 3) (s : State) : Host.Outcome State Fault Refusal :=
  seqIssue (.loopi n e i) i (loopPlan n.toNat e.toNat []) s

/-! ### Handles, descriptors, the loop-nest table (R103 to R105) -/

/-- The reserved bits of an entry are written as zero (R103): [254:252], [193:192], [127:112]. -/
def cleanDesc (x : BitVec 256) : BitVec 256 :=
  BitVec.ofNat 256 (putBits (putBits (putBits x.toNat 254 252 0) 193 192 0) 127 112 0)

/-- DPUT dN, hH (R103): readers see the entry from two sequencer ticks after the write's edge (R54). -/
def execDput (h : BitVec 4) (n : BitVec 8) (i : BitVec 3) (s : State) : Host.Outcome State Fault Refusal :=
  seqIssue (.dput h n i) i (fun s =>
    let c := s.ctx
    .go { ctx := c, script := [(c.tick 0 2, 2, .desc n.toNat (cleanDesc (c.h.get h.toNat)))]
          a := (c.h.get h.toNat).zeroExtend 1024 }) s

/-- DGET hH, dN (R103). -/
def execDget (h : BitVec 4) (n : BitVec 8) (i : BitVec 3) (s : State) : Host.Outcome State Fault Refusal :=
  seqIssue (.dget h n i) i (fun s =>
    let c := s.ctx
    .go { ctx := c, script := [(c.tick 0 1, 2, .hreg h.toNat (c.desc.get n.toNat))] }) s

/-- The bits [hi:lo] of a descriptor field by its code (R51, R71). -/
def fieldBits : Nat → Nat × Nat
  | 0 => (255, 255)
  | 1 => (251, 248)
  | 2 => (247, 246)
  | 3 => (245, 194)
  | 4 => (191, 160)
  | 5 => (159, 128)
  | 6 => (111, 96)
  | 7 => (95, 80)
  | 8 => (79, 64)
  | 9 => (63, 56)
  | 10 => (55, 52)
  | _ => (51, 0)

/-- HSET hH.FIELD, sA (R104): the low bits of s[A] replace the field at issue (log entry 10). -/
def execHset (h : BitVec 4) (a : BitVec 6) (f : BitVec 4) (i : BitVec 3) (s : State) : Host.Outcome State Fault Refusal :=
  seqIssue (.hset h a f i) i (fun s =>
    let c := s.ctx
    let p := fieldBits f.toNat
    raise 0 [(c.sOver [a.toNat], 0x02)]
      (.go { ctx := { c with
        h := c.h.set h.toNat (BitVec.ofNat 256 (putBits (c.h.get h.toNat).toNat p.1 p.2 (c.rs a.toNat).toNat)) } })) s

/-- The value of HGET (R104): strides are sign-extended, other fields zero-extended. -/
def opHget (f : Nat) (x : BitVec 256) : Word :=
  let p := fieldBits f
  let v := bits x.toNat p.1 p.2
  if f = 4 || f = 5 then BitVec.ofInt 64 (sgn 32 v) else BitVec.ofNat 64 v

/-- HGET sA, hH.FIELD (R104). -/
def execHget (h : BitVec 4) (a : BitVec 6) (f : BitVec 4) (i : BitVec 3) (s : State) : Host.Outcome State Fault Refusal :=
  seqIssue (.hget h a f i) i (fun s =>
    let c := s.ctx
    raise 0 [(c.sOver [a.toNat], 0x02)]
      (.go { ctx := c, script := [(c.tick 0 1, 2, .sreg a.toNat (opHget f.toNat (c.h.get h.toNat)))]
             a := (c.h.get h.toNat).zeroExtend 1024 })) s

/-- LNTW lvl.FIELD, sA (R105): the shadow copy takes it; a GO sees it from two sequencer ticks on. -/
def execLntw (a : BitVec 6) (l f : BitVec 3) (i : BitVec 3) (s : State) : Host.Outcome State Fault Refusal :=
  seqIssue (.lntw a l f i) i (fun s =>
    let c := s.ctx
    raise 0 [(c.sOver [a.toNat], 0x02)]
      (.go { ctx := c, script := [(c.tick 0 2, 2, .lnt l.toNat f.toNat (c.rs a.toNat))], a := cap (c.rs a.toNat) })) s

/-- IDLE n (R118). -/
def execIdle (n : BitVec 23) (i : BitVec 3) (s : State) : Host.Outcome State Fault Refusal :=
  seqIssue (.idle n i) i (fun s => .go { ctx := s.ctx, idle := n.toNat }) s

/-- A word of the sequencer's hint space (R65). -/
def execNop (x : BitVec 23) (i : BitVec 3) (s : State) : Host.Outcome State Fault Refusal :=
  seqIssue (.nop x i) i (fun s => .go { ctx := s.ctx }) s

end Sys2Proof.Machine
end

