-- ==== Sys2Proof/Machine/Bars.lean ====
section
/-!
DEFINITION. Barriers (11_kernels R254, R255), scratchpad rings (R252, R253), and the conditions that end a freeze of a
core (02_core_state R56).
-/

namespace Sys2Proof.Machine

/-! ### Barriers (R254, R255) -/

/-- Entry of a table keyed by a pair. -/
def pget {α : Type} (d : α) : List ((Nat × Nat) × α) → Nat × Nat → α
  | [], _ => d
  | (k, v) :: l, n => if n = k then v else pget d l n

def pput {α : Type} (k : Nat × Nat) (v : α) : List ((Nat × Nat) × α) → List ((Nat × Nat) × α)
  | [] => [(k, v)]
  | (k', v') :: l => if k = k' then (k, v) :: l else (k', v') :: pput k v l

/-- Barrier `b` of the context on core `k`: a core barrier, or the die barrier of its launch on its die. -/
def State.bar (s : State) (k : Nat) (die : Bool) (b : Nat) : Bar :=
  let c := (s.core k).ctx
  if die then pget {} (s.die (dieOf k)).bars (c.launch, b) else tget {} c.bars b

def State.setBar (s : State) (k : Nat) (die : Bool) (b : Nat) (x : Bar) : State :=
  let c := (s.core k).ctx
  if die then s.onDie (dieOf k) fun d => { d with bars := pput (c.launch, b) x d.bars }
  else s.onCore k fun h => { h with ctx := { c with bars := tput b x c.bars } }

/-- A member: the sequencer (0) or the Ladle (1) of a core; on a die barrier of logical core p (R254). -/
def Ctx.agent (c : Ctx) (die ladle : Bool) : Nat := (if die then 2 * c.p else 0) + (if ladle then 1 else 0)

/-- The key of a barrier in a context's own tables. -/
def barKey (die : Bool) (b : Nat) : Nat := (if die then 64 else 0) + b

/-- Record an arrival with its payload bytes (R112, R212); nothing is recorded at a broken barrier. -/
def State.arrive (s : State) (k : Nat) (die : Bool) (b : Nat) (ladle : Bool) (bytes : Nat) : State :=
  let x := s.bar k die b
  if x.broken then s
  else
    let g := (s.core k).ctx.agent die ladle
    let s := s.setBar k die b { x with arrived := if x.arrived.contains g then x.arrived else g :: x.arrived
                                       pend := x.pend + bytes }
    if ladle then s
    else s.onCore k fun h => { h with ctx := { h.ctx with lastArr := tput (barKey die b) x.phase h.ctx.lastArr } }

/-- Whether a phase is complete: every remaining member has arrived and no byte is pending (R254). -/
def Bar.complete (x : Bar) : Bool :=
  !x.broken && !x.members.isEmpty && x.pend = 0 && x.members.all (fun m => x.arrived.contains m)

/-- The next phase, with no arrivals. -/
def Bar.next (x : Bar) : Bar := { x with phase := x.phase + 1, arrived := [] }

/-- A member drops out: its departure counts as its arrival and it is a member of no later phase (R255). -/
def Bar.depart (g : Nat) (x : Bar) : Bar :=
  { x with members := x.members.filter (· != g), arrived := x.arrived.filter (· != g) }

/-! ### Rings (R252, R253) -/

/-- Counters of ring `g`: 0 TC, 1 TF, 2 HC, 3 HF. -/
def Ctx.ring (c : Ctx) (g n : Nat) : BitVec 32 := c.rings.get (4 * g + n)

def Ctx.setRing (c : Ctx) (g n : Nat) (v : BitVec 32) : Ctx := { c with rings := c.rings.set (4 * g + n) v }

/-- Entries filled and not claimed. -/
def Ctx.ringFill (c : Ctx) (g : Nat) : Nat := (c.ring g 1 - c.ring g 2).toNat

/-- Entries free, 0 where a new geometry would make it negative (R252). -/
def Ctx.ringFreeN (c : Ctx) (g dim : Nat) : Nat := dim - (c.ring g 0 - c.ring g 3).toNat

/-- The geometry of ring `g` (R252): entry d(240 + g). -/
def Ctx.ringDesc (c : Ctx) (g : Nat) : Desc := c.descOf (240 + g)

/-- A ring's descriptor is unsuitable (R252): 0x12. -/
def ringBad (d : Desc) : Bool := d.invalid || d.dim2 != 1 || d.fm.isBlock

/-- Its space may not be reached: 0x03. -/
def Ctx.ringSpaceBad (c : Ctx) (d : Desc) : Bool := decide (d.space > 2) || (d.space = 1 && c.lentSize = 0)

/-- Byte offset of entry number `x` and the entry size in bytes. -/
def ringSlot (d : Desc) (x : Nat) : Int := (d.base : Int) + ((x % d.dim1 : Nat) : Int) * d.s1
def ringSize (d : Desc) : Nat := d.dim0 * d.w / 8

/-! ### What ends a freeze (R56, R57) -/

/-- The word that WAITA finds, its own pending stores forwarded, at the edge at which it reads (R111, R266). -/
def State.waitWord (s : State) (l : Loc) (lent : Bool) : Nat :=
  let c := s.ctx
  let t := c.issueEdge 0 + (if lent then 4 else 1) * c.div 0
  leNat ((l.run 4).map fun l => overlay (pendingStores c fun f u => f.strm = 0 || decide (u ≤ t)) l (s.byteAt l))

/-- The condition of WAITA (R111). -/
def waitCond (cond w b : Nat) : Bool :=
  match cond with
  | 0 => w = b
  | 1 => w != b
  | 2 => decide (sgn 32 b ≤ sgn 32 w)
  | _ => decide (b ≤ w)

/-- Whether the access of a WAITA lies in the lent window. -/
def Ctx.isLent (c : Ctx) (l : Loc) : Bool := l.mem = .spm && c.lentSize != 0 && c.lenders.contains l.unit

/-- Commands of a Ladle queue that have not left it (R195). -/
def Ctx.queueLen (c : Ctx) (q : Nat) : Nat :=
  (c.cmds.filter fun x => !x.left && (match x.kind with
    | .qfence m => m / 2 ^ q % 2 = 1
    | _ => x.qn = q)).length

/-- Page-lock entries in use (R196). -/
def Ctx.locksUsed (c : Ctx) : Nat := (c.cmds.map fun x => x.pages.length).sum

/-- A latch in `evSeen` for a wait whose condition held once: events as themselves, barriers above 1024, the switch
points of CLKDIV and SWPT above 2048, and a SWPT that moved the streams. -/
def latchBar (die : Bool) (b : Nat) : Nat := 1024 + barKey die b
def latchClk : Nat := 2048
def latchSwpt : Nat := 2049
def latchMoved : Nat := 2050

/-- Whether the condition that a freeze waits for holds (R56). -/
def State.clears (s : State) (f : Freeze) : Bool :=
  let c := s.ctx
  match f with
  | .ringFill g n => decide (n ≤ c.ringFill g)
  | .ringFree g n dim => decide (n ≤ c.ringFreeN g dim)
  | .event e => s.ctxEv c e || c.evSeen.contains e
  | .addr l cond b => waitCond cond (s.waitWord l (c.isLent l)) b.toNat
  | .barw die b ph => let x := s.bar s.focus die b; x.broken || decide (ph < x.phase)
  | .bara die b ph => let x := s.bar s.focus die b; x.broken || decide (ph < x.phase)
  | .pend die b add => let x := s.bar s.focus die b; x.broken || decide (x.pend + add < 2 ^ 28)
  | .fence cls => !((outsOf c).any fun o => match o.2 with
      | .store _ _ k | .piece _ _ k => cls.getLsbD k.toNat
      | _ => false)
  | .asyncLe n => decide (c.asyncQ.length ≤ n)
  | .asyncRoom => decide (c.asyncQ.length < 16)
  | .far => !(c.flights.any fun f => f.script.any fun e => match e.2.2 with
      | .far .. => decide (e.1 ≤ c.ctime)
      | _ => false)
  | .xlat a v => s.me.xres.any fun r => r.1 = a && r.2.1 = v / 65536
  | .taster => false
  | .ladleQ m => (List.range 4).all fun q => m / 2 ^ q % 2 = 0 || decide (c.queueLen q < 32)
  | .locks n => decide (c.locksUsed + n ≤ 1024)
  | .order => (outsOf c).isEmpty
  | .tile n => (s.me.towner.any fun o => o.1 = n && o.2 = (c.launch, c.p))
  | .clk _ => c.evSeen.contains latchClk
  | .swpt _ => c.evSeen.contains latchSwpt || c.evSeen.contains latchMoved
  | .rett => c.flights.isEmpty
  | .replay _ => false
  | .launch => !((outsOf c).any fun o => match o.2 with
      | .launch .. => true
      | _ => false)

/-- The freezes that a pre-emption request at loop-drain or trap grade abandons (R57). -/
def abandons : Freeze → Bool
  | .ringFill .. | .ringFree .. | .event _ | .addr .. | .barw .. | .bara .. | .pend .. | .fence _ | .asyncLe _
  | .asyncRoom => true
  | _ => false

/-- The freezes of stream `n` that let no other stream issue at their edge (R56, R117, R310): the word that meets one has
not issued.  A wait, a BARA that waits for its phase (R112), and CLKDIV freeze the core from their issue on; a Ladle word
never issues at a freeze of its own (R209, R212). -/
def beforeIssue (n : Nat) : Freeze → Bool
  | .ringFill .. => n = 4
  | .event _ | .addr .. | .barw .. | .bara .. | .fence _ | .asyncLe _ | .clk _ => n = 4
  | _ => true

/-- A freeze whose word has not issued at the present edge: it holds every stream there (R56), as does a wait that was
abandoned and is evaluated again (R57). -/
def Ctx.standing (c : Ctx) (f : Nat × Freeze) : Bool := beforeIssue f.1 f.2 || decide ((c.strm f.1).due < c.ctime)

/-- The freeze of a replay (R400). -/
def isReplay : Freeze → Bool
  | .replay _ => true
  | _ => false

/-- The freezes during which the results in flight land while core time stands (R48, R117, R123). -/
def drains : Freeze → Bool
  | .clk _ | .swpt _ | .rett => true
  | _ => false

end Sys2Proof.Machine
end

