-- ==== Sys2Proof/Machine/SeqSys.lean ====
section
/-!
DEFINITION. The sequencer's words that start and join streams, wait, arrive at barriers, act on events, change clocks
and schedules, and the system group (04_sequencer_isa R106 to R125).
-/

namespace Sys2Proof.Machine

/-- A word that handler mode forbids raises a double fault there (R312). -/
def notInHandler (c : Ctx) : List (Bool × Nat) := [(c.handler, 0x1A)]

/-! ### FORK and RDV (R83, R84, R106, R107) -/

/-- The start address of stream `n` in a launch record, its alignment, its enable bit (R83). -/
def recordPc (r : Nat) : Nat → Nat
  | 1 => bits r 20 0
  | 2 => bits r 52 32
  | 3 => bits r 84 64
  | _ => bits r 116 96

def recordReserved (r : Nat) : Bool :=
  bits r 31 25 != 0 || bits r 63 53 != 0 || bits r 95 85 != 0 || bits r 127 117 != 0

/-- Streams 1 to 4 whose bit is set in a 4-bit mask. -/
def maskStreams (m : Nat) : List Nat := [1, 2, 3, 4].filter fun n => m / 2 ^ (n - 1) % 2 = 1

/-- FORK sA, imm (R84, R106): the record as the sequencer's own stores leave it (R88).  The start is withheld until the Taster
has compared it, four ticks after issue (R397): a started stream issues its first word at the first edge of its clock from
there on (log entry 11).  A record that cannot be decoded raises 0x0B after the causes that do not depend on it (log entry
8). -/
def execFork (a : BitVec 6) (m : BitVec 11) (i : BitVec 3) (s : State) : Host.Outcome State Fault Refusal :=
  seqIssue (.fork a m i) i (fun s =>
    let c := s.ctx
    let off := c.rs a.toNat + m.signExtend 64
    let inside := decide (off.toNat + 64 ≤ c.spmSize)
    let ls := s.spmLocs off.toNat 64
    let r := leNat (ls.map (s.forwarded c.seq))
    let en := bits r 24 21
    let ns := maskStreams en
    let start := c.tick 0 4
    raise off (notInHandler c)
      (if inside && s.anyBad ls then
        raise off [(off.toNat % 64 != 0, 0x05), (c.sOver [a.toNat], 0x02)] (.bad ls off)
      else
        raise off
          [(inside && (recordReserved r || ns.any fun n => (c.strm n).on), 0x13),
           (off.toNat % 64 != 0 || (inside && ns.any fun n => recordPc r n % (strmOf n).bytes != 0), 0x05),
           (c.sOver [a.toNat] || !inside || (ns.any fun n => decide (c.spmSize ≤ recordPc r n)), 0x02)]
          (let c' := ns.foldl (fun c n => c.setStrm n { c.strm n with
              on := true, pc := BitVec.ofNat 64 (recordPc r n), due := edgeAt start (c.div n)
              park := .no, stalled := false }) c
           .go { ctx := { c' with forked := some en, opened := false }, seen := ls
                 script := [(start, 4, .out (.fork en))] }))) s

/-- RDV strm, … (R107): a named stream that is not running, or an opening mask that differs from EN, raises 0x13. -/
def execRdv (m : BitVec 4) (i : BitVec 3) (s : State) : Host.Outcome State Fault Refusal :=
  seqIssue (.rdv m i) i (fun s =>
    let c := s.ctx
    raise 0 (notInHandler c ++
      [((maskStreams m.toNat).any (fun n => !(c.strm n).on)
        || (match c.forked with
            | some en => en != m.toNat
            | none => false), 0x13)])
      (.go { ctx := { c with sq := { c.sq with park := .stand }, rdv := m } })) s

/-! ### Waits (R108 to R113, R115) -/

/-- WAITF gN, n (R109, R252, R253): the cause order is that of R126, with 0x12 of the ring's entry first of all
(log entry 12). -/
def execWaitf (n : BitVec 7) (g : BitVec 4) (i : BitVec 3) (s : State) : Host.Outcome State Fault Refusal :=
  seqIssue (.waitf n g i) i (fun s =>
    let c := s.ctx
    let d := c.ringDesc g.toNat
    raise 0 [(ringBad d, 0x12), (d.misaligned, 0x05), (c.ringSpaceBad d, 0x03),
             (decide (c.ringsN ≤ g.toNat) || decide (d.dim1 < n.toNat), 0x02)]
      (if n.toNat ≤ c.ringFill g.toNat then .go { ctx := c } else .wait (.ringFill g.toNat n.toNat))) s

/-- WAITE eN (R110): the bit stays set. -/
def execWaite (e : BitVec 8) (i : BitVec 3) (s : State) : Host.Outcome State Fault Refusal :=
  seqIssue (.waite e i) i (fun s =>
    let c := s.ctx
    if s.ctxEv c e.toNat || c.evSeen.contains e.toNat then .go { ctx := { c with evSeen := [] } }
    else .wait (.event e.toNat)) s

/-- WAITA.cond sD, [sA], sB (R111): the word is written one tick after the wait is satisfied. -/
def execWaita (d a b : BitVec 6) (k : BitVec 2) (i : BitVec 3) (s : State) : Host.Outcome State Fault Refusal :=
  seqIssue (.waita d a b k i) i (fun s =>
    let c := s.ctx
    let addr := c.rs a.toNat
    reaching s addr 4 false (c.sOver [d.toNat, a.toNat, b.toNat]) fun p ls used =>
      let l := firstLoc ls
      let w := s.waitWord l (p = .lent)
      if s.anyBad ls then .bad ls addr
      else if orderedBefore c c.seq 15 ls then .wait .order
      else if waitCond k.toNat w ((c.rs b.toNat).toNat % 2 ^ 32) then
        .go { ctx := c, a := cap addr, b := cap (c.rs b.toNat), used := used, seen := ls
              script := [(c.issueEdge 0 + c.div 0, 2, .sreg d.toNat (BitVec.ofNat 64 w))] }
      else .wait (.addr l k.toNat ((c.rs b.toNat).setWidth 32))) s

/-- A barrier number at or beyond the declared count: 0x02 before the membership test (R112, R242). -/
def Ctx.barOver (c : Ctx) (die : Bool) (b : Nat) : Bool := decide ((if die then c.dbarsN else c.barsN) ≤ b)

/-- An arrival of the sequencer that has issued and is not performed yet. -/
def arriving (c : Ctx) (die : Bool) (b : Nat) : Bool := (outsOf c).any fun o => o.2 = .bara die b

/-- BARA (R112, R254, R271): an outward action behind every earlier access of the sequencer; with an arrival in the current
phase the core freezes, as a wait on a barrier, until that phase completes. -/
def execBara (x : BitVec 1) (b : BitVec 6) (i : BitVec 3) (s : State) : Host.Outcome State Fault Refusal :=
  seqIssue (.bara x b i) i (fun s =>
    let c := s.ctx
    let die := x = 1
    let r := s.bar s.focus die b.toNat
    let g := c.agent die false
    if c.barOver die b.toNat then .trap 0x02 0 0
    else if !r.members.contains g then .trap 0x03 0 0
    else if !r.broken && (r.arrived.contains g || arriving c die b.toNat) then .wait (.bara die b.toNat r.phase)
    else .go { ctx := c, script := [(outEdge c 15, 4, .out (.bara die b.toNat))] }) s

/-- The phase that a BARW without an arrival of its own waits for: the current one, or the one that it stood on when a
pre-emption abandoned it (R57, R113). -/
def Ctx.waitPhase (c : Ctx) (key now : Nat) : Nat :=
  match c.waitOn with
  | some (k, ph) => if k = key then ph else now
  | none => now

/-- BARW sD (R113): it waits for the phase of the latest arrival, or for the current phase where there is none; 0 when
it completed, 1 when the barrier broke, and 0x0C in place of that status with D = 0. -/
def execBarw (d : BitVec 6) (x : BitVec 1) (b : BitVec 6) (i : BitVec 3) (s : State) :
    Host.Outcome State Fault Refusal :=
  seqIssue (.barw d x b i) i (fun s =>
    let c := s.ctx
    let die := x = 1
    let r := s.bar s.focus die b.toNat
    let key := barKey die b.toNat
    let ph := c.waitPhase key r.phase
    let past := ((c.lastArr.any fun e => e.1 = key && decide (e.2 < r.phase)) && !arriving c die b.toNat)
      || decide (ph < r.phase)
    let exceeds := [(c.barOver die b.toNat || c.sOver [d.toNat], 0x02)]
    let done (v : Word) : Plan :=
      .go { ctx := { c with evSeen := [], waitOn := none }
            script := [(c.issueEdge 0 + c.div 0, 2, .sreg d.toNat v)] }
    raise 0 exceeds
      (if r.broken then (if d = 0 then .trap 0x0C 0 0 else done 1)
       else if past || c.evSeen.contains (latchBar die b.toNat) then done 0
       else .wait (.barw die b.toNat ph))) s

/-- EVSET (R114): an outward action behind every earlier access of the sequencer. -/
def execEvset (e : BitVec 8) (i : BitVec 3) (s : State) : Host.Outcome State Fault Refusal :=
  seqIssue (.evset e i) i (fun s =>
    .go { ctx := s.ctx, script := [(outEdge s.ctx 15, 4, .out (.evset e.toNat))] }) s

/-- EVCLR (R114): an outward action in program order. -/
def execEvclr (e : BitVec 8) (i : BitVec 3) (s : State) : Host.Outcome State Fault Refusal :=
  seqIssue (.evclr e i) i (fun s =>
    .go { ctx := s.ctx, script := [(outEdge s.ctx 15, 4, .out (.evclr e.toNat))] }) s

/-- FENCE.C.scope ocA, … (R115, R273): the far stores of its classes in flight are performed during its freeze; this
model performs an access at every scope at once (log entry 13). -/
def execFenceC (m : BitVec 16) (sco : BitVec 4) (i : BitVec 3) (s : State) : Host.Outcome State Fault Refusal :=
  seqIssue (.fenceC m sco i) i (fun s =>
    if s.clears (.fence m) then .go { ctx := s.ctx } else .wait (.fence m)) s

/-! ### Clocks and schedules (R116, R117) -/

/-- CLKDIV sA (R48, R116): the core drains; DIVISOR_SWITCH then writes the divisors and the word completes. -/
def execClkdiv (a : BitVec 6) (i : BitVec 3) (s : State) : Host.Outcome State Fault Refusal :=
  seqIssue (.clkdiv a i) i (fun s =>
    let c := s.ctx
    let v := (c.rs a.toNat).setWidth 32
    -- once the divisors are written the word completes, whatever has landed in s[A] during the drain
    if c.evSeen.contains latchClk then .go { ctx := { c with evSeen := [] } }
    else raise 0 (notInHandler c ++ [(c.sOver [a.toNat], 0x02), (clkdivBad v, 0x11)]) (.wait (.clk v))) s

/-- SWPT n (R117, R249): the core drains and no other stream issues from its edge on; VARIANT_SWITCH then samples the
level and places the streams, and the word completes, in the selected variant at its own entry + 4. -/
def execSwpt (n : BitVec 10) (i : BitVec 3) (s : State) : Host.Outcome State Fault Refusal :=
  seqIssue (.swpt n i) i (fun s =>
      let c := s.ctx
      let own := BitVec.ofNat 64 (c.swmap.getD (15 * n.toNat + 5 * c.variant) 0)
      raise 0 (notInHandler c ++ [(decide (c.head 110 100 ≤ n.toNat), 0x02)])
        (if c.evSeen.contains latchMoved then .go { ctx := { c with evSeen := [] }, jump := some (own + 4) }
         else if c.evSeen.contains latchSwpt then .go { ctx := { c with evSeen := [] } }
         else .wait (.swpt n.toNat))) s

/-! ### Control registers (R71, R119, R313, R314) -/

/-- CAP (R49): log2 of the single-copy-atomic size of each memory. -/
def capWord : Word := 0x53356

/-- A replay entry whose dwords 2 to 49 have no layout in the spec: the copies of a matrix instruction and of a gather read, and
the moment registers of a moment word, which are wider than 16 dwords (R314; log entry 2). -/
def openSources (f : Flight) : Bool :=
  (f.strm = 2 && match decodeWord .me f.word with
    | .ok (.mcsrr _) | .ok (.mcsrw _) => false
    | _ => true) || f.strm = 3 || (f.strm = 1 && match decodeWord .ve f.word with
    | .ok (.qadd _) | .ok (.qsub _) | .ok (.qmul _) | .ok (.qfma _) | .ok (.qrelu _) | .ok (.qscl _) | .ok (.qcolMean _)
    | .ok (.qcolVar _) | .ok (.qcolSd _) => true
    | _ => false)

/-- Dword `k` of replay entry `f` (R314): stream and ticks remaining, the word, the captured sources; `free` stands for those
whose layout the spec does not give. -/
def replayDword (c : Ctx) (f : Flight) (k : Nat) (free : Word) : Word :=
  if k = 0 then
    let t := f.script.foldl (fun m e => max m e.1) f.fin
    BitVec.ofNat 64 (f.strm * 2 ^ 61 + ((t - c.frame.time) / c.div f.strm) % 2 ^ 16 * 2 ^ 40)
  else if k = 1 then BitVec.ofNat 64 f.word
  else if openSources f && k < 50 then free
  else if k < 18 then BitVec.ofNat 64 (f.a.toNat / 2 ^ (64 * (k - 2)))
  else if k < 34 then BitVec.ofNat 64 (f.b.toNat / 2 ^ (64 * (k - 18)))
  else if k < 50 then BitVec.ofNat 64 (f.c.toNat / 2 ^ (64 * (k - 34)))
  else 0

/-- TFBCNT of a barrier (R314). -/
def barWord (b : Bar) : Word := BitVec.ofNat 64 (b.pend % 2 ^ 28 + b.phase % 256 * 2 ^ 32 + (if b.broken then 2 ^ 40 else 0))

/-- What CSRR reads (R71, R314), zero-extended; `free` stands for what the spec leaves open: CTIME before the first
opening rendezvous, and the copies of a matrix instruction in the replay queue. -/
def State.readCsr (s : State) (c : Ctx) (x : Nat) (free : Word) : Word :=
  let f := c.frame
  match x with
  | 0x00 => c.clkdiv.zeroExtend 64
  | 0x01 => capWord
  | 0x02 => if c.opened || c.segs != 0 then BitVec.ofNat 64 c.ctime else free
  | 0x03 => c.sq.save
  | 0x04 => c.trapcause.zeroExtend 64
  | 0x05 => c.saveh
  | 0x10 => (f.pcs.getD 0 0).zeroExtend 64
  | 0x11 => (f.pcs.getD 1 0).zeroExtend 64
  | 0x12 => (f.pcs.getD 2 0).zeroExtend 64
  | 0x13 => (f.pcs.getD 3 0).zeroExtend 64
  | 0x14 => (f.pcs.getD 4 0).zeroExtend 64
  | 0x15 => f.addr
  | 0x16 => BitVec.ofNat 64 f.time
  | 0x17 => BitVec.ofNat 64 f.replay.length
  | 0x18 => f.rqsel.zeroExtend 64
  | 0x19 =>
    match f.replay[f.rqsel.toNat / 64]? with
    | some e => replayDword c e (f.rqsel.toNat % 64) free
    | none => 0
  | 0x1A => f.vec.zeroExtend 64
  | 0x1B => f.step.zeroExtend 64
  | 0x1C => f.bsel.zeroExtend 64
  | 0x1D => barWord (s.bar s.focus (f.bsel.getLsbD 6) (f.bsel.toNat % 64))
  | 0x1E => f.info
  | 0x1F => f.scr
  | _ => 0

/-- A captured source dword of a replay entry replaced (R314). -/
def setSource (f : Flight) (k : Nat) (v : Word) : Flight :=
  let put (x : BitVec 1024) (j : Nat) : BitVec 1024 := BitVec.ofNat 1024 (putBits x.toNat (64 * j + 63) (64 * j) v.toNat)
  if k < 2 then f
  else if k < 18 then { f with a := put f.a (k - 2) }
  else if k < 34 then { f with b := put f.b (k - 18) }
  else if k < 50 then { f with c := put f.c (k - 34) }
  else f

/-- A CSRW that takes effect (R119, R314), truncated to its register's width; `redo` re-forms the effects of a replay
entry from its captured sources. -/
def writeCsr (redo : Flight → Flight) (c : Ctx) (x : Nat) (v : Word) : Ctx :=
  let f := c.frame
  let pcs (n : Nat) : List (BitVec 21) := f.pcs.set n (v.setWidth 21)
  match x with
  | 0x03 => { c with sq := { c.sq with save := v &&& 0x9FFFFFFFFFFFFFFF } }
  | 0x05 => { c with saveh := v &&& 0xFFFFFFFF }
  | 0x10 => { c with frame := { f with pcs := pcs 0 } }
  | 0x11 => { c with frame := { f with pcs := pcs 1 } }
  | 0x12 => { c with frame := { f with pcs := pcs 2 } }
  | 0x13 => { c with frame := { f with pcs := pcs 3 } }
  | 0x14 => { c with frame := { f with pcs := pcs 4 } }
  | 0x18 => { c with frame := { f with rqsel := v.setWidth 10 } }
  | 0x19 =>
    match f.replay[f.rqsel.toNat / 64]? with
    | some e =>
      { c with frame := { f with
          replay := f.replay.set (f.rqsel.toNat / 64) (redo (setSource e (f.rqsel.toNat % 64) v)) } }
    | none => c
  | 0x1A => { c with frame := { f with vec := v.setWidth 21 } }
  | 0x1B => { c with frame := { f with step := v.setWidth 1 } }
  | 0x1C => { c with frame := { f with bsel := v.setWidth 7 } }
  | 0x1F => { c with frame := { f with scr := v } }
  | _ => c

/-- The context with the pending CSRWs forwarded (R119). -/
def forwardCsrs (c : Ctx) : Ctx :=
  (outsOf c).foldl (fun c o => match o.2 with
    | .csrw x v => writeCsr id c x v
    | _ => c) c

/-- CSRR sD, REG (R119). -/
def execCsrr (d x : BitVec 6) (i : BitVec 3) (s : State) : Host.Outcome State Fault Refusal :=
  seqIssue (.csrr d x i) i (fun s =>
    let c := s.ctx
    raise 0 [(c.sOver [d.toNat], 0x02)]
      (.go { ctx := c
             script := [(c.tick 0 1, 2, .sreg d.toNat
               (s.readCsr (forwardCsrs c) x.toNat (Config.earlyTime s.turn)))] })) s

/-- CSRW REG, sA (R119): performed at issue + 4 once the Taster has matched it. -/
def execCsrw (a x : BitVec 6) (i : BitVec 3) (s : State) : Host.Outcome State Fault Refusal :=
  seqIssue (.csrw a x i) i (fun s =>
    let c := s.ctx
    raise 0 [(c.sOver [a.toNat], 0x02)]
      (.go { ctx := c, script := [(c.tick 0 4, 3, .out (.csrw x.toNat (c.rs a.toNat)))], a := cap (c.rs a.toNat) })) s

/-! ### The rest of the system group (R120 to R124) -/

/-- YIELD (R120, R303): with a request pending and an empty loop stack the sequencer issues nothing further and the
context stops at node-boundary grade; otherwise no operation. -/
def execYield (i : BitVec 3) (s : State) : Host.Outcome State Fault Refusal :=
  seqIssue (.yield i) i (fun s =>
    let c := s.ctx
    raise 0 (notInHandler c ++ [(c.othersRun, 0x13)])
      (.go { ctx := if c.req.isSome && c.sq.loops.isEmpty then { c with mode := .yielding } else c })) s

/-- TRAP n, n from 1 to 63 (R122): cause 0x14 with n in INFO; the saved address is the next word (R310). -/
def execTrap (x : BitVec 6) (i : BitVec 3) (s : State) : Host.Outcome State Fault Refusal :=
  seqIssue (.trap x i) i (fun s => .go { ctx := s.ctx, after := some (0x14, x.toNat) }) s

/-- EXIT, that is TRAP 0 (R122): the sequencer issues nothing more, and the exit is reported once everything that the
core has scheduled or issued is done. -/
def execExit (i : BitVec 3) (s : State) : Host.Outcome State Fault Refusal :=
  seqIssue (.exit i) i (fun s =>
    let c := s.ctx
    raise 0 [(c.othersRun, 0x13)]
      (.go { ctx := { c with mode := .exiting }, script := [(c.tick 0 4, 4, .out .exitKernel)] })) s

/-- RETT (R123, R315): outside a handler 0x03; inside, it waits until the handler's effects have taken effect and then
the trapped context runs on. -/
def execRett (i : BitVec 3) (s : State) : Host.Outcome State Fault Refusal :=
  let c := s.ctx
  .next (
    if !(Instr.rett i).wf then s.trap 0 0x01 0 0
    else if !c.handler then s.trap 0 0x03 0 0
    else if !c.flights.isEmpty then s.freezeOn 0 .rett
    else s.setMe { s.me with ctx := State.returnFrom c, mark := none, xres := [] })

/-- BKPT (R124): cause 0x0F; RETT continues after it. -/
def execBkpt (i : BitVec 3) (s : State) : Host.Outcome State Fault Refusal :=
  seqIssue (.bkpt i) i (fun s => .go { ctx := s.ctx, after := some (0x0F, 0) }) s

/-! ### LAUNCH (R121, R294) -/

/-- The pool of region nodes holds every node (R341, R420). -/
def nodeBad (a : Nat) : Bool :=
  decide (a / 2 ^ 41 != 0) || decide (a < Config.poolBase) || decide (Config.poolBase + Config.poolSize < a + 256)

/-- The effective value of an item (R288): the parent's where the OVR bit is clear. -/
def State.effective (s : State) (ovr : Nat) (own : State → Nat → Nat) : Nat → Nat → Nat
  | 0, node => own s node
  | n + 1, node =>
    let w0 := (s.dword node).toNat
    if bits w0 12 10 = 0 || s.parentOf node = 0 then own s node
    else
      let up := s.effective ovr own n (s.parentOf node)
      if bits w0 ovr ovr = 0 then up
      else if ovr = 30 || ovr = 31 then own s node
      else min (own s node) up

def ownAsid (s : State) (n : Nat) : Nat := bits (s.dword n).toNat 47 32
def State.effAsid (s : State) (n : Nat) : Nat := s.effective 31 ownAsid 8 n

/-- DEPTH of a node (R287). -/
def State.depthOf (s : State) (n : Nat) : Nat := bits (s.dword n).toNat 15 13

/-- LAUNCH sD, sA (R121, R294): the entry is read at issue, the sequencer's own stores included; the core freezes from issue
+ 1 until the acceptance has been decided, and the sequence number lands at issue + 5.  The causes come in the order of R126;
those of NODE need its dword alone, which a fault of the entry's first bytes keeps from being read. -/
def execLaunch (d a : BitVec 6) (i : BitVec 3) (s : State) : Host.Outcome State Fault Refusal :=
  seqIssue (.launch d a i) i (fun s =>
    let c := s.ctx
    let addr := c.rs a.toNat
    let exceeds := c.sOver [d.toNat, a.toNat]
    let found := match s.reach addr 32 false with
      | .at .. => true
      | _ => false
    raise addr (notInHandler c)
      (reaching s addr 32 false (exceeds && !found) fun _ ls used =>
        let l := firstLoc ls
        let head := l.run 8
        let node := bits (leNat (head.map s.ownByte)) 51 0
        let badNode := !s.anyBad head && (nodeBad node || c.launch = 0
          || !(node = c.evNode || (node != c.launch && (s.lineage 9 node).contains c.launch))
          || s.effAsid node != c.asid.toNat || decide (s.depthOf node ≥ 7))
        let last := s.reach (addr + 128) 32 false
        -- of two causes 0x03 TFADDR names the window's or page's first
        raise addr [(last = .bad 0x03, 0x03)]
          (raise (BitVec.ofNat 64 node) [(badNode, 0x03)]
            (reaching s (addr + 128) 32 false exceeds fun _ ls2 used2 =>
              let l2 := firstLoc ls2
              -- the entry may cross a page of 64 KiB; its last 32 bytes are then on the second page
              let cut := 2 ^ 16 - addr.toNat % 2 ^ 16
              let locs := (List.range 160).map fun k =>
                if k < cut then { l with off := l.off + k } else { l2 with off := l2.off + k - 128 }
              if s.anyBad locs then .bad locs addr
              else .go { ctx := c, used := used ++ used2.filter (fun e => !used.contains e), seen := locs, late := true
                         script := [(c.tick 0 1, 1, .frz .launch),
                                    (c.tick 0 4, 4, .out (.launch d.toNat (locs.map s.ownByte) node))] })))) s

end Sys2Proof.Machine
end

