-- ==== Sys2Proof/Machine/Vector.lean ====
section
/-!
DEFINITION. The vector engine's register instructions (05_vector_tile_isa R127 to R146, 16_reversible R327): lane
arithmetic, functions, logic, moves, compares and masks, conversions, reductions and scans, compress, dot product and
fixed-point sums.
-/

namespace Sys2Proof.Machine

/-- A vector-engine word (R127). -/
def vecIssue (i : Instr) (idle : BitVec 3) (plan : State → Plan) (s : State) : Host.Outcome State Fault Refusal :=
  .next (s.issue i 1 idle.toNat plan)

/-- The value of a result: the register bits it writes, their contents, its flags. -/
structure VRes where
  m : BitVec 1024
  v : BitVec 1024
  fl : Flags
deriving DecidableEq, Repr

/-- Lane by lane under a mask; lanes left out write nothing and raise nothing. -/
def laneMap (k : BitVec 32) (g : Nat → Nat × Flags) : VRes :=
  let rs := (List.range 32).map fun l => if k.getLsbD l then g l else (0, fNone)
  { m := laneMask k, v := ofLanes (rs.map (·.1)), fl := rs.foldl (fun a r => a ||| r.2) fNone }

/-- Element by element within a container. -/
def contMap (w : Nat) (op : Nat → Nat → Nat → Nat × Flags) (a b c : Nat) : Nat × Flags :=
  let rs := (List.range (32 / w)).map fun i => op (elemAt w a i) (elemAt w b i) (elemAt w c i)
  (packElems w (rs.map (·.1)), rs.foldl (fun a r => a ||| r.2) fNone)

/-- An elementwise operation on type `f` over three sources after their modifiers (R131). -/
def elemwise (f : Fm) (x : VR) (op : Nat → Nat → Nat → Nat × Flags) (k : BitVec 32) (a b c : BitVec 1024) : VRes :=
  let a := swzAll x.ma f.bits a
  let b := swzAll x.mb f.bits b
  let c := swzAll x.mc f.bits c
  laneMap k fun l => contMap f.bits op (lane a l) (lane b l) (lane c l)

/-- A floating result rounded once (R131). -/
def fRound (f : Fm) (env : Env) (r : Val × Flags) : Nat × Flags :=
  let (x, fl) := roundF f r.1 env.rm env.sat
  (x, r.2 ||| fl)

def elAdd (f : Fm) (env : Env) (sat : Bool) (a b : Nat) : Nat × Flags :=
  if f.isFloat then fRound f env ((valOf f a).add (valOf f b)) else intTo f (intVal f a + intVal f b) sat

def elSub (f : Fm) (env : Env) (sat : Bool) (a b : Nat) : Nat × Flags :=
  if f.isFloat then fRound f env ((valOf f a).add (valOf f b).neg) else intTo f (intVal f a - intVal f b) sat

def elMul (f : Fm) (env : Env) (sat : Bool) (a b : Nat) : Nat × Flags :=
  if f.isFloat then fRound f env ((valOf f a).mul (valOf f b)) else intTo f (intVal f a * intVal f b) sat

def elFma (f : Fm) (env : Env) (a b c : Nat) : Nat × Flags := fRound f env (Val.fma (valOf f a) (valOf f b) (valOf f c))

/-- Values of the arithmetic groups from the sources as captured (R131). -/
def vadd (t : BitVec 3) (x : VR) (k : BitVec 32) (env : Env) (a b : BitVec 1024) : VRes :=
  elemwise (.ofT t) x (fun p q _ => elAdd (.ofT t) env (x.sat = 1) p q) k a b 0

def vsub (t : BitVec 3) (x : VR) (k : BitVec 32) (env : Env) (a b : BitVec 1024) : VRes :=
  elemwise (.ofT t) x (fun p q _ => elSub (.ofT t) env (x.sat = 1) p q) k a b 0

def vmul (t : BitVec 3) (x : VR) (k : BitVec 32) (env : Env) (a b : BitVec 1024) : VRes :=
  elemwise (.ofT t) x (fun p q _ => elMul (.ofT t) env (x.sat = 1) p q) k a b 0

def vfma (t : BitVec 3) (x : VR) (k : BitVec 32) (env : Env) (a b c : BitVec 1024) : VRes :=
  elemwise (.ofT t) x (elFma (.ofT t) env) k a b c

def vmin (t : BitVec 3) (x : VR) (k : BitVec 32) (a b : BitVec 1024) : VRes :=
  elemwise (.ofT t) x (fun p q _ => (minMax (.ofT t) false p q, fNone)) k a b 0

def vmax (t : BitVec 3) (x : VR) (k : BitVec 32) (a b : BitVec 1024) : VRes :=
  elemwise (.ofT t) x (fun p q _ => (minMax (.ofT t) true p q, fNone)) k a b 0

/-- The FP32 function group (R132): each exact result rounded once. -/
def vfun (g : Val → Val × Flags) (x : VR) (k : BitVec 32) (env : Env) (a : BitVec 1024) : VRes :=
  elemwise .fp32 x (fun p _ _ => fRound .fp32 env (g (valOf .fp32 p))) k a 0 0

def vdiv (x : VR) (k : BitVec 32) (env : Env) (a b : BitVec 1024) : VRes :=
  elemwise .fp32 x (fun p q _ => fRound .fp32 env ((valOf .fp32 p).div (valOf .fp32 q))) k a b 0

/-- VABS and VNEG (R132): a NaN gives the canonical NaN. -/
def vsign (g : Nat → Nat) (x : VR) (k : BitVec 32) (a : BitVec 1024) : VRes :=
  elemwise .fp32 x (fun p _ _ => (if (valOf .fp32 p).isNan then Fm.fp32.nanBits else g p, fNone)) k a 0 0

/-- The logic group on whole containers (R133). -/
def vlogic (g : BitVec 32 → BitVec 32 → BitVec 32) (x : VR) (k : BitVec 32) (a b : BitVec 1024) : VRes :=
  elemwise .n32 x (fun p q _ => ((g (BitVec.ofNat 32 p) (BitVec.ofNat 32 q)).toNat, fNone)) k a b 0

def vsel (x : VR) (sel k : BitVec 32) (a b : BitVec 1024) : VRes :=
  let a := swzAll x.ma 32 a
  let b := swzAll x.mb 32 b
  laneMap k fun l => (if sel.getLsbD l then lane a l else lane b l, fNone)

/-- The condition of VCMP on one element (R135). -/
def cmpElem (f : Fm) (cond : Nat) (a b : Nat) : Bool :=
  let x := valOf f a
  let y := valOf f b
  if f.isFloat && (x.isNan || y.isNan) then cond = 1 || cond = 6
  else
    let c := if f.isFloat then x.cmp y else
      (if intVal f a < intVal f b then -1 else if intVal f a > intVal f b then 1 else 0)
    match cond with
    | 0 => c = 0
    | 1 => c != 0
    | 2 => decide (c < 0)
    | 3 => decide (c ≤ 0)
    | 4 => decide (c > 0)
    | 5 => decide (c ≥ 0)
    | _ => false

/-- VCMP (R135): bit l is 1 when lane l takes part and the condition holds for every element of its container. -/
def vcmp (t : BitVec 3) (x : VR) (k : BitVec 32) (a b : BitVec 1024) : BitVec 32 :=
  let f := Fm.ofT t
  let a := swzAll x.ma f.bits a
  let b := swzAll x.mb f.bits b
  BitVec.ofNat 32 (packElems 1 ((List.range 32).map fun l =>
    if k.getLsbD l && (List.range (32 / f.bits)).all (fun i =>
      cmpElem f x.vc.toNat (elemAt f.bits (lane a l) i) (elemAt f.bits (lane b l) i)) then 1 else 0))

def kfromv (x : VR) (a : BitVec 1024) : BitVec 32 :=
  let a := swzAll x.ma 32 a
  BitVec.ofNat 32 (packElems 1 ((List.range 32).map fun l => if lane a l != 0 then 1 else 0))

/-- VMOV (R134): with SWZ 0b11 the width of the copied element is given by SEL. -/
def vmov (x : VR) (k : BitVec 32) (a : BitVec 1024) : VRes :=
  let a := swzAll x.ma (32 / 2 ^ (x.ma.toNat / 4)) a
  { m := laneMask k, v := a &&& laneMask k, fl := fNone }

def vbcastV (k : BitVec 32) (a : BitVec 1024) : VRes := { m := laneMask k, v := a &&& laneMask k, fl := fNone }

def viota (k : BitVec 32) (add : Nat) : VRes := laneMap k fun l => ((l + add) % 2 ^ 32, fNone)

def vfromk (k src : BitVec 32) : VRes := laneMap k fun l => (if src.getLsbD l then 2 ^ 32 - 1 else 0, fNone)

/-- VCVT (R136): the elements used, where they go, and the bits written. -/
def vcvt (x : VR) (k : BitVec 32) (env : Env) (a : BitVec 1024) : VRes :=
  let src := (Fm.ofCode x.vc.toNat).getD .fp32
  let dst := (Fm.ofCode x.vb.toNat).getD .fp32
  let ws := src.bits
  let wd := dst.bits
  let a := swzAll x.ma ws a
  let sat := if src.isInt && dst.isInt then x.sat = 1 else env.sat
  let cv (e : Nat) : Nat × Flags := convert src dst e env.rm sat
  let from_ : List Nat :=
    if wd ≤ ws then List.range (32 / ws)
    else if wd = 2 * ws then selPos (x.ma.toNat / 4) (32 / ws)
    else (selPos (x.ma.toNat / 4) (32 / ws)).take 1
  let spots : List Nat :=
    if ws ≤ wd then List.range (32 / wd)
    else if ws = 2 * wd then selPos (x.mc.toNat / 4) (32 / wd)
    else [x.mc.toNat / 4]
  let cm := spots.foldl (fun m p => m + (2 ^ wd - 1) * 2 ^ (p * wd)) 0
  let r := laneMap k fun l =>
    let es := from_.map fun p => cv (elemAt ws (lane a l) p)
    ((spots.zip es).foldl (fun v e => v + e.2.1 * 2 ^ (e.1 * wd)) 0, es.foldl (fun f e => f ||| e.2) fNone)
  { r with m := r.m &&& ofLanes (List.replicate 32 cm) }

/-- VCVTB (R137): one block of 32 elements and its header; every lane is written. -/
def vcvtb (x : VR) (env : Env) (a : BitVec 1024) : VRes :=
  let f := if x.vb.toNat = 5 then Fm.b2e8 else Fm.b2e4
  let a := swzAll x.ma 32 a
  let (hdr, es, fl) := toBlock f x.mc.toNat ((lanesOf a).map (valOf .fp32)) env.rm env.sat
  { m := BitVec.allOnes 1024, v := BitVec.ofNat 1024 (packElems f.bits es + hdr * 2 ^ (32 * f.bits)), fl := fl }

/-- A NaN that an operation passes on is the canonical NaN (R15). -/
def canon (f : Fm) (x : Nat) : Nat := if f.isFloat && (valOf f x).isNan then f.nanBits else x

/-- The elements of a register in element order, absent in lanes left out (R33). -/
def members (f : Fm) (k : BitVec 32) (a : BitVec 1024) : List (Option Nat) :=
  (List.range (1024 / f.bits)).map fun i =>
    if k.getLsbD (i * f.bits / 32) then some (elemAt f.bits a.toNat i) else none

/-- A reduction (R142): element 0 of lane 0, every other bit 0. -/
def vreduce (t : BitVec 3) (x : VR) (k : BitVec 32) (op : Nat → Nat → Nat × Flags) (empty : Fm → Nat)
    (a : BitVec 1024) : VRes :=
  let f := Fm.ofT t
  let a := swzAll x.ma f.bits a
  let (r, fl) := treeFold op 7 (members f k a)
  { m := BitVec.allOnes 1024
    v := BitVec.ofNat 1024 (match r with
      | some v => canon f v
      | none => empty f)
    fl := fl }

def vrsum (t : BitVec 3) (x : VR) (k : BitVec 32) (env : Env) (a : BitVec 1024) : VRes :=
  vreduce t x k (elAdd (.ofT t) env (x.sat = 1)) emptySum a

def vrmax (t : BitVec 3) (x : VR) (k : BitVec 32) (a : BitVec 1024) : VRes :=
  vreduce t x k (fun p q => (minMax (.ofT t) true p q, fNone)) emptyMax a

def vrmin (t : BitVec 3) (x : VR) (k : BitVec 32) (a : BitVec 1024) : VRes :=
  vreduce t x k (fun p q => (minMax (.ofT t) false p q, fNone)) emptyMin a

/-- VSCAN (R143): the left fold of R34; the carry is the start value or the highest element of B. -/
def vscan (t : BitVec 3) (x : VR) (k : BitVec 32) (env : Env) (a b : BitVec 1024) : VRes :=
  let f := Fm.ofT t
  let a := swzAll x.ma f.bits a
  let b := swzAll x.mb f.bits b
  let c := if x.vc = 1 then scanZero f else elemAt f.bits b.toNat (1024 / f.bits - 1)
  let (rs, fl) := scanFold (elAdd f env (x.sat = 1)) c (members f k a)
  { m := BitVec.allOnes 1024, v := BitVec.ofNat 1024 (packElems f.bits (rs.map (canon f))), fl := fl }

/-- Whether element `p` ranks above element `q` of a later index (R144). -/
def outranks (f : Fm) (p q : Nat) : Bool :=
  let x := valOf f p
  let y := valOf f q
  let mag (v : Val) : Val := if v.sign then v.neg else v
  if x.isNan then true else if y.isNan then false else decide ((mag x).cmp (mag y) ≥ 0)

/-- The indices of the two elements kept of four, ascending (R144). -/
def keep2 (f : Fm) (es : List Nat) : List Nat :=
  (List.range 4).filter fun i =>
    decide (((List.range 4).filter fun j => j != i &&
      (if j < i then outranks f (es.getD j 0) (es.getD i 0) else !outranks f (es.getD i 0) (es.getD j 0))).length < 2)

/-- VCOMP.2OF4 (R144). -/
def vcomp (x : VR) (a : BitVec 1024) : VRes :=
  let f := Fm.ofT (x.vc.setWidth 3)
  let w := f.bits
  let a := swzAll x.ma w a
  let ks := (List.range (1024 / w / 4)).flatMap fun g =>
    let es := (List.range 4).map fun i => elemAt w a.toNat (4 * g + i)
    (keep2 f es).map fun i => (canon f (es.getD i 0), i)
  { m := BitVec.allOnes 1024
    v := BitVec.ofNat 1024 (packElems w (ks.map (·.1)) + packElems 2 (ks.map (·.2)) * 2 ^ 512)
    fl := fNone }

/-- DOT16.E4 (R145): eight groups of sixteen products enter lanes 0 to 7 of C. -/
def dot16 (x : VR) (k : BitVec 32) (env : Env) (a b c : BitVec 1024) : VRes :=
  let a := swzAll x.ma 8 a
  let b := swzAll x.mb 8 b
  let c := swzAll x.mc 32 c
  laneMap (k &&& 0xFF) fun g =>
    let ps := (List.range 16).map fun i =>
      prodOf (valOf .e4m3 (elemAt 8 a.toNat (16 * g + i))) (valOf .e4m3 (elemAt 8 b.toNat (16 * g + i)))
    accumulate (lane c g) (groupVal (some 12) ps) env.sat

def radd (x : VR) (k : BitVec 32) (a b : BitVec 1024) : VRes := vlogic (· + ·) x k a b
def rsub (x : VR) (k : BitVec 32) (a b : BitVec 1024) : VRes := vlogic (· - ·) x k a b

/-! ### The words -/

/-- The source positions that a VR-format word reads from vector registers (R75); mask, code and moment positions are
none. -/
def vrPos : Instr → Option (VR × List Pos)
  | .vadd _ f | .vsub _ f | .vmul _ f | .vmin _ f | .vmax _ f | .vcmp _ f => some (f, [.a, .b])
  | .vfma _ f | .dot16E4 f => some (f, [.a, .b, .c])
  | .vdiv f | .vand f | .vor f | .vxor f | .vsll f | .vsrl f | .vsra f | .vsel f | .radd f | .rsub f =>
    some (f, [.a, .b])
  | .vsqrt f | .vrcp f | .vrsq f | .vexp2 f | .vlog2 f | .vabs f | .vneg f | .vnot f | .vcvt f | .vcvtb f
  | .vcomp2of4 f | .vmov f | .kfromv f => some (f, [.a])
  | .vrsum _ f | .vrmax _ f | .vrmin _ f => some (f, [.a])
  | .vscan _ f => some (f, if f.vc = 1 then [.a] else [.a, .b])
  | .qmake f => some (f, [.a, .b])
  | _ => none

/-- Ticks that a word stalls before issue (R59). -/
def stallOf (i : Instr) : Nat :=
  match vrPos i with
  | some (f, ps) => bankStall (readRegs f ps)
  | none => 0

/-- The checks common to VR words, in the order of R154: a hold violation, then the limits of R242 on the vector
registers named, the destination among them where it is one, and on the broadcast scalar. -/
def vrChecks (c : Ctx) (f : VR) (ps : List Pos) (dst : Bool) : List (Bool × Nat) :=
  [(ps.any (fun p => !(p = .b && f.be = 1) && holdBad c f p), 0x15),
   ((ps.any fun p => !(p = .b && f.be = 1) && decide (c.vregs ≤ vrReg f p)) || (dst && decide (c.vregs ≤ f.vd.toNat))
      || (f.be = 1 && c.sOver [f.bc.toNat]), 0x02)]

/-- A VR word that writes a vector register `lat` ticks after issue (R127): its sources are captured at issue, its
latches filled, and NV under NVT traps before anything is written (R23). -/
def vrPlan (f : VR) (ps : List Pos) (lat : Nat) (val : Env → BitVec 32 → BitVec 1024 → BitVec 1024 → BitVec 1024 → VRes)
    (s : State) : Plan :=
  let c := s.ctx
  let a := srcOf c f .a
  let b := srcOf c f .b
  let d := srcOf c f .c
  let env := { envV c f.rq f.sat with km := c.rk f.km.toNat }
  let r := val env (c.rk f.km.toNat) a b d
  raise 0 (vrChecks c f ps true ++ [(arithNvt c.arithV && r.fl.getLsbD 0, 0x10)])
    (.go { ctx := fillAll c f ps, script := [(c.tick 1 lat, 2, .vreg f.vd.toNat r.m r.v r.fl)]
           a := a, b := b, c := d, env := env })

/-- A VR word that writes a mask two ticks after issue. -/
def vrMask (f : VR) (ps : List Pos) (val : BitVec 32 → BitVec 1024 → BitVec 1024 → BitVec 32) (s : State) : Plan :=
  let c := s.ctx
  let a := srcOf c f .a
  let b := srcOf c f .b
  raise 0 (vrChecks c f ps false)
    (.go { ctx := fillAll c f ps, script := [(c.tick 1 2, 2, .kreg (f.vd.toNat % 8) (val (c.rk f.km.toNat) a b))]
           a := a, b := b, env := { km := c.rk f.km.toNat } })

/-- A plan whose word captures a mask, which stands in source position C (VSEL) or A (VFROMK). -/
def Plan.withMask (atC : Bool) (m : BitVec 32) : Plan → Plan
  | .go g => .go (if atC then { g with c := m.zeroExtend 1024 } else { g with a := m.zeroExtend 1024 })
  | p => p

/-- A word of the mask group (R135). -/
def maskPlan (f : VR) (op : BitVec 32 → BitVec 32 → BitVec 32) (s : State) : Plan :=
  let c := s.ctx
  let a := c.rk f.va.toNat
  let b := c.rk f.vb.toNat
  .go { ctx := c, script := [(c.tick 1 2, 2, .kreg f.vd.toNat (op a b))]
        a := a.zeroExtend 1024, b := b.zeroExtend 1024 }

/-- VADD.T (R131). -/
def execVadd (t : BitVec 3) (f : VR) (s : State) : Host.Outcome State Fault Refusal :=
  vecIssue (.vadd t f) f.i (vrPlan f [.a, .b] (if tFloat t then 4 else 2) (fun e k a b _ => vadd t f k e a b)) s

/-- VSUB.T (R131). -/
def execVsub (t : BitVec 3) (f : VR) (s : State) : Host.Outcome State Fault Refusal :=
  vecIssue (.vsub t f) f.i (vrPlan f [.a, .b] (if tFloat t then 4 else 2) (fun e k a b _ => vsub t f k e a b)) s

/-- VMUL.T (R131). -/
def execVmul (t : BitVec 3) (f : VR) (s : State) : Host.Outcome State Fault Refusal :=
  vecIssue (.vmul t f) f.i (vrPlan f [.a, .b] (if tFloat t then 4 else 2) (fun e k a b _ => vmul t f k e a b)) s

/-- VFMA.T (R131). -/
def execVfma (t : BitVec 3) (f : VR) (s : State) : Host.Outcome State Fault Refusal :=
  vecIssue (.vfma t f) f.i (vrPlan f [.a, .b, .c] 4 (fun e k a b c => vfma t f k e a b c)) s

/-- VMIN.T (R131). -/
def execVmin (t : BitVec 3) (f : VR) (s : State) : Host.Outcome State Fault Refusal :=
  vecIssue (.vmin t f) f.i (vrPlan f [.a, .b] (if tFloat t then 4 else 2) (fun _ k a b _ => vmin t f k a b)) s

/-- VMAX.T (R131). -/
def execVmax (t : BitVec 3) (f : VR) (s : State) : Host.Outcome State Fault Refusal :=
  vecIssue (.vmax t f) f.i (vrPlan f [.a, .b] (if tFloat t then 4 else 2) (fun _ k a b _ => vmax t f k a b)) s

/-- VDIV.F32 (R132). -/
def execVdiv (f : VR) (s : State) : Host.Outcome State Fault Refusal :=
  vecIssue (.vdiv f) f.i (vrPlan f [.a, .b] 12 (fun e k a b _ => vdiv f k e a b)) s

/-- VSQRT.F32 (R132). -/
def execVsqrt (f : VR) (s : State) : Host.Outcome State Fault Refusal :=
  vecIssue (.vsqrt f) f.i (vrPlan f [.a] 12 (fun e k a _ _ => vfun vsqrtV f k e a)) s

/-- VRCP.F32 (R132). -/
def execVrcp (f : VR) (s : State) : Host.Outcome State Fault Refusal :=
  vecIssue (.vrcp f) f.i (vrPlan f [.a] 8 (fun e k a _ _ => vfun vrcpV f k e a)) s

/-- VRSQ.F32 (R132). -/
def execVrsq (f : VR) (s : State) : Host.Outcome State Fault Refusal :=
  vecIssue (.vrsq f) f.i (vrPlan f [.a] 8 (fun e k a _ _ => vfun vrsqV f k e a)) s

/-- VEXP2.F32 (R132). -/
def execVexp2 (f : VR) (s : State) : Host.Outcome State Fault Refusal :=
  vecIssue (.vexp2 f) f.i (vrPlan f [.a] 8 (fun e k a _ _ => vfun vexp2V f k e a)) s

/-- VLOG2.F32 (R132). -/
def execVlog2 (f : VR) (s : State) : Host.Outcome State Fault Refusal :=
  vecIssue (.vlog2 f) f.i (vrPlan f [.a] 8 (fun e k a _ _ => vfun vlog2V f k e a)) s

/-- VABS.F32 (R132). -/
def execVabs (f : VR) (s : State) : Host.Outcome State Fault Refusal :=
  vecIssue (.vabs f) f.i (vrPlan f [.a] 2 (fun _ k a _ _ => vsign (· % 2 ^ 31) f k a)) s

/-- VNEG.F32 (R132). -/
def execVneg (f : VR) (s : State) : Host.Outcome State Fault Refusal :=
  vecIssue (.vneg f) f.i (vrPlan f [.a] 2 (fun _ k a _ _ => vsign (fun x => (x + 2 ^ 31) % 2 ^ 32) f k a)) s

/-- VAND (R133). -/
def execVand (f : VR) (s : State) : Host.Outcome State Fault Refusal :=
  vecIssue (.vand f) f.i (vrPlan f [.a, .b] 2 (fun _ k a b _ => vlogic (· &&& ·) f k a b)) s

/-- VOR (R133). -/
def execVor (f : VR) (s : State) : Host.Outcome State Fault Refusal :=
  vecIssue (.vor f) f.i (vrPlan f [.a, .b] 2 (fun _ k a b _ => vlogic (· ||| ·) f k a b)) s

/-- VXOR (R133). -/
def execVxor (f : VR) (s : State) : Host.Outcome State Fault Refusal :=
  vecIssue (.vxor f) f.i (vrPlan f [.a, .b] 2 (fun _ k a b _ => vlogic (· ^^^ ·) f k a b)) s

/-- VNOT (R133). -/
def execVnot (f : VR) (s : State) : Host.Outcome State Fault Refusal :=
  vecIssue (.vnot f) f.i (vrPlan f [.a] 2 (fun _ k a _ _ => vlogic (fun x _ => ~~~ x) f k a 0)) s

/-- VSLL (R133): shifted by B[4:0]. -/
def execVsll (f : VR) (s : State) : Host.Outcome State Fault Refusal :=
  vecIssue (.vsll f) f.i (vrPlan f [.a, .b] 2 (fun _ k a b _ => vlogic (fun x y => x <<< (y.toNat % 32)) f k a b)) s

/-- VSRL (R133). -/
def execVsrl (f : VR) (s : State) : Host.Outcome State Fault Refusal :=
  vecIssue (.vsrl f) f.i (vrPlan f [.a, .b] 2 (fun _ k a b _ => vlogic (fun x y => x >>> (y.toNat % 32)) f k a b)) s

/-- VSRA (R133). -/
def execVsra (f : VR) (s : State) : Host.Outcome State Fault Refusal :=
  vecIssue (.vsra f) f.i (vrPlan f [.a, .b] 2 (fun _ k a b _ => vlogic (fun x y => x.sshiftRight (y.toNat % 32)) f k a b)) s

/-- VSEL (R133): A where bit l of kS is 1, else B. -/
def execVsel (f : VR) (s : State) : Host.Outcome State Fault Refusal :=
  vecIssue (.vsel f) f.i (fun s =>
    let m := s.ctx.rk (f.vc.toNat % 8)
    (vrPlan f [.a, .b] 2 (fun _ k a b _ => vsel f m k a b) s).withMask true m) s

/-- VCMP.T.cond (R135). -/
def execVcmp (t : BitVec 3) (f : VR) (s : State) : Host.Outcome State Fault Refusal :=
  vecIssue (.vcmp t f) f.i (vrMask f [.a, .b] (fun k a b => vcmp t f k a b)) s

/-- VCVT.dst.src (R136). -/
def execVcvt (f : VR) (s : State) : Host.Outcome State Fault Refusal :=
  vecIssue (.vcvt f) f.i (vrPlan f [.a] 3 (fun e k a _ _ => vcvt f k e a)) s

/-- VCVTB (R137). -/
def execVcvtb (f : VR) (s : State) : Host.Outcome State Fault Refusal :=
  vecIssue (.vcvtb f) f.i (vrPlan f [.a] 6 (fun e _ a _ _ => vcvtb f e a)) s

/-- VRSUM.T (R142). -/
def execVrsum (t : BitVec 3) (f : VR) (s : State) : Host.Outcome State Fault Refusal :=
  vecIssue (.vrsum t f) f.i (vrPlan f [.a] 8 (fun e k a _ _ => vrsum t f k e a)) s

/-- VRMAX.T (R142). -/
def execVrmax (t : BitVec 3) (f : VR) (s : State) : Host.Outcome State Fault Refusal :=
  vecIssue (.vrmax t f) f.i (vrPlan f [.a] 8 (fun _ k a _ _ => vrmax t f k a)) s

/-- VRMIN.T (R142). -/
def execVrmin (t : BitVec 3) (f : VR) (s : State) : Host.Outcome State Fault Refusal :=
  vecIssue (.vrmin t f) f.i (vrPlan f [.a] 8 (fun _ k a _ _ => vrmin t f k a)) s

/-- VSCAN.T (R143). -/
def execVscan (t : BitVec 3) (f : VR) (s : State) : Host.Outcome State Fault Refusal :=
  vecIssue (.vscan t f) f.i (vrPlan f (if f.vc = 1 then [.a] else [.a, .b]) 36 (fun e k a b _ => vscan t f k e a b)) s

/-- VCOMP.2OF4.T (R144). -/
def execVcomp2of4 (f : VR) (s : State) : Host.Outcome State Fault Refusal :=
  vecIssue (.vcomp2of4 f) f.i (vrPlan f [.a] 3 (fun _ _ a _ _ => vcomp f a)) s

/-- DOT16.E4 (R145). -/
def execDot16E4 (f : VR) (s : State) : Host.Outcome State Fault Refusal :=
  vecIssue (.dot16E4 f) f.i (vrPlan f [.a, .b, .c] 6 (fun e k a b c => dot16 f k e a b c)) s

/-- RADD (R146). -/
def execRadd (f : VR) (s : State) : Host.Outcome State Fault Refusal :=
  vecIssue (.radd f) f.i (vrPlan f [.a, .b] 2 (fun _ k a b _ => radd f k a b)) s

/-- RSUB (R146). -/
def execRsub (f : VR) (s : State) : Host.Outcome State Fault Refusal :=
  vecIssue (.rsub f) f.i (vrPlan f [.a, .b] 2 (fun _ k a b _ => rsub f k a b)) s

/-- VMOV (R134). -/
def execVmov (f : VR) (s : State) : Host.Outcome State Fault Refusal :=
  vecIssue (.vmov f) f.i (vrPlan f [.a] 2 (fun _ k a _ _ => vmov f k a)) s

/-- VBCAST (R134): s[N][31:0] in every container. -/
def execVbcast (f : VR) (s : State) : Host.Outcome State Fault Refusal :=
  vecIssue (.vbcast f) f.i (vrPlan f [] 2 (fun _ k _ b _ => vbcastV k b)) s

/-- VIOTA (R134): the lane index, plus s[BC] where BE is 1. -/
def execViota (f : VR) (s : State) : Host.Outcome State Fault Refusal :=
  vecIssue (.viota f) f.i (vrPlan f [] 2 (fun _ k _ b _ => viota k (if f.be = 1 then lane b 0 else 0))) s

/-- KAND (R135). -/
def execKand (f : VR) (s : State) : Host.Outcome State Fault Refusal := vecIssue (.kand f) f.i (maskPlan f (· &&& ·)) s

/-- KOR (R135). -/
def execKor (f : VR) (s : State) : Host.Outcome State Fault Refusal := vecIssue (.kor f) f.i (maskPlan f (· ||| ·)) s

/-- KXOR (R135). -/
def execKxor (f : VR) (s : State) : Host.Outcome State Fault Refusal := vecIssue (.kxor f) f.i (maskPlan f (· ^^^ ·)) s

/-- KNOT (R135). -/
def execKnot (f : VR) (s : State) : Host.Outcome State Fault Refusal := vecIssue (.knot f) f.i (maskPlan f (fun a _ => ~~~ a)) s

/-- KFROMV (R135). -/
def execKfromv (f : VR) (s : State) : Host.Outcome State Fault Refusal :=
  vecIssue (.kfromv f) f.i (vrMask f [.a] (fun _ a _ => kfromv f a)) s

/-- VFROMK (R135). -/
def execVfromk (f : VR) (s : State) : Host.Outcome State Fault Refusal :=
  vecIssue (.vfromk f) f.i (fun s =>
    let m := s.ctx.rk f.va.toNat
    (vrPlan f [] 2 (fun _ k _ _ _ => vfromk k m) s).withMask false m) s

end Sys2Proof.Machine
end

