-- ==== Sys2Proof/Machine/Moment.lean ====
section
/-!
DEFINITION. Moment arithmetic (06_matrix_moment_isa R185 to R191): the rules of R188 over exact values, each component
rounded once, and the register instructions on q0 to q15.
-/

namespace Sys2Proof.Machine

/-- A moment pair as encoded: mean and variance words. -/
abbrev Pair := Nat × Nat

def pairOf (q : BitVec 2048) (l : Nat) : Pair := (q.toNat / 2 ^ (64 * l) % 2 ^ 32, q.toNat / 2 ^ (64 * l + 32) % 2 ^ 32)

def ofPairs (ps : List Pair) : BitVec 2048 := BitVec.ofNat 2048 (packElems 64 (ps.map fun p => p.1 + p.2 * 2 ^ 32))

/-- A variance that is negative (R19, R187): sign set, magnitude nonzero, not a NaN. -/
def negVar (v : Nat) : Bool := decide (v > 0x80000000) && !(valOf .fp32 v).isNan

/-- A variance of −0 is written as +0 (R19). -/
def posZero (v : Nat) : Nat := if v = 0x80000000 then 0 else v

/-- The standard deviation of R185: the root rounded to nearest even; it raises no flag. -/
def sdOf (v : Nat) : Val := valOf .fp32 (roundF .fp32 (valOf .fp32 v).sqrt.1 0 false).1

/-- A sum of terms, with the flags of each operation (R24). -/
def sumV (ts : List (Val × Flags)) : Val × Flags :=
  match ts with
  | [] => (.zero false, fNone)
  | t :: l => l.foldl (fun a t => let (v, f) := a.1.add t.1; (v, a.2 ||| t.2 ||| f)) t

/-- A product of factors. -/
def prodV (fs : List Val) : Val × Flags :=
  match fs with
  | [] => (.ofInt 1, fNone)
  | x :: l => l.foldl (fun a y => let (v, f) := a.1.mul y; (v, a.2 ||| f)) (x, fNone)

/-- A term whose coefficient is exactly 0 is absent (R185). -/
def termV (k : Val) (fs : List Val) : List (Val × Flags) := if k.isZero then [] else [prodV (k :: fs)]

/-- A pair of exact components with their flags. -/
structure MRes where
  mean : Val × Flags
  var : Val × Flags
deriving DecidableEq, Repr

def momAdd (rho : Val) (sub : Bool) (a b : Pair) : MRes :=
  let mb := if sub then (valOf .fp32 b.1).neg else valOf .fp32 b.1
  let two : Val := .ofInt (if sub then -2 else 2)
  { mean := sumV [(valOf .fp32 a.1, fNone), (mb, fNone)]
    var := sumV ([(valOf .fp32 a.2, fNone), (valOf .fp32 b.2, fNone)] ++
      (if rho.isZero then [] else [prodV [two, rho, sdOf a.2, sdOf b.2]])) }

def momMul (rho : Val) (a b : Pair) : MRes :=
  let ma := valOf .fp32 a.1
  let mb := valOf .fp32 b.1
  let va := valOf .fp32 a.2
  let vb := valOf .fp32 b.2
  let sa := sdOf a.2
  let sb := sdOf b.2
  let r2 := (rho.mul rho).1
  let less := ((Val.ofInt 1).add r2.neg).1
  let more := ((Val.ofInt 1).add r2).1
  let t := sumV (prodV [ma, sb] :: termV rho [mb, sa])
  let sq := t.1.mul t.1
  { mean := sumV (prodV [ma, mb] :: termV rho [sa, sb])
    var := sumV ((sq.1, t.2 ||| sq.2) :: (termV less [mb, mb, va] ++ termV more [va, vb])) }

def momScale (w : Nat) (a : Pair) : MRes :=
  let wv := valOf .fp32 w
  { mean := prodV [valOf .fp32 a.1, wv], var := prodV [wv, wv, valOf .fp32 a.2] }

/-- ReLU (R188): its limits at infinite operands raise no flag, save NV where both are infinite. -/
def momRelu (a : Pair) : MRes :=
  let mu := valOf .fp32 a.1
  let va := valOf .fp32 a.2
  match mu, va with
  | .inf _, .inf _ => { mean := (.nan, fNV), var := (.nan, fNV) }
  | .inf false, v => { mean := (.inf false, fNone), var := (v, fNone) }
  | .inf true, _ => { mean := (.zero false, fNone), var := (.zero false, fNone) }
  | _, .inf _ => { mean := (.inf false, fNone), var := (.inf false, fNone) }
  | m, v =>
    if v.isZero then { mean := (if m.sign then .zero false else m, fNone), var := (.zero false, fNone) }
    else
      let r := reluV m (sdOf a.2)
      { mean := (r.1, fNone), var := (r.2, fNone) }

/-- The rounding of R186: NaN operands give the canonical NaN in both components without NV; else each component is
rounded once to nearest even; a variance of −0 becomes +0. -/
def momRound (ins : List Pair) (sat : Bool) (r : MRes) : Pair × Flags :=
  if ins.any fun p => (valOf .fp32 p.1).isNan || (valOf .fp32 p.2).isNan then ((0x7FC00000, 0x7FC00000), fNone)
  else
    let (m, f) := roundF .fp32 r.mean.1 0 sat
    let (v, g) := roundF .fp32 r.var.1 0 sat
    ((m, posZero v), r.mean.2 ||| r.var.2 ||| f ||| g)

/-- Moment pairs as a load writes them: a variance of −0 becomes +0 (R19, R191). -/
def cleanPairs (q : BitVec 2048) : BitVec 2048 :=
  ofPairs ((List.range 32).map fun l => ((pairOf q l).1, posZero (pairOf q l).2))

/-- The product of the array (R188, R192) from the mode copied at issue. -/
def momProduct (mom : BitVec 32) (sat : Bool) (a b : Pair) : Pair × Flags :=
  momRound [a, b] sat (momMul (rhoOf mom) a b)

/-- A moment word that writes a moment register `lat` ticks after issue (R189, R190); a negative variance in a lane its
mask selects raises 0x07 and nothing is written, no flag either (R187). -/
def momPlan (f : VR) (qs : List Nat) (vs : List Nat) (lat : Nat) (rounds : Bool) (val : Env → Nat → Pair × Flags)
    (s : State) : Plan :=
  let c := s.ctx
  let k := c.rk f.km.toNat
  let env := envV c f.rq f.sat
  let rs := (List.range 32).map fun l => if k.getLsbD l then val env l else ((0, 0), fNone)
  let fl := rs.foldl (fun a r => a ||| r.2) fNone
  raise 0 [((f.vd.toNat :: qs).any (fun q => decide (c.qregs ≤ q)) || vs.any (fun v => decide (c.vregs ≤ v))
             || (f.be = 1 && c.sOver [f.bc.toNat]), 0x02),
           (rs.any fun r => negVar r.1.2, 0x07),
           (rounds && arithNvt c.arithV && fl.getLsbD 0, 0x10)]
    (.go { ctx := c, a := match vs with
                     | v :: _ => c.rv v
                     | [] => 0
           b := match vs with
                | _ :: v :: _ => c.rv v
                | _ => 0
           script := [(c.tick 1 lat, 2, .qreg f.vd.toNat k (ofPairs (rs.map (·.1))) fl)], env := env })

/-- QADD (R190). -/
def execQadd (f : VR) (s : State) : Host.Outcome State Fault Refusal :=
  vecIssue (.qadd f) f.i (fun s =>
    let c := s.ctx
    momPlan f [f.va.toNat, f.vb.toNat] [] 6 true (fun e l =>
      let a := pairOf (c.rq f.va.toNat) l
      let b := pairOf (c.rq f.vb.toNat) l
      momRound [a, b] e.sat (momAdd (rhoOf e.mom) false a b)) s) s

/-- QSUB (R190). -/
def execQsub (f : VR) (s : State) : Host.Outcome State Fault Refusal :=
  vecIssue (.qsub f) f.i (fun s =>
    let c := s.ctx
    momPlan f [f.va.toNat, f.vb.toNat] [] 6 true (fun e l =>
      let a := pairOf (c.rq f.va.toNat) l
      let b := pairOf (c.rq f.vb.toNat) l
      momRound [a, b] e.sat (momAdd (rhoOf e.mom) true a b)) s) s

/-- QMUL (R190). -/
def execQmul (f : VR) (s : State) : Host.Outcome State Fault Refusal :=
  vecIssue (.qmul f) f.i (fun s =>
    let c := s.ctx
    momPlan f [f.va.toNat, f.vb.toNat] [] 6 true (fun e l =>
      momProduct e.mom e.sat (pairOf (c.rq f.va.toNat) l) (pairOf (c.rq f.vb.toNat) l)) s) s

/-- QFMA (R190): c is independent of the product; each component is rounded once. -/
def execQfma (f : VR) (s : State) : Host.Outcome State Fault Refusal :=
  vecIssue (.qfma f) f.i (fun s =>
    let c := s.ctx
    momPlan f [f.va.toNat, f.vb.toNat, f.vc.toNat] [] 6 true (fun e l =>
      let a := pairOf (c.rq f.va.toNat) l
      let b := pairOf (c.rq f.vb.toNat) l
      let d := pairOf (c.rq f.vc.toNat) l
      let p := momMul (rhoOf e.mom) a b
      momRound [a, b, d] e.sat
        { mean := sumV [p.mean, (valOf .fp32 d.1, fNone)], var := sumV [p.var, (valOf .fp32 d.2, fNone)] }) s) s

/-- QRELU (R188, R190), landing at issue + 12. -/
def execQrelu (f : VR) (s : State) : Host.Outcome State Fault Refusal :=
  vecIssue (.qrelu f) f.i (fun s =>
    let c := s.ctx
    momPlan f [f.va.toNat] [] 12 true (fun e l =>
      let a := pairOf (c.rq f.va.toNat) l
      momRound [a] e.sat (momRelu a)) s) s

/-- The pair that QMAKE makes: −0 as a variance becomes +0. -/
def makePair (a b : BitVec 1024) (l : Nat) : Pair := (lane a l, posZero (lane b l))

/-- QMAKE (R190): it moves bits and raises no flag; −0 becomes +0. -/
def execQmake (f : VR) (s : State) : Host.Outcome State Fault Refusal :=
  vecIssue (.qmake f) f.i (fun s =>
    let c := s.ctx
    momPlan f [] [f.va.toNat, f.vb.toNat] 6 false (fun _ l =>
      (makePair (c.rv f.va.toNat) (c.rv f.vb.toNat) l, fNone)) s) s

/-- QSCL (R190): a · w, w a broadcast FP32 number. -/
def execQscl (f : VR) (s : State) : Host.Outcome State Fault Refusal :=
  vecIssue (.qscl f) f.i (fun s =>
    let c := s.ctx
    let w := (c.bcast 1 f.bc.toNat).toNat % 2 ^ 32
    momPlan f [f.va.toNat] [] 6 true (fun e l =>
      let a := pairOf (c.rq f.va.toNat) l
      momRound [a, (w, 0)] e.sat (momScale w a)) s) s

/-- QCOL (R190): means, variances or standard deviations into a vector register; no flag. -/
def qcolPlan (f : VR) (g : Pair → Nat) (s : State) : Plan :=
  let c := s.ctx
  let k := c.rk f.km.toNat
  let r := laneMap k fun l => (g (pairOf (c.rq f.va.toNat) l), fNone)
  raise 0 [(decide (c.qregs ≤ f.va.toNat) || decide (c.vregs ≤ f.vd.toNat), 0x02)]
    (.go { ctx := c, script := [(c.tick 1 6, 2, .vreg f.vd.toNat r.m r.v fNone)] })

def execQcolMean (f : VR) (s : State) : Host.Outcome State Fault Refusal :=
  vecIssue (.qcolMean f) f.i (qcolPlan f (·.1)) s

def execQcolVar (f : VR) (s : State) : Host.Outcome State Fault Refusal :=
  vecIssue (.qcolVar f) f.i (qcolPlan f (·.2)) s

def execQcolSd (f : VR) (s : State) : Host.Outcome State Fault Refusal :=
  vecIssue (.qcolSd f) f.i (qcolPlan f fun p => (roundF .fp32 (sdOf p.2) 0 false).1) s

end Sys2Proof.Machine
end

