-- ==== Sys2Proof/Machine/Tile.lean ====
section
/-!
DEFINITION. The vector engine's memory, tile, loop and control words (05_vector_tile_isa R138 to R154), the fingerprint
word (R141, 16_reversible R330), and QLD and QST (06_matrix_moment_isa R191).
-/

namespace Sys2Proof.Machine

/-! ### Tensor accesses of VM words (R138, R139) -/

/-- The element offset of a VM word: OFF22 plus the broadcast read as I64 (R138). -/
def vmOff (c : Ctx) (f : VM) : Int := (f.off.toNat : Int) + (if f.be = 1 then (c.bcast 1 f.bc.toNat).toInt else 0)

/-- Whether the mask selects some of element `k` of width `w` (R138): a 64-bit element of a vector register has two
lane bits. -/
def elemOn (w unit : Nat) (m : BitVec 32) (k : Nat) : Bool :=
  if w ≤ unit then m.getLsbD (k * w / unit) else m.getLsbD (2 * k) || m.getLsbD (2 * k + 1)

/-- The selected elements of an access: index and linear index. -/
def elemsSel (n w unit : Nat) (m : BitVec 32) (off : Int) : List (Nat × Int) :=
  ((List.range n).filter (elemOn w unit m)).map fun k => (k, off + k)

/-- A selected element outside the tensor or its space (R139): cause 0x02. -/
def Ctx.elemsOut (c : Ctx) (d : Desc) (es : List (Nat × Int)) : Bool :=
  es.any fun e => decide (e.2 < 0) || decide ((d.split e.2).2.2 ≥ d.dim2) || c.elemOut d (d.split e.2)

/-- The pieces of the selected elements; `unit` bits of the register belong to one mask bit. -/
def State.elemPieces (s : State) (d : Desc) (unit : Nat) (m : BitVec 32) (es : List (Nat × Int)) : List Piece :=
  (es.flatMap fun e => s.piecesOf d (d.split e.2) (e.1 * d.w)).filter fun p => m.getLsbD (p.dst / unit)

/-- A space that no engine reaches: cause 0x03 (R139). -/
def Ctx.spaceBad (c : Ctx) (d : Desc) : Bool := decide (d.space > 1) || (d.space = 1 && c.lentSize = 0)

/-- The checks of R139 and R53 in the order of R154, `over` being the limits of R242. -/
def Ctx.vmChecks (c : Ctx) (d : Desc) (badFmt exceeds : Bool) (es : List (Nat × Int)) : List (Bool × Nat) :=
  [(d.invalid || badFmt, 0x12), (c.spaceBad d, 0x03), (d.misaligned, 0x05), (exceeds || c.elemsOut d es, 0x02)]

/-- The edge at which a VE access reads (R140) and its extra ticks in the lent window. -/
def readAt (c : Ctx) (d : Desc) : Nat := c.tick 1 (if d.space = 1 then 4 else 1)
def lentTicks (d : Desc) : Nat := if d.space = 1 then 3 else 0

/-- A broadcast scalar beyond SREGS (R242). -/
def Ctx.vmBc (c : Ctx) (f : VM) : Bool := f.be = 1 && c.sOver [f.bc.toNat]

/-- VLD vD:k, dN+off (R138).  What its data can raise, it raises at its read edge (R154; log entry 31). -/
def execVld (f : VM) (s : State) : Host.Outcome State Fault Refusal :=
  vecIssue (.vld f) f.i (fun s =>
    let c := s.ctx
    let d := c.descOf f.did.toNat
    let m := c.rk f.km.toNat
    let es := elemsSel (1024 / d.w) d.w 32 m (vmOff c f)
    let ps := s.elemPieces d 32 m es
    raise 0 (c.vmChecks d (d.fm = .mom) (decide (c.vregs ≤ f.v.toNat) || c.vmBc f) es)
      (.go { ctx := s.probed, script := [(readAt c d, 1, .rdV f.v.toNat ps (c.tick 1 (5 + lentTicks d)))] })) s

/-- VST dN+off, vS:k (R138, R140). -/
def execVst (f : VM) (s : State) : Host.Outcome State Fault Refusal :=
  vecIssue (.vst f) f.i (fun s =>
    let c := s.ctx
    let d := c.descOf f.did.toNat
    let m := c.rk f.km.toNat
    let es := elemsSel (1024 / d.w) d.w 32 m (vmOff c f)
    raise 0 (c.vmChecks d (d.fm = .mom) (decide (c.vregs ≤ f.v.toNat) || c.vmBc f) es)
      (.go { ctx := c, c := c.rv f.v.toNat
             script := [(c.tick 1 (2 + lentTicks d), 0,
               .store (s.elemPieces d 32 m es) ((c.rv f.v.toNat).zeroExtend 2048))] })) s

/-! ### Moment memory words (R191) -/

/-- QLD qD:k, dN+off (R191): a negative variance among the bytes that its read edge finds raises 0x07. -/
def execQld (f : VM) (s : State) : Host.Outcome State Fault Refusal :=
  vecIssue (.qld f) f.i (fun s =>
    let c := s.ctx
    let d := c.descOf f.did.toNat
    let m := c.rk f.km.toNat
    let es := elemsSel 32 64 64 m (vmOff c f)
    let ps := s.elemPieces d 64 m es
    raise 0 (c.vmChecks d (d.fm != .mom) (decide (c.qregs ≤ f.v.toNat) || c.vmBc f) es)
      (.go { ctx := s.probed, script := [(readAt c d, 1, .rdQ f.v.toNat ps m (c.tick 1 (5 + lentTicks d)))] })) s

/-- QST dN+off, qS:k (R191). -/
def execQst (f : VM) (s : State) : Host.Outcome State Fault Refusal :=
  vecIssue (.qst f) f.i (fun s =>
    let c := s.ctx
    let d := c.descOf f.did.toNat
    let m := c.rk f.km.toNat
    let es := elemsSel 32 64 64 m (vmOff c f)
    raise 0 (c.vmChecks d (d.fm != .mom) (decide (c.qregs ≤ f.v.toNat) || c.vmBc f) es)
      (.go { ctx := c
             script := [(c.tick 1 (2 + lentTicks d), 0, .store (s.elemPieces d 64 m es) (c.rq f.v.toNat))] })) s

/-! ### FPRINT (R37, R141, R330) -/

/-- Element bytes of a tensor and its stream length with the headers (R37). -/
def Desc.elemBytes (d : Desc) : Nat := d.dim0 * d.dim1 * d.dim2 * d.w / 8
def Desc.streamLen (d : Desc) : Nat :=
  d.elemBytes + (if d.fm.isBlock then 2 * (d.dim0 / d.blkLen * d.dim1 * d.dim2) else 0)

/-- The byte offset in its space of byte `j` of a tensor's stream. -/
def Desc.streamAddr (d : Desc) (j : Nat) : Int :=
  if j < d.elemBytes then
    let i := d.split (j * 8 / d.w : Nat)
    d.bitAddr i.1 i.2.1 i.2.2 / 8 + ((if d.w < 8 then 0 else j % (d.w / 8) : Nat) : Int)
  else (d.scale : Int) + ((j - d.elemBytes : Nat) : Int)

/-- Lanes 0 and 1 of a vector register (R141). -/
def loLanes : BitVec 1024 := BitVec.ofNat 1024 (2 ^ 64 - 1)

/-- FPRINT vC, dN+off (R141) and its check form (R330), which compares what its read edge finds. -/
def execFprint (f : VM) (s : State) : Host.Outcome State Fault Refusal :=
  vecIssue (.fprint f) f.i (fun s =>
    let c := s.ctx
    let d := c.descOf f.did.toNat
    let off := vmOff c f
    let len := d.streamLen
    let late := decide (off < 0) || decide ((len : Int) ≤ 128 * off)
    let base := 128 * off.toNat
    let idx := (List.range (min 128 (len - base))).map (base + ·)
    let out := idx.any fun j => c.outside d.space (d.streamAddr j) 1
    let ls := idx.map fun j => s.place d.space (d.streamAddr j).toNat
    let vc := c.rv f.v.toNat
    raise 0 [(d.invalid, 0x12), (c.spaceBad d, 0x03), (d.misaligned, 0x05),
             (decide (c.vregs ≤ f.v.toNat) || c.vmBc f || late || out, 0x02)]
      (.go { ctx := s.probed, c := vc
             script := [(readAt c d, 1, .rdF f.v.toNat ls vc (decide (len ≤ base + 128)) (BitVec.ofInt 64 off) (c.tick 1 8))] })) s

/-- The running value that an FPRINT folds into, and the value with which its check form compares the result at the end of
the stream (R141, R330). -/
def fpRun (c : BitVec 1024) : BitVec 64 := c.extractLsb' 0 64
def fpWant (c : BitVec 1024) (ends : Bool) : Option (BitVec 64) :=
  if ends && lane c 4 = 1 then some (c.extractLsb' 64 64) else none

/-! ### Tiles (R45, R46, R147 to R149) -/

/-- The shape field of a tile and its parts. -/
def Core.rows (k : Core) (n : Nat) : Nat := bits (k.tshape.get n).toNat 4 0
def Core.cols (k : Core) (n : Nat) : Nat := bits (k.tshape.get n).toNat 9 5

/-- A tile cell by its key: tile, row, column. -/
def cellKey (n r c : Nat) : Nat := n * 256 + r * 16 + c

/-- Whether the running context owns tile `n` (R149, R308). -/
def Core.owns (k : Core) (n : Nat) : Bool := k.towner.any fun o => o.1 = n && o.2 = (k.ctx.launch, k.ctx.p)

/-- A tile word freezes the core for a swap when a tile it names belongs to another context (R149). -/
def tileGate (k : Core) (ns : List Nat) (p : Plan) : Plan :=
  match ns.find? fun n => !k.owns n with
  | some n => .wait (.tile n)
  | none => p

/-- The cells of a slice, in lane order (R148): row or column `i` of a configured tile. -/
def Core.slice (k : Core) (n : Nat) (col : Bool) (i : Nat) : List Nat :=
  if col then (List.range (k.rows n)).map fun r => cellKey n r i else (List.range (k.cols n)).map fun c => cellKey n i c

/-- Every configured cell of a tile with its row and column. -/
def Core.cells (k : Core) (n : Nat) : List (Nat × Nat × Nat) :=
  (List.range (k.rows n)).flatMap fun r => (List.range (k.cols n)).map fun c => (cellKey n r c, r, c)

/-- The tile checks of R46 in their places of R154; `i` is the slice index, or none. -/
def tileChecks (k : Core) (n : Nat) (col : Bool) (i : Option Nat) (exceeds : Bool) : List (Bool × Nat) :=
  [(k.rows n = 0, 0x06),
   (exceeds || decide (k.ctx.tilesN ≤ n) || (match i with
      | some i => decide ((if col then k.cols n else k.rows n) ≤ i)
      | none => false), 0x02)]

/-- TCFG and TCFG.Z (R147). -/
def tcfgPlan (f : VT) (z : Bool) (s : State) : Plan :=
  let c := s.ctx
  let n := f.tn.toNat
  tileGate s.me [n]
    (raise 0 [(decide (c.tilesN ≤ n), 0x02), (shapeBad f.rows.toNat f.cols.toNat, 0x11)]
      (.go { ctx := c, script := [(c.tick 1 1, 2, .tcfg n f.rows.toNat f.cols.toNat z)] }))

def execTcfg (f : VT) (s : State) : Host.Outcome State Fault Refusal := vecIssue (.tcfg f) f.i (tcfgPlan f false) s

def execTcfgZ (f : VT) (s : State) : Host.Outcome State Fault Refusal := vecIssue (.tcfgZ f) f.i (tcfgPlan f true) s

/-- TSET (R148). -/
def execTset (f : VT) (s : State) : Host.Outcome State Fault Refusal :=
  vecIssue (.tset f) f.i (fun s =>
    let c := s.ctx
    let n := f.tn.toNat
    let m := c.rk f.km.toNat
    let v := c.rv f.v.toNat
    let ks := s.me.slice n (f.dir = 1) f.idx.toNat
    tileGate s.me [n]
      (raise 0 (tileChecks s.me n (f.dir = 1) (some f.idx.toNat) (decide (c.vregs ≤ f.v.toNat)))
        (.go { ctx := c, a := v
               script := [(c.tick 1 1, 2, .tset n
                 ((ks.zip (List.range 32)).filterMap fun p =>
                   if m.getLsbD p.2 then some (p.1, BitVec.ofNat 32 (lane v p.2)) else none))] }))) s

/-- TGET (R148). -/
def execTget (f : VT) (s : State) : Host.Outcome State Fault Refusal :=
  vecIssue (.tget f) f.i (fun s =>
    let c := s.ctx
    let n := f.tn.toNat
    let v := ofLanes ((s.me.slice n (f.dir = 1) f.idx.toNat).map fun k => (s.me.tiles.get k).toNat)
    tileGate s.me [n]
      (raise 0 (tileChecks s.me n (f.dir = 1) (some f.idx.toNat) (decide (c.vregs ≤ f.v.toNat)))
        (.go { ctx := c, a := v
               script := [(c.tick 1 3, 2, .vreg f.v.toNat (laneMask (c.rk f.km.toNat)) v fNone)] }))) s

/-- TZERO (R148). -/
def execTzero (f : VT) (s : State) : Host.Outcome State Fault Refusal :=
  vecIssue (.tzero f) f.i (fun s =>
    let c := s.ctx
    let n := f.tn.toNat
    tileGate s.me [n]
      (raise 0 (tileChecks s.me n false none false)
        (.go { ctx := c, script := [(c.tick 1 1, 2, .tset n ((s.me.cells n).map fun p => (p.1, 0)))] }))) s

/-- The elements that TLD and TST reach: cell (r, c) at (off + c, r, 0). -/
def tileElems (k : Core) (n off : Nat) : List (Nat × (Int × Int × Int)) :=
  (k.cells n).map fun p => (p.1, ((off + p.2.2 : Nat), (p.2.1 : Nat), 0))

/-- The checks of TLD and TST in the order of R154. -/
def tileMemChecks (k : Core) (f : VM) (d : Desc) (n : Nat) : List (Bool × Nat) :=
  let c := k.ctx
  [(d.invalid || d.fm != .fp32, 0x12), (c.spaceBad d, 0x03), (d.misaligned, 0x05), (k.rows n = 0, 0x06),
   (decide (c.tilesN ≤ n) || decide (d.dim0 < f.off.toNat + k.cols n) || decide (d.dim1 < k.rows n)
      || (tileElems k n f.off.toNat).any fun e => c.elemOut d e.2, 0x02)]

/-- TLD tN, dM+off (R148). -/
def execTld (f : VM) (s : State) : Host.Outcome State Fault Refusal :=
  vecIssue (.tld f) f.i (fun s =>
    let c := s.ctx
    let d := c.descOf f.did.toNat
    let n := f.v.toNat
    let cs := (tileElems s.me n f.off.toNat).map fun e => (e.1, firstLoc (s.elemLocs d e.2))
    tileGate s.me [n]
      (raise 0 (tileMemChecks s.me f d n)
        (.go { ctx := s.probed, script := [(readAt c d, 1, .rdT n cs (c.tick 1 (8 + lentTicks d)))] }))) s

/-- The writes of a tile, 64 cells to a store. -/
def tileStores (s : State) (d : Desc) : Nat → List (Nat × (Int × Int × Int)) → List Eff
  | 0, _ => []
  | n + 1, cs =>
    let now := cs.take 64
    if now.isEmpty then []
    else
      .store ((now.zip (List.range 64)).flatMap fun p => s.piecesOf d p.1.2 (32 * p.2))
        (BitVec.ofNat 2048 (packElems 32 (now.map fun p => (s.me.tiles.get p.1).toNat))) :: tileStores s d n (cs.drop 64)

/-- TST dM+off, tN (R148). -/
def execTst (f : VM) (s : State) : Host.Outcome State Fault Refusal :=
  vecIssue (.tst f) f.i (fun s =>
    let c := s.ctx
    let d := c.descOf f.did.toNat
    let n := f.v.toNat
    tileGate s.me [n]
      (raise 0 (tileMemChecks s.me f d n)
        (.go { ctx := c
               script := (tileStores s d 16 (tileElems s.me n f.off.toNat)).map fun e =>
                 (c.tick 1 (2 + lentTicks d), 0, e) }))) s

/-- TRSUM.row and TRSUM.col (R148): each lane the tree sum of one row or column over 16 positions. -/
def execTrsum (f : VT) (s : State) : Host.Outcome State Fault Refusal :=
  vecIssue (.trsum f) f.i (fun s =>
    let c := s.ctx
    let n := f.tn.toNat
    let col := f.dir = 1
    let env := envV c 0 0
    let k := s.me
    let m := c.rk f.km.toNat
    let lanes := if col then k.cols n else k.rows n
    let r := laneMap m fun l =>
      if l < lanes then
        let cells := k.slice n col l
        let (x, fl) := treeFold (elAdd .fp32 env false) 4
          ((List.range 16).map fun j => (cells[j]?).map fun key => (k.tiles.get key).toNat)
        (canon .fp32 (x.getD 0), fl)
      else (0, fNone)
    tileGate k [n]
      (raise 0 (tileChecks k n col none (decide (c.vregs ≤ f.v.toNat)) ++ [(arithNvt c.arithV && r.fl.getLsbD 0, 0x10)])
        (.go { ctx := c, script := [(c.tick 1 8, 2, .vreg f.v.toNat r.m r.v r.fl)], env := env }))) s

/-! ### Loops and control (R150 to R153) -/

/-- VLOOP (R150). -/
def execVloop (f : VC) (s : State) : Host.Outcome State Fault Refusal :=
  vecIssue (.vloop f) f.i (fun s =>
    let c := s.ctx
    let p := c.ve.pc.toNat
    let stop := p + 8 * (f.imm.toNat / 4096)
    let w := s.natAt (s.spmLocs stop 8)
    let outer := match c.ve.loops with
      | [] => false
      | l :: _ => decide (l.stop < stop)
    let own := if f.be = 1 then (c.bcast 1 f.bc.toNat).toNat % 2 ^ 32 else f.imm.toNat % 4096
    raise 0 [(decide (4 ≤ c.ve.loops.length)
                || (decide (stop + 8 ≤ c.spmSize) && (w / 2 ^ 56 = 0xA0 || w / 2 ^ 56 = 0xA3)) || outer, 0x08),
             ((f.be = 1 && c.sOver [f.bc.toNat]) || decide (c.spmSize < stop + 8), 0x02)]
      (let (n, x) := loopCount c.ve 0 own
       if n = 0 then .go { ctx := { c with ve := x }, jump := some (BitVec.ofNat 64 (stop + 8)) }
       else
        .go { ctx := { c with ve := { x with
                loops := { start := p + 8, stop := stop, rem := n, opener := p } :: x.loops } }
              jump := some (BitVec.ofNat 64 (p + 8)) })) s

/-- The control registers of the VE (R76, R153). -/
def readVcsr (k : Core) (x : Nat) : Word :=
  let c := k.ctx
  match x with
  | 0 => c.arithV.zeroExtend 64
  | 1 => c.momV.zeroExtend 64
  | 2 => c.ve.save
  | 3 => BitVec.ofNat 64 (packElems 16 ((List.range 4).map fun n => (k.tshape.get n).toNat))
  | _ => BitVec.ofNat 64 (packElems 16 ((List.range 4).map fun n => (k.tshape.get (n + 4)).toNat))

/-- The tiles that a VCSRR of TSHAPE names (R149). -/
def csrTiles : Nat → List Nat
  | 3 => [0, 1, 2, 3]
  | 4 => [4, 5, 6, 7]
  | _ => []

/-- The edge at which VCSRR and MCSRR write their scalar register (R153). -/
def csrEdge (c : Ctx) (strm : Nat) : Nat := edgeAt (c.tick strm 2) (c.div 0)

/-- VCSRR sN, REG (R153). -/
def execVcsrr (f : VC) (s : State) : Host.Outcome State Fault Refusal :=
  vecIssue (.vcsrr f) f.i (fun s =>
    let c := s.ctx
    tileGate s.me (csrTiles f.imm.toNat)
      (raise 0 [(c.sOver [f.bc.toNat], 0x02)]
        (.go { ctx := c, script := [(csrEdge c 1, 2, .sreg f.bc.toNat (readVcsr s.me f.imm.toNat))] }))) s

/-- VCSRW REG, sN (R153). -/
def execVcsrw (f : VC) (s : State) : Host.Outcome State Fault Refusal :=
  vecIssue (.vcsrw f) f.i (fun s =>
    let c := s.ctx
    let v := c.bcast 1 f.bc.toNat
    raise 0 [(c.sOver [f.bc.toNat], 0x02), (f.imm = 1 && momcfgBad (v.setWidth 32), 0x11)]
      (.go { ctx := c, script := [(c.tick 1 1, 3, .csr false f.imm.toNat v)], b := v.zeroExtend 1024 })) s

/-- VRDV and VRDV.END (R107, R153). -/
def execVrdv (f : VC) (s : State) : Host.Outcome State Fault Refusal :=
  vecIssue (.vrdv f) f.i (fun s => .go { ctx := { s.ctx with ve := { s.ctx.ve with park := .stand } } }) s

def execVrdvEnd (f : VC) (s : State) : Host.Outcome State Fault Refusal :=
  vecIssue (.vrdvEnd f) f.i (fun s => .go { ctx := { s.ctx with ve := { s.ctx.ve with park := .ending } } }) s

/-- The count of an idle word: its immediate, or s[BC][23:0] (R66, R153, R182). -/
def idleCount (c : Ctx) (strm : Nat) (be : BitVec 1) (bc : BitVec 6) (imm : Nat) : Nat :=
  if be = 1 then (c.bcast strm bc.toNat).toNat % 2 ^ 24 else imm

/-- VIDLE (R153). -/
def execVidle (f : VC) (s : State) : Host.Outcome State Fault Refusal :=
  vecIssue (.vidle f) f.i (fun s =>
    let c := s.ctx
    raise 0 [(f.be = 1 && c.sOver [f.bc.toNat], 0x02)]
      (.go { ctx := c, idle := idleCount c 1 f.be f.bc f.imm.toNat })) s

/-- A word of the VE's hint space (R65). -/
def execVnop (o : BitVec 3) (x : BitVec 53) (i : BitVec 3) (s : State) : Host.Outcome State Fault Refusal :=
  vecIssue (.vnop o x i) i (fun s => .go { ctx := s.ctx }) s

end Sys2Proof.Machine
end

