-- ==== Sys2Proof/Machine/Matrix.lean ====
section
/-!
DEFINITION. The matrix engine (06_matrix_moment_isa R155 to R184, R192, R193) and the gather unit (R168 to R171): operand
positions, the loop nest, the checks at issue, block tags, and what one step reads and one group does.
-/

namespace Sys2Proof.Machine

/-- A matrix-engine word and a gather-unit word. -/
def matIssue (i : Instr) (idle : BitVec 8) (plan : State → Plan) (s : State) : Host.Outcome State Fault Refusal :=
  .next (s.issue i 2 idle.toNat plan)

def gatIssue (i : Instr) (idle : BitVec 8) (plan : State → Plan) (s : State) : Host.Outcome State Fault Refusal :=
  .next (s.issue i 3 idle.toNat plan)

/-! ### The loop nest (R158, R160) -/

/-- Fields of a level: COUNT, then the four steps. -/
def lvlCount (l : BitVec 144) : Nat := bits l.toNat 143 128
def lvlA (l : BitVec 144) : Int := sgn 32 (bits l.toNat 127 96)
def lvlB (l : BitVec 144) : Int := sgn 32 (bits l.toNat 95 64)
def lvlC (l : BitVec 144) : Int := sgn 32 (bits l.toNat 63 32)
def lvlG (l : BitVec 144) : Int := sgn 32 (bits l.toNat 31 0)

/-- The live levels 0 to `lvl`, innermost first (R159). -/
def Ctx.nest (c : Ctx) (lvl : Nat) : List (BitVec 144) := (List.range (lvl + 1)).map c.lnt.get

/-- Number of steps of a nest. -/
def nestTotal (ns : List (BitVec 144)) : Nat := ns.foldl (fun n l => n * lvlCount l) 1

/-- Positions of one step: operand positions, plane or accumulator number, row increment. -/
structure MStep where
  pa : Int
  pb : Int
  c : Int
  g : Int
deriving DecidableEq, Repr

/-- Step `k` of a nest, innermost index fastest (R160). -/
def nestStep (k : Nat) (p : MStep) : List (BitVec 144) → MStep
  | [] => p
  | l :: ls =>
    let i : Int := (k % lvlCount l : Nat)
    nestStep (k / lvlCount l)
      { pa := p.pa + i * lvlA l, pb := p.pb + i * lvlB l, c := p.c + i * lvlC l, g := p.g + i * lvlG l } ls

/-- The starting positions of a word (R156): the broadcast's halves as I32. -/
def startPos (c : Ctx) (be : BitVec 1) (bc : BitVec 6) : Int × Int :=
  if be = 1 then
    let v := (c.bcast 2 bc.toNat).toNat
    (sgn 32 (v % 2 ^ 32), sgn 32 (v / 2 ^ 32))
  else (0, 0)

/-- Every step of a nest from a start. -/
def nestSteps (ns : List (BitVec 144)) (p : MStep) : List MStep := (List.range (nestTotal ns)).map fun k => nestStep k p ns

/-! ### Forms (R155, R172) -/

namespace Job

def rowsN (j : Job) : Nat := if j.mmv then 128 else 32
def colsN (j : Job) : Nat := if j.mmv then 8 else 32

/-- K per tick. -/
def kN (j : Job) : Nat :=
  match j.form with
  | .f8 | .b2e8 => 16
  | .bf16 => 8
  | .f32 => 2
  | .b2e4 => 32
  | .mom => 1

/-- The adder's width (R29), none for exact groups (R30). -/
def fw (j : Job) : Option Nat :=
  match j.form with
  | .f8 => some 12
  | .bf16 | .f32 => some 24
  | _ => none

def isBlock (j : Job) : Bool := j.form == .b2e8 || j.form == .b2e4

def step (j : Job) (k : Nat) : MStep := nestStep k { pa := j.pa, pb := j.pb, c := j.acc, g := 0 } j.nest

/-- Planes of a plane or accumulator number (R43). -/
def planesOf (mom : Bool) (c : Int) : List Nat := if mom then [2 * c.toNat, 2 * c.toNat + 1] else [c.toNat]

def planes (j : Job) (k : Nat) : List Nat := planesOf (j.form == .mom) (j.step k).c

/-- Every plane that a command names. -/
def allPlanes (j : Job) : List Nat :=
  (List.range j.total).foldl (fun a k => a ++ (j.planes k).filter fun p => !a.contains p) []

/-- Whether step `k` is the first that names its plane (R163). -/
def firstAt (j : Job) (k : Nat) : Bool := (List.range k).all fun i => (j.step i).c != (j.step k).c

/-- Coordinates of A(m, k), none where it is absent (R156, R157, R170, R172). -/
def aAt (j : Job) (p : MStep) (m k : Nat) : Option (Int × Int × Int) :=
  let d := Desc.of j.da
  let i := d.split p.pa
  let at_ (x : Int × Int × Int) : Option (Int × Int × Int) := if d.inside x.1 x.2.1 x.2.2 then some x else none
  if j.ga then
    let r := ((j.ix.getD m 0).toInt)
    if r < 0 || r + p.g < 0 then none else at_ (i.1 + k, r + p.g, i.2.2)
  else if j.ta then at_ (i.1 + m, i.2.1 + k, i.2.2)
  else at_ (i.1 + k, i.2.1 + m, i.2.2)

/-- Coordinates of B(k, n). -/
def bAt (j : Job) (p : MStep) (k n : Nat) : Option (Int × Int × Int) :=
  let d := Desc.of j.db
  let i := d.split p.pb
  let x : Int × Int × Int := if j.tb then (i.1 + k, i.2.1 + n, i.2.2) else (i.1 + n, i.2.1 + k, i.2.2)
  if d.inside x.1 x.2.1 x.2.2 then some x else none

/-- The operand elements of a step, A by rows, B by columns. -/
def aElems (j : Job) (p : MStep) : List (Option (Int × Int × Int)) :=
  (List.range j.rowsN).flatMap fun m => (List.range j.kN).map fun k => j.aAt p m k

def bElems (j : Job) (p : MStep) : List (Option (Int × Int × Int)) :=
  (List.range j.colsN).flatMap fun n => (List.range j.kN).map fun k => j.bAt p k n

/-- Whether an operand lies in the lent window: its groups land three ticks later (R165). -/
def lent (j : Job) : Bool := (Desc.of j.da).space == 1 || (Desc.of j.db).space == 1

end Job

/-! ### Block headers and tags (R166, R167) -/

/-- The bytes of the block header of an element. -/
def State.hdrLocs (s : State) (d : Desc) (i : Int × Int × Int) : List Loc :=
  let a := (d.hdrAddr i.1 i.2.1 i.2.2).toNat
  [s.place d.space a, s.place d.space (a + 1)]

/-- E and D of the header of an element, none where the element is past an extent or its header outside its space. -/
def State.hdrAt (s : State) (d : Desc) (i : Int × Int × Int) : Option (Nat × Nat) :=
  if d.inside i.1 i.2.1 i.2.2 && !s.ctx.outside d.space (d.hdrAddr i.1 i.2.1 i.2.2) 2 then
    let h := s.natAt (s.hdrLocs d i)
    some (h % 256, h / 256 % 16)
  else none

/-- The headers of a step for index `k`, one for each group of rows or columns. -/
def State.hdrRow (s : State) (d : Desc) (pos : Int) (k : Nat) : List (Option (Nat × Nat)) :=
  let i := d.split pos
  (List.range (32 / d.blkLen)).map fun g => s.hdrAt d (i.1 + (d.blkLen * g : Nat), i.2.1 + k, i.2.2)

/-- A header agrees with a tag's entry: equal E and D, or E = 0xFF, or a block past an extent (R167). -/
def hdrAgrees (t : Nat × Nat) : Option (Nat × Nat) → Bool
  | none => true
  | some h => h.1 = 255 || h = t

def agreeAll (ts : List (Nat × Nat)) (hs : List (Option (Nat × Nat))) : Bool :=
  (ts.zip hs).all fun p => hdrAgrees p.1 p.2

/-- One step's effect on the tags: none where it breaks a rule of R167. -/
def tagStep (s : State) (j : Job) (p : MStep) (first : Bool) (tags : List (Nat × Tag)) : Option (List (Nat × Tag)) :=
  let pl := p.c.toNat
  let have_ := (tags.find? fun t => t.1 = pl).map (·.2)
  if j.isBlock then
    let da := Desc.of j.da
    let db := Desc.of j.db
    let row (d : Desc) (pos : Int) : List (Nat × Nat) := (s.hdrRow d pos 0).map (·.getD (0, 0))
    let tag? := if j.zc && first then
        some { la := da.blkLen, lb := db.blkLen, ea := row da p.pa, eb := row db p.pb : Tag }
      else have_
    match tag? with
    | none => none
    | some t =>
      let ok := t.la = da.blkLen && t.lb = db.blkLen && (List.range j.kN).all fun k =>
        agreeAll t.ea (s.hdrRow da p.pa k) && agreeAll t.eb (s.hdrRow db p.pb k)
      if ok then some (tput pl t tags) else none
  else
    let ps := Job.planesOf (j.form == .mom) p.c
    if j.zc then some (ps.foldl (fun l q => if first then tdel q l else l) tags)
    else if ps.any fun q => tags.any fun t => t.1 = q then none
    else some tags

/-- The tags after every step of a command. -/
def tagSteps (s : State) (j : Job) : Nat → Option (List (Nat × Tag))
  | 0 => some s.ctx.tags
  | k + 1 =>
    match tagSteps s j k with
    | none => none
    | some l => tagStep s j (j.step k) (j.firstAt k) l

/-- The first coordinates of a block command must lie on block boundaries (R166). -/
def blockStart (j : Job) (p : MStep) : Bool :=
  let da := Desc.of j.da
  let db := Desc.of j.db
  (da.split p.pa).1 % da.blkLen = 0 && (db.split p.pb).1 % db.blkLen = 0

/-! ### Issue of the multiply forms (R161 to R163, R173, R174, R184) -/

/-- Planes reserved by outstanding asynchronous commands (R174). -/
def Ctx.reserved (c : Ctx) (p : Nat) : Bool := c.asyncQ.any fun j => j.allPlanes.contains p

/-- An operand descriptor outside what the ME reaches (R157): 0x03. -/
def Ctx.opSpaceBad (c : Ctx) (d : Desc) : Bool := c.spaceBad d

/-- Some element of a step within the extents, or its header, outside its space (R157, R51). -/
def Ctx.opOut (c : Ctx) (d : Desc) (es : List (Option (Int × Int × Int))) : Bool :=
  es.any fun e => match e with
    | none => false
    | some i => c.elemOut d i || (d.fm.isBlock && c.outside d.space (d.hdrAddr i.1 i.2.1 i.2.2) 2)

/-- The operand formats of a form (R155). -/
def formOk (f : MForm) (a b : Fm) : Bool :=
  match f with
  | .f8 => (a == .e4m3 || a == .e5m2) && (b == .e4m3 || b == .e5m2)
  | .bf16 => a == .bf16 && b == .bf16
  | .f32 => a == .fp32 && b == .fp32
  | .b2e8 => a == .b2e8 && b == .b2e8
  | .b2e4 => a == .b2e4 && b == .b2e4
  | .mom => a == .mom && (b == .fp32 || b == .mom)

/-- The class of an MMV by A's format (R172). -/
def mmvForm (a : Fm) : MForm := if a == .bf16 then .bf16 else if a == .fp32 then .f32 else .f8

/-- A plane number outside the machine's planes (0x16), and one at or above PLANES (0x02). -/
def numBad (mom : Bool) (c : Int) : Bool := decide (c < 0) || decide (c > (if mom then 7 else 15))

/-- The first array step of a synchronous instruction (R165). -/
def startAt (c : Ctx) : Nat := max (c.tick 2 1) (edgeAt c.meFree (c.div 2))

/-- The gather unit's index latch (R168); every entry is −1 at kernel start, so its complement is stored. -/
def Ctx.ixAt (c : Ctx) (m : Nat) : BitVec 32 := ~~~ c.ix.get m

/-- The command of a multiply word with its copies. -/
def jobOf (c : Ctx) (form : MForm) (mmv : Bool) (f : MX) : Job :=
  let (pa, pb) := startPos c f.be f.bc
  let ns := c.nest f.lvl.toNat
  { form := form, mmv := mmv, acc := f.acc.toNat, da := c.desc.get f.da.toNat, db := c.desc.get f.db.toNat
    ta := f.ta = 1, tb := f.tb = 1, ga := f.ga = 1, zc := f.zc = 1, tsm := f.tsm = 1, mov := f.mov = 1
    asy := f.asy = 1, lvl := f.lvl.toNat, nest := ns, pa := pa, pb := pb
    ix := (List.range 32).map c.ixAt, env := envM c f.rq f.sat, next := 0, total := nestTotal ns, id := c.jobs }

/-- The last 64 array commands are retained, each with its number (R177). -/
def Ctx.retain (c : Ctx) (j : Job) : Ctx :=
  { c with window := (c.window ++ [{ j with id := c.jobs }]).drop (c.window.length + 1 - 64), jobs := c.jobs + 1 }

/-- A retained DRAIN, AZERO or ALOAD: the planes that it names, `sets` where it sets them (R177). -/
def keptJob (f : MX) (ps : List Nat) (sets : Bool) : Job := { acc := f.acc.toNat, lvl := f.lvl.toNat, zc := sets, kept := ps }

/-- MMA and MMV (R161, R163, R165, R172 to R174): a full asynchronous queue freezes the core before every check. -/
def mulPlan (form : MForm) (mmv : Bool) (f : MX) (s : State) : Plan :=
  let c := s.ctx
  if f.asy = 1 && decide (16 ≤ c.asyncQ.length) then .wait .asyncRoom
  else
    let da := c.descOf f.da.toNat
    let db := c.descOf f.db.toNat
    let j := jobOf c (if mmv then mmvForm da.fm else form) mmv f
    let ps := nestSteps j.nest { pa := j.pa, pb := j.pb, c := j.acc, g := 0 }
    let mom := j.form == .mom
    let tags := tagSteps s j j.total
    let bad := !formOk j.form da.fm db.fm
      || (f.mov = 1 && f.zc = 0) || (f.tsm = 1 && f.zc = 0)
      || (f.ga = 1 && (f.ta = 1 || j.isBlock))
      || (j.isBlock && (f.ta = 0 || f.tb = 1 || !ps.all (blockStart j)))
      || ps.any (fun p => numBad mom p.c || (f.asy = 0 && (Job.planesOf mom p.c).any c.reserved))
      || tags.isNone
    let exceeds := (f.be = 1 && c.sOver [f.bc.toNat])
      || ps.any (fun p => (Job.planesOf mom p.c).any (fun q => decide (c.planesN ≤ q)) || decide (p.pa < 0)
        || decide (p.pb < 0) || c.opOut da (j.aElems p) || c.opOut db (j.bElems p))
    raise 0 [(da.invalid || db.invalid, 0x12), (c.opSpaceBad da || c.opSpaceBad db, 0x03),
             (da.misaligned || db.misaligned, 0x05), (bad, 0x16), (exceeds, 0x02)]
      (let c' := { c.retain j with tags := tags.getD c.tags }
       if j.total = 0 then .go { ctx := c' }
       else if f.asy = 1 then .go { ctx := { c' with asyncQ := c.asyncQ ++ [{ j with ready := s.ref + c.div 2 }] } }
       else
         let t0 := startAt c
         let d := c.div 2
         .go { ctx := { c' with meFree := t0 + j.total * d }
               script := [(t0, 1, .step j 0)]
               fin := t0 + (j.total - 1 + (if j.lent then 9 else 6)) * d })

def execMmaF8 (f : MX) (s : State) : Host.Outcome State Fault Refusal := matIssue (.mmaF8 f) f.i (mulPlan .f8 false f) s
def execMmaBf16 (f : MX) (s : State) : Host.Outcome State Fault Refusal :=
  matIssue (.mmaBf16 f) f.i (mulPlan .bf16 false f) s
def execMmaF32 (f : MX) (s : State) : Host.Outcome State Fault Refusal :=
  matIssue (.mmaF32 f) f.i (mulPlan .f32 false f) s
def execMmaB2e8 (f : MX) (s : State) : Host.Outcome State Fault Refusal :=
  matIssue (.mmaB2e8 f) f.i (mulPlan .b2e8 false f) s
def execMmaB2e4 (f : MX) (s : State) : Host.Outcome State Fault Refusal :=
  matIssue (.mmaB2e4 f) f.i (mulPlan .b2e4 false f) s
def execMmaMom (f : MX) (s : State) : Host.Outcome State Fault Refusal :=
  matIssue (.mmaMom f) f.i (mulPlan .mom false f) s
def execMmv (f : MX) (s : State) : Host.Outcome State Fault Refusal := matIssue (.mmv f) f.i (mulPlan .f8 true f) s

/-! ### What a step reads and what its groups do (R156, R163, R164, R192) -/

/-- The bytes of an operand element and, in a block format, of its header. -/
def State.opLocs (s : State) (d : Desc) : Option (Int × Int × Int) → List Loc
  | none => []
  | some i => s.elemLocs d i ++ (if d.fm.isBlock then s.hdrLocs d i else [])

/-- The encoded operand element: a block element carries its header above it. -/
def State.opRead (s : State) (d : Desc) (e : Option (Int × Int × Int)) : Option Nat :=
  e.map fun i =>
    let x := gather s.byteAt (s.piecesOf d i 0)
    if d.fm.isBlock then x + 256 * s.natAt (s.hdrLocs d i) else x

/-- The vectors of B that an MMV holds resident for the position of step `k` (R172). -/
def Ctx.resident (c : Ctx) (j : Job) (k : Nat) : Option (List (Option Nat)) :=
  if j.mmv then (c.stage.held.find? fun h => h.1 = (j.id, (j.step k).pb)).map (·.2) else none

/-- Every byte that step `k` of a command reads: an MMV reads each vector once for each position of B. -/
def State.stepLocs (s : State) (j : Job) (k : Nat) : List Loc :=
  let p := j.step k
  ((j.aElems p).flatMap (s.opLocs (Desc.of j.da)))
    ++ (if (s.ctx.resident j k).isSome then [] else (j.bElems p).flatMap (s.opLocs (Desc.of j.db)))

def State.stepRead (s : State) (j : Job) (k : Nat) : List (Option Nat) × List (Option Nat) :=
  let p := j.step k
  ((j.aElems p).map (s.opRead (Desc.of j.da)),
    (s.ctx.resident j k).getD ((j.bElems p).map (s.opRead (Desc.of j.db))))

/-- The staging arrays after step `k` of a command (R39): its operands, and the vectors that an MMV holds until its last step
(R172). -/
def Ctx.staged (c : Ctx) (j : Job) (k : Nat) (ab : List (Option Nat) × List (Option Nat)) : Ctx :=
  let key := (j.id, (j.step k).pb)
  { c with stage :=
      { a := ab.1, b := ab.2
        held := if !j.mmv then c.stage.held
          else if j.total ≤ k + 1 then c.stage.held.filter fun h => h.1.1 != j.id
          else if c.stage.held.any fun h => h.1 = key then c.stage.held else c.stage.held ++ [(key, ab.2)] } }

/-- The value of an operand as the array takes it: an absent one is +0; a block exponent is left out (R166). -/
def opVal (f : Fm) : Option Nat → Val
  | none => .zero false
  | some x =>
    if f.isBlock then
      let h := x / 256
      blockVal f (x % 256) (if h % 256 = 255 then 255 else h / 256 % 16 * 256 + 127)
    else valOf f x

/-- Where the group of row `m` and column `n` lands in its plane (R172). -/
def Job.cell (j : Job) (m n : Nat) : Nat := if j.mmv then m % 32 * 32 + 8 * (m / 32) + n else m * 32 + n

/-- Accumulator planes: cell (m, n) of plane `p` is entry p·1024 + m·32 + n. -/
def Ctx.cell (c : Ctx) (p k : Nat) : Nat := (c.a.get (p * 1024 + k)).toNat

/-- Planes set to +0. -/
def Ctx.zeroPlanes (c : Ctx) (ps : List Nat) : Ctx := { c with a := c.a.filter fun e => !ps.contains (e.1 / 1024) }

/-- One cell of a multiply step: the groups over k, in ascending order, enter the accumulator. -/
def groupCell (j : Job) (a b : List Val) (acc : Nat) : Nat × Flags :=
  (List.range ((j.kN + 15) / 16)).foldl (fun (r : Nat × Flags) g =>
    let ps := ((a.zip b).drop (16 * g)).take 16
    let (x, fl) := accumulate r.1 (groupVal j.fw (ps.map fun p => prodOf p.1 p.2)) j.env.sat
    (x, r.2 ||| fl)) (acc, fNone)

/-- The moment product of a cell (R192): an absent operand enters as +0 in each component (R157, R170). -/
def momProd (j : Job) (a b : Option Nat) : MRes × Bool × Flags :=
  let x := a.getD 0
  let y := b.getD 0
  let p : Pair := (x % 2 ^ 32, x / 2 ^ 32)
  let pairB := (Desc.of j.db).fm == .mom
  let q : Pair := if pairB then (y % 2 ^ 32, y / 2 ^ 32) else (y, 0)
  if negVar p.2 || (pairB && negVar q.2) then ({ mean := (.nan, fNone), var := (.nan, fNone) }, true, fNV)
  else
    let nan := [p, q].any fun t => (valOf .fp32 t.1).isNan || (valOf .fp32 t.2).isNan
    (if pairB then momMul (rhoOf j.env.mom) p q else momScale y p, nan, fNone)

/-- An accumulator component after a product component: the exact sum rounded once (R192).  DESIGN CHOICE: a cell that is
NaN already takes the product without the product's flags (log entry 84). -/
def momAcc (acc : Nat) (x : Val × Flags) (nan sat : Bool) : Nat × Flags :=
  if nan || (valOf .fp32 acc).isNan then (0x7FC00000, fNone)
  else
    let (v, f) := (valOf .fp32 acc).add x.1
    let (r, g) := roundF .fp32 v 0 sat
    (r, x.2 ||| f ||| g)

/-- A cell of a sparse plane set. -/
def Ctx.setCell (c : Ctx) (p k v : Nat) : Ctx := { c with a := c.a.set (p * 1024 + k) (BitVec.ofNat 32 v) }

/-- The groups of step `k` of a command land in its plane, with their flags (R163, R164, R192). -/
def landGroup (j : Job) (k : Nat) (a b : List (Option Nat)) (c : Ctx) : Ctx :=
  let ps := j.planes k
  let rows := List.range j.rowsN
  let cols := List.range j.colsN
  if j.form == .mom then
    rows.foldl (fun c m => cols.foldl (fun c n =>
      let (r, nan, fl) := momProd j (a.getD m none) (b.getD n none)
      let i := j.cell m n
      let (x, f) := momAcc (c.cell (ps.getD 0 0) i) r.mean nan j.env.sat
      let (y, g) := momAcc (c.cell (ps.getD 1 0) i) r.var nan j.env.sat
      let c := (c.setCell (ps.getD 0 0) i x).setCell (ps.getD 1 0) i (posZero y)
      { c with arithM := orFlags c.arithM (fl ||| f ||| g) }) c) c
  else
    let va := a.map (opVal (Desc.of j.da).fm)
    let vb := b.map (opVal (Desc.of j.db).fm)
    rows.foldl (fun c m =>
      let ra := (va.drop (m * j.kN)).take j.kN
      cols.foldl (fun c n =>
        let i := j.cell m n
        let (x, fl) := groupCell j ra ((vb.drop (n * j.kN)).take j.kN) (c.cell (ps.getD 0 0) i)
        let c := c.setCell (ps.getD 0 0) i x
        { c with arithM := orFlags c.arithM fl }) c) c

/-! ### Drain, zero, load (R178 to R181, R193) -/

/-- Coordinates of cell (m, n) at a position (R178). -/
def cellAt (d : Desc) (pos : Int) (ta : Bool) (m n : Nat) : Option (Int × Int × Int) :=
  let i := d.split pos
  let x : Int × Int × Int := if ta then (i.1 + m, i.2.1 + n, i.2.2) else (i.1 + n, i.2.1 + m, i.2.2)
  if d.inside x.1 x.2.1 x.2.2 then some x else none

def allCells : List (Nat × Nat) := (List.range 32).flatMap fun m => (List.range 32).map fun n => (m, n)

/-- The exact value of a cell after its plane's scale (R167). -/
def scaled (t : Option Tag) (m n x : Nat) : Val :=
  let v := valOf .fp32 x
  match t with
  | none => v
  | some t =>
    let e := (t.ea.getD (m / t.la) (127, 0)).1 + (t.eb.getD (n / t.lb) (127, 0)).1
    v.scale ((e : Int) - 254)

/-- What a step of a drain writes: for each cell written its bits, the block headers with the cell that starts each
block, and the flags of the conversion. -/
structure Drained where
  cells : List (Nat × Nat × Nat)
  hdrs : List (Nat × Nat × Nat)
  fl : Flags
deriving DecidableEq, Repr

/-- The blocks of a block destination: the cells of each, along dimension 0 (R178). -/
def blocksOf (blk : Nat) (ta : Bool) : List (List (Nat × Nat)) :=
  (List.range 32).flatMap fun u => (List.range (32 / blk)).map fun b => (List.range blk).map fun t =>
    if ta then (b * blk + t, u) else (u, b * blk + t)

/-- One step of DRAIN over cell values. -/
def drainStep (d : Desc) (pos : Int) (ta : Bool) (env : Env) (val : Nat → Nat → Val) : Drained :=
  if d.fm.isBlock then
    (blocksOf d.blkLen ta).foldl (fun r cs =>
      match cs with
      | [] => r
      | (m0, n0) :: _ =>
        if (cellAt d pos ta m0 n0).isNone then r
        else
          let (h, xs, fl) := toBlock d.fm d.d (cs.map fun p => val p.1 p.2) env.rm env.sat
          { cells := r.cells ++ (cs.zip xs).map (fun q => (q.1.1, q.1.2, q.2))
            hdrs := r.hdrs ++ [(m0, n0, h)], fl := r.fl ||| fl }) { cells := [], hdrs := [], fl := fNone }
  else
    let xs := (allCells.filter fun p => (cellAt d pos ta p.1 p.2).isSome).map fun p =>
      (p, roundF d.fm (val p.1 p.2) env.rm env.sat)
    { cells := xs.map (fun q => (q.1.1, q.1.2, q.2.1)), hdrs := []
      fl := xs.foldl (fun f q => f ||| q.2.2) fNone }

/-- An infinite component saturated (R24). -/
def satInf (sat : Bool) (x : Nat) : Nat × Flags :=
  if sat && (valOf .fp32 x).isInf then (x - 1, fSA) else (x, fNone)

/-- One step of DRAIN.MOM over the pair of planes (R193).  DESIGN CHOICE: it keeps the bits of a NaN, as ALOAD does (log
entry 83). -/
def drainMomStep (d : Desc) (pos : Int) (ta : Bool) (env : Env) (mean var : Nat → Nat → Nat) : Drained :=
  let xs := (allCells.filter fun p => (cellAt d pos ta p.1 p.2).isSome).map fun p =>
    let (m, f) := satInf env.sat (mean p.1 p.2)
    let (v, g) := satInf env.sat (posZero (var p.1 p.2))
    (p, m + v * 2 ^ 32, f ||| g)
  { cells := xs.map (fun q => (q.1.1, q.1.2, q.2.1)), hdrs := [], fl := xs.foldl (fun f q => f ||| q.2.2) fNone }

/-- The write of row `m` of a step (R179); a block's header goes with the row of its first cell. -/
def drainRow (s : State) (d : Desc) (pos : Int) (ta : Bool) (r : Drained) (m : Nat) : Option Eff :=
  let cs := r.cells.filter fun x => x.1 = m
  let hs := r.hdrs.filter fun x => x.1 = m
  if cs.isEmpty then none
  else
    let at_ (m n : Nat) : Int × Int × Int := (cellAt d pos ta m n).getD (0, 0, 0)
    let ps := cs.flatMap fun x => s.piecesOf d (at_ m x.2.1) (d.w * x.2.1)
    let hp := (hs.zip (List.range 32)).flatMap fun y =>
      ((s.hdrLocs d (at_ m y.1.2.1)).zip [0, 8]).map fun z =>
        { dst := 1024 + 16 * y.2 + z.2, w := 8, loc := z.1, sh := 0 : Piece }
    let v := cs.foldl (fun a x => a + x.2.2 * 2 ^ (d.w * x.2.1)) 0
    let hv := (hs.zip (List.range 32)).foldl (fun a y => a + y.1.2.2 * 2 ^ (1024 + 16 * y.2)) 0
    some (.store (ps ++ hp) (BitVec.ofNat 2048 (v + hv)))

/-- A plane on which a group has still to land (R178). -/
def Ctx.landing (c : Ctx) (p : Nat) : Bool :=
  c.flights.any fun f => f.script.any fun e =>
    match e.2.2 with
    | .step j k => (List.range (j.total - k)).any fun i => (j.planes (k + i)).contains p
    | .grp j k _ _ => (j.planes k).contains p
    | _ => false

/-- When the last part in flight that sets cells of one of the planes `ps` takes effect, with its phase and its word: the groups
of one plane enter in the order of their commands (R31, R160). -/
def Ctx.pendingOn (c : Ctx) (ps : List Nat) : Option (Nat × Nat × Nat) :=
  let on (e : Eff) : Bool :=
    match e with
    | .step j k => (List.range (j.total - k)).any fun i => (j.planes (k + i)).any ps.contains
    | .grp j k _ _ => (j.planes k).any ps.contains
    | .pzero qs => qs.any ps.contains
    | .rdA _ _ p _ _ _ mom _ => ps.contains p || (mom && ps.contains (p + 1))
    | .prow p _ _ => ps.contains p
    | _ => false
  c.flights.foldl (fun a f => f.script.foldl (fun a e =>
    if !on e.2.2 then a
    else
      let (t, ph) := match e.2.2 with
        | .step .. | .rdA .. => (max e.1 f.fin, 2)
        | _ => (e.1, e.2.1)
      match a with
      | none => some (t, ph, f.seq)
      | some (u, qh, q) => if u < t || (u = t && qh ≤ ph) then some (t, ph, f.seq) else some (u, qh, q)) a) none

/-- When the last group in flight of one of the planes `ps` lands, with its phase. -/
def Ctx.groupsOn (c : Ctx) (ps : List Nat) : Option (Nat × Nat) :=
  c.flights.foldl (fun a f => f.script.foldl (fun a e =>
    match e.2.2 with
    | .grp j k _ _ =>
      if !(j.planes k).any ps.contains then a
      else
        match a with
        | none => some (e.1, e.2.1)
        | some (u, ph) => if u < e.1 || (u = e.1 && ph ≤ e.2.1) then some (e.1, e.2.1) else some (u, ph)
    | _ => a) a) none

/-- Steps with what an earlier step of the same instruction has zeroed. -/
def withZeroed (mom zc : Bool) : List Nat → List MStep → List (MStep × List Nat)
  | _, [] => []
  | z, p :: ps => (p, z) :: withZeroed mom zc (if zc then z ++ Job.planesOf mom p.c else z) ps

/-- Numbered steps. -/
def numbered {α : Type} (l : List α) : List (Nat × α) := (List.range l.length).zip l

/-- What each step of a drain writes, with whether it meets a negative variance (R187, R193). -/
def drainOut (c : Ctx) (mom : Bool) (f : MX) (d : Desc) (env : Env) (ps : List MStep) : List (MStep × Drained × Bool) :=
  let ta := f.ta = 1
  (withZeroed mom (f.zc = 1) [] ps).map fun pz =>
    let p := pz.1
    let q := (Job.planesOf mom p.c)
    let at_ (n : Nat) (m k : Nat) : Nat := if pz.2.contains (q.getD n 0) then 0 else c.cell (q.getD n 0) (m * 32 + k)
    let tag := if pz.2.contains (q.getD 0 0) then none else (c.tags.find? fun t => t.1 = q.getD 0 0).map (·.2)
    (p, if mom then drainMomStep d p.pa ta env (at_ 0) (at_ 1)
        else drainStep d p.pa ta env fun m n => scaled tag m n (at_ 0 m n),
      mom && allCells.any fun x => (cellAt d p.pa ta x.1 x.2).isSome && negVar (at_ 1 x.1 x.2))

/-- DRAIN and DRAIN.MOM (R178, R179, R184, R193): the values and their flags are fixed at issue; the rows are written
one tick apart. -/
def drainPlan (mom : Bool) (f : MX) (s : State) : Plan :=
  let c := s.ctx
  let d := c.descOf f.da.toNat
  let ns := c.nest f.lvl.toNat
  let ps := nestSteps ns { pa := (startPos c f.be f.bc).1, pb := 0, c := f.acc.toNat, g := 0 }
  let env := envM c f.rq f.sat
  let ta := f.ta = 1
  let fmtBad := if mom then d.fm != .mom else
    !(d.fm == .fp32 || d.fm == .bf16 || d.fm == .fp16 || d.fm == .e4m3 || d.fm == .e5m2 || d.fm.isBlock)
  let bad := ps.any fun p => numBad mom p.c || (Job.planesOf mom p.c).any (fun q => c.reserved q || c.landing q)
    || (d.fm.isBlock && (d.split p.pa).1 % d.blkLen != 0)
  let exceeds := (f.be = 1 && c.sOver [f.bc.toNat]) || ps.any fun p =>
    decide (p.pa < 0) || (Job.planesOf mom p.c).any (fun q => decide (c.planesN ≤ q))
      || c.opOut d (allCells.map fun q => cellAt d p.pa ta q.1 q.2)
  let out := drainOut c mom f d env ps
  let fl := out.foldl (fun a o => a ||| o.2.1.fl) fNone
  raise 0 [(d.invalid || fmtBad, 0x12), (c.opSpaceBad d, 0x03), (d.misaligned, 0x05), (bad, 0x16), (exceeds, 0x02),
           (out.any (·.2.2), 0x07), (arithNvt c.arithM && fl.getLsbD 0, 0x10)]
    (let t0 := startAt c
     let n := c.div 2
     let wr := if d.space = 1 then 4 else 1
     let rows := (numbered out).flatMap fun o => (List.range 32).filterMap fun m =>
       (drainRow s d o.2.1.pa ta o.2.2.1 m).map fun e => (t0 + (32 * o.1 + wr + m) * n, 0, e)
     let zeros := if f.zc = 1 then (numbered ps).map fun p =>
         (t0 + 32 * p.1 * n, 1, Eff.pzero (Job.planesOf mom p.2.c)) else []
     let zp := if f.zc = 1 then ps.flatMap fun p => Job.planesOf mom p.c else []
     .go { ctx := { c.retain (keptJob f (ps.flatMap fun p => Job.planesOf mom p.c) (f.zc = 1)) with
             arithM := orFlags c.arithM fl
             tags := zp.foldl (fun l q => tdel q l) c.tags
             meFree := if ps.isEmpty then c.meFree else t0 + 32 * ps.length * n }
           script := rows ++ zeros })

def execDrain (f : MX) (s : State) : Host.Outcome State Fault Refusal := matIssue (.drain f) f.i (drainPlan false f) s
def execDrainMom (f : MX) (s : State) : Host.Outcome State Fault Refusal :=
  matIssue (.drainMom f) f.i (drainPlan true f) s

/-- AZERO (R180). -/
def execAzero (f : MX) (s : State) : Host.Outcome State Fault Refusal :=
  matIssue (.azero f) f.i (fun s =>
    let c := s.ctx
    let ps := nestSteps (c.nest f.lvl.toNat) { pa := 0, pb := 0, c := f.acc.toNat, g := 0 }
    let t0 := startAt c
    let n := c.div 2
    raise 0 [(ps.any fun p => numBad false p.c || c.reserved p.c.toNat, 0x16),
             (ps.any fun p => decide (c.planesN ≤ p.c.toNat), 0x02)]
      (.go { ctx := { c.retain (keptJob f (ps.map fun p => p.c.toNat) true) with
               tags := ps.foldl (fun l p => tdel p.c.toNat l) c.tags
               meFree := if ps.isEmpty then c.meFree else t0 + 32 * ps.length * n }
             script := (numbered ps).map fun p => (t0 + 32 * p.1 * n, 1, .pzero [p.2.c.toNat]) })) s

/-- ALOAD (R181): variances are tested as the bytes stand at the issue edge. -/
def execAload (f : MX) (s : State) : Host.Outcome State Fault Refusal :=
  matIssue (.aload f) f.i (fun s =>
    let c := s.ctx
    let d := c.descOf f.da.toNat
    let mom := d.fm == .mom
    let ps := nestSteps (c.nest f.lvl.toNat) { pa := (startPos c f.be f.bc).1, pb := 0, c := f.acc.toNat, g := 0 }
    let ta := f.ta = 1
    let planes (p : MStep) : List Nat := if mom then [p.c.toNat, p.c.toNat + 1] else [p.c.toNat]
    let cells (p : MStep) : List (Option (Int × Int × Int)) := allCells.map fun q => cellAt d p.pa ta q.1 q.2
    let neg := mom && ps.any fun p => (cells p).any fun e => match e with
      | none => false
      | some i => negVar (gather s.byteAt (s.piecesOf d i 0) / 2 ^ 32)
    let t0 := startAt c
    let n := c.div 2
    raise 0 [(d.invalid || !(mom || d.fm == .fp32), 0x12), (c.opSpaceBad d, 0x03), (d.misaligned, 0x05),
             (ps.any fun p => numBad false p.c || (mom && p.c % 2 != 0) || (planes p).any c.reserved, 0x16),
             ((f.be = 1 && c.sOver [f.bc.toNat]) || ps.any fun p => decide (p.pa < 0)
               || (planes p).any (fun q => decide (c.planesN ≤ q)) || c.opOut d (cells p), 0x02),
             (neg, 0x07)]
      (.go { ctx := { c.retain { keptJob f (ps.flatMap planes) true with
                 load := true, da := c.desc.get f.da.toNat, ta := ta, nest := c.nest f.lvl.toNat
                 pa := (startPos c f.be f.bc).1 } with
               tags := ps.foldl (fun l p => (planes p).foldl (fun l q => tdel q l) l) c.tags
               meFree := if ps.isEmpty then c.meFree else t0 + 32 * ps.length * n }
             script := (numbered ps).flatMap fun p => (List.range 32).map fun m =>
               (t0 + (32 * p.1 + m) * n, 1,
                 .rdA c.jobs (c.desc.get f.da.toNat) p.2.c.toNat m p.2.pa ta mom (t0 + (32 * p.1 + 32) * n))
             fin := t0 + 32 * ps.length * n })) s

/-! ### Control words (R159, R175, R182) -/

/-- GO (R159): the shadow table becomes the live one at the issue edge. -/
def execGo (f : MC) (s : State) : Host.Outcome State Fault Refusal :=
  matIssue (.go f) f.i (fun s => .go { ctx := { s.ctx with lnt := s.ctx.lnts } }) s

/-- MWAIT (R175). -/
def execMwait (f : MC) (s : State) : Host.Outcome State Fault Refusal :=
  matIssue (.mwait f) f.i (fun s =>
    let c := s.ctx
    let n := if f.be = 1 then (c.bcast 2 f.bc.toNat).toNat % 32 else f.imm.toNat % 32
    raise 0 [(f.be = 1 && c.sOver [f.bc.toNat], 0x02)]
      (if c.asyncQ.length ≤ n then .go { ctx := c } else .wait (.asyncLe n))) s

def execMrdv (f : MC) (s : State) : Host.Outcome State Fault Refusal :=
  matIssue (.mrdv f) f.i (fun s => .go { ctx := { s.ctx with me := { s.ctx.me with park := .stand } } }) s

def execMrdvEnd (f : MC) (s : State) : Host.Outcome State Fault Refusal :=
  matIssue (.mrdvEnd f) f.i (fun s => .go { ctx := { s.ctx with me := { s.ctx.me with park := .ending } } }) s

/-- The control registers of the ME (R182). -/
def readMcsr (c : Ctx) : Nat → Word
  | 0 => c.arithM.zeroExtend 64
  | 1 => c.momM.zeroExtend 64
  | _ => c.me.save

/-- MCSRR (R153, R182). -/
def execMcsrr (f : MC) (s : State) : Host.Outcome State Fault Refusal :=
  matIssue (.mcsrr f) f.i (fun s =>
    let c := s.ctx
    raise 0 [(c.sOver [f.bc.toNat], 0x02)]
      (.go { ctx := c, script := [(csrEdge c 2, 2, .sreg f.bc.toNat (readMcsr c f.imm.toNat))] })) s

/-- MCSRW (R153, R182). -/
def execMcsrw (f : MC) (s : State) : Host.Outcome State Fault Refusal :=
  matIssue (.mcsrw f) f.i (fun s =>
    let c := s.ctx
    let v := c.bcast 2 f.bc.toNat
    raise 0 [(c.sOver [f.bc.toNat], 0x02), (f.imm = 1 && momcfgBad (v.setWidth 32), 0x11)]
      (.go { ctx := c, script := [(c.tick 2 1, 3, .csr true f.imm.toNat v)], b := v.zeroExtend 1024 })) s

def execMidle (f : MC) (s : State) : Host.Outcome State Fault Refusal :=
  matIssue (.midle f) f.i (fun s =>
    let c := s.ctx
    raise 0 [(f.be = 1 && c.sOver [f.bc.toNat], 0x02)]
      (.go { ctx := c, idle := idleCount c 2 f.be f.bc f.imm.toNat })) s

def execMnop (o : BitVec 3) (x : BitVec 50) (i : BitVec 8) (s : State) : Host.Outcome State Fault Refusal :=
  matIssue (.mnop o x i) i (fun s => .go { ctx := s.ctx }) s

/-! ### The gather unit (R168 to R171) -/

/-- Offset of a gather word with its broadcast read as I64. -/
def gwOff (c : Ctx) (f : GW) : Int := (f.off.toNat : Int) + (if f.be = 1 then (c.bcast 3 f.bc.toNat).toInt else 0)

/-- GIDX dN+off, n (R168).  DESIGN CHOICE: a misaligned descriptor raises 0x05 after 0x03 and before 0x02, the place it has
in R126 and R154; R171 does not name it (log entry 87). -/
def execGidx (f : GW) (s : State) : Host.Outcome State Fault Refusal :=
  gatIssue (.gidx f) f.i (fun s =>
    let c := s.ctx
    let d := c.descOf f.did.toNat
    let es := (List.range (f.cnt.toNat + 1)).map fun (k : Nat) => (k, gwOff c f + (k : Int))
    let lt := if d.space = 1 then 3 else 0
    raise 0 [(d.invalid || !(d.fm == .i32 || d.fm == .n32), 0x12), (c.spaceBad d, 0x03), (d.misaligned, 0x05),
             ((f.be = 1 && c.sOver [f.bc.toNat]) || c.elemsOut d es, 0x02)]
      (.go { ctx := c
             script := [(c.tick 3 (1 + lt), 1,
               .rdX (es.map fun e => firstLoc (s.elemLocs d (d.split e.2))) (c.tick 3 (6 + lt)))]
             fin := c.tick 3 (6 + lt) })) s

/-- GFILL off, n (R169). -/
def execGfill (f : GW) (s : State) : Host.Outcome State Fault Refusal :=
  gatIssue (.gfill f) f.i (fun s =>
    let c := s.ctx
    let base := gwOff c f
    raise 0 [(f.be = 1 && c.sOver [f.bc.toNat], 0x02)]
      (.go { ctx := c
             script := [(c.tick 3 1, 2, .ix ((List.range 32).map fun m =>
               if m ≤ f.cnt.toNat then BitVec.ofInt 32 (base + m) else BitVec.allOnes 32))] })) s

def execGrdv (f : GW) (s : State) : Host.Outcome State Fault Refusal :=
  gatIssue (.grdv f) f.i (fun s => .go { ctx := { s.ctx with gu := { s.ctx.gu with park := .stand } } }) s

def execGrdvEnd (f : GW) (s : State) : Host.Outcome State Fault Refusal :=
  gatIssue (.grdvEnd f) f.i (fun s => .go { ctx := { s.ctx with gu := { s.ctx.gu with park := .ending } } }) s

/-- GIDLE (R171): the count stands in [57:34], that is in DID and in OFF22[21:6]. -/
def execGidle (f : GW) (s : State) : Host.Outcome State Fault Refusal :=
  gatIssue (.gidle f) f.i (fun s =>
    let c := s.ctx
    raise 0 [(f.be = 1 && c.sOver [f.bc.toNat], 0x02)]
      (.go { ctx := c, idle := idleCount c 3 f.be f.bc (f.did.toNat * 2 ^ 16 + f.off.toNat / 64) })) s

def execGnop (o : BitVec 3) (x : BitVec 50) (i : BitVec 8) (s : State) : Host.Outcome State Fault Refusal :=
  gatIssue (.gnop o x i) i (fun s => .go { ctx := s.ctx }) s

end Sys2Proof.Machine
end

