-- ==== Sys2Proof/Machine/Ladle.lean ====
section
/-!
DEFINITION. Ladle command words (07_ladle_isa R194 to R214, R218): operands and their places, the checks at issue, the
claims on rings, barriers, pages and rounds, and the command that enters its queue.
-/

namespace Sys2Proof.Machine

/-! ### Operands (R51, R196, R202) -/

/-- Bytes of a Ladle element (a packed pair of B2E4 elements is one), its innermost extent, its coordinates. -/
def Desc.lw (d : Desc) : Nat := if d.w < 8 then 1 else d.w / 8
def Desc.ldim (d : Desc) : Nat := if d.w < 8 then d.dim0 / 2 else d.dim0
def Desc.lsplit (d : Desc) (l : Nat) : Int × Int × Int :=
  ((l % d.ldim : Nat), (l / d.ldim % d.dim1 : Nat), (l / (d.ldim * d.dim1) : Nat))

def Desc.laddr (d : Desc) (i : Int × Int × Int) : Int :=
  (d.base : Int) + i.1 * d.lw + i.2.1 * d.s1 + i.2.2 * d.s2

def Desc.linside (d : Desc) (i : Int × Int × Int) : Bool :=
  decide (0 ≤ i.1) && decide (i.1 < d.ldim) && decide (0 ≤ i.2.1) && decide (i.2.1 < d.dim1) && decide (0 ≤ i.2.2)
    && decide (i.2.2 < d.dim2)

/-- An operand of a command: its space, element bytes, element addresses, whether some element is past an extent, and
how it is used. -/
structure LOp where
  space : Nat
  w : Nat
  addrs : List Int
  past : Bool
  wr : Bool
  rd : Bool
deriving DecidableEq, Repr

def LOp.els (d : Desc) (es : List (Int × Int × Int)) (wr rd : Bool) : LOp :=
  { space := d.space, w := d.lw, addrs := es.map d.laddr, past := es.any fun e => !d.linside e, wr := wr, rd := rd }

/-- The elements at linear indices from `off` on. -/
def linEls (d : Desc) (off n : Nat) : List (Int × Int × Int) := (List.range n).map fun j => d.lsplit (off + j)

/-- The box of COPY2D and COPY3D (R203): offsets within the source, innermost fastest. -/
def boxOffs (d : Desc) (off : Nat) (three : Bool) : List (Int × Int × Int) :=
  let o := d.lsplit off
  (List.range (if three then (d.dim2 - o.2.2.toNat) else 1)).flatMap fun j2 =>
    (List.range (d.dim1 - o.2.1.toNat)).flatMap fun j1 =>
      (List.range (d.ldim - o.1.toNat)).map fun (j0 : Nat) => ((j0 : Int), ((j1 : Nat) : Int), ((j2 : Nat) : Int))

def shiftEls (d : Desc) (off : Nat) (js : List (Int × Int × Int)) : List (Int × Int × Int) :=
  let o := d.lsplit off
  js.map fun j => (o.1 + j.1, o.2.1 + j.2.1, o.2.2 + j.2.2)

/-- The element addresses of an operand that lie in its space. -/
def LOp.reach (c : Ctx) (o : LOp) : List Int := o.addrs.filter fun a => !c.outside o.space a o.w

/-- The lookup of a translated address (R319, R320). -/
def State.ladXl (s : State) (a : Int) : Xl :=
  let c := s.ctx
  if s.invalidating c.asid.toNat a.toNat then .miss else s.me.lookup c.asid.toNat a.toNat

/-- The bytes of an element of an operand. -/
def State.ladLocs (s : State) (o : LOp) (a : Int) : List Loc :=
  if o.space = 3 then
    match s.ladXl a with
    | .page e => (e.place a.toNat).run o.w
    | _ => []
  else (List.range o.w).map fun k => s.place o.space (a.toNat + k)

def State.opAll (s : State) (o : LOp) : List (List Loc) := o.addrs.map (s.ladLocs o)

/-- The translated addresses of a command's operands, each with its use. -/
def vaUses (c : Ctx) (ops : List LOp) : List (Nat × Bool × Bool) :=
  ops.flatMap fun o => if o.space = 3 then (o.reach c).map fun a => (a.toNat, o.wr, o.rd) else []

/-- What translation refuses (R196): 0x03 for a use that the page's permissions forbid, 0x04 for an absent page and for
a write to a page mapped read-only.  DESIGN CHOICE: of several addresses TFADDR names the first, in the order DD, DS, carry,
DC (log entry 90). -/
def State.xlBad (s : State) (us : List (Nat × Bool × Bool)) (cause : Nat) : Option Nat :=
  (us.find? fun u => match s.ladXl u.1 with
    | .page e => if cause = 4 then u.2.1 && e.rd && !e.wr else (u.2.2 && !e.rd) || (u.2.1 && !e.rd && !e.wr)
    | .absent => cause = 4
    | .miss => false).map (·.1)

/-- The pages a command touches, each once. -/
def State.pagesOf (s : State) (us : List (Nat × Bool × Bool)) : List TlbE :=
  us.foldl (fun a u => match s.ladXl u.1 with
    | .page e => if a.contains e then a else a ++ [e]
    | _ => a) []

/-- How many pages a command touches: those that are mapped, and of the rest each 64 KiB. -/
def State.pageCount (s : State) (us : List (Nat × Bool × Bool)) : Nat :=
  let gaps := us.foldl (fun a u => match s.ladXl u.1 with
    | .page _ => a
    | _ => if a.contains (u.1 / 65536) then a else a ++ [u.1 / 65536]) ([] : List Nat)
  (s.pagesOf us).length + gaps.length

/-! ### Issue (R194 to R197, R212) -/

/-- What one kind of command brings to the common checks. -/
structure LSpec where
  kind : LKind
  ds : List Desc
  bad : Bool := false
  ops : List LOp := []
  exceeds : Bool := false
  ringDs : List Desc := []
  wait : Option Freeze := none
  payload : Nat := 0
  /-- The element accesses, once every operand resolves. -/
  elems : List LElem := []
  carry : List Loc := []
  claim : Option (Nat × Nat × Nat) := none
  qmask : Nat := 0
  noQueue : Bool := false
deriving DecidableEq, Repr

/-- Rounds of the ORD contributions of a command (R207), with the round table after them. -/
def assignRounds : List (Loc × Nat) → List LElem → List (Loc × Nat) × List LElem
  | t, [] => (t, [])
  | t, e :: es =>
    let l := firstLoc e.dst
    let n := ((t.find? fun x => x.1 = l).map (·.2)).getD 0
    let t' := if t.any (fun x => x.1 = l) then t.map fun x => if x.1 = l then (l, n + 1) else x else t ++ [(l, n + 1)]
    let (t2, es') := assignRounds t' es
    (t2, { e with round := n } :: es')

/-- Issue of a Ladle command (R194, R197): its faults in the table's order, the bound on a barrier number before the membership
test, its freezes before the checks that depend on them, then its claims and its entry into its queue.  DESIGN CHOICE: of
several freezes that hold at once, of which the spec names no first, page locks, then the ring, the barrier and the queue (log
entry 89). -/
def ladPlan (f : LW) (spec : State → LSpec) (s : State) : Plan :=
  let c := s.ctx
  let x := spec s
  let dc := c.descOf f.dc.toNat
  let useCw := f.cw = 1
  let cwOp := LOp.els dc [dc.lsplit f.offc.toNat] true true
  let ds := x.ds ++ (if useCw then [dc] else [])
  let ops := x.ops ++ (if useCw then [cwOp] else [])
  let spaces := ops.map (·.space)
  let die := f.bdie = 1
  let b := f.bid.toNat
  let bar := s.bar s.focus die b
  let barOver := f.ba = 1 && c.barOver die b
  let late := match x.kind with
    | .qfence _ | .barrive => true
    | _ => false
  let us := vaUses c ops
  let pages := (s.pagesOf us).map fun e => (e.base, e.size)
  let fail03 := s.xlBad us 3
  let fail04 := s.xlBad us 4
  let (rounds, elems) := if f.ord = 1 then assignRounds c.rounds x.elems else (c.rounds, x.elems)
  let qmask := if x.noQueue then 0 else if x.qmask != 0 then x.qmask else 2 ^ f.qn.toNat
  raise 0 [(ds.any Desc.invalid || x.ringDs.any ringBad || x.bad || (useCw && dc.fm != .n32), 0x12),
           ((spaces.any (· = 1) && c.lentSize = 0) || (f.mov = 1 && spaces.any (· = 1)) || x.ringDs.any c.ringSpaceBad, 0x03),
           (barOver, 0x02),
           (f.ba = 1 && !bar.members.contains (c.agent die true), 0x03)]
    (match us.find? fun u => s.ladXl u.1 = .miss with
     | some u => .wait (.xlat c.asid.toNat u.1)
     | none =>
       raise (BitVec.ofNat 64 (fail03.getD 0)) [(fail03.isSome, 0x03)]
         (raise 0 [((ds ++ x.ringDs).any Desc.misaligned, 0x05),
                   (ops.any (fun o => o.past || o.addrs.any fun a => c.outside o.space a o.w) || x.exceeds
                     || (f.ba = 1 && decide (x.payload ≥ 2 ^ 28)) || decide (s.pageCount us > 1024)
                     || (f.ord = 1 && decide (rounds.length > 1024)), 0x02)]
           (raise (BitVec.ofNat 64 (fail04.getD 0)) [(fail04.isSome, 0x04)]
             (if decide (c.locksUsed + pages.length > 1024) then .wait (.locks pages.length)
              else
                match x.wait with
                | some w => .wait w
                | none =>
                  if f.ba = 1 && !late && !bar.broken && (bar.arrived.contains (c.agent die true)
                      || c.defer.contains (die, b)) then .wait (.bara die b bar.phase)
                  else if f.ba = 1 && !late && !bar.broken && decide (bar.pend + x.payload ≥ 2 ^ 28) then
                    .wait (.pend die b x.payload)
                  else if (List.range 4).any fun q => qmask / 2 ^ q % 2 = 1 && decide (32 ≤ c.queueLen q) then
                    .wait (.ladleQ qmask)
                  else
                    let pend := if f.sco = 0 then 0 else x.payload
                    let cmd : LCmd :=
                      { id := c.lseq, kind := x.kind, qn := f.qn.toNat, cls := f.oc.toNat, sco := f.sco.toNat
                        ord := f.ord = 1, mov := f.mov = 1
                        cw := if useCw then some (s.ladLocs cwOp (cwOp.addrs.headD 0)) else none
                        bar := if f.ba = 1 && (late || !bar.broken) then some (die, b) else none
                        elems := elems, seqAt := c.seq, base := (x.claim.map (·.2.2)).getD 0
                        pages := pages, payload := if f.ba = 1 && !late && !bar.broken then pend else 0
                        acc := if x.carry.isEmpty then some [] else none }
                    let c1 := match x.claim with
                      | some (g, n, _) =>
                        let k := match x.kind with
                          | .enq .. => 0
                          | _ => 2
                        c.setRing g k (c.ring g k + BitVec.ofNat 32 n)
                      | none => c
                    let c2 := { c1 with
                      lseq := c.lseq + 1
                      rounds := rounds
                      lwin := (c.lwin ++ [cmd]).drop (c.lwin.length + 1 - 64) }
                    .go { ctx := if x.noQueue then c1 else { c2 with cmds := c.cmds ++ [cmd] }
                          used := s.pagesOf us
                          arr := if f.ba = 1 && (!late || x.noQueue) then some (die, b, pend) else none
                          adds := if x.noQueue then (cmd.cw.map fun l => [l]).getD [] else [] }))))

/-- Count completion words: each rises by 1 modulo 2^32 (R211); the port performs nothing on a unit that cannot be decoded
(R394). -/
def State.countWords (s : State) (ls : List (List Loc)) : State :=
  ls.foldl (fun s l => if s.anyBad l then s.touch l else (s.touch l).writeAt l (leBytes 4 (s.natAt l + 1))) s

/-- Effects of a Ladle word that reach beyond its context: an arrival, put off where the Ladle has arrived in the phase
(R212), and completion words of an empty QFENCE (R213). -/
def ladAfter (g : Go) (s : State) : State :=
  let s := s.countWords g.adds
  match g.arr with
  | none => s
  | some (die, b, n) =>
    let x := s.bar s.focus die b
    if !x.broken && x.arrived.contains (s.ctx.agent die true) then
      s.setCtx { s.ctx with defer := s.ctx.defer ++ [(die, b)] }
    else s.arrive s.focus die b true n

/-- A Ladle word: the Ladle issues after every other stream of its core at an edge. -/
def ladIssue (i : Instr) (idle : BitVec 8) (plan : State → Plan) (s : State) : Host.Outcome State Fault Refusal :=
  let s' := s.issue i 4 idle.toNat plan
  .next (if i.wf then
    (match plan s with
     | .go g => ladAfter g s'
     | _ => s')
   else s')

/-! ### Copies (R203 to R205) -/

/-- Element accesses that pair sources with destinations. -/
def pairElems (src dst : List (List Loc)) : List LElem := (src.zip dst).map fun p => { src := p.1, dst := p.2 }

/-- Operands of a move: destination and source elements in step order. -/
def moveEls (f : LW) (dims : Nat) (dd ds : Desc) : List (Int × Int × Int) × List (Int × Int × Int) :=
  if dims = 1 then (linEls dd f.offd.toNat f.cnt.toNat, linEls ds f.offs.toNat f.cnt.toNat)
  else
    let js := boxOffs ds f.offs.toNat (dims = 3)
    (shiftEls dd f.offd.toNat js, shiftEls ds f.offs.toNat js)

/-- A command that moves elements from DS to DD. -/
def moveSpec (f : LW) (dims : Nat) (kind : LKind) (rmw : Bool) (bad : Desc → Desc → Bool) (s : State) : LSpec :=
  let c := s.ctx
  let dd := c.descOf f.dd.toNat
  let ds := c.descOf f.ds.toNat
  if dd.invalid || ds.invalid then { kind := kind, ds := [dd, ds] }
  else
    let (de, se) := moveEls f dims dd ds
    let o1 := LOp.els dd de true rmw
    let o2 := LOp.els ds se false true
    { kind := kind, ds := [dd, ds], bad := bad dd ds, ops := [o1, o2], payload := de.length * dd.lw
      elems := pairElems (s.opAll o2) (s.opAll o1) }

def sameFmt (dd ds : Desc) : Bool := dd.fm != ds.fm

/-- COPY1D, COPY2D, COPY3D (R203). -/
def execCopy1d (f : LW) (s : State) : Host.Outcome State Fault Refusal :=
  ladIssue (.copy1d f) f.i (ladPlan f (moveSpec f 1 .copy false sameFmt)) s
def execCopy2d (f : LW) (s : State) : Host.Outcome State Fault Refusal :=
  ladIssue (.copy2d f) f.i (ladPlan f (moveSpec f 2 .copy false sameFmt)) s
def execCopy3d (f : LW) (s : State) : Host.Outcome State Fault Refusal :=
  ladIssue (.copy3d f) f.i (ladPlan f (moveSpec f 3 .copy false sameFmt)) s

/-- The formats of COPYX (R204). -/
def copyxOk : Fm → Bool
  | .fp32 | .bf16 | .fp16 | .e4m3 | .e5m2 | .i8 | .i16 | .i32 | .n8 | .n16 | .n32 | .rq32 => true
  | _ => false

/-- COPYX (R204). -/
def copyxSpec (f : LW) (s : State) : LSpec :=
  moveSpec f 1 (.cvt (s.ctx.descOf f.ds.toNat).fm (s.ctx.descOf f.dd.toNat).fm) false
    (fun dd ds => !copyxOk dd.fm || !copyxOk ds.fm) s

def execCopyx (f : LW) (s : State) : Host.Outcome State Fault Refusal :=
  ladIssue (.copyx f) f.i (ladPlan f (copyxSpec f)) s

/-- The formats of SCAN (R205). -/
def scanOk : Fm → Bool
  | .fp32 | .bf16 | .fp16 | .i32 | .i64 | .n32 | .n64 | .rq32 => true
  | _ => false

/-- SCAN (R205): where OFFD is not 0 the carry is the destination's element before it. -/
def scanSpec (f : LW) (s : State) : LSpec :=
  let dd := s.ctx.descOf f.dd.toNat
  let x := moveSpec f 1 .copy false (fun dd ds => dd.fm != ds.fm || !scanOk dd.fm) s
  let carry := if f.offd = 0 || dd.invalid then [] else [LOp.els dd [dd.lsplit (f.offd.toNat - 1)] false true]
  let ls := carry.flatMap fun o => (s.opAll o).flatten
  { x with kind := .scan dd.fm ls, ops := x.ops ++ carry, carry := ls }

def execScan (f : LW) (s : State) : Host.Outcome State Fault Refusal :=
  ladIssue (.scan f) f.i (ladPlan f (scanSpec f)) s

/-! ### Read-modify-write (R206 to R208) -/

/-- The accumulate forms (R206). -/
def accSpec (f : LW) (dims : Nat) (t : BitVec 3) (s : State) : LSpec :=
  moveSpec f dims (.acc (.ofAcc t) f.aop.toNat) true (fun dd ds => dd.fm != .ofAcc t || ds.fm != .ofAcc t) s

def execCopy1dAcc (t : BitVec 3) (f : LW) (s : State) : Host.Outcome State Fault Refusal :=
  ladIssue (.copy1dAcc t f) f.i (ladPlan f (accSpec f 1 t)) s
def execCopy2dAcc (t : BitVec 3) (f : LW) (s : State) : Host.Outcome State Fault Refusal :=
  ladIssue (.copy2dAcc t f) f.i (ladPlan f (accSpec f 2 t)) s
def execCopy3dAcc (t : BitVec 3) (f : LW) (s : State) : Host.Outcome State Fault Refusal :=
  ladIssue (.copy3dAcc t f) f.i (ladPlan f (accSpec f 3 t)) s

/-- The formats of XCHG and CMPX (R208). -/
def xchgOk : Fm → Bool
  | .fp32 | .i32 | .n32 | .rq32 | .i64 | .n64 => true
  | _ => false

/-- XCHG and CMPX (R208): `k` source elements to one destination element; the old value returns to the first.  DESIGN
CHOICE: the payload counts the destination bytes of a CMPX whose compare fails too, which R212 leaves open (log entry 91). -/
def xchgSpec (f : LW) (k : Nat) (kind : LKind) (s : State) : LSpec :=
  let c := s.ctx
  let dd := c.descOf f.dd.toNat
  let ds := c.descOf f.ds.toNat
  if dd.invalid || ds.invalid then { kind := kind, ds := [dd, ds] }
  else
    let n := f.cnt.toNat
    let o1 := LOp.els dd (linEls dd f.offd.toNat n) true true
    let o2 := LOp.els ds (linEls ds f.offs.toNat (k * n)) true true
    let src := s.opAll o2
    { kind := kind, ds := [dd, ds], bad := dd.fm != ds.fm || !xchgOk dd.fm, ops := [o1, o2]
      payload := 2 * n * dd.lw
      elems := ((List.range n).zip (s.opAll o1)).map fun p =>
        { src := ((src.drop (k * p.1)).take k).flatten, dst := p.2 } }

def execXchg (f : LW) (s : State) : Host.Outcome State Fault Refusal :=
  ladIssue (.xchg f) f.i (ladPlan f (xchgSpec f 1 .xchg)) s
def execCmpx (f : LW) (s : State) : Host.Outcome State Fault Refusal :=
  ladIssue (.cmpx f) f.i (ladPlan f (xchgSpec f 2 .cmpx)) s

/-! ### Rings (R209, R210, R252, R253) -/

/-- The slots of `n` entries from entry number `x`, split into elements of `w` bytes. -/
def ringAddrs (d : Desc) (w x n : Nat) : List Int :=
  (List.range n).flatMap fun k => (List.range (ringSize d / w)).map fun t => ringSlot d ((x + k) % 2 ^ 32) + ((t * w : Nat) : Int)

/-- ENQ (R209) and DEQ (R210). -/
def ringSpec (f : LW) (enq : Bool) (s : State) : LSpec :=
  let c := s.ctx
  let g := f.dc.toNat
  let rd := c.ringDesc g
  let d := c.descOf (if enq then f.ds.toNat else f.dd.toNat)
  let n := f.cnt.toNat
  let kind : LKind := if enq then .enq g n else .deq g n
  if d.invalid || ringBad rd then { kind := kind, ds := [d], ringDs := [rd] }
  else
    let per := ringSize rd / d.lw
    let x := (c.ring g (if enq then 0 else 2)).toNat
    let o1 := LOp.els d (linEls d (if enq then f.offs.toNat else f.offd.toNat) (n * per)) (!enq) enq
    let o2 : LOp := { space := rd.space, w := d.lw, addrs := ringAddrs rd d.lw x n, past := false, wr := enq, rd := !enq }
    { kind := kind, ds := [d], ringDs := [rd], bad := ringSize rd % d.lw != 0, ops := [o1, o2]
      exceeds := decide (c.ringsN ≤ g) || decide (rd.dim1 < n)
      wait := if enq then (if c.ringFreeN g rd.dim1 < n then some (.ringFree g n rd.dim1) else none)
        else if c.ringFill g < n then some (.ringFill g n) else none
      payload := n * ringSize rd
      elems := if enq then pairElems (s.opAll o1) (s.opAll o2) else pairElems (s.opAll o2) (s.opAll o1)
      claim := some (g, n, x) }

def execEnq (f : LW) (s : State) : Host.Outcome State Fault Refusal :=
  ladIssue (.enq f) f.i (ladPlan f (ringSpec f true)) s
def execDeq (f : LW) (s : State) : Host.Outcome State Fault Refusal :=
  ladIssue (.deq f) f.i (ladPlan f (ringSpec f false)) s

/-! ### Fences, completion alone, stream control (R213, R214, R218) -/

/-- QFENCE (R213): with a mask of 0 it only performs its completion actions, at issue. -/
def qfenceSpec (f : LW) (_ : State) : LSpec :=
  { kind := .qfence f.cnt.toNat, ds := [], qmask := f.cnt.toNat, noQueue := f.cnt = 0 }

def execQfence (f : LW) (s : State) : Host.Outcome State Fault Refusal :=
  ladIssue (.qfence f) f.i (ladPlan f (qfenceSpec f)) s

def execCwrite (f : LW) (s : State) : Host.Outcome State Fault Refusal :=
  ladIssue (.cwrite f) f.i (ladPlan f fun _ => { kind := .cwrite, ds := [] }) s

def execBarrive (f : LW) (s : State) : Host.Outcome State Fault Refusal :=
  ladIssue (.barrive f) f.i (ladPlan f fun _ => { kind := .barrive, ds := [] }) s

def execLrdv (f : LW) (s : State) : Host.Outcome State Fault Refusal :=
  ladIssue (.lrdv f) f.i (fun s => .go { ctx := { s.ctx with ld := { s.ctx.ld with park := .stand } } }) s

def execLrdvEnd (f : LW) (s : State) : Host.Outcome State Fault Refusal :=
  ladIssue (.lrdvEnd f) f.i (fun s => .go { ctx := { s.ctx with ld := { s.ctx.ld with park := .ending } } }) s

/-- LIDLE (R218): the count's bits [23:4] stand in OFFD and [3:0] in OFFS. -/
def execLidle (f : LW) (s : State) : Host.Outcome State Fault Refusal :=
  ladIssue (.lidle f) f.i (fun s => .go { ctx := s.ctx, idle := f.offd.toNat * 16 + f.offs.toNat % 16 }) s

def execLnop (o : BitVec 4) (x : BitVec 112) (i : BitVec 8) (s : State) : Host.Outcome State Fault Refusal :=
  ladIssue (.lnop o x i) i (fun s => .go { ctx := s.ctx }) s

end Sys2Proof.Machine
end

