-- ==== Sys2Proof/Machine/Nodes.lean ====
section
/-!
DEFINITION. Region nodes and launch entries (14_contexts R287 to R292, R402, R420): fields, effective values, the ring,
and acceptance of an entry, shared by LAUNCH, the host, the time-triggered tables and the partition selector.
-/

namespace Sys2Proof.Machine

namespace State

/-! ### Fields of a node (R287) -/

def nodeField (s : State) (node word hi lo : Nat) : Nat := bits (s.dword (node + 8 * word)).toNat hi lo

def nodeKind (s : State) (n : Nat) : Nat := s.nodeField n 0 12 10
/-- PGRADE; 3 is taken as trap. -/
def nodeGrade (s : State) (n : Nat) : Grade :=
  match s.nodeField n 0 9 8 with
  | 0 => .node
  | 1 => .loop
  | _ => .trap
def ringBase (s : State) (n : Nat) : Nat := s.nodeField n 4 51 0
def ringSlots (s : State) (n : Nat) : Nat := s.nodeField n 5 15 0
def seqOf (s : State) (n : Nat) : Nat := (s.dword (n + 48)).toNat
def doneOf (s : State) (n : Nat) : Nat := (s.dword (n + 56)).toNat
def saveBase (s : State) (n : Nat) : Nat := s.nodeField n 12 51 0

/-- The effective values of R288. -/
def effCores (s : State) (n : Nat) : Nat := s.effective 25 (fun s m => s.nodeField m 2 15 0) 8 n
def effSpmb (s : State) (n : Nat) : Nat := s.effective 26 (fun s m => s.nodeField m 2 47 32) 8 n
def effHbmb (s : State) (n : Nat) : Nat := s.effective 27 (fun s m => s.nodeField m 3 47 0) 8 n
def effTokens (s : State) (n : Nat) : Nat := s.effective 28 (fun s m => s.nodeField m 2 31 16) 8 n
def effPrio (s : State) (n : Nat) : Nat := s.effective 29 (fun s m => s.nodeField m 0 23 20) 8 n

/-- The slot of sequence number `q` (R291), and its launch node (R290). -/
def slotOf (s : State) (node q : Nat) : Nat := s.ringBase node + 512 * ((q - 1) % s.ringSlots node)
def launchNode (s : State) (node q : Nat) : Nat := s.slotOf node q + 256

/-- Whether a module HBM address is malformed (R420). -/
def hbmBad (a : Nat) : Bool := decide (2 ^ 41 ≤ a)

/-- Whether a ring can be used: it lies in the pool, as does the launch node of its next slot (R287, R420). -/
def ringOk (s : State) (n : Nat) : Bool :=
  !nodeBad (s.ringBase n) && s.ringBase n % 512 = 0 && !nodeBad (s.launchNode n (s.seqOf n + 1))

/-- Whether the PARENT of a node or of one above it names no node (R420). -/
def parentBad (s : State) (n : Nat) : Bool :=
  (s.lineage 9 n).any fun m => s.parentOf m != 0 && nodeBad (s.parentOf m)

/-- The ring is full (R291), as one without slots always is. -/
def ringFull (s : State) (n : Nat) : Bool := decide (s.seqOf n - s.doneOf n ≥ s.ringSlots n)

/-- An armed time-triggered entry whose template names a node (R295, R341). -/
def armedFor (s : State) (n : Nat) : Bool :=
  s.diesT.any fun d => d.2.tt.any fun e => e.2.getLsbD 116 && (s.dword (bits e.2.toNat 115 64)).toNat % 2 ^ 52 = n

/-- The entry whose slot in the ring of `m` holds node `n`, where it has not ended. -/
def entryAt (s : State) (m n : Nat) : Bool :=
  let r := s.ringSlots m
  let o := n - 256 - s.ringBase m
  let q := s.doneOf m + 1 + (o / 512 + r - s.doneOf m % r) % r
  decide (0 < r) && decide (s.ringBase m + 256 ≤ n) && o % 512 = 0 && decide (o / 512 < r) && decide (q ≤ s.seqOf m)

/-- A node that the module holds state for (R341): the root; a node whose ring has an entry that has not ended, or that an
armed entry names; a launch's node and those above it; the launch node of an accepted entry. -/
def liveNode (s : State) (n : Nat) : Bool :=
  n = Config.rootNode
    || (s.nodes.contains n && (s.seqOf n != s.doneOf n || s.armedFor n))
    || (s.launches.any fun l => l.parent = n || (s.lineage 9 l.node).contains n)
    || s.nodes.any fun m => s.entryAt m n

/-! ### Acceptance (R290, R291, R402) -/

/-- One record of the acceptance journal of a die (R402). -/
def journalOn (s : State) (d node q : Nat) : State :=
  let i := (s.die d).jour
  let s := s.writeAt (Loc.run { mem := .pantry, unit := d, off := 0x3FF0000 + 16 * (i % 3840) } 16)
    (leBytes 8 node ++ leBytes 8 q)
  s.onDie d fun x => { x with jour := (i + 1) % 3840 }

/-- The journal records of an acceptance: on the die of the node's HBM and the next of the ring. -/
def journal (s : State) (node q : Nat) : State :=
  let d := node / 2 ^ 38 % 8
  (s.journalOn d node q).journalOn ((d + 1) % 8) node q

/-- The launch node of an accepted entry (R290): a child of KIND 3 of the ring's node, waiting; its PRIO override from
the entry, its read-only fields at their reset values. -/
def makeNode (s : State) (node q : Nat) : State :=
  let n := s.launchNode node q
  let e2 := (s.dword (s.slotOf node q + 16)).toNat
  let w0 := (s.dword n).toNat
  let w0 := putBits w0 31 25 (bits e2 28 28 * 16)
  let w0 := putBits w0 23 20 (bits e2 27 24)
  let w0 := putBits w0 15 13 (s.depthOf node + 1)
  let w0 := putBits w0 12 10 3
  let w0 := putBits w0 7 4 1
  let s := (s.setDword n (BitVec.ofNat 64 w0)).setDword (n + 8) (BitVec.ofNat 64 node)
  let s := [48, 56, 64, 72, 80, 88, 112, 120, 128, 136, 144, 152].foldl (fun s o => s.setDword (n + o) 0) s
  s.setField (n + 104) 57 56 0

/-- Acceptance of the entry that stands in the next slot (R291): journalled, then SEQ is written; none where the ring is
full or the node cannot accept. -/
def accept (s : State) (node : Nat) (tt : Bool) : Option (Nat × State) :=
  if nodeBad node || s.depthOf node ≥ 7 || !s.ringOk node || s.ringFull node then none
  else
    let q := s.seqOf node + 1
    -- a node that becomes live has started and ended every entry before this one
    let s := if s.liveNode node then s else
      { s with startedSeq := tput node (s.seqOf node) s.startedSeq, ended := s.ended.filter fun e => e.1 != node }
    let s := s.setField (s.slotOf node q + 16) 30 30 (if tt then 1 else 0)
    let s := s.journal node q
    let s := s.makeNode node q
    let s := s.setDword (node + 48) (BitVec.ofNat 64 q)
    let s := { s with nodes := if s.nodes.contains node then s.nodes else s.nodes ++ [node] }
    -- the submission of a phase's first entries is its first boundary (R299)
    some (q, if q = 1 && s.nodeKind node = 2 && s.nodeField node 13 55 52 != 0 then s.post .planSelect { n := node, b := true }
             else s)

/-- An entry copied into the next slot and accepted (R294, R296, R299). -/
def submit (s : State) (node : Nat) (entry : List Byte) (tt : Bool) : Option (Nat × State) :=
  if nodeBad node || s.depthOf node ≥ 7 || !s.ringOk node || s.ringFull node then none
  else
    let q := s.seqOf node + 1
    (s.writeAt ((hbmLoc (s.slotOf node q)).run 160) (entry.take 160)).accept node tt

/-- An entry that is not accepted because RING is malformed fails with LCAUSE 0x03 in its node (R420). -/
def noRing (s : State) (node : Nat) : State :=
  if !nodeBad node && decide (s.depthOf node < 7) && !s.ringOk node then s.setLcause node 0x03 else s

end State

/-- HOST_ENTRY_SUBMIT (R291): the host's entry in the next slot of node `n` is accepted, if the node and its ring allow. -/
def execHostEntrySubmit (s : State) : Host.Outcome State Fault Refusal :=
  .next (match s.accept s.arg.n false with
    | some (_, t) => t
    | none => s.noRing s.arg.n)

end Sys2Proof.Machine
end

