-- ==== Sys2Proof/Machine/Window.lean ====
section
/-!
DEFINITION. What the region-node window reads as (18_fabric R341, R342, R344, R350, R354, R358, R366, R372, R373; 14_contexts R287,
R295, R298), and what an agent's read of memory finds.
-/

namespace Sys2Proof.Machine

/-- Bits of dword `k` of a region node that are fields (R287); the others are reserved (00_scope R7). -/
def nodeFields (k : Nat) : BitVec 64 :=
  match k with
  | 0 => ~~~ 0x010F000F#64
  | 1 | 4 => 0x000FFFFFFFFFFFFF#64
  | 2 | 3 | 5 => 0x0000FFFFFFFFFFFF#64
  | 12 => 0x000FFFFFFFFFFFFF#64
  | 13 => 0x03FFFFFFFFFFFFFF#64
  | 14 => 0xFF#64
  | 15 => 0xFFFFFFFF#64
  | k => if k < 20 then BitVec.allOnes 64 else 0

/-- Bits of dword `k` of a live node that the host's writes change: fields that are not RO (R287, R341). -/
def nodeWritable (k : Nat) : BitVec 64 :=
  nodeFields k &&& match k with
    | 0 => ~~~ 0xE0F0#64
    | 6 | 7 | 14 | 15 | 16 | 17 | 18 | 19 => 0
    | 13 => ~~~ 0x0300000000000000#64
    | _ => BitVec.allOnes 64

/-- Dword `k` of a register wider than a dword. -/
def wideDword {w : Nat} (x : BitVec w) (k : Nat) : BitVec 64 := BitVec.ofNat 64 (x.toNat / 2 ^ (64 * k))

/-- Fields of a partition descriptor (R366); the reserved bits between them read 0. -/
def partFields : BitVec 256 :=
  BitVec.ofNat 256 (2 ^ 255 + (2 ^ 248 - 2 ^ 104) + (2 ^ 96 - 2 ^ 71) + (2 ^ 68 - 2 ^ 29))

namespace State

def sieve (s : State) (i n : Nat) : Sieve := tget {} (s.iod i).sieves n

/-- A dword of the region-node pool: reserved bits of a live node read 0; in SAFE no HBM answers (log entry 94). -/
def poolRead (s : State) (o : Nat) : BitVec 64 :=
  let a := Config.poolBase + o
  if s.hbmHeld (hbmLoc a) then Config.freeWord s.free
  else if s.liveNode (a / 256 * 256) then s.dword a &&& nodeFields (a / 8 % 32)
  else s.dword a

/-- The invalidation registers (R342). -/
def invRead (s : State) (o : Nat) : BitVec 64 :=
  match o with
  | 0x00 => s.invAsid.zeroExtend 64
  | 0x08 => s.invBase
  | 0x10 => s.invLen
  | 0x18 => if s.invGo then 1 else 0
  | _ => 0

/-- The registers of I/O die `i`.  What PLANREQ, PLANREL and LOADGO read as is free (log entry 69). -/
def iodRead (s : State) (i o : Nat) : BitVec 64 :=
  let d := s.iod i
  if o < 0x4000 then wideDword (d.qp.get (o / 32)) (o / 8 % 4)
  else if 0x100000 ≤ o && o < 0x108000 then d.import_.get ((o - 0x100000) / 8)
  else if o = 0x200000 || o = 0x200010 || o = 0xA00000 then Config.freeWord s.free
  else if o = 0x200008 then d.planres
  else if 0x300000 ≤ o && o < 0x320000 then
    let r := o - 0x300000
    wideDword ((s.sieve i (r / 2048)).part.get (r / 32 % 64) &&& partFields) (r / 8 % 4)
  else if 0x400000 ≤ o && o < 0x440000 then
    let r := o - 0x400000
    wideDword ((s.sieve i (r / 4096)).target.get (r / 16 % 256)) (r / 8 % 2)
  else if 0x500000 ≤ o && o < 0x600000 then
    let r := o - 0x500000
    let x := s.sieve i (r / 0x4000)
    BitVec.ofNat 64 ((x.imem.get (r % 0x4000 / 4)).toNat + (x.imem.get (r % 0x4000 / 4 + 1)).toNat * 2 ^ 32)
  else if 0x600000 ≤ o && o < 0xA00000 then
    let r := o - 0x600000
    wideDword ((s.sieve i (r / 0x10000)).flow.get (r / 16 % 4096)) (r / 8 % 2)
  else if o = 0xA00008 then d.loadst
  else if 0xA00010 ≤ o && o < 0xA04010 then
    let r := (o - 0xA00010) / 4
    let x := s.sieve i (r / 64)
    BitVec.ofNat 64 ((x.tcnt.get (r % 64)).toNat + (x.tcnt.get (r % 64 + 1)).toNat * 2 ^ 32)
  else 0

/-- A dword of the window at an offset that is a multiple of 8; offsets that R341 does not list read 0. -/
def windowRead (s : State) (o : Nat) : BitVec 64 :=
  if o < 0x20000000 then s.poolRead o
  else if o < 0x20800000 then
    let d := s.die ((o - 0x20000000) / 0x100000)
    let r := o % 0x100000
    if r < 0x8000 then wideDword (d.tt.get (r / 32)) (r / 8 % 4)
    else if r = 0x8000 then d.hob.zeroExtend 64
    else 0
  else if 0x21000000 ≤ o && o < 0x21000020 then s.invRead (o - 0x21000000)
  else if 0x22000000 ≤ o && o < 0x24000000 then s.iodRead ((o - 0x22000000) / 0x1000000) (o % 0x1000000)
  else if 0x24000000 ≤ o && o < 0x240001F0 then s.notify.get ((o - 0x24000000) / 8)
  else 0

/-- Byte `o` of the window. -/
def windowByte (s : State) (o : Nat) : Byte := BitVec.ofNat 8 ((s.windowRead (o / 8 * 8)).toNat / 2 ^ (8 * (o % 8)))

/-- What an agent reads at locations: their bytes; of a host link's own window, its registers (R354); of HBM in SAFE, free
values, as the spec gives none (R406, log entry 94). -/
def heard (s : State) (ls : List Loc) : List Byte :=
  if ls.any s.hbmHeld then (List.range ls.length).map fun k => (Config.freeWide s.free).extractLsb' (8 * (k % 256)) 8
  else if ls.any s.inWindow then
    ls.map fun l => if s.inWindow l then s.windowByte (l.off - ((s.link l.unit).bars.get 2).toNat) else s.byteAt l
  else s.bytesAt ls

end State

end Sys2Proof.Machine
end

