-- ==== Sys2Proof/Machine/LadleRun.lean ====
section
/-!
DEFINITION. What the Ladle and the ports do with a command after its issue (07_ladle_isa R198 to R217): which accesses
may come next, what one access does, port actions, ORD contributions (R207), retirement and second performance (R217),
and the taking of movable commands (14_contexts R300).
-/

namespace Sys2Proof.Machine

/-! ### Where a context stands -/

/-- A context's home: running on a core, held on a core, or saved by its launch. -/
inductive Home where
  | run (k : Nat)
  | held (k : Nat)
  | saved (node p : Nat)
deriving DecidableEq, Repr

namespace State

/-- The launch of a context, if it has one, on core `k`. -/
def ctxAt (s : State) : Home → Ctx
  | .run k => (s.core k).ctx
  | .held k => ((s.core k).held).getD {}
  | .saved node p => (((s.launchOf node).map fun l => tget {} l.saved p)).getD {}

def putCtx (s : State) (h : Home) (c : Ctx) : State :=
  match h with
  | .run k => s.onCore k fun x => { x with ctx := c }
  | .held k => s.onCore k fun x => { x with held := some c }
  | .saved node p => s.onLaunch node fun l => { l with saved := tput p c l.saved }

/-- The die on which a context's barriers stand (R254, R255). -/
def homeDie (s : State) : Home → Nat
  | .run k => dieOf k
  | .held k => dieOf k
  | .saved node p => ((s.launchOf node).map fun l => dieOf (l.cores.getD p 0)).getD 0

/-- Every home of a context. -/
def homes (s : State) : List Home :=
  (s.cores.flatMap fun p => (if p.2.live then [Home.run p.1] else []) ++ (if p.2.held.isSome then [Home.held p.1] else []))
    ++ s.launches.flatMap fun l => l.saved.map fun x => Home.saved l.node x.1

/-- A barrier as a context sees it (R254). -/
def barAt (s : State) (h : Home) (die : Bool) (b : Nat) : Bar :=
  let c := s.ctxAt h
  if die then pget {} (s.die (s.homeDie h)).bars (c.launch, b) else tget {} c.bars b

def setBarAt (s : State) (h : Home) (die : Bool) (b : Nat) (x : Bar) : State :=
  let c := s.ctxAt h
  if die then s.onDie (s.homeDie h) fun d => { d with bars := pput (c.launch, b) x d.bars }
  else s.putCtx h { c with bars := tput b x c.bars }

end State

/-- The home that an event's operands name: a core and whether the context is held there, or a node and an index. -/
def homeOf (a : EvArg) : Home :=
  if a.u != 0 then .saved a.u.toNat a.j else if a.b then .held a.n else .run a.n

def homeArg (h : Home) (cmd elem : Nat) : EvArg :=
  match h with
  | .run k => { n := k, m := cmd, k := elem }
  | .held k => { n := k, b := true, m := cmd, k := elem }
  | .saved node p => { u := BitVec.ofNat 64 node, j := p, m := cmd, k := elem }

/-! ### Order (R198, R199, R201, R213, R281) -/

/-- Single-copy-atomic size of a memory (R49) and the unit of a location. -/
def unitOf (ls : List Loc) : Mem × Nat × Nat :=
  let l := firstLoc ls
  (l.mem, l.unit, l.off / scaSize l.mem)

namespace LCmd

/-- An element that waits for nothing more: done, or never to be written because its data failed twice (R217). -/
def isScan (x : LCmd) : Bool :=
  match x.kind with
  | .scan .. => true
  | _ => false

/-- Whether element `e` depends on data that could not be decoded: its own, or in a scan an earlier one's. -/
def tainted (x : LCmd) (e : Nat) : Bool :=
  if x.isScan then (x.elems.take (e + 1)).any (·.bad) else (x.elems.getD e { src := [], dst := [] }).bad

/-- Every element is done, or is tainted. -/
def rested (x : LCmd) : Bool := (List.range x.elems.length).all fun e =>
  (x.elems.getD e { src := [], dst := [] }).done || x.tainted e

def complete (x : LCmd) : Bool := x.elems.all (·.done)

/-- Every access that the command will make has been made. -/
def settled (x : LCmd) : Bool := x.complete || (x.failed && x.rested)

/-- Locations that the command has still to access. -/
def todo (x : LCmd) : List Loc :=
  (x.elems.flatMap fun e => if e.done then [] else e.src ++ e.dst)
    ++ match x.kind with
      | .scan _ ls => if x.acc.isNone then ls else []
      | _ => []

end LCmd

/-- Sequencer stores on their way, those that a trap holds back among them, with issue number and class. -/
def storesOut (c : Ctx) : List (Nat × Nat) :=
  (outsOf { c with flights := c.frame.replay ++ c.flights }).filterMap fun o => match o.2 with
    | .store _ _ k => some (o.1, k.toNat)
    | _ => none

/-- Whether command `x` may access the locations `ls` now. -/
def mayGo (c : Ctx) (x : LCmd) (ls : List Loc) : Bool :=
  !c.vq.contains x.qn
  && (c.cmds.all fun d => d.id ≥ x.id || match d.kind with
    | .qfence m => m / 2 ^ x.qn % 2 = 0
    | .cwrite | .barrive => true
    | _ => d.settled ||
        !(d.cls = 15 || x.cls = 15 || (d.qn = x.qn && (d.cls = x.cls || d.todo.any ls.contains))))
  && (storesOut c).all fun o => o.1 ≥ x.seqAt || !(x.cls = 15 || o.2 = x.cls)

/-! ### Values (R35, R204, R205, R206) -/

/-- The combination of an accumulate form (R206): no flag, no saturation, rounding to nearest even. -/
def accBytes (f : Fm) (op : Nat) (dst src : List Byte) : List Byte :=
  let a := leNat dst
  let b := leNat src
  leBytes (f.bits / 8) (match op with
    | 0 => (addF f a b 0 false).1
    | 1 => minMax f false a b
    | 2 => minMax f true a b
    | 3 => a &&& b
    | 4 => a ||| b
    | _ => a ^^^ b)

/-- The running value of a scan after element `e` (R34, R205). -/
def scanUpTo (f : Fm) (x : LCmd) (e : Nat) : Nat :=
  let c := match x.acc with
    | some (b :: bs) => leNat (b :: bs)
    | _ => scanZero f
  ((x.elems.take (e + 1)).foldl (fun a y => canon f (addF f a (leNat (y.val.getD [])) 0 false).1) c)

/-- The bytes that an element's write stores. -/
def outBytes (x : LCmd) (e : Nat) (v : List Byte) : List Byte :=
  match x.kind with
  | .cvt a b => leBytes (b.bits / 8) (convert a b (leNat v) 0 false).1
  | .scan f _ => leBytes (f.bits / 8) (scanUpTo f x e)
  | _ => v

/-! ### Translation tables (R401) -/

/-- Valid entries among the listed dwords of a table of `n` dwords at a module HBM address. -/
def State.tableDwords (s : State) (base n : Nat) : List Nat :=
  let l := State.hbmLoc base
  let ks := ((s.die l.unit).hbm.filter fun e => decide (l.off ≤ e.1) && decide (e.1 < l.off + 8 * n)).map
    fun e => (e.1 - l.off) / 8
  (ks.foldl (fun a k => if a.contains k then a else a ++ [k]) []).map fun k => (s.dword (base + 8 * k)).toNat

def tblBase (e : Nat) : Nat := bits e 51 16 * 2 ^ 16

/-- The tables of the translation: base and bytes of the root, and of every table it leads to. -/
def State.tables (s : State) : List (Nat × Nat) :=
  let r := (s.tableDwords Config.asidRoot 65536).filter (· % 2 = 1)
  let t1 := r.map tblBase
  let e1 := (t1.flatMap fun b => s.tableDwords b 2048).filter fun e => bits e 1 0 = 1
  let t2 := e1.map tblBase
  let e2 := (t2.flatMap fun b => s.tableDwords b 2048).filter fun e => bits e 1 0 = 1
  [(Config.asidRoot, 8 * 65536)] ++ t1.map (fun b => (b, 8 * 2048)) ++ t2.map (fun b => (b, 8 * 2048))
    ++ e2.map fun e => (tblBase e, 8 * 16384)

/-- Whether a location lies in a translation table. -/
def State.inTables (s : State) (ls : List Loc) : Bool :=
  ls.any (fun l => l.mem = .hbm) && s.tables.any fun t => ls.any fun l =>
    l.mem = .hbm && l.unit = (State.hbmLoc t.1).unit && decide ((State.hbmLoc t.1).off ≤ l.off)
      && decide (l.off < (State.hbmLoc t.1).off + t.2)

/-! ### One access -/

/-- Replace a command of a context. -/
def Ctx.onCmd (c : Ctx) (id : Nat) (f : LCmd → LCmd) : Ctx :=
  { c with cmds := c.cmds.map fun x => if x.id = id then f x else x }

def LCmd.onElem (x : LCmd) (e : Nat) (f : LElem → LElem) : LCmd :=
  { x with elems := (x.elems.zip (List.range x.elems.length)).map fun p => if p.2 = e then f p.1 else p.1 }

/-- Entries of rings counted filled, and freed, in the order of their claims (R209, R210, R253). -/
def settleRing (c : Ctx) (g : Nat) (enq : Bool) : Nat → Ctx
  | 0 => c
  | fuel + 1 =>
    let k := if enq then 1 else 3
    let x := (c.ring g k).toNat
    match c.cmds.find? fun d => match d.kind with
      | .enq g' n => enq && g' = g && decide (at_ x d < n)
      | .deq g' n => !enq && g' = g && decide (at_ x d < n)
      | _ => false with
    | none => c
    | some d =>
      let n := match d.kind with
        | .enq _ n | .deq _ n => n
        | _ => 1
      let per := d.elems.length / n
      let es := (d.elems.drop (at_ x d * per)).take per
      if es.all fun e => if enq then e.done || d.sco = 0 else e.val.isSome then
        settleRing (c.setRing g k (c.ring g k + 1)) g enq fuel
      else c
where
  /-- The place of entry number `x` among the entries that `d` has claimed; numbers wrap modulo 2^32 (R253). -/
  at_ (x : Nat) (d : LCmd) : Nat := (x + 2 ^ 32 - d.base) % 2 ^ 32

/-- Both counters of the ring that a command works on. -/
def settleRings (c : Ctx) (x : LCmd) : Ctx :=
  match x.kind with
  | .enq g _ => settleRing c g true 65536
  | .deq g _ => settleRing c g false 65536
  | _ => c

namespace State

/-- Bytes performed leave the pending-byte counter of the command's barrier (R212). -/
def paidBytes (s : State) (h : Home) (x : LCmd) (n : Nat) : State :=
  match x.bar with
  | some (die, b) =>
    if x.payload = 0 then s
    else
      let r := s.barAt h die b
      if r.broken then s else s.setBarAt h die b { r with pend := r.pend - n }
  | none => s

/-- The elements of an access: from `e` on, those of one unit that `ok` accepts, in a row. -/
def runOf (x : LCmd) (loc : LElem → List Loc) (ok : Nat → LElem → Bool) (e : Nat) : List Nat :=
  let u := unitOf (loc (x.elems.getD e { src := [], dst := [] }))
  let idx := (List.range (x.elems.length - e)).map (e + ·)
  idx.takeWhile fun i =>
    let y := x.elems.getD i { src := [], dst := [] }
    ok i y && unitOf (loc y) = u

/-- Whether a write of a context's Ladle is a violation of R401: into a translation table, or under a pair never assigned. -/
def ladViolates (s : State) (c : Ctx) (ls : List Loc) : Bool :=
  (c.asid != 0 && s.inTables ls) || s.unassigned c.asid.toNat c.gen.toNat

/-- A violating write is dropped and reported (R401): the command fails and its queue starts nothing more. -/
def ladViolate (s : State) (h : Home) (x : LCmd) (e : Nat) : State :=
  let c := s.ctxAt h
  let s := s.putCtx h ({ c.onCmd x.id (fun x => { x.onElem e (fun y => { y with bad := true }) with
    failed := true, tries := 1 }) with vq := x.qn :: c.vq })
  match h with
  | .run k | .held k => s.post .violation { viol := .tableWrite k x.qn true }
  | .saved .. => s

/-- Read a run of source elements (R201, R263, R217). -/
def ladRead (s : State) (h : Home) (id e : Nat) : State :=
  let c := s.ctxAt h
  match c.cmds.find? fun x => x.id = id with
  | none => s
  | some x =>
    let es := runOf x (·.src) (fun _ y => !y.done && y.val.isNone && !y.bad) e
    if s.unassigned c.asid.toNat c.gen.toNat then s.ladViolate h x e
    else
    let x' := es.foldl (fun x i =>
      let y := x.elems.getD i { src := [], dst := [] }
      if s.anyBad y.src then { x.onElem i (fun y => { y with bad := true }) with failed := x.failed || decide (0 < x.tries) }
      else x.onElem i fun y => { y with val := some (s.heard y.src) }) x
    let c := c.onCmd id fun _ => x'
    (s.touch (es.flatMap fun i => (x.elems.getD i { src := [], dst := [] }).src)).putCtx h (settleRings c x')

/-- Read the carry of a scan (R205). -/
def ladCarry (s : State) (h : Home) (id : Nat) (ls : List Loc) : State :=
  let c := s.ctxAt h
  if s.anyBad ls then
    (s.touch ls).putCtx h (c.onCmd id fun x =>
      { x with acc := some [], failed := x.failed || decide (0 < x.tries)
               elems := x.elems.map fun y => { y with bad := true } })
  else (s.touch ls).putCtx h (c.onCmd id fun x => { x with acc := some (s.heard ls) })

/-- Write a run of destination elements. -/
def ladWrite (s : State) (h : Home) (id e : Nat) (ok : Nat → LElem → Bool) : State :=
  let c := s.ctxAt h
  match c.cmds.find? fun x => x.id = id with
  | none => s
  | some x =>
    let es := runOf x (·.dst) ok e
    if s.ladViolates c (es.flatMap fun i => (x.elems.getD i { src := [], dst := [] }).dst) then s.ladViolate h x e
    else
      let s := es.foldl (fun s i =>
        let y := x.elems.getD i { src := [], dst := [] }
        s.writeAt y.dst (outBytes x i (y.val.getD []))) s
      let x' := es.foldl (fun x i => x.onElem i fun y => { y with done := true }) x
      let c := (s.ctxAt h).onCmd id fun _ => x'
      let n := (es.map fun i => (x.elems.getD i { src := [], dst := [] }).dst.length).sum
      (s.putCtx h (settleRings c x')).paidBytes h x n

/-- The action of an accumulate at its port (R206) on what it finds there. -/
def portAcc (s : State) (f : Fm) (op : Nat) (dst : List Loc) (old src : List Byte) : State :=
  s.writeAt dst (accBytes f op old src)

/-- The action of XCHG and CMPX at their port (R208): the old value, and memory after it.  One that writes nothing has entered
its unit all the same (R396). -/
def portXchg (s : State) (cmp : Bool) (dst : List Loc) (v : List Byte) : List Byte × State :=
  let old := s.heard dst
  let w := dst.length
  let s := if !cmp then s.writeAt dst v
    else if old = v.take w then s.writeAt dst (v.drop w) else s.enterUnit (firstLoc dst)
  (old, s)

/-- An accumulate into host memory has two halves (R206, R277): what the I/O die has read for element `e` of a command. -/
def hostRead (s : State) (h : Home) (id e : Nat) (dst : List Loc) : State :=
  s.putCtx h ((s.ctxAt h).onCmd id fun x => x.onElem e fun y => { y with old := some (s.heard dst) })

/-- Whether the first half of an accumulate is still to come. -/
def hostFirst (y : LElem) : Bool := (firstLoc y.dst).mem = .host && y.old.isNone

/-- The bytes to which an accumulate adds: what its I/O die has read, else what the port finds. -/
def oldOf (s : State) (y : LElem) : List Byte := y.old.getD (s.heard y.dst)

/-! ### ORD (R207) -/

/-- The die that keeps the order state of a destination port. -/
def portDie (l : Loc) : Nat :=
  match l.mem with
  | .spm => dieOf l.unit
  | .pantry | .hbm => l.unit
  | _ => 8

/-- The port of a location, whose 2,048 slots hold waiting contributions. -/
def portOf (l : Loc) : Mem × Nat × Nat :=
  (l.mem, l.unit, match l.mem with
    | .pantry => l.off / 32 % 256
    | _ => 0)

/-- The producers of a launch, and those that have departed. -/
def ordN (s : State) (node : Nat) : Nat := ((s.launchOf node).map (·.n)).getD 1
def ordGone (s : State) (node : Nat) : List Nat := ((s.launchOf node).map (·.exited)).getD []

/-- The next (round, producer) in order. -/
def ordNext (n : Nat) (t : Nat × Nat) : Nat × Nat := if t.2 + 1 < n then (t.1, t.2 + 1) else (t.1 + 1, 0)

/-- Skip producers that have departed. -/
def ordSkip (n : Nat) (gone : List Nat) : Nat → Nat × Nat → Nat × Nat
  | 0, t => t
  | k + 1, t => if gone.contains t.2 then ordSkip n gone k (ordNext n t) else t

/-- The key of a context's order state: its launch, and for a firmware kernel, which has none, its service core's die. -/
def ordKey (s : State) (h : Home) : Nat := let c := s.ctxAt h; if c.launch = 0 then 1 + s.homeDie h else c.launch

/-- The order state of a launch's element, and its next contribution. -/
def ordSt (s : State) (launch : Nat) (l : Loc) : OrdSt :=
  ((s.die (portDie l)).ords.find? fun o => o.launch = launch && o.loc = l).getD
    { launch := launch, loc := l, n := s.ordN launch, round := 0, prod := 0, waits := [] }

def setOrdSt (s : State) (o : OrdSt) : State :=
  s.onDie (portDie o.loc) fun d =>
    { d with ords := (d.ords.filter fun x => !(x.launch = o.launch && x.loc = o.loc)) ++ [o] }

def ordDue (s : State) (o : OrdSt) : Nat × Nat := ordSkip o.n (s.ordGone o.launch) (o.n + 1) (o.round, o.prod)

/-- Contributions waiting at a port. -/
def portWaits (s : State) (l : Loc) : Nat :=
  (((s.die (portDie l)).ords.filter fun o => portOf o.loc = portOf l).map fun o => o.waits.length).sum

/-- An ORD contribution can be accepted: it is next, or a slot is free. -/
def ordOpen (s : State) (h : Home) (y : LElem) : Bool :=
  let l := firstLoc y.dst
  s.ordDue (s.ordSt (s.ordKey h) l) = (y.round, (s.ctxAt h).p) || decide (s.portWaits l < 2048)

/-- A port action of element `e` (R206 to R208, R217). -/
def ladPort (s : State) (h : Home) (id e : Nat) : State :=
  let c := s.ctxAt h
  match c.cmds.find? fun x => x.id = id with
  | none => s
  | some x =>
    let y := x.elems.getD e { src := [], dst := [] }
    let v := y.val.getD []
    let l := firstLoc y.dst
    let fail (s : State) : State := s.putCtx h ((s.ctxAt h).onCmd id fun x =>
      { x.onElem e (fun y => { y with bad := true }) with failed := x.failed || decide (0 < x.tries) })
    if s.ladViolates c y.dst then s.ladViolate h x e
    else
      match x.kind with
      | .acc f op =>
        if x.ord then
          let o := s.ordSt (s.ordKey h) l
          let due := s.ordDue o
          if due = (y.round, c.p) then
            if s.anyBad y.dst then
              let nx := if x.tries = 0 then due else ordNext o.n due
              fail ((s.touch y.dst).setOrdSt { o with round := nx.1, prod := nx.2 })
            else if hostFirst y then s.hostRead h id e y.dst
            else
              let nx := ordNext o.n due
              let s := ((s.touch y.dst).portAcc f op y.dst (s.oldOf y) v).setOrdSt { o with round := nx.1, prod := nx.2 }
              (s.putCtx h ((s.ctxAt h).onCmd id fun x => x.onElem e fun y => { y with done := true })).paidBytes h x
                y.dst.length
          else
            let w : OrdWait := { round := y.round, prod := c.p, cmd := id, elem := e, bytes := v, fm := f, op := op }
            let s := s.setOrdSt { o with waits := o.waits ++ [w] }
            s.putCtx h ((s.ctxAt h).onCmd id fun x => x.onElem e fun y => { y with ret := true })
        else if s.anyBad y.dst then fail (s.touch y.dst)
        else if hostFirst y then s.hostRead h id e y.dst
        else
          let s := (s.touch y.dst).portAcc f op y.dst (s.oldOf y) v
          (s.putCtx h ((s.ctxAt h).onCmd id fun x => x.onElem e fun y => { y with done := true })).paidBytes h x
            y.dst.length
      | k =>
        if s.anyBad y.dst then fail (s.touch y.dst)
        else
          let (old, s) := (s.touch y.dst).portXchg (k = .cmpx) y.dst v
          (s.putCtx h ((s.ctxAt h).onCmd id fun x =>
            x.onElem e fun y => { y with val := some old, ret := true })).paidBytes h x y.dst.length

/-- A command whose contributions have all been accepted leaves its queue (R195). -/
def ladLeave (s : State) (h : Home) (id : Nat) : State :=
  s.putCtx h ((s.ctxAt h).onCmd id fun x =>
    { x with left := x.left || (x.ord && x.elems.all fun y => y.done || y.ret) })

/-- The value returned to the source by XCHG and CMPX (R208). -/
def ladReturn (s : State) (h : Home) (id e : Nat) : State :=
  let c := s.ctxAt h
  match c.cmds.find? fun x => x.id = id with
  | none => s
  | some x =>
    let y := x.elems.getD e { src := [], dst := [] }
    let ls := y.src.take y.dst.length
    if s.ladViolates c ls then s.ladViolate h x e
    else
      let s := s.writeAt ls (y.val.getD [])
      (s.putCtx h ((s.ctxAt h).onCmd id fun x => x.onElem e fun y => { y with done := true })).paidBytes h x ls.length

/-! ### Completion and retirement (R195, R200, R211 to R214, R217) -/

/-- No QFENCE that names the queue of a command, issued before it, still stands (R213). -/
def unfenced (c : Ctx) (x : LCmd) : Bool :=
  c.cmds.all fun d => d.id ≥ x.id || match d.kind with
    | .qfence m => m / 2 ^ x.qn % 2 = 0
    | _ => true

/-- Completion actions of a queue are performed in issue order (R200): a word, and the arrival of a BARRIVE. -/
def cwTurn (c : Ctx) (x : LCmd) : Bool :=
  unfenced c x && c.cmds.all fun d => d.id ≥ x.id || d.qn != x.qn || d.failed
    || ((d.cw.isNone || d.cdone) && (d.bar.isNone || d.kind != .barrive))

/-- Every read of a command has found data that can be decoded, its port actions are done, and of an ORD accumulate every
contribution is applied (R211, R217). -/
def readGood (x : LCmd) : Bool :=
  x.complete || (!x.ord && x.acc.isSome && x.elems.all fun y => y.done || (y.val.isSome && !y.bad && (y.ret || !rmw x)))
where
  rmw (x : LCmd) : Bool := match x.kind with
    | .acc .. | .xchg | .cmpx => true
    | _ => false

/-- Whether a command may count its completion word: its accesses are performed at its scope, and it cannot fail any more. -/
def mayCount (c : Ctx) (x : LCmd) : Bool :=
  x.cw.isSome && !x.cdone && !x.failed && cwTurn c x
    && (match x.kind with
        | .qfence _ | .cwrite | .barrive => false
        | _ => x.complete || (x.sco = 0 && readGood x))

/-- The completion word of a command counts (R211); where the word cannot be decoded it does not, and the command performs the
action once more, and then fails (R217). -/
def ladCount (s : State) (h : Home) (id : Nat) : State :=
  let c := s.ctxAt h
  match c.cmds.find? fun x => x.id = id with
  | some { cw := some ls, tries := n, .. } =>
    if s.anyBad ls then
      (s.touch ls).putCtx h (c.onCmd id fun x => { x with tries := 1, failed := x.failed || decide (0 < n) })
    else
      let s := s.countWords [ls]
      s.putCtx h ((s.ctxAt h).onCmd id fun x => { x with cdone := true })
  | _ => s

/-- Whether a command may retire. -/
def mayRetire (c : Ctx) (x : LCmd) : Bool :=
  if c.vq.contains x.qn then true
  else if !unfenced c x then false
  else
    match x.kind with
    | .qfence m => c.cmds.all fun d => d.id ≥ x.id || (match d.kind with
        | .qfence m' => (m &&& m') = 0
        | _ => m / 2 ^ d.qn % 2 = 0)
    | .cwrite | .barrive => c.cmds.all fun d => d.id ≥ x.id || (match d.kind with
        | .qfence m' => m' / 2 ^ x.qn % 2 = 0
        | _ => d.qn != x.qn)
    | .enq g n => x.failed && x.rested || (x.complete && decide (n ≤ (c.ring g 1 - BitVec.ofNat 32 x.base).toNat))
    | .deq g n => x.failed && x.rested || (x.complete && decide (n ≤ (c.ring g 3 - BitVec.ofNat 32 x.base).toNat))
    | _ => x.settled && (x.failed || x.cw.isNone || x.cdone)

/-- Arrive at a barrier, or wait in the Ladle where it has arrived in the phase (R212). -/
def ladArrive (s : State) (h : Home) (die : Bool) (b : Nat) : State :=
  let r := s.barAt h die b
  let c := s.ctxAt h
  let g := c.agent die true
  if r.broken then s
  else if r.arrived.contains g then s.putCtx h { c with defer := c.defer ++ [(die, b)] }
  else s.setBarAt h die b { r with arrived := g :: r.arrived }

/-- The command with the given number leaves the context. -/
def dropCmd (s : State) (h : Home) (id : Nat) : State :=
  let c := s.ctxAt h
  s.putCtx h { c with cmds := c.cmds.filter fun x => x.id != id }

/-- The cause of a command that has failed (R404): 0x03 for a violation or a removed part, 0x0B for data that could not be
decoded. -/
def failCause (s : State) (c : Ctx) (x : LCmd) : Nat :=
  let gone (l : Loc) : Bool := l.mem = .hbm && (s.die l.unit).gone.contains (l.off / 2 ^ 36)
  if c.vq.contains x.qn || x.elems.any (fun y => y.bad && (y.src ++ y.dst).any gone) || x.cw.any (fun ls => ls.any gone) then 0x03
  else 0x0B

/-- Retirement (R195): completion actions, page locks released, the taker freed; a failed command performs no word,
breaks its barrier and leaves an asynchronous cause (R217).  A fence, CWRITE or BARRIVE counts its word first. -/
def ladRetire (s0 : State) (h : Home) (id : Nat) : State :=
  let first (x : LCmd) : Bool := x.cw.isSome && !x.cdone && !x.failed && !(s0.ctxAt h).vq.contains x.qn
  let s := match (s0.ctxAt h).cmds.find? fun x => x.id = id with
    | some x => if first x then s0.ladCount h id else s0
    | none => s0
  let c := s.ctxAt h
  match c.cmds.find? fun x => x.id = id with
  | none => s
  | some x =>
    if first x then s
    else
    let s := match x.taker with
      | some k => s.onCore k fun t => { t with taking := t.taking - 1 }
      | none => s
    let late := match x.kind with
      | .qfence _ | .barrive => true
      | _ => false
    if x.failed || c.vq.contains x.qn then
      let cause := s.failCause c x
      let s := match x.bar with
        | some (die, b) => s.setBarAt h die b { s.barAt h die b with broken := true }
        | none => s
      let c := s.ctxAt h
      let first := ((List.range x.elems.length).find? fun e => x.tainted e).getD 0
      let s := s.putCtx h { c with causes := c.causes ++
        [(trapWord 0 true x.qn cause, BitVec.ofNat 64 (first % 2 ^ 20), BitVec.ofNat 64 (x.qn + x.id % 64 * 256))] }
      s.dropCmd h id
    else
      let s := match x.bar with
        | some (die, b) => if late then s.ladArrive h die b else s
        | none => s
      s.dropCmd h id

/-- A second performance is due (R217): every element that does not depend on the bad data is done. -/
def mayReperform (x : LCmd) : Bool := x.tries = 0 && !x.failed && x.elems.any (·.bad) && x.rested

/-- The dependent elements are performed once more; an element already read keeps what it read. -/
def ladReperform (s : State) (h : Home) (id : Nat) : State :=
  s.putCtx h ((s.ctxAt h).onCmd id fun x =>
    { x with
      tries := 1
      acc := match x.kind with
        | .scan _ ls => if ls.isEmpty then x.acc else (if x.elems.all (·.bad) then none else x.acc)
        | _ => x.acc
      elems := x.elems.map fun y => if y.bad then { y with bad := false } else y })

/-! ### What may come next -/

/-- The accesses and completions of a command. -/
inductive LAct where
  | read (e : Nat)
  | carry (ls : List Loc)
  | write (e : Nat)
  | port (e : Nat)
  | ret (e : Nat)
  | count
  | reperform
  | retire
deriving DecidableEq, Repr

/-- An element that may be written: what it writes is known, and no source still to be read overlaps it (R201). -/
def writable (x : LCmd) (i : Nat) (y : LElem) : Bool :=
  !y.done && !y.bad && !y.ret && y.val.isSome
    && (!x.isScan || (x.acc.isSome && (x.elems.take (i + 1)).all fun z => z.val.isSome && !z.bad))
    && x.elems.all fun z => z.done || z.val.isSome || z.bad || !(z.src.any y.dst.contains)

/-- Whether the run of an access starts at element `i`. -/
def leads (x : LCmd) (loc : LElem → List Loc) (ok : Nat → LElem → Bool) (i : Nat) : Bool :=
  ok i (x.elems.getD i { src := [], dst := [] }) &&
    (i = 0 || !(ok (i - 1) (x.elems.getD (i - 1) { src := [], dst := [] }) &&
      unitOf (loc (x.elems.getD (i - 1) { src := [], dst := [] })) = unitOf (loc (x.elems.getD i { src := [], dst := [] }))))

/-- Every next act of one command. -/
def ladActs (s : State) (h : Home) (x : LCmd) : List LAct :=
  let c := s.ctxAt h
  let at_ (i : Nat) : LElem := x.elems.getD i { src := [], dst := [] }
  let idx := List.range x.elems.length
  let unread (_ : Nat) (y : LElem) : Bool := !y.done && y.val.isNone && !y.bad
  let rmw := match x.kind with
    | .acc .. | .xchg | .cmpx => true
    | _ => false
  (idx.filter fun i => leads x (·.src) unread i && mayGo c x (at_ i).src).map .read
  ++ (match x.kind with
      | .scan _ ls => if x.acc.isNone && mayGo c x ls then [.carry ls] else []
      | _ => [])
  ++ (if rmw then
        ((idx.filter fun i => writable x i (at_ i) && mayGo c x (at_ i).dst && (!x.ord || s.ordOpen h (at_ i))).map .port)
        ++ (idx.filter fun i => (at_ i).ret && !(at_ i).done && !x.ord && mayGo c x (at_ i).src).map .ret
      else (idx.filter fun i => leads x (·.dst) (writable x) i && mayGo c x (at_ i).dst).map .write)
  ++ (if mayCount c x then [.count] else [])
  ++ (if mayReperform x then [.reperform] else [])
  ++ (if mayRetire c x then [.retire] else [])

/-- The Ladle that performs a command, its owner's or its taker's, notes when it starts one (R300). -/
def noteStart (s : State) (h : Home) (id : Nat) : State :=
  let c := s.ctxAt h
  match c.cmds.find? fun x => x.id = id, h with
  | some x, .run k =>
    if x.elems.all fun y => !y.done && y.val.isNone && !y.bad then
      s.onCore (x.taker.getD k) fun y => { y with ladleAt := s.ref }
    else s
  | _, _ => s

/-- Every next act of every Ladle of the module. -/
def allLadActs (s : State) : List (Home × Nat × LAct) :=
  s.homes.flatMap fun h =>
    let c := s.ctxAt h
    c.cmds.flatMap fun x => (s.ladActs h x).map fun a => (h, x.id, a)

/-- Order states whose next contribution waits (R207). -/
def ordReady (s : State) : List (Nat × OrdSt) :=
  s.diesT.flatMap fun p => (p.2.ords.filter fun o =>
    o.waits.any fun w => (w.round, w.prod) = s.ordDue o).map fun o => (p.1, o)

/-- The home of a producer, by the key of its order state. -/
def producerHome (s : State) (key p : Nat) : Option Home :=
  s.homes.find? fun h => s.ordKey h = key && (s.ctxAt h).p = p

/-- The waiting contribution that is next is applied (R207). -/
def ordApply (s : State) (o : OrdSt) : State :=
  let due := s.ordDue o
  match o.waits.find? fun w => (w.round, w.prod) = due with
  | none => s
  | some w =>
    match s.producerHome o.launch w.prod with
    | none => s
    | some h =>
      match (s.ctxAt h).cmds.find? fun x => x.id = w.cmd with
      | none => s
      | some x =>
        let y := x.elems.getD w.elem { src := [], dst := [] }
        let dst := y.dst
        let waits := o.waits.filter (· != w)
        if s.anyBad dst then
          let nx := if x.tries = 0 then due else ordNext o.n due
          let s := (s.touch dst).setOrdSt { o with round := nx.1, prod := nx.2, waits := waits }
          s.putCtx h ((s.ctxAt h).onCmd w.cmd fun x =>
            { x.onElem w.elem (fun y => { y with bad := true, ret := false }) with
              failed := x.failed || decide (0 < x.tries) })
        else if hostFirst y then s.hostRead h w.cmd w.elem dst
        else
          let nx := ordNext o.n due
          let s := ((s.touch dst).portAcc w.fm w.op dst (s.oldOf y) w.bytes).setOrdSt { o with round := nx.1, prod := nx.2, waits := waits }
          (s.putCtx h ((s.ctxAt h).onCmd w.cmd fun x => x.onElem w.elem fun y => { y with done := true })).paidBytes h x
            dst.length

/-- The element that an act concerns, and the locations of host memory that it accesses. -/
def actElem : LAct → Nat
  | .read e | .write e | .port e | .ret e => e
  | _ => 2 ^ 32

def actLocs (s : State) (h : Home) (id : Nat) (a : LAct) : List Loc :=
  let ls := match (s.ctxAt h).cmds.find? fun x => x.id = id with
    | none => []
    | some x =>
      let at_ (e : Nat) : LElem := x.elems.getD e { src := [], dst := [] }
      match a with
      | .read e => (runOf x (·.src) (fun _ y => !y.done && y.val.isNone && !y.bad) e).flatMap fun i => (at_ i).src
      | .write e => (runOf x (·.dst) (writable x) e).flatMap fun i => (at_ i).dst
      | .port e => (at_ e).dst
      | .ret e => (at_ e).src
      | .carry ls => ls
      | .count => x.cw.getD []
      | _ => []
  ls.filter fun l => l.mem = .host

/-- The second halves of accumulates into host memory that stand on the bytes `ls`, but for element `me`: no other access of a
Kazros agent comes between the two halves (R206). -/
def hostDone (s : State) (ls : List Loc) (me : Home × Nat × Nat) : State :=
  if ls.isEmpty then s
  else
    let open_ := s.homes.flatMap fun h => (s.ctxAt h).cmds.flatMap fun x =>
      (((List.range x.elems.length).zip x.elems).filter fun e =>
        e.2.old.isSome && !e.2.done && e.2.dst.any ls.contains && decide ((h, x.id, e.1) ≠ me)).map fun e => (h, x.id, e.1, e.2)
    open_.foldl (fun s o =>
      if o.2.2.2.ret then s.ordApply (s.ordSt (s.ordKey o.1) (firstLoc o.2.2.2.dst))
      else (s.ladPort o.1 o.2.1 o.2.2.1).ladLeave o.1 o.2.1) s

/-- Accumulates into host memory that stand on the bytes `ls` end before another agent's access of them (R206). -/
def hostClear (s : State) (ls : List Loc) : State := s.hostDone (ls.filter fun l => l.mem = .host) (.saved 0 0, 0, 0)

/-- One act of a command that no row of the opcode table names. -/
def ladAct (s : State) (h : Home) (id : Nat) (a : LAct) : State :=
  let s := (s.noteStart h id).hostDone (s.actLocs h id a) (h, id, actElem a)
  match a with
  | .read e => s.ladRead h id e
  | .carry ls => s.ladCarry h id ls
  | .write e =>
    match (s.ctxAt h).cmds.find? fun x => x.id = id with
    | some x => s.ladWrite h id e (writable x)
    | none => s
  | .port e => (s.ladPort h id e).ladLeave h id
  | .ret e => s.ladReturn h id e
  | .count => s.ladCount h id
  | .reperform => s.ladReperform h id
  | .retire => s.ladRetire h id

end State

/-! ### The events of the table -/

/-- PORT_ACTION (R206): the port action of one element, where it may come now. -/
def execPortAction (s : State) : Host.Outcome State Fault Refusal :=
  let a := s.arg
  let h := homeOf a
  .next (match (s.ctxAt h).cmds.find? fun x => x.id = a.m with
    | some x => if (s.ladActs h x).contains (.port a.k) then s.ladAct h a.m (.port a.k) else s
    | none => s)

/-- ORD_CONTRIBUTION_APPLY (R207): the order state number `k` of die `n`. -/
def execOrdContributionApply (s : State) : Host.Outcome State Fault Refusal :=
  .next (match (s.die s.arg.n).ords[s.arg.k]? with
    | some o =>
      match o.waits.find? fun w => (w.round, w.prod) = s.ordDue o, s.producerHome o.launch ((s.ordDue o).2) with
      | some w, some h => (s.hostDone (s.actLocs h w.cmd (.port w.elem)) (h, w.cmd, w.elem)).ordApply o
      | _, _ => s
    | none => s)

/-- LADLE_COMMAND_RETIRE (R195). -/
def execLadleCommandRetire (s : State) : Host.Outcome State Fault Refusal :=
  let a := s.arg
  let h := homeOf a
  let c := s.ctxAt h
  .next (match c.cmds.find? fun x => x.id = a.m with
    | some x => if State.mayRetire c x then s.ladRetire h a.m else s
    | none => s)

/-- LADLE_REPERFORM (R217). -/
def execLadleReperform (s : State) : Host.Outcome State Fault Refusal :=
  let a := s.arg
  let h := homeOf a
  .next (match (s.ctxAt h).cmds.find? fun x => x.id = a.m with
    | some x => if State.mayReperform x then s.ladReperform h a.m else s
    | none => s)

/-- Whether core `t` may take commands of core `k` (R251, R300): a lit sibling of the quad in service, idle or frozen on
a wait, that lends nothing. -/
def State.mayTake (s : State) (t k : Nat) (matrix : Bool) : Bool :=
  let x := s.core t
  t != k && dieOf t = dieOf k && quadOf t = quadOf k && decide (t < 1536) && x.lendTo.isNone && x.svc = 0
    && (if x.live then !matrix && x.ctx.freeze.any fun f => abandons f.2 else !matrix || x.held.isNone)
    && (matrix || (decide (x.ladleAt + 64 * (if x.live then x.ctx.div 4 else 4) ≤ s.ref)))

/-- The oldest movable asynchronous matrix command of core `k` that has not started.  DESIGN CHOICE: one with an operand in
the lent window, of which the spec does not say whether it may be taken, stays with its owner (log entry 88). -/
def State.movJob (s : State) (k : Nat) : Option Job :=
  (s.core k).ctx.asyncQ.find? fun j => j.mov && j.next = 0 && j.taker.isNone && !j.lent

/-- The oldest movable Ladle command of core `k` that R198 to R200 let start. -/
def State.movCmd (s : State) (k : Nat) : Option LCmd :=
  let c := (s.core k).ctx
  c.cmds.find? fun x => x.mov && x.taker.isNone && (x.elems.all fun y => !y.done && y.val.isNone && !y.bad)
    && x.elems.all fun y => mayGo c x (y.src ++ y.dst)

/-- Whether core `t` would take something of core `k`. -/
def State.takable (s : State) (t k : Nat) : Bool :=
  (s.core k).live && ((s.mayTake t k true && (s.movJob k).isSome) || (s.mayTake t k false && (s.movCmd k).isSome))

/-- The sibling that core `t` serves next: in quad position order, after the one it last served. -/
def State.nextServed (s : State) (t : Nat) : Option Nat :=
  ((List.range 4).map fun i => t / 4 * 4 + ((s.core t).served + 1 + i) % 4).find? (s.takable t)

/-- MOVABLE_TAKE (R300): core `n` takes the oldest movable command of the sibling it serves next, core `m`, that has not
started; with `b` an asynchronous matrix command. -/
def execMovableTake (s : State) : Host.Outcome State Fault Refusal :=
  let t := s.arg.n
  let k := s.arg.m
  let c := (s.core k).ctx
  .next (if s.nextServed t != some k || !s.mayTake t k s.arg.b then s
    else if s.arg.b then
      match s.movJob k with
      | some j =>
        let s := s.onCore k fun x => { x with ctx := { c with
          asyncQ := c.asyncQ.map fun i => if i.id = j.id then { i with taker := some t } else i } }
        s.onCore t fun x => { x with taking := x.taking + 1, served := posOf k }
      | none => s
    else
      match s.movCmd k with
      | some x =>
        let s := s.putCtx (.run k) (c.onCmd x.id fun x => { x with taker := some t })
        s.onCore t fun y => { y with taking := y.taking + 1, served := posOf k }
      | none => s)

end Sys2Proof.Machine
end

