-- ==== Sys2Proof/Machine/Effects.lean ====
section
/-!
DEFINITION. The scheduled parts of issued instructions (02_core_state R55, R62; 05_vector_tile_isa R127, R128, R140;
12_memory_model R266, R418): RESULT_LAND, far loads, outward actions with the Taster (R88, R397, R398, R419), the tile
swap (14_contexts R308), and the re-forming of a replay entry from changed sources (R314).
-/

namespace Sys2Proof.Machine

/-! ### The schedule of a context -/

/-- One scheduled part: its core time, phase, its stream's place among writers of one edge, its instruction's place in
issue order, its place in that instruction's script, and what it does. -/
structure Item where
  t : Nat
  ph : Nat
  rank : Nat
  seq : Nat
  pos : Nat
  eff : Eff
deriving DecidableEq, Repr

/-- Order of two parts (R128, R266). -/
def Item.before (x y : Item) : Bool :=
  decide (x.t < y.t) || (x.t = y.t && (decide (x.ph < y.ph) || (x.ph = y.ph && (decide (x.rank < y.rank) ||
    (x.rank = y.rank && (decide (x.seq < y.seq) || (x.seq = y.seq && decide (x.pos < y.pos))))))))

/-- The parts of one instruction. -/
def itemsOf (f : Flight) : List Item :=
  (f.script.zip (List.range f.script.length)).map fun e =>
    { t := e.1.1, ph := e.1.2.1, rank := if e.1.2.1 = 0 then f.strm else 0, seq := f.seq, pos := e.2, eff := e.1.2.2 }

/-- The first of some parts. -/
def firstItem : List Item → Option Item
  | [] => none
  | x :: xs =>
    match firstItem xs with
    | none => some x
    | some y => if y.before x then some y else some x

def Eff.isOut : Eff → Bool
  | .out _ => true
  | _ => false

def Eff.isExit : Eff → Bool
  | .out .exitKernel => true
  | _ => false

namespace Ctx

def items (c : Ctx) : List Item := c.flights.flatMap itemsOf

/-- The part that comes next in core time, the exit of the kernel apart. -/
def nextItem (c : Ctx) : Option Item := firstItem (c.items.filter fun x => !x.eff.isExit)

/-- The outward action that comes next in program order (R419). -/
def nextOut (c : Ctx) : Option Item :=
  firstItem ((c.items.filter fun x => x.eff.isOut && !x.eff.isExit).map fun x => { x with t := x.seq, ph := 0 })

def flightOf (c : Ctx) (seq : Nat) : Flight :=
  (c.flights.find? fun f => f.seq = seq).getD { strm := 0, seq := seq, pc := 0, word := 0 }

/-- A part taken out of its script. -/
def takeItem (c : Ctx) (x : Item) : Ctx :=
  { c with flights := c.flights.map fun f => if f.seq = x.seq then { f with script := f.script.eraseIdx x.pos } else f }

def addItems (c : Ctx) (seq : Nat) (es : List (Nat × Nat × Eff)) : Ctx :=
  { c with flights := c.flights.map fun f => if f.seq = seq then { f with script := f.script ++ es } else f }

/-- Instructions with nothing left to do are no longer outstanding. -/
def prune (c : Ctx) : Ctx := { c with flights := c.flights.filter fun f => !f.script.isEmpty }

def addFreeze (c : Ctx) (n : Nat) (f : Freeze) : Ctx :=
  if c.freeze.any fun x => x.2 = f then c else { c with freeze := c.freeze ++ [(n, f)] }

/-- The core is frozen for a drain alone: what is in flight lands while core time stands (R48, R117, R123). -/
def draining (c : Ctx) : Bool := !c.freeze.isEmpty && c.freeze.all fun f => drains f.2

end Ctx

/-! ### The tile unit (R308, R322) -/

namespace State

/-- The tile's place and its shape's place in a save block (R307, R322). -/
def tileAt (n : Nat) : Nat := 0x2000 + 1024 * n
def shapeAt (n : Nat) : Nat := 0x1DB0 + 2 * n

/-- The save block of a context (R307). -/
def blockOf (s : State) (launch p : Nat) : Nat := s.saveBase launch + p * 0x820000

/-- The core whose register files hold the register portion of a context's save block (R246, R307): the first lender of a hot or
searing context that is on a core. -/
def spillOf (s : State) (launch p : Nat) : Option Nat :=
  (s.homes.findSome? fun h => match h with
    | .saved .. => none
    | h => let c := s.ctxAt h
      if c.launch = launch && c.p = p then some c.lenders.head? else none).getD none

/-- The `n` bytes from module HBM address `a` on; a range may go on on the next die (R420). -/
def hbmLocs (a n : Nat) : List Loc := (List.range n).map fun i => hbmLoc (a + i)

/-- Bytes written at offset `o` of the save area of a context (R307). -/
def areaPut (s : State) (launch p o : Nat) (bs : List Byte) : State :=
  match s.spillOf launch p with
  | some j => s.onCore j fun x => { x with spill := setBytes x.spill o bs }
  | none => s.writeAt (hbmLocs (s.blockOf launch p + o) bs.length) bs

/-- `n` bytes at offset `o` of the save area of a context, as a number. -/
def areaGet (s : State) (launch p o n : Nat) : Nat :=
  match s.spillOf launch p with
  | some j => leNat (getBytes (s.core j).spill o n)
  | none => s.natAt (hbmLocs (s.blockOf launch p + o) n)

/-- Tile `n` of core `k` written to the save area of its owner: cells outside its shape as +0, its shape with DIRTY clear. -/
def writeTile (s : State) (k n launch p : Nat) : State :=
  let x := s.core k
  let cell (i : Nat) : Nat := if i / 16 < x.rows n && i % 16 < x.cols n then (x.tiles.get (n * 256 + i)).toNat else 0
  let s := s.areaPut launch p (tileAt n) ((List.range 256).flatMap fun i => leBytes 4 (cell i))
  s.areaPut launch p (shapeAt n) (leBytes 2 (x.tshape.get n &&& 0x3FF).toNat)

/-- The tile as a core with no cells of it listed holds it. -/
def clearTile (k : Core) (n : Nat) : Core :=
  { k with tiles := k.tiles.filter fun e => e.1 / 256 != n, tshape := k.tshape.set n 0 }

/-- A tile loaded from the save area of a context, DIRTY clear; an unconfigured tile holds +0 in every cell (R45). -/
def loadTile (s : State) (k n launch p : Nat) : State :=
  let sh := BitVec.ofNat 16 (s.areaGet launch p (shapeAt n) 2) &&& 0x3FF
  let x := clearTile (s.core k) n
  let cells := if sh.toNat % 32 = 0 then [] else List.range 256
  s.setCore k { x with
    tiles := cells.foldl (fun t i => t.set (n * 256 + i) (BitVec.ofNat 32 (s.areaGet launch p (tileAt n + 4 * i) 4))) x.tiles
    tshape := x.tshape.set n sh }

/-- The tile unit brings tile `n` to the running context of core `k` (R308): a dirty tile of a context that still lives
goes to its save area first; a firmware kernel has none. -/
def bringTile (s : State) (k n : Nat) : State :=
  let x := s.core k
  let c := x.ctx
  let owner := (x.towner.find? fun o => o.1 = n).map (·.2)
  if owner = some (c.launch, c.p) then s
  else
    let s := match owner with
      | none => s
      | some o =>
        let alive := s.homes.any fun h => let y := s.ctxAt h; y.launch = o.1 && y.p = o.2 && y.mode != CtxMode.exiting
        if alive && o.1 != 0 && (x.tshape.get n).getLsbD 12 then s.writeTile k n o.1 o.2 else s
    let s := if c.launch = 0 then s.setCore k (clearTile (s.core k) n) else s.loadTile k n c.launch c.p
    s.onCore k fun y => { y with towner := tput n (c.launch, c.p) y.towner }

end State

/-! ### What one part does -/

/-- The cells of tile `n` after TCFG (R147), and its shape field. -/
def reshape (k : Core) (n r c : Nat) (z : Bool) : Core :=
  let keep (key : Nat) : Bool := !z && decide (key / 16 % 16 < min r (k.rows n)) && decide (key % 16 < min c (k.cols n))
  let tiles := k.tiles.filter fun e => e.1 / 256 != n || keep e.1
  let sh := k.tshape.get n
  let new : BitVec 16 := BitVec.ofNat 16 (r + 32 * c)
  let dirty := sh.getLsbD 12 || (sh &&& 0x3FF) != new || tiles != k.tiles
  { k with tiles := tiles, tshape := k.tshape.set n (if dirty then new ||| 0x1000 else new) }

/-- Cells of tile `n` written; DIRTY is set (R148). -/
def setCells (k : Core) (n : Nat) (cells : List (Nat × BitVec 32)) : Core :=
  { k with tiles := cells.foldl (fun t e => t.set e.1 e.2) k.tiles
           tshape := k.tshape.set n (k.tshape.get n ||| 0x1000) }

/-- Moment pairs written under a lane mask (R42). -/
def mergePairs (km : BitVec 32) (old new : BitVec 2048) : BitVec 2048 :=
  let m := BitVec.ofNat 2048 (packElems 64 ((List.range 32).map fun l => if km.getLsbD l then 2 ^ 64 - 1 else 0))
  (old &&& ~~~ m) ||| (new &&& m)

/-- A field of a loop-nest level by its code (R105, R158): COUNT, ASTEP, BSTEP, CSTEP, GSTEP. -/
def nestField (fld : Nat) : Nat × Nat :=
  match fld with
  | 0 => (143, 128)
  | 1 => (127, 96)
  | 2 => (95, 64)
  | 3 => (63, 32)
  | _ => (31, 0)

/-- A control register of an engine written at its edge (R153, R182). -/
def writeEngine (c : Ctx) (me : Bool) (reg : Nat) (v : Word) : Ctx :=
  match me, reg with
  | false, 0 => { c with arithV := writeArith c.arithV (v.setWidth 32) }
  | false, 1 => { c with momV := writeMomcfg (v.setWidth 32) }
  | false, 2 => { c with ve := { c.ve with save := v &&& 0x9FFFFFFFFFFFFFFF } }
  | true, 0 => { c with arithM := writeArith c.arithM (v.setWidth 32) }
  | true, 1 => { c with momM := writeMomcfg (v.setWidth 32) }
  | true, 2 => { c with me := { c.me with save := v &&& 0x800000000000001F } }
  | _, _ => c

/-- Reset values of the PHY registers by offset within a pseudo-channel (R412); the array keeps what differs. -/
def phyReset (off : Nat) : Word :=
  match off % 0x800 with
  | 0x00 | 0x08 => 0x4040404040404040
  | 0x20 => 0x8000000000000000
  | _ => 0

def Die.phyGet (d : Die) (off : Nat) : Word := d.phy.get (off / 8) ^^^ phyReset off

def Die.phySet (d : Die) (off : Nat) (v : Word) : Die := { d with phy := d.phy.set (off / 8) (v ^^^ phyReset off) }

/-- A PHY register as a load reads it: TESTST shows PSPARE only while EN is 1, and then PASS bit SEL as 0 (R414). -/
def Die.phyRead (d : Die) (off : Nat) : Word :=
  let v := d.phyGet off
  if off % 0x800 != 0x20 then v
  else
    let r := d.phyGet (off - 0x10)
    if r.getLsbD 4 then v &&& ~~~ (1#64 <<< (r.toNat % 8)) else v &&& ~~~ 0x100#64

namespace State

/-- The number that a sequencer load finds, its own pending stores forwarded (R88). -/
def loadAt (s : State) (seq : Nat) (loc : Loc) (n : Nat) : Nat :=
  if loc.mem = .phy then ((s.die loc.unit).phyRead loc.off).toNat else leNat ((loc.run n).map (s.forwarded seq))

/-- A loaded value as the register takes it (R93). -/
def loadVal (v n : Nat) (sx : Bool) : Word := if sx then BitVec.ofInt 64 (sgn (8 * n) v) else BitVec.ofNat 64 v

/-- The edge's access to an own window waits for an earlier outward action of the sequencer (R94, R418). -/
def heldBack (c : Ctx) (f : Flight) (x : Item) : Bool :=
  f.strm = 0 && match x.eff with
    | .store ps _ => orderedBefore c x.seq (classOf f) (ps.map (·.loc))
    | .rdS _ l n _ _ => orderedBefore c x.seq (classOf f) (l.run n)
    | .rdH _ l _ => orderedBefore c x.seq (classOf f) (l.run 32)
    | _ => false

/-- The bytes that one row of an ALOAD reads (R181). -/
def rowLocs (s : State) (d : Desc) (pos : Int) (ta : Bool) (row : Nat) : List Loc :=
  (List.range 32).flatMap fun n => match cellAt d pos ta row n with
    | some i => s.elemLocs d i
    | none => []

/-- The bytes that a step or read of the ME or the gather unit consumes (R391, R400). -/
def replayLocs (s : State) (e : Eff) : List Loc :=
  match e with
  | .step j k => s.stepLocs j k
  | .rdX ls _ => ls.flatMap fun l => l.run 4
  | .rdA _ d _ row pos ta _ _ => s.rowLocs (Desc.of d) pos ta row
  | _ => []

/-- A step or read of the ME or the gather unit meets data that cannot be decoded (R391, R400). -/
def badRead (s : State) (e : Eff) : Bool := s.anyBad (s.replayLocs e)

/-- The core freezes for the replay of what has read bad data; the read counts (R391, R400). -/
def askReplay (s : State) (ls : List Loc) (job : Option Nat) : State :=
  let t := s.touch ls
  t.setCtx (t.ctx.addFreeze 2 (.replay job))

/-! ### Faults of the data that the vector engine reads (R141, R154, R191, R330) -/

/-- The cause that the bytes of a read of the VE raise, with TFADDR: 0x0B of data that cannot be decoded, 0x07 of a negative
variance, 0x09 of a fingerprint that differs. -/
def dataFault (s : State) (e : Eff) : Option (Nat × BitVec 64) :=
  match e with
  | .rdV _ ps _ => if s.anyBad (ps.map (·.loc)) then some (0x0B, 0) else none
  | .rdT _ cells _ => if s.anyBad (cells.flatMap fun e => e.2.run 4) then some (0x0B, 0) else none
  | .rdQ _ ps km _ =>
    let q := BitVec.ofNat 2048 (gather s.byteAt ps)
    if s.anyBad (ps.map (·.loc)) then some (0x0B, 0)
    else if (List.range 32).any fun l => km.getLsbD l && negVar (pairOf q l).2 then some (0x07, 0) else none
  | .rdF _ ls c ends off _ =>
    if s.anyBad ls then some (0x0B, off)
    else if (fpWant c ends).any fun w => fingerprint (fpRun c) (s.bytesAt ls) != w then some (0x09, off) else none
  | _ => none

/-- A part that a vector word of before the faulting one has performed for good: its stores and reads. -/
def isAccess : Eff → Bool
  | .store .. | .rdV .. | .rdQ .. | .rdT .. | .rdF .. => true
  | _ => false

/-- The VE's words in flight as they stood before the faulting one issued: results that have landed since land again. -/
def unland (now : List Flight) (f : Flight) : Flight :=
  let left := ((now.find? fun g => g.seq = f.seq).map (·.script)).getD []
  { f with script := (f.script.filter fun e => !isAccess e.2.2 && !left.contains e) ++ left }

/-- The context with its vector engine as it stood at the issue edge of a word that faults at its read, and with core time at
that edge, the trap edge (R154, R310): the words that the VE has issued since are taken back.  Log entry 31. -/
def rewind (c : Ctx) (p : Probe) : Ctx :=
  { c with
    ctime := p.at_, ve := p.ve, v := p.v, k := p.k, q := p.q, la := p.la, lb := p.lb, lc := p.lc
    arithV := p.arithV, momV := p.momV
    flights := isort (fun f g => decide (f.seq ≤ g.seq))
      ((c.flights.filter fun f => f.strm != 1) ++ p.flights.map (unland c.flights))
    probes := c.probes.filter fun x => decide (x.seq < p.seq) }

/-- The tiles of the context as they stood then. -/
def rewindTiles (k : Core) (p : Probe) : Core :=
  { k with
    tiles := p.tiles.foldl (fun t e => t.set e.1 e.2) (k.tiles.filter fun e => !p.mine.contains (e.1 / 256))
    tshape := p.tshape.foldl (fun t e => t.set e.1 e.2) (k.tshape.filter fun e => !p.mine.contains e.1) }

/-- The trap of a vector word whose data faults. -/
def vecTrap (s : State) (x : Item) (cause : Nat) (addr : BitVec 64) : State :=
  let c := (s.ctx.takeItem x).prune
  let k := { s.me with mark := none, xres := [] }
  match c.probes.find? fun p => p.seq = x.seq with
  | none => (s.setMe k).trapInto c 1 false cause 0 addr 0
  | some p => (s.setMe (rewindTiles k p)).trapInto (rewind c p) 1 false cause 0 addr 0

/-- One part of the schedule is performed at its edge. -/
def landEff (s : State) (x : Item) : State :=
  let c0 := s.ctx
  let c := c0.takeItem x
  let put (s : State) (c : Ctx) : State := s.setCtx c.prune
  let add (s : State) (c : Ctx) (es : List (Nat × Nat × Eff)) : State := s.setCtx (c.addItems x.seq es).prune
  -- the data of a vector word has passed its tests
  let read (s : State) (es : List (Nat × Nat × Eff)) : State :=
    add s { c with probes := c.probes.filter fun p => p.seq != x.seq } es
  match x.eff with
  | .store ps src =>
    put (ps.foldl (fun s p => s.setByte p.loc (putPiece p src (s.byteAt p.loc))) (s.fresh (ps.map (·.loc)))) c
  | .rdS d loc n sx land => add (s.touch (loc.run n)) c [(land, 2, .sreg d (loadVal (s.loadAt x.seq loc n) n sx))]
  | .rdH d loc land => add (s.touch (loc.run 32)) c [(land, 2, .hreg d (BitVec.ofNat 256 (s.loadAt x.seq loc 32)))]
  | .rdV d ps land =>
    read (s.touch (ps.map (·.loc)))
      [(land, 2, .vreg d (BitVec.ofNat 1024 (pieceMask ps)) (BitVec.ofNat 1024 (gather s.byteAt ps)) fNone)]
  | .rdQ d ps km land =>
    read (s.touch (ps.map (·.loc)))
      [(land, 2, .qreg d km (cleanPairs (BitVec.ofNat 2048 (gather s.byteAt ps))) fNone)]
  | .rdT n cells land =>
    read (s.touch (cells.flatMap fun e => e.2.run 4))
      [(land, 2, .tset n (cells.map fun e => (e.1, BitVec.ofNat 32 (s.natAt (e.2.run 4)))))]
  | .rdF d locs vc _ _ land => read (s.touch locs) [(land, 2, .fold d (s.bytesAt locs) vc)]
  | .fold d bs vc => put s (c.wv d loLanes ((fingerprint (fpRun vc) bs).zeroExtend 1024))
  | .rdX locs land =>
    add (s.touch (locs.flatMap fun l => l.run 4)) c [(land, 2, .ix ((List.range 32).map fun m =>
      (locs[m]?).elim (BitVec.allOnes 32) fun l => BitVec.ofNat 32 (s.natAt (l.run 4))))]
  | .sreg d v => put s (c.ws d v)
  | .hreg d v => put s { c with h := c.h.set d v }
  | .vreg d m v fl => put s { c.wv d m v with arithV := orFlags c.arithV fl }
  | .qreg d km v fl => put s { c with q := c.q.set d (mergePairs km (c.q.get d) v), arithV := orFlags c.arithV fl }
  | .kreg d v => put s (c.wk d v)
  | .tcfg n r cc z =>
    let s := s.bringTile s.focus n
    put (s.setMe (reshape s.me n r cc z)) c
  | .tset n cells =>
    let s := s.bringTile s.focus n
    put (s.setMe (setCells s.me n cells)) c
  | .ix v => put s { c with ix := ((List.range 32).zip v).foldl (fun t e => t.set e.1 (~~~ e.2)) c.ix }
  | .desc n v => put s { c with desc := c.desc.set n v }
  | .lnt l fld v =>
    let p := nestField fld
    put s { c with lnts := c.lnts.set l (BitVec.ofNat 144 (putBits (c.lnts.get l).toNat p.1 p.2 v.toNat)) }
  | .csr me reg v => put s (writeEngine c me reg v)
  | .step j k =>
    let ab := s.stepRead j k
    let d := c.div 2
    let own := x.t + (if j.lent then 9 else 6) * d
    -- the groups of one plane enter in the order of their steps (R31)
    let (t, ph) := match c.groupsOn (j.planes k) with
      | some (u, p) => if own ≤ u then (u, p) else (own, 2)
      | none => (own, 2)
    let c := (if j.zc && j.firstAt k then c.zeroPlanes (j.planes k) else c).staged j k ab
    add (s.touch (s.stepLocs j k)) c
      ([(t, ph, .grp j k ab.1 ab.2)] ++ (if k + 1 < j.total then [(x.t + d, 1, .step j (k + 1))] else []))
  | .grp j k a b => put s (landGroup j k a b c)
  | .pzero ps => put s (c.zeroPlanes ps)
  | .rdA _ d p row pos ta mom land =>
    let ds := Desc.of d
    let vs := (List.range 32).map fun n => match cellAt ds pos ta row n with
      | some i => gather s.byteAt (s.piecesOf ds i 0)
      | none => 0
    let one (p : Nat) (g : Nat → Nat) : Nat × Nat × Eff := (land, 2, .prow p row (vs.map fun v => BitVec.ofNat 32 (g v)))
    add (s.touch (s.rowLocs ds pos ta row)) c
      ([one p (· % 2 ^ 32)] ++ (if mom then [one (p + 1) fun v => posZero (v / 2 ^ 32)] else []))
  | .prow p row cells =>
    put s (((List.range 32).zip cells).foldl (fun c e => c.setCell p (row * 32 + e.1) e.2.toNat) c)
  | .far .. => s.setCtx (c0.addFreeze 0 .far)
  | .frz fz => put s (c.addFreeze 0 fz)
  | .fault cause addr => s.vecTrap x cause addr
  | .out _ => s

/-- A part of the schedule lands; a store of the sequencer into its own scratchpad or lent window only once the Taster has
produced it (R88, R398). -/
def landTasted (s : State) (f : Flight) (x : Item) : State :=
  match f.strm, x.eff with
  | 0, .store .. => (s.tasterHolds).getD (s.landEff x)
  | _, _ => s.landEff x

end State

/-- A vector word whose data raises a cause traps at the end of the edge, once what the edge performs is done (R310). -/
def State.faultLater (s : State) (x : Item) (cause : Nat) (addr : BitVec 64) : State :=
  let t := s.touch (match x.eff with
    | .rdV _ ps _ | .rdQ _ ps _ _ => ps.map (·.loc)
    | .rdT _ cells _ => cells.flatMap fun e => e.2.run 4
    | .rdF _ ls _ _ _ _ => ls
    | _ => [])
  t.setCtx ((t.ctx.takeItem x).addItems x.seq [(x.t, 9, .fault cause addr)])

/-- A part of the schedule comes about: an access that R418 holds back, and a read of the ME or the gather unit of data that
cannot be decoded, freeze the core instead (R400); a read of the VE whose data faults becomes its trap (R154). -/
def State.landPart (s : State) (x : Item) : State :=
  if s.badRead x.eff then s.askReplay (s.replayLocs x.eff) none
  else
    match s.dataFault x.eff with
    | some (cause, addr) => s.faultLater x cause addr
    | none => s.landTasted (s.ctx.flightOf x.seq) x

/-- RESULT_LAND (R62, R86, R127, R128): the next part of the running context's schedule takes effect, once core time has
reached it or the core drains.  A sequencer access that R418 holds back freezes the core instead. -/
def execResultLand (s : State) : Host.Outcome State Fault Refusal :=
  let c := s.ctx
  .next (match c.nextItem with
    | none => s
    | some x =>
      let held := State.heldBack c (c.flightOf x.seq) x
      if x.eff.isOut || !s.me.live then s
      else if c.freeze.isEmpty && x.t ≤ c.ctime then
        if held then s.setCtx (c.addFreeze 0 .order) else s.landPart x
      else if c.draining && !held then
        match x.eff with
        | .far .. => s
        | _ => s.landPart x
      else s)

/-- The bytes of a far load that one access of its memory returns, after those returned so far (R263). -/
def State.farPiece (s : State) (seq : Nat) (l : Loc) (n : Nat) (got : List Byte) : List Byte :=
  if l.mem = .phy then leBytes n (s.loadAt seq l n)
  else if s.hbmHeld l then s.heard (l.run (n - got.length))
  else if s.inWindow l then s.heard (Loc.run { l with off := l.off + got.length } (min (n - got.length) (scaSize l.mem)))
  else (Loc.run { l with off := l.off + got.length } (min (n - got.length) (scaSize l.mem))).map (s.forwarded seq)

/-- FAR_LOAD_RETURN (R86, R94, R263): what a far load finds in the next single-copy-atomic unit that it touches, once the
earlier stores that R94 orders before it have been performed; the whole value is written four ticks after the freeze's core
time. -/
def execFarLoadReturn (s : State) : Host.Outcome State Fault Refusal :=
  let c := s.ctx
  .next (match c.nextItem with
    | some x =>
      match x.eff with
      | .far d loc n sx hnd got =>
        if (decide (x.t ≤ c.ctime) || c.draining) && !orderedBefore c x.seq (classOf (c.flightOf x.seq)) (loc.run n) then
          if s.unassigned c.asid.toNat c.gen.toNat then s.post .violation { viol := .pairUnknown s.focus }
          else
          let s := s.hostClear (loc.run n)
          let c := s.ctx
          let bs := got ++ s.farPiece x.seq loc n got
          if bs.length < n then s.setCtx ((c.takeItem x).addItems x.seq [(x.t, x.ph, .far d loc n sx hnd bs)])
          else
            let v := leNat bs
            let e : Eff := if hnd then .hreg d (BitVec.ofNat 256 v) else .sreg d (State.loadVal v n sx)
            let t := s.touch (loc.run n)
            t.setCtx ((t.ctx.takeItem x).addItems x.seq [(x.t + 4 * c.div 0, 2, e)]).prune
        else s
      | _ => s
    | none => s)

/-- TILE_SWAP (R149, R308). -/
def execTileSwap (s : State) : Host.Outcome State Fault Refusal :=
  .next (match s.ctx.freeze.find? fun f => match f.2 with
      | .tile _ => true
      | _ => false with
    | some (_, .tile n) => s.bringTile s.focus n
    | _ => s)

/-! ### Replay entries re-formed from their sources (R314) -/

/-- The effects of a vector word whose value follows from its sources, from those captured. -/
def redoVec (i : Instr) (f : Flight) : Option VRes :=
  let k := f.env.km
  let e := f.env
  match i with
  | .vadd t x => some (vadd t x k e f.a f.b)
  | .vsub t x => some (vsub t x k e f.a f.b)
  | .vmul t x => some (vmul t x k e f.a f.b)
  | .vfma t x => some (vfma t x k e f.a f.b f.c)
  | .vmin t x => some (vmin t x k f.a f.b)
  | .vmax t x => some (vmax t x k f.a f.b)
  | .vdiv x => some (vdiv x k e f.a f.b)
  | .vsqrt x => some (vfun vsqrtV x k e f.a)
  | .vrcp x => some (vfun vrcpV x k e f.a)
  | .vrsq x => some (vfun vrsqV x k e f.a)
  | .vexp2 x => some (vfun vexp2V x k e f.a)
  | .vlog2 x => some (vfun vlog2V x k e f.a)
  | .vabs x => some (vsign (· % 2 ^ 31) x k f.a)
  | .vneg x => some (vsign (fun v => (v + 2 ^ 31) % 2 ^ 32) x k f.a)
  | .vand x => some (vlogic (· &&& ·) x k f.a f.b)
  | .vor x => some (vlogic (· ||| ·) x k f.a f.b)
  | .vxor x => some (vlogic (· ^^^ ·) x k f.a f.b)
  | .vnot x => some (vlogic (fun v _ => ~~~ v) x k f.a 0)
  | .vsll x => some (vlogic (fun v y => v <<< (y.toNat % 32)) x k f.a f.b)
  | .vsrl x => some (vlogic (fun v y => v >>> (y.toNat % 32)) x k f.a f.b)
  | .vsra x => some (vlogic (fun v y => v.sshiftRight (y.toNat % 32)) x k f.a f.b)
  | .vsel x => some (vsel x (f.c.setWidth 32) k f.a f.b)
  | .vcvt x => some (vcvt x k e f.a)
  | .vcvtb x => some (vcvtb x e f.a)
  | .vrsum t x => some (vrsum t x k e f.a)
  | .vrmax t x => some (vrmax t x k f.a)
  | .vrmin t x => some (vrmin t x k f.a)
  | .vscan t x => some (vscan t x k e f.a f.b)
  | .vcomp2of4 x => some (vcomp x f.a)
  | .dot16E4 x => some (dot16 x k e f.a f.b f.c)
  | .radd x => some (radd x k f.a f.b)
  | .rsub x => some (rsub x k f.a f.b)
  | .vmov x => some (vmov x k f.a)
  | .vbcast _ => some (vbcastV k f.b)
  | .viota x => some (viota k (if x.be = 1 then lane f.b 0 else 0))
  | .vfromk _ => some (vfromk k (f.a.setWidth 32))
  | _ => none

/-- The mask that a word writes, from the sources captured. -/
def redoMask (i : Instr) (f : Flight) : Option (BitVec 32) :=
  match i with
  | .vcmp t x => some (vcmp t x f.env.km f.a f.b)
  | .kfromv x => some (kfromv x f.a)
  | .kand _ => some ((f.a &&& f.b).setWidth 32)
  | .kor _ => some ((f.a ||| f.b).setWidth 32)
  | .kxor _ => some ((f.a ^^^ f.b).setWidth 32)
  | .knot _ => some ((~~~ f.a).setWidth 32)
  | _ => none

/-- The effects of an entry whose copies have no layout in the spec, after a write of one of them: the values that it makes of
them are free ones, `n` their number (log entry 2). -/
def redoOpen (n : Nat) (e : Nat × Nat × Eff) : Nat × Nat × Eff :=
  let w := Config.freeWide n
  let job (j : Job) : Job :=
    { j with
      da := w.extractLsb' 0 256, db := w.extractLsb' 256 256, pa := w.extractLsb' 512 20 |>.toNat
      pb := w.extractLsb' 544 20 |>.toNat
      ix := (List.range 32).map fun m => w.extractLsb' (1024 + 32 * m) 32
      env := { j.env with mom := w.extractLsb' 576 32 } }
  match e with
  | (t, ph, .step j k) => (t, ph, .step (job j) k)
  | (t, ph, .grp j k a b) => (t, ph, .grp { j with env := (job j).env } k a b)
  | (t, ph, .rdA id _ p row _ ta mom land) =>
    (t, ph, .rdA id (w.extractLsb' 0 256) p row (w.extractLsb' 512 20).toNat ta mom land)
  | (t, ph, .store ps _) => (t, ph, .store ps w)
  | (_, _, .rdX _ land) => (land, 2, .ix ((List.range 32).map fun m => w.extractLsb' (32 * m) 32))
  | (t, ph, .ix _) => (t, ph, .ix ((List.range 32).map fun m => w.extractLsb' (32 * m) 32))
  | (t, ph, .qreg d km _ _) => (t, ph, .qreg d km w (Config.freeWord n |>.setWidth 6))
  | (t, ph, .vreg d m _ fl) => (t, ph, .vreg d m (w.setWidth 1024) fl)
  | e => e

/-- A store's or register write's value re-formed. -/
def redoEff (i : Instr) (f : Flight) (e : Eff) : Eff :=
  match e with
  | .sreg d v =>
    match aluOf i with
    | some op => .sreg d (op (f.a.setWidth 64) (f.b.setWidth 64))
    | none =>
      match i with
      | .hget _ _ fld _ => .sreg d (opHget fld.toNat (f.a.setWidth 256))
      | _ => .sreg d v
  | .desc n _ => .desc n (cleanDesc (f.a.setWidth 256))
  | .lnt l fld _ => .lnt l fld (f.a.setWidth 64)
  | .store ps src =>
    match i with
    | .st .. | .hst .. | .vst _ => .store ps (f.c.zeroExtend 2048)
    | _ => .store ps src
  | .out (.store loc bs cls) => .out (.store loc (leBytes bs.length f.c.toNat) cls)
  | .out (.piece loc bs cls) =>
    .out (.piece loc (leBytes bs.length (f.c.toNat / 2 ^ (8 * (loc.off % 32)))) cls)
  | .out (.csrw x _) => .out (.csrw x (f.a.setWidth 64))
  | .vreg d m v fl =>
    match i with
    | .tget _ => .vreg d m f.a fl
    | _ =>
      match redoVec i f with
      | some r => .vreg d r.m r.v r.fl
      | none => .vreg d m v fl
  | .qreg d km v fl =>
    match i with
    | .qmake _ => .qreg d km (ofPairs ((List.range 32).map fun l =>
        if km.getLsbD l then makePair f.a f.b l else (0, 0))) fl
    | _ => .qreg d km v fl
  | .rdF d ls _ ends off land => .rdF d ls f.c ends off land
  | .fold d bs _ => .fold d bs f.c
  | .kreg d v => .kreg d ((redoMask i f).getD v)
  | .tset n cells =>
    match i with
    | .tset x => .tset n (cells.map fun q =>
        (q.1, BitVec.ofNat 32 (lane f.a (if x.dir = 1 then q.1 / 16 % 16 else q.1 % 16))))
    | _ => .tset n cells
  | .csr me reg _ => .csr me reg (f.b.setWidth 64)
  | e => e

/-- A replay entry's effects from its captured sources (R314, R315); `n` numbers the free values of one whose copies have no
layout. -/
def redo (n : Nat) (f : Flight) : Flight :=
  if openSources f then { f with script := f.script.map (redoOpen n) }
  else
    match decodeWord (strmOf f.strm) f.word with
    | .ok i => { f with script := f.script.map fun e => (e.1, e.2.1, redoEff i f e.2.2) }
    | .error _ => f

/-! ### Outward actions and the Taster (R88, R397, R398, R419) -/

namespace State

/-- A write of RDLY, WDLY or REPAIR (R412): held while a test runs. -/
def phySetting (s : State) (d off : Nat) (v : Word) : State :=
  s.onDie d fun x =>
    let v := match off % 0x800 with
      | 0x10 => v &&& 0x17
      | _ => v &&& 0x7F7F7F7F7F7F7F7F
    if (x.phyGet (off / 0x800 * 0x800 + 0x20)).getLsbD 63 then x.phySet off v
    else { x with phyHeld := x.phyHeld ++ [(off, v)] }

/-- A write of TESTCTL (R412): DIR takes the written bit, and GO starts a test where none runs; it reads 1 until DONE.  In SAFE
no HBM command is issued, and GO starts none (R406). -/
def phyControl (s : State) (d off : Nat) (v : Word) : State :=
  s.onDie d fun x =>
    let st := off / 0x800 * 0x800 + 0x20
    if !(x.phyGet st).getLsbD 63 then x.phySet off (v &&& 2 ||| 1)
    else if v.getLsbD 0 && s.boot.phase != 0x80 then (x.phySet off (v &&& 3)).phySet st 0
    else x.phySet off (v &&& 2)

/-- A store into the PHY window (R412). -/
def phyStore (s : State) (d off : Nat) (v : Word) : State :=
  match off % 0x800 with
  | 0x00 | 0x08 | 0x10 => s.phySetting d off v
  | 0x18 => s.phyControl d off v
  | _ => s

/-- An outward action is performed (R88, R112, R114, R121, R294): a far store into a translation table by an address
space other than 0 is a violation (R401) and is dropped. -/
def performOut (s : State) (x : Item) (o : Out) : State :=
  let c := s.ctx
  let s1 := s.setCtx (c.takeItem x)
  let fin (s : State) : State := s.setCtx s.ctx.prune
  match o with
  | .store loc bs _ | .piece loc bs _ =>
    if loc.mem = .phy then fin (s1.phyStore loc.unit loc.off (BitVec.ofNat 64 (leNat bs)))
    else
      let ls := loc.run bs.length
      if c.asid != 0 && s1.inTables ls then fin (s1.post .violation { viol := .tableWrite s.focus 0 false })
      else if s1.unassigned c.asid.toNat c.gen.toNat then fin (s1.post .violation { viol := .pairUnknown s.focus })
      else fin ((s1.hostClear ls).writeAt ls bs)
  | .evset e => fin (s1.ctxPutEv s.focus e true)
  | .evclr e => fin (s1.ctxPutEv s.focus e false)
  | .bara die b => fin (s1.arrive s.focus die b false 0)
  | .launch d entry node =>
    match s1.submit node entry false with
    | some (q, t) => t.setCtx (t.ctx.addItems x.seq [(x.t + c.div 0, 2, .sreg d (BitVec.ofNat 64 q))])
    | none =>
      -- a full ring answers all ones; for a malformed one the spec gives no number
      let v := if s1.ringOk node then BitVec.allOnes 64 else Config.freeWord s1.free
      let t := { s1 with free := s1.free + 1 }.noRing node
      t.setCtx (t.ctx.addItems x.seq [(x.t + c.div 0, 2, .sreg d v)])
  | .csrw r v => fin ({ s1 with free := s1.free + 1 }.setCtx (writeCsr (redo s1.free) s1.ctx r v))
  | .fork _ => fin s1
  | .exitKernel => s

/-- The outward action that may be performed now: at its edge, or the first in program order while the core is frozen. -/
def readyOut (s : State) : Option (Item × Out) :=
  let c := s.ctx
  if c.freeze.isEmpty then
    match c.nextItem with
    | some x =>
      match x.eff with
      | .out o => if x.t ≤ c.ctime then some (x, o) else none
      | _ => none
    | none => none
  else if c.freeze.any (fun f => f.2 = .taster) then none
  else
    match c.nextOut with
    | some x =>
      match x.eff with
      | .out o =>
        -- the part keeps the core time of its own schedule
        some ({ x with t := ((c.flightOf x.seq).script.getD x.pos (0, 0, x.eff)).1 }, o)
      | _ => none
    | none => none

end State

/-- OUTWARD_ACTION_PERFORM (R88, R397, R419). -/
def execOutwardActionPerform (s : State) : Host.Outcome State Fault Refusal :=
  .next (if !s.me.live then s
    else
      match s.readyOut with
      | none => s
      | some (x, o) =>
        match o, s.tasterHolds with
        | .piece .., _ => s.performOut x o
        | _, some t => t
        | _, none => s.performOut x o)

end Sys2Proof.Machine
end

