-- ==== Sys2Proof/Machine/Log.lean ====
section
/-!
DEFINITION. The module's log and its messages to the host (18_fabric R344, 21_bringup R410).
-/

namespace Sys2Proof.Machine

/-- Grid row and column of a core within its die: quads run row by row. -/
def rowCol (core : Nat) : Nat × Nat :=
  let q := quadOf core
  (q / 8 * 2 + posOf core / 2, q % 8 * 2 + posOf core % 2)

namespace State

/-! ### Messages and log records (R344, R410) -/

/-- An entry of a link's MSI-X table; vectors are masked at reset, as in the family (log entry 21). -/
def msixEntry (l : Link) (v : Nat) : BitVec 128 := l.msix.get v ^^^ (1#128 <<< 96)

/-- Vector `v` on one link: sent, or pending where the table masks it. -/
def sendMsix (s : State) (n v : Nat) : State :=
  let l := s.link n
  if l.removed || !l.up then s
  else if (msixEntry l v).getLsbD 96 then s.setLink n { l with pba := l.pba ||| (1#64 <<< v) }
  else { s with sent := s.sent ++ [.msix n v] }

/-- Vector `v` on both links. -/
def sendBoth (s : State) (v : Nat) : State := (s.sendMsix 0 v).sendMsix 1 v

/-- The place of log record `n` in the scratchpad of the service core of die 0 (R410). -/
def logAt (n : Nat) : Loc := { mem := .spm, unit := 1536, off := Config.logSlot.toNat * 32768 + 32 * (n % 1024) }

/-- The number of the oldest record of the log that is still held (R410). -/
def logOld (s : State) : Nat := s.boot.logNext - 1024

/-- The record with number `n`. -/
def logRecord (s : State) (n : Nat) : List Byte := s.bytesAt ((logAt n).run 32)

/-- A log record (R410); the ring keeps the latest 1,024.  Sources 0x03 to 0x08 are reports to the host's fault domain. -/
def addLog (s : State) (src code unit die detail addr : Nat) : State :=
  let r := s.clock.ns % 2 ^ 64 * 2 ^ 192 + addr % 2 ^ 64 * 2 ^ 128 + detail % 2 ^ 32 * 2 ^ 96 + die % 256 * 2 ^ 88
    + unit % 256 * 2 ^ 80 + code % 256 * 2 ^ 72 + s.boot.phase.toNat * 2 ^ 64 + src % 256 * 2 ^ 56
    + s.boot.logNext % 2 ^ 32
  let s := s.writeAt ((logAt s.boot.logNext).run 32) (leBytes 32 r)
  let s := { s with boot := { s.boot with logNext := s.boot.logNext + 1 } }
  if 3 ≤ src then s.sendBoth 1 else s

/-- A core is taken out of service (20_reliability R392, R398). -/
def outOfService (s : State) (k code : Nat) : State :=
  let (r, c) := if k < 1536 then rowCol k else (0, 0)
  (s.onCore k fun x => { x with svc := 2 }).addLog 0x06 code 0xFF (dieOf k) (r * 256 + c) 0

end State

end Sys2Proof.Machine
end

