-- ==== Sys2Proof/Machine/CoreEvents.lean ====
section
/-!
DEFINITION. The events of a core (02_core_state R48, R55 to R57; 04_sequencer_isa R107, R116, R117, R122;
11_kernels R249, R254, R255; 14_contexts R310, R319; 20_reliability R398, R400): rendezvous, switch points, the end of a
freeze, walks, barrier phases, asynchronous matrix commands and their replay, the Taster's retry, asynchronous traps and
the exit of a kernel.
-/

namespace Sys2Proof.Machine

/-! ### Rendezvous (R55, R107) -/

/-- The streams that the standing RDV names. -/
def Ctx.named (c : Ctx) : List Nat := maskStreams c.rdv.toNat

/-- The RDV may release at the present edge: every named stream stands, the edge is one of the sequencer and of every
named stream, and a later opening rendezvous finds nothing scheduled. -/
def Ctx.mayRelease (c : Ctx) : Bool :=
  c.sq.park = .stand && c.freeze.isEmpty && !c.handler && c.mode = .running
    && (c.named.all fun n => c.sq.on && (c.strm n).park != .no && c.ctime % c.div n = 0)
    && c.ctime % c.div 0 = 0 && (c.forked.isNone || c.segs = 0 || c.flights.isEmpty)

/-- Whether the RDV that may release stops the context for a loop drain instead (R152, R183, R216, R304): every stream that
had a loop to drain has drained it; the synchronous commands of the ME are complete; the Ladle's stream stands at its LRDV
or is joined. -/
def Ctx.drainsHere (c : Ctx) : Bool :=
  c.req = some .loop && c.toDrain.isEmpty && (c.flights.all fun f => f.strm != 2) && (!c.ld.on || c.ld.park != .no)

/-- Whether it waits for that stop: it has drained, and the ME or the Ladle is not where R183 and R216 want it. -/
def Ctx.drainWaits (c : Ctx) : Bool := c.req = some .loop && c.toDrain.isEmpty && !c.drainsHere

/-- A flight with core time counted from `t` on. -/
def Flight.back (t : Nat) (f : Flight) : Flight :=
  { f with fin := f.fin - t, script := f.script.map fun e => (e.1 - t, e.2) }

/-- Core time counted from `t` on. -/
def Ctx.rebase (c : Ctx) (t : Nat) : Ctx :=
  let back (x : Stream) : Stream := { x with due := x.due - t }
  { c with
    ctime := c.ctime - t
    meFree := c.meFree - t
    hist := []
    sq := back c.sq, ve := back c.ve, me := back c.me, gu := back c.gu, ld := back c.ld
    flights := c.flights.map (Flight.back t)
    probes := c.probes.map fun p =>
      { p with at_ := p.at_ - t, ve := back p.ve, flights := p.flights.map (Flight.back t) } }

/-- The release (R107): an opening one sets CTIME to 0. -/
def Ctx.release (c : Ctx) : Ctx :=
  let c := if c.forked.isSome then { c.rebase c.ctime with opened := true, segs := c.segs + 1, forked := none } else c
  let c := c.named.foldl (fun c n =>
    let x := c.strm n
    c.setStrm n (if x.park = .ending then { x with on := false, park := .no }
      else { x with park := .no, due := c.ctime })) c
  { c with sq := { c.sq with park := .no, due := c.ctime } }

/-- RENDEZVOUS_RELEASE (R55, R107); where a loop drain stops the context the RDV does not release (R304). -/
def execRendezvousRelease (s : State) : Host.Outcome State Fault Refusal :=
  let c := s.ctx
  .next (if s.me.live && c.mayRelease && !c.drainsHere && !c.drainWaits then
      s.setMe { s.me with mark := none, ctx := c.release }
    else s)

/-! ### Switch points (R48, R117, R249) -/

/-- A due time of a stream under a new divisor: as many new ticks after the switch as it stood old ticks after it. -/
def retime (t old new due : Nat) : Nat :=
  let r := if old = 0 then 0 else (due - t + old - 1) / old
  if r = 0 then edgeAt t new else (t / new + r) * new

/-- The new divisors take effect together (R48): the next words of the streams, and the array of the ME, stand as many ticks
off as before; a queued command of the ME steps in its new ticks. -/
def Ctx.setDivs (c : Ctx) (v : BitVec 32) (now : Nat) : Ctx :=
  let c' := { c with
    clkdiv := v
    meFree := if c.meFree ≤ c.ctime then c.meFree
      else retime c.ctime (c.div 2) (({ c with clkdiv := v } : Ctx).div 2) c.meFree
    asyncQ := c.asyncQ.map fun j =>
      if j.ready ≤ now then j
      else { j with ready := now + (j.ready - now + c.div 2 - 1) / c.div 2 * ({ c with clkdiv := v } : Ctx).div 2 } }
  [1, 2, 3, 4].foldl (fun x n =>
    x.setStrm n { x.strm n with due := retime c.ctime (c.div n) (c'.div n) (c.strm n).due }) c'

def noFreeze (c : Ctx) (p : Freeze → Bool) : Ctx := { c with freeze := c.freeze.filter fun f => !p f.2 }

def isClk : Freeze → Bool
  | .clk _ => true
  | _ => false

def isSwpt : Freeze → Bool
  | .swpt _ => true
  | _ => false

/-- DIVISOR_SWITCH (R48, R116): once the core has drained. -/
def execDivisorSwitch (s : State) : Host.Outcome State Fault Refusal :=
  let c := s.ctx
  .next (match c.freeze.find? fun f => isClk f.2 with
    | some (_, .clk v) =>
      if !c.flights.isEmpty || c.freeze.any (fun f => f.2 = .taster) then s
      else
        match s.tasterHolds with
        | some t => t
        | none => s.setCtx { (noFreeze c isClk).setDivs v s.ref with evSeen := latchClk :: c.evSeen }
    | _ => s)

/-- The level that the context's launch has been granted (R247, R384). -/
def State.levelOf (s : State) (c : Ctx) : Nat :=
  if c.launch = 0 then s.power.level else ((s.launchOf c.launch).map (·.level)).getD s.power.level

/-- The switch-point map's entry (R248). -/
def Ctx.swEntry (c : Ctx) (n v strm : Nat) : Nat := c.swmap.getD (15 * n + 5 * v + strm) 0

/-- A running stream that does not stand at the switch point (R249). -/
def Ctx.offSwitch (c : Ctx) (n : Nat) : Bool :=
  [1, 2, 3, 4].any fun k =>
    let x := c.strm k
    x.on && x.park != .ending && (x.park = .stand || x.pc.toNat != c.swEntry n c.variant k)

/-- VARIANT_SWITCH (R117, R249): once the core has drained. -/
def execVariantSwitch (s : State) : Host.Outcome State Fault Refusal :=
  let c := s.ctx
  .next (match c.freeze.find? fun f => isSwpt f.2 with
    | some (_, .swpt n) =>
      if !c.flights.isEmpty || c.freeze.any (fun f => f.2 = .taster) then s
      else
        match s.tasterHolds with
        | some t => t
        | none =>
          let c1 := noFreeze c isSwpt
          if c.offSwitch n then (s.setMe { s.me with mark := none, ctx := c1 }).trap 0 0x13 0 0
          else
            let w := c.head (113 + 2 * s.levelOf c) (112 + 2 * s.levelOf c)
            if w = c.variant || !(c.sq.loops.isEmpty && c.ve.loops.isEmpty) then
              s.setCtx { c1 with evSeen := latchSwpt :: c.evSeen }
            else
              let c2 := [1, 2, 3, 4].foldl (fun x k =>
                let y := x.strm k
                if y.on && y.park != .ending then x.setStrm k { y with pc := BitVec.ofNat 64 (c.swEntry n w k) } else x) c1
              s.setCtx { c2 with variant := w, evSeen := latchMoved :: c.evSeen }
    | _ => s)

/-! ### The end of a freeze (R56, R57) -/

/-- What a satisfied wait leaves for the word that stood on it. -/
def clearLatch : Freeze → List Nat
  | .event e => [e]
  | .barw die b _ => [latchBar die b]
  | _ => []

/-- CORE_RESUME (R56, R57): every condition that froze the core has cleared; the words that waited complete at this
edge.  Under single step the LAUNCH whose acceptance is decided has completed its issue, and traps (R125). -/
def execCoreResume (s : State) : Host.Outcome State Fault Refusal :=
  let c := s.ctx
  .next (if !s.me.live || c.freeze.isEmpty || !(c.freeze.all fun f => s.clears f.2) then s
    else
      let c1 := { c with freeze := [], evSeen := c.freeze.flatMap (fun f => clearLatch f.2) ++ c.evSeen }
      if c.frame.step = 1 && !c.handler && c.freeze.any (fun f => f.2 = .launch) then
        (s.setMe { s.me with mark := none }).trapInto c1 0 false 0x0E 0 0 0
      else s.setMe { s.me with ctx := c1, mark := some (c.ctime, c1) })

/-- TRANSLATION_WALK (R317 to R320): the miss that froze the core is answered, after an invalidation of its range. -/
def execTranslationWalk (s : State) : Host.Outcome State Fault Refusal :=
  .next (match s.ctx.freeze.find? fun f => match f.2 with
      | .xlat .. => true
      | _ => false with
    | some (_, .xlat a v) => if s.invalidating a v then s else s.fillXlat s.focus a v
    | _ => s)

/-! ### Barrier phases (R212, R254, R255) -/

/-- One arrival of a context's Ladle that stood for the phase that has ended is recorded in the new phase (R212). -/
def State.deferred (s : State) (h : Home) (die : Bool) (b : Nat) : State :=
  let c := s.ctxAt h
  if c.defer.contains (die, b) then
    let x := s.barAt h die b
    let s := s.putCtx h { c with defer := c.defer.erase (die, b) }
    if x.broken then s
    else s.setBarAt h die b { s.barAt h die b with arrived := c.agent die true :: x.arrived }
  else s

/-- BARRIER_PHASE_COMPLETE (R254): a core barrier `k` of a context, or with `v` not zero die barrier `k` of launch `u`
on die `n`. -/
def execBarrierPhaseComplete (s : State) : Host.Outcome State Fault Refusal :=
  let a := s.arg
  .next (if a.v != 0 then
      let x := pget {} (s.die a.n).bars (a.u.toNat, a.k)
      if x.complete then
        let s := s.onDie a.n fun d => { d with bars := pput (a.u.toNat, a.k) x.next d.bars }
        (s.homes.filter fun h => (s.ctxAt h).launch = a.u.toNat && s.homeDie h = a.n).foldl
          (fun s h => s.deferred h true a.k) s
      else s
    else
      let h := homeOf a
      let x := s.barAt h false a.k
      if x.complete then (s.setBarAt h false a.k x.next).deferred h false a.k else s)

/-! ### Asynchronous matrix commands (R163, R173, R174, R177, R400) -/

/-- Whether the queued command at place `k` may run its next step: it is the first that no sibling has taken, or taken
itself, and no earlier command shares a plane with it (R173, R174, R176). -/
def Ctx.mayStep (c : Ctx) (k : Nat) : Bool :=
  match c.asyncQ[k]? with
  | none => false
  | some j =>
    let before := c.asyncQ.take k
    (j.taker.isSome || before.all fun i => i.taker.isSome)
      && before.all fun i => !(i.allPlanes.any j.allPlanes.contains)

/-- A context that has not stopped. -/
def Ctx.awake (c : Ctx) : Bool := c.mode = .running || c.mode = .yielding || c.mode = .exiting

/-- The array of the owner is free: no synchronous step uses this tick (R173). -/
def Ctx.arrayFree (c : Ctx) : Bool := !c.freeze.isEmpty || decide (c.meFree ≤ c.ctime)

/-- A queued command has run its steps and their groups have landed: it retires. -/
def State.asyncRetire (s : State) (j : Job) : State :=
  let c := s.ctx
  let s := s.setCtx { c with asyncQ := c.asyncQ.filter fun i => i.id != j.id }
  match j.taker with
  | some t => s.onCore t fun x => { x with taking := x.taking - 1 }
  | none => s

/-- One step of the queued command `j` with its groups: the next step may use the next tick of the ME, and after the last
the command retires once its groups have landed, 6 ticks later, or 9 with an operand in the lent window (R165, R173).  Where
parts of earlier words for its planes are still in flight, its groups enter after them (R31). -/
def State.asyncStep (s : State) (j : Job) : State :=
  let c := s.ctx
  let ab := s.stepRead j j.next
  let ps := j.planes j.next
  let zero := j.zc && j.firstAt j.next
  let c := c.staged j j.next ab
  let c := match c.pendingOn ps with
    | none => landGroup j j.next ab.1 ab.2 (if zero then c.zeroPlanes ps else c)
    | some (t, _, q) =>
      c.addItems q ((if zero then [(t, 3, Eff.pzero ps)] else []) ++ [(t, 3, Eff.grp j j.next ab.1 ab.2)])
  let wait := if j.next + 1 < j.total then 1 else if j.lent then 9 else 6
  let q := c.asyncQ.map fun i =>
    if i.id = j.id then { i with next := i.next + 1, ready := s.ref + wait * c.div 2 } else i
  let t := s.touch (s.stepLocs j j.next)
  t.setCtx { c with asyncQ := q }

/-- The queued command at place `k` may step or retire now: its tick has come, a command of the owner's own array only
where no synchronous step uses that tick and the context has not stopped, and no replay runs. -/
def State.mayRunJob (s : State) (k : Nat) : Bool :=
  let c := s.ctx
  s.me.live && c.mayStep k && !(c.freeze.any fun f => isReplay f.2) && match c.asyncQ[k]? with
    | some j => decide (j.ready ≤ s.ref) && (j.taker.isSome || (c.awake && c.arrayFree))
    | none => false

/-- ASYNC_COMMAND_RUN (R173): one step of the command at place `k` of the queue; data that cannot be decoded freezes
the core (R400). -/
def execAsyncCommandRun (s : State) : Host.Outcome State Fault Refusal :=
  let c := s.ctx
  .next (match c.asyncQ[s.arg.k]? with
    | some j =>
      if !s.mayRunJob s.arg.k then s
      else if j.total ≤ j.next then s.asyncRetire j
      else if s.anyBad (s.stepLocs j j.next) then s.askReplay (s.stepLocs j j.next) (some j.id)
      else s.asyncStep j
    | none => s)

/-- The planes of a failed chain: the canonical NaN in every cell, no tag (R400). -/
def Ctx.poison (c : Ctx) (ps : List Nat) : Ctx :=
  { ps.foldl (fun c p => (List.range 1024).foldl (fun c i => c.setCell p i 0x7FC00000) c) c with
    tags := ps.foldl (fun l p => tdel p l) c.tags }

/-- Every plane that a retained command names (R177). -/
def Job.named (j : Job) : List Nat := j.kept ++ j.allPlanes

/-- The retained commands that a replay of command `id` on the planes `ps` executes again, in their order: from the latest
that starts each plane, a tile-start command among them, to it; none where one of them is no longer retained (R177, R400). -/
def Ctx.chainOf (c : Ctx) (id : Nat) (ps : List Nat) : Option (List Job) :=
  let past := c.window.filter fun i => decide (i.id ≤ id)
  let starts := ps.map fun p => (past.filter fun i => i.zc && i.named.contains p).getLast?
  if starts.any (·.isNone) || !past.any (fun i => i.id = id) then none
  else
    let first := starts.foldl (fun m i => min m ((i.map (·.id)).getD id)) id
    some (past.filter fun i => decide (first ≤ i.id) && i.named.any ps.contains)

/-- What a replay reads again: the steps of the commands of a chain, those of the last up to step `k`. -/
def State.chainLocs (s : State) (chain : List Job) (id k : Nat) : List Loc :=
  chain.flatMap fun i =>
    if i.load then
      (nestSteps i.nest { pa := i.pa, pb := 0, c := i.acc, g := 0 }).flatMap fun p =>
        (List.range 32).flatMap fun m => s.rowLocs (Desc.of i.da) p.pa i.ta m
    else if i.id = id then (List.range (k + 1)).flatMap (s.stepLocs i)
    else (List.range i.total).flatMap (s.stepLocs i)

/-- A command or a gather read that a replay serves: its place in the schedule, its number, its step, the planes of its step
and all that it names. -/
structure Failing where
  item : Option Item
  id : Option Nat
  step : Nat
  planes : List Nat
  named : List Nat
deriving DecidableEq, Repr

/-- What the replay serves: the next part of the schedule, or a queued command. -/
def Ctx.failing (c : Ctx) (job : Option Nat) : Option Failing :=
  match job with
  | some id => (c.asyncQ.find? fun j => j.id = id).map fun j =>
      { item := none, id := some id, step := j.next, planes := j.planes j.next, named := j.allPlanes }
  | none => c.nextItem.bind fun x =>
    match x.eff with
    | .step j k => some { item := some x, id := some j.id, step := k, planes := j.planes k, named := j.allPlanes }
    | .rdA id _ p _ _ _ mom _ =>
      some { item := some x, id := some id, step := 0, planes := if mom then [p, p + 1] else [p]
             named := ((c.window.find? fun i => i.id = id).map Job.named).getD (if mom then [p, p + 1] else [p]) }
    | .rdX .. => some { item := some x, id := none, step := 0, planes := [], named := [] }
    | _ => none

/-- Whether the replay finds good data: the chain is retained and what it reads can be decoded; a gather read reads its bytes
once more. -/
def State.replayGood (s : State) (f : Failing) : Bool :=
  let again := match f.item with
    | some x => !s.badRead x.eff
    | none => true
  again && match f.id with
    | some id =>
      match s.ctx.chainOf id f.named with
      | some chain => !s.anyBad (s.chainLocs chain id f.step)
      | none => false
    | none => true

/-- The chain fails (R400): the command or read is over, its planes hold a NaN, and cause 0x0B is pending with STREAM 2; TFADDR
names the plane and TFINFO the window entry, free values for a gather read, which has neither. -/
def State.failChain (s : State) (f : Failing) : State :=
  let c := noFreeze s.ctx isReplay
  let taker := (c.asyncQ.find? fun i => f.item.isNone && some i.id = f.id).bind (·.taker)
  let c := match f.item with
    | some x => { c with flights := c.flights.filter fun g => g.seq != x.seq }
    | none => { c with asyncQ := c.asyncQ.filter fun i => some i.id != f.id }
  let (addr, info) := match f.id with
    | some id => (BitVec.ofNat 64 (f.planes.headD 0), BitVec.ofNat 64 (id % 64 * 256))
    | none => (Config.freeWord s.free, Config.freeWord (s.free + 1) &&& 0x3F00)
  let s := { s with free := s.free + 2 }.setCtx { c.poison f.named with
    causes := c.causes ++ [(State.trapWord 2 true 0 0x0B, addr, info)] }
  match taker with
  | some t => s.onCore t fun x => { x with taking := x.taking - 1 }
  | none => s

/-- MATRIX_REPLAY (R177, R400): the commands from the tile-start marker on, executed again from their retained copies, give
the bits of their first execution, so a replay that finds good data lets the command go on from its step; data that is bad
again, or a chain that is no longer retained, ends the chain. -/
def execMatrixReplay (s : State) : Host.Outcome State Fault Refusal :=
  let c := s.ctx
  .next (match c.freeze.find? fun f => isReplay f.2 with
    | some (_, .replay job) =>
      match c.failing job with
      | none => s.setCtx (noFreeze c isReplay)
      | some f => if s.replayGood f then s.setCtx (noFreeze c isReplay) else
        (match f.item with
          | some x => s.touch (s.replayLocs x.eff)
          | none => s).failChain f
    | _ => s)

/-! ### The Taster's retry (R398, R399) -/

/-- Cause 0x0A (R398): the context stops, its core goes out of service and the context is evicted. -/
def State.tasterStop (s : State) (c : Ctx) : State :=
  ((s.trapInto c 0 false 0x0A 0 0 0).outOfService s.focus 0x0A).post .evict { n := s.focus }

/-- TASTER_RETRY (R398): the withheld action is executed again; a second mismatch stops the context with LCAUSE 0x0A and
takes the core out of service. -/
def execTasterRetry (s : State) : Host.Outcome State Fault Refusal :=
  let c := s.ctx
  .next (if !(c.freeze.any fun f => f.2 = .taster) then s
    else
      let c1 := noFreeze c fun f => f = .taster
      let k := s.me
      if k.tasteBad != 0 then
        (s.setMe { k with tasteBad := k.tasteBad - 1, retried := false, mark := none, ctx := c1 }).tasterStop c1
      else
        let s := s.setMe { k with mism := k.mism + 1, retried := false, ctx := c1 }
        match s.readyOut with
        | some (x, o) => s.performOut x o
        | none => s)

/-! ### Asynchronous traps (R310) -/

/-- No word has issued at the present edge. -/
def freshEdge (k : Core) : Bool :=
  match k.mark with
  | some (t, c) => t != k.ctx.ctime || (c.seq = k.ctx.seq && (List.range 5).all fun n => (c.strm n).pc = (k.ctx.strm n).pc
      && (c.strm n).due = (k.ctx.strm n).due)
  | none => true

/-- An asynchronous cause may be delivered: at an edge of the sequencer's clock, or where a freeze ends. -/
def mayDeliver (k : Core) : Bool :=
  let c := k.ctx
  k.live && !c.causes.isEmpty && !c.handler && (c.mode = .running || c.mode = .exiting || c.mode = .yielding)
    && c.freeze.isEmpty && freshEdge k && (c.ctime % c.div 0 = 0 || k.mark.any fun m => m.1 = c.ctime)

/-- ASYNC_TRAP_DELIVERY (R217, R310, R400): the oldest pending cause. -/
def execAsyncTrapDelivery (s : State) : Host.Outcome State Fault Refusal :=
  let c := s.ctx
  .next (match c.causes with
    | (w, addr, info) :: rest =>
      if mayDeliver s.me then
        (s.setMe { s.me with mark := none }).trapInto { c with causes := rest } (bits w.toNat 31 29) true
          (bits w.toNat 7 0) (bits w.toNat 23 16) addr info
      else s
    | [] => s)

/-! ### The end of a kernel on a core (R122, R255, R207) -/

/-- Everything that EXIT waits for is done. -/
def Ctx.mayExit (c : Ctx) : Bool :=
  c.mode = .exiting && !c.handler && c.freeze.isEmpty && c.cmds.isEmpty && c.asyncQ.isEmpty
    && c.items.all fun x => x.eff.isExit && decide (x.t ≤ c.ctime)

namespace State

/-- Every barrier of which the context's agents are members records their departure. -/
def departAll (s : State) (h : Home) : State :=
  let c := s.ctxAt h
  let gs (die : Bool) : List Nat := [c.agent die false, c.agent die true]
  let s := s.putCtx h { c with bars := c.bars.map fun b => (b.1, (gs false).foldl (fun x g => x.depart g) b.2) }
  s.onDie (s.homeDie h) fun d => { d with bars := d.bars.map fun b =>
    if b.1.1 = c.launch then (b.1, (gs true).foldl (fun x g => x.depart g) b.2) else b }

/-- The tiles of a context that has ended are discarded on every core (R308). -/
def dropTiles (s : State) (launch p : Nat) : State :=
  { s with cores := s.cores.map fun e =>
      let mine := (e.2.towner.filter fun o => o.2 = (launch, p)).map (·.1)
      (e.1, { mine.foldl clearTile e.2 with towner := e.2.towner.filter fun o => o.2 != (launch, p) }) }

/-- The core runs nothing; cores that lend to it lend no more. -/
def freeCore (s : State) (k : Nat) : State :=
  let ls := (s.core k).ctx.lenders
  let s := s.onCore k fun x => { x with live := false, ctx := {}, mark := none, xres := [] }
  { s with cores := s.cores.map fun e =>
      if e.2.lendTo = some k && ls.contains e.1 then (e.1, { e.2 with lendTo := none, spill := [] }) else e }

/-- The exit of the running context of core `k` (R122). -/
def exitCore (s : State) (k : Nat) : State :=
  let c := (s.core k).ctx
  let s := (s.departAll (.run k)).dropTiles c.launch c.p
  let s := s.freeCore k
  if c.launch = 0 then
    -- the only producer of a firmware kernel has departed (R207)
    { s with diesT := s.diesT.map fun d => (d.1, { d.2 with ords := d.2.ords.filter fun o => o.launch != 1 + dieOf k }) }
  else
    let s := s.onLaunch c.launch fun l => { l with exited := l.exited ++ [c.p] }
    match s.launchOf c.launch with
    | some l => if l.exited.length ≥ l.n then s.post .launchFinish { n := l.node } else s
    | none => s

end State

/-- KERNEL_EXIT_REPORT (R122, R207, R255, R271). -/
def execKernelExitReport (s : State) : Host.Outcome State Fault Refusal :=
  let c := s.ctx
  .next (if s.me.live && c.mayExit then
      match s.tasterHolds with
      | some t => t
      | none => s.exitCore s.focus
    else s)

end Sys2Proof.Machine
end

