-- ==== Sys2Proof/Machine/Hob.lean ====
section
/-!
DEFINITION. What the Hob and the loader decide (08_assembler R223, R224; 11_kernels R240 to R244; 14_contexts R289, R292,
R297, R298; 19_power R382, R384): images and headers, budgets, placement, levels and tokens.
-/

namespace Sys2Proof.Machine

/-! ### Images (R224, R240, R241) -/

/-- The chunks of an image file in HBM: type, payload length, payload address. -/
def State.chunksAt (s : State) (a : Nat) : Nat → List (Nat × Nat × Nat)
  | 0 => []
  | n + 1 =>
    let ty := s.natAt ((State.hbmLoc a).run 4)
    let len := s.natAt ((State.hbmLoc (a + 4)).run 4)
    (ty, len, a + 8) :: s.chunksAt (a + 8 + (len + 7) / 8 * 8) n

/-- Strictly rising chunk types. -/
def risingTypes : List (Nat × Nat × Nat) → Bool
  | [] => true
  | [_] => true
  | x :: y :: l => decide (x.1 < y.1) && risingTypes (y :: l)

/-- A loaded image: header record, scratchpad image, HBM image, relocations, switch-point map, as addresses with
lengths. -/
structure Image where
  hdr : BitVec 512
  spm : Nat × Nat
  hbm : Nat × Nat
  rel : Nat × Nat
  map : Nat × Nat
deriving DecidableEq, Repr

/-- The image at a module HBM address, none where its file is malformed. -/
def State.imageAt (s : State) (a : Nat) : Option Image :=
  let n := s.natAt ((State.hbmLoc (a + 6)).run 2)
  if s.natAt ((State.hbmLoc a).run 4) != 0x494B5846 || s.natAt ((State.hbmLoc (a + 4)).run 2) != 1 || n > 7 then none
  else
    let cs := s.chunksAt (a + 8) n
    let part (t : Nat) : Nat × Nat := ((cs.find? fun c => c.1 = t).map fun c => (c.2.2, c.2.1)).getD (0, 0)
    if !risingTypes cs || cs.any (fun c => c.1 = 0 || decide (c.1 > 6)) || (part 1).2 != 64 || !(cs.any fun c => c.1 = 2) then none
    else some { hdr := BitVec.ofNat 512 (s.natAt ((State.hbmLoc (part 1).1).run 64))
                spm := part 2, hbm := part 3, rel := part 4, map := part 5 }

/-- A header that the loader refuses (R241). -/
def headerBad (x : BitVec 512) : Bool :=
  let h := x.toNat
  let f (hi lo : Nat) : Nat := bits h hi lo
  let heat := f 99 98
  f 511 288 != 0 || f 111 111 != 0 || f 63 44 != 0
    || f 6 0 < 1 || f 6 0 > 64 || f 12 7 > 48 || f 16 13 > 8 || f 21 17 > 16 || f 26 22 > 16 || f 31 27 > 16
    || f 36 32 > 16 || f 43 37 > 64 || f 79 64 < 1 || f 79 64 > 32768 || f 96 80 > 98304 || f 110 100 > 1024
    || ((List.range 8).any fun i => f (113 + 2 * i) (112 + 2 * i) = 3)
    || (f 97 97 = 0 && f 127 112 != 0)
    || (f 96 80 != 0 && heat < 2) || (heat = 2 && f 96 80 > 32768)
    || ((List.range 16).any fun n => f 36 32 ≤ n && f (129 + 2 * n) (128 + 2 * n) != 0)
    || ((List.range 64).any fun n => f 43 37 ≤ n && f (161 + 2 * n) (160 + 2 * n) != 0)

/-- The switch-point map of an image (R248). -/
def State.swmapOf (s : State) (im : Image) : List Nat :=
  (List.range (im.map.2 / 4)).map fun k => s.natAt ((State.hbmLoc (im.map.1 + 4 * k)).run 4)

/-- Remove the entries of a byte array in a range. -/
def clearRange (m : Store 8) (off n : Nat) : Store 8 := m.filter fun e => e.1 < off || off + n ≤ e.1

/-- Copy a range of one byte array into another, listed bytes only. -/
def copyRange (src : Store 8) (so n : Nat) (dst : Store 8) (d : Nat) : Store 8 :=
  (src.filter fun e => so ≤ e.1 && e.1 < so + n).foldr (fun e m => Store.set m (e.1 - so + d) e.2) (clearRange dst d n)

/-- The bytes of a range of module HBM addresses, from 0 on; the range may go on on the next die (14_contexts R420). -/
def State.hbmBytes (s : State) (a n : Nat) : Store 8 :=
  let l := State.hbmLoc a
  let k := min n (2 ^ 38 - l.off)
  let m := copyRange (s.die l.unit).hbm l.off k [] 0
  if k = n then m else copyRange (s.die ((l.unit + 1) % 8)).hbm 0 (n - k) m k

/-- One relocation (R223) applied to bytes of an image: 64 bits, an INSW immediate, or a BASE or SCALE field. -/
def relocate (kind : Nat) (v : Nat) (rd : Nat → Byte) (at_ : Nat) : List (Nat × Byte) :=
  let num (n : Nat) : Nat := leNat ((List.range n).map fun k => rd (at_ + k))
  let put (n x : Nat) : List (Nat × Byte) := ((List.range n).zip (leBytes n x)).map fun p => (at_ + p.1, p.2)
  match kind with
  | 1 => put 8 v
  | 2 => put 4 (putBits (num 4) 19 4 v)
  | 3 => put 4 (putBits (num 4) 19 4 (v / 2 ^ 16))
  | 4 => put 4 (putBits (num 4) 19 4 (v / 2 ^ 32))
  | 5 => put 4 (putBits (num 4) 19 4 (v / 2 ^ 48))
  | 6 => put 32 (putBits (num 32) 51 0 v)
  | 7 => put 32 (putBits (num 32) 245 194 v)
  | _ => []

/-- The relocations of an image: place, image, kind, patched value. -/
def State.relocsOf (s : State) (im : Image) (base : BitVec 52) : List (Nat × Nat × Nat × Nat) :=
  (List.range (im.rel.2 / 16)).map fun k =>
    let a := im.rel.1 + 16 * k
    let rd (o n : Nat) : Nat := s.natAt ((State.hbmLoc (a + o)).run n)
    (rd 0 4, rd 4 1, rd 5 1, (base.toNat + rd 8 8) % 2 ^ 64)

/-- The loader places an image at a scratchpad base (R292, R303): its bytes with their relocations, zero up to the
declared scratchpad. -/
def State.placeImage (s : State) (k spb : Nat) (img : Nat) (im : Image) : State :=
  let size := bits im.hdr.toNat 79 64 * 64
  let m := copyRange (s.hbmBytes im.spm.1 im.spm.2) 0 im.spm.2 (clearRange (s.core k).spm spb size) spb
  let m := (s.relocsOf im (Config.imageBase img)).foldl (fun m r =>
    if r.2.1 = 2 then
      (relocate r.2.2.1 r.2.2.2 (fun o => Store.get m (spb + o)) r.1).foldl (fun m e => Store.set m (spb + e.1) e.2) m
    else m) m
  s.fillSpm k spb size m fun o => decide (o < im.spm.2) && s.badAt (State.hbmLoc (im.spm.1 + o))

/-- The HBM image written, with its relocations, through the address space's translation (R223, R224); what cannot be decoded
stays so (R391). -/
def State.placeHbm (s : State) (asid : Nat) (img : Nat) (im : Image) : State :=
  if im.hbm.2 = 0 then s
  else
    let base := Config.imageBase img
    let loc (o : Nat) : Option Loc := (s.walk asid (base.toNat + o)).map fun e => e.place (base.toNat + o)
    let put (s : State) (o : Nat) (b : Byte) : State := match loc o with
      | some l => s.setByte l b
      | none => s
    let s' := (List.range im.hbm.2).foldl (fun t o => put t o (s.byteAt (State.hbmLoc (im.hbm.1 + o)))) s
    let s' := if s.sound then s'
      else ((List.range im.hbm.2).filter fun o => s.badAt (State.hbmLoc (im.hbm.1 + o))).foldl
        (fun t o => ((loc o).map t.markBad).getD t) s'
    (s.relocsOf im base).foldl (fun t r =>
      if r.2.1 = 3 then
        (relocate r.2.2.1 r.2.2.2 (fun o => ((loc o).map t.byteAt).getD 0) r.1).foldl (fun t e => put t e.1 e.2) t
      else t) s'

/-! ### Cores and quads (R244, R297, R298) -/

/-- Quad positions of a heat class, and the lenders of a lit position. -/
def litPos (heat : Nat) : List Nat :=
  match heat with
  | 2 => [0, 3]
  | 3 => [0]
  | _ => [0, 1, 2, 3]

def lendPos (heat pos : Nat) : List Nat :=
  match heat, pos with
  | 2, 0 => [1]
  | 2, _ => [2]
  | 3, _ => [1, 2, 3]
  | _, _ => []

/-- Core at position `p` of physical quad `q` of die `d`. -/
def coreAt (d q p : Nat) : Nat := d * 192 + q * 4 + p

namespace State

/-- A core that may take a context: in service, running none, lending nothing, serving no sibling, its die present. -/
def freeFor (s : State) (k : Nat) : Bool :=
  let c := s.core k
  !c.live && c.lendTo.isNone && c.svc != 2 && c.taking = 0 && !(s.die (dieOf k)).removed

def wholeQuad (s : State) (d q : Nat) : Bool := (List.range 4).all fun p => s.freeFor (coreAt d q p)

/-- Heat class of the context that runs on a core; a lender counts with its borrower. -/
def heatAt (s : State) (k : Nat) : Nat :=
  let c := s.core k
  if c.lendTo.isSome then 3 else if c.live then c.ctx.head 99 98 else 0

/-- The physical quads of a die in logical order (R298). -/
def quadsOf (s : State) (d : Nat) : List Nat := (List.range 48).map fun l => (l + 7 * (s.die d).rot) % 48

/-- The free positions of a die for a heat class, in the order of R297. -/
def slotsOn (s : State) (d heat : Nat) : List Nat :=
  let qs := s.quadsOf d
  let whole := qs.filter (s.wholeQuad d)
  let part := qs.filter fun q => !s.wholeQuad d q
  let cool := part.filter fun q => (List.range 4).all fun p => s.heatAt (coreAt d q p) < 2
  let order := match heat with
    | 0 => part ++ whole
    | 1 => whole ++ cool
    | _ => whole
  (order.flatMap fun q => (litPos heat).map (coreAt d q)).filter s.freeFor

/-- The allowed dies in descending order of wholly free quads (R297). -/
def diesFor (s : State) (mask : Nat) : List Nat :=
  let ds := (List.range 8).filter fun d => (mask = 0 || mask / 2 ^ d % 2 = 1) && !(s.die d).removed
  let free (d : Nat) : Nat := ((List.range 48).filter (s.wholeQuad d)).length
  isort (fun x y => decide (free x > free y) || (free x = free y && decide (x ≤ y))) ds

/-- Whether each die of the cores `ks` has physical die barriers left for a kernel that declares `n` (R297). -/
def barsFree (s : State) (n : Nat) (ks : List Nat) : Bool :=
  ks.all fun k => decide ((s.die (dieOf k)).bars.length + n ≤ 64 + Config.moreBarriers)

/-- The cores of a launch of `n` logical cores, none where too few are free. -/
def placement (s : State) (n heat mask : Nat) : Option (List Nat) :=
  let ks := ((s.diesFor mask).flatMap fun d => s.slotsOn d heat).take n
  if ks.length = n then some ks else none

/-! ### Budgets (R289) -/

/-- Physical cores of a launch. -/
def physCores (n heat : Nat) : Nat := if heat = 2 then 2 * n else if heat = 3 then 4 * n else n

/-- A launch holds its cores and tokens while a context of it runs or is held (R289). -/
def holds (s : State) (l : Launch) : Bool :=
  s.homes.any fun h => match h with
    | .saved .. => false
    | h => (s.ctxAt h).launch = l.node

/-- HBM of an image in 64 KiB units. -/
def imageUnits (s : State) (img : Nat) : Nat := (((s.imageAt img).map fun im => im.hbm.2).getD 0 + 65535) / 65536

/-- The launches beneath a node, itself among them. -/
def beneath (s : State) (node : Nat) : List Launch := s.launches.filter fun l => (s.lineage 9 l.node).contains node

def usedCores (s : State) (node : Nat) : Nat :=
  (((s.beneath node).filter s.holds).map fun l => physCores l.n l.heat).sum

def usedHbm (s : State) (node : Nat) : Nat :=
  (((s.beneath node).filter s.holds).map fun l => s.imageUnits l.image).sum

/-- Whether the needs of a launch fit the remaining budget of its node and of every ancestor (R289). -/
def fits (s : State) (node n heat spm img : Nat) : Bool :=
  (s.lineage 9 node).all fun m =>
    decide (s.usedCores m + physCores n heat ≤ s.effCores m) && decide (spm ≤ s.effSpmb m)
      && decide (s.usedHbm m + s.imageUnits img ≤ s.effHbmb m)

/-! ### Levels and tokens (R382, R384) -/

/-- The threshold of a level (R379). -/
def threshold (p : Power) (i : Nat) : Nat :=
  if i < 4 then bits p.lvlth0.toNat (16 * i + 15) (16 * i) else bits p.lvlth1.toNat (16 * (i - 4) + 15) (16 * (i - 4))

/-- LEVEL (R384): the largest level whose threshold is at or below BUDGET. -/
def levelFor (p : Power) : Nat := (List.range 8).foldl (fun a i => if threshold p i ≤ p.budget then i else a) 0

/-- Tokens of `n` lit cores at level `i`. -/
def tokensAt (p : Power) (n i : Nat) : Nat := (n * bits p.tcost.toNat (8 * i + 7) (8 * i) + 15) / 16

/-- The launches that hold cores, in the order in which the Hob serves them. -/
def served (s : State) : List Launch :=
  isort (fun x y => decide (x.prio > y.prio) || (x.prio = y.prio && decide (x.started ≤ y.started)))
    (s.launches.filter s.holds)

/-- UCORES and UTOKENS of a node from the launches beneath it. -/
def recount (s : State) (node : Nat) : State :=
  let ls := (s.beneath node).filter s.holds
  let tk := (ls.map fun l => tokensAt s.power l.n l.level).sum
  (s.setField (node + 120) 15 0 (s.usedCores node)).setField (node + 120) 31 16 tk

/-- The module level and each launch's level are redrawn (R384), and the use counts of their ancestors and of `also`. -/
def redraw (s : State) (also : List Nat) : State :=
  let s := { s with power := { s.power with level := levelFor s.power } }
  let p := s.power
  let step (a : List (Nat × Nat) × List (Nat × Nat)) (l : Launch) : List (Nat × Nat) × List (Nat × Nat) :=
    let ms := s.lineage 9 l.node
    let used (m : Nat) : Nat := tget 0 a.1 m
    let ok (i : Nat) : Bool := ms.all fun (m : Nat) => decide (used m + tokensAt p l.n i ≤ s.effTokens m)
    let lv : Nat := (List.range (p.level + 1)).foldl (fun (b i : Nat) => bif ok i then i else b) 0
    (ms.foldl (fun u m => tput m (tget 0 u m + tokensAt p l.n lv) u) a.1, (l.node, lv) :: a.2)
  let r := s.served.foldl step ([], [])
  let s := { s with launches := s.launches.map fun l => match r.2.find? fun x => x.1 = l.node with
      | some x => { l with level := x.2 }
      | none => l }
  let nodes := ((s.launches.flatMap fun l => (s.lineage 9 l.node).drop 1) ++ also).foldl
    (fun a m => if a.contains m then a else a ++ [m]) []
  nodes.foldl recount s

/-- BUDGET and HOLD (R382) at the present time. -/
def budgetOf (p : Power) (now : Nat) : Power :=
  let held := p.lease != 0 && decide (p.expiry.toNat > now)
  let base := if held then p.tokens.toNat
    else if p.lease != 0 then min p.tokens.toNat p.floor.toNat else p.floor.toNat
  let out := ((p.out.filter fun t => t.2 > now).map (·.1)).sum
  let inn := ((p.inn.filter fun t => t.2 > now).map (·.1)).sum
  { p with hold := !held, budget := base + inn - out }

/-- The budget is recomputed, and levels are redrawn where it has changed. -/
def rebudget (s : State) : State :=
  let p := budgetOf s.power s.clock.ns
  let t := { s with power := p }
  if p.budget = s.power.budget && p.hold = s.power.hold then t else t.redraw []

end State

end Sys2Proof.Machine
end

