-- ==== Sys2Proof/Machine/Stops.lean ====
section
/-!
DEFINITION. Pre-emption (02_core_state R57; 07_ladle_isa R216; 14_contexts R301 to R308, R312): requests, escalation, the
stop of a context at each grade, holding and eviction to a save block.
-/

namespace Sys2Proof.Machine

namespace State

/-! ### The end of a launch -/

/-- Siblings that run commands of a context stop (R321). -/
def stopTakers (s : State) (c : Ctx) : State :=
  (c.cmds.filterMap (·.taker) ++ c.asyncQ.filterMap (·.taker)).foldl
    (fun s t => s.onCore t fun x => { x with taking := x.taking - 1 }) s

/-- The contexts of a launch are gone; its cores, lenders and tiles are free. -/
def dropContexts (s : State) (node : Nat) : State :=
  let s := ((s.homes.map s.ctxAt).filter fun c => c.launch = node).foldl stopTakers s
  let drop (e : Nat × Core) : Nat × Core :=
    let mine := (e.2.towner.filter fun o => o.2.1 = node).map (·.1)
    let x := { mine.foldl clearTile e.2 with towner := e.2.towner.filter fun o => o.2.1 != node }
    (e.1, if x.held.any (fun c => c.launch = node) then { x with held := none } else x)
  let s := { s with cores := s.cores.map drop }
  let run := (s.cores.filter fun e => e.2.live && e.2.ctx.launch = node).map (·.1)
  let s := run.foldl freeCore s
  let lends (e : Nat × Core) (k : Nat) : Bool :=
    let x := s.core k
    (x.live && x.ctx.lenders.contains e.1) || x.held.any fun c => c.lenders.contains e.1
  let free (e : Nat × Core) : Nat × Core :=
    match e.2.lendTo with
    | some k => if lends e k then e else (e.1, { e.2 with lendTo := none, spill := [] })
    | none => e
  ({ s with cores := s.cores.map free }).onLaunch node fun l => { l with saved := [] }

/-- The launch is over: its contexts, die barriers and order state are gone. -/
def endLaunch (s : State) (node : Nat) : State :=
  let s := s.dropContexts node
  let gone (d : Nat × Die) : Nat × Die :=
    (d.1, { d.2 with
      bars := d.2.bars.filter fun b => b.1.1 != node
      ords := d.2.ords.filter fun o => o.launch != node })
  { s with diesT := s.diesT.map gone, launches := s.launches.filter fun l => l.node != node }

/-- A launch fails as a whole (R292, R403, R404). -/
def failLaunch (s : State) (node cause : Nat) : State :=
  let s := (s.setNodeState node 4).setLcause node cause
  let s := match s.launchOf node with
    | some l => s.endEntry l.parent l.seq
    | none => s
  let also := (s.lineage 9 node).drop 1
  (s.endLaunch node).redraw also

/-! ### Save blocks (R305, R307) -/

/-- A range of HBM becomes the bytes given, zero where none is listed: a unit written whole carries no error, another is
re-encoded (R394), and scrub write-backs of the units are not made (R396). -/
def blitOn (s : State) (l : Loc) (n : Nat) (bs : Store 8) : State :=
  let whole (u : Nat) : Bool := decide (l.off ≤ 32 * u) && decide (32 * u + 32 ≤ l.off + n)
  let meets (u : Nat) : Bool := decide (l.off < 32 * u + 32) && decide (32 * u < l.off + n)
  s.onDie l.unit fun d => { d with
    hbm := (bs.filter fun e => decide (e.1 < n)).foldr (fun e m => Store.set m (l.off + e.1) e.2) (clearRange d.hbm l.off n)
    hbmErr := d.hbmErr.filter fun e => !whole e.1 && (!meets e.1 || decide (popCount e.2 36 > 2))
    hbmScrub := d.hbmScrub.map fun x => { x with due := x.due.map fun y => (y.1, y.2 || meets y.1) } }

/-- A range of module HBM addresses becomes the bytes given; it may go on on the next die (R420). -/
def blit (s : State) (a n : Nat) (bs : Store 8) : State :=
  let l := hbmLoc a
  let k := 2 ^ 38 - l.off
  if n ≤ k then s.blitOn l n bs
  else (s.blitOn l k (bs.filter fun e => decide (e.1 < k))).blitOn { l with unit := (l.unit + 1) % 8, off := 0 } (n - k)
    ((bs.filter fun e => decide (k ≤ e.1)).map fun e => (e.1 - k, e.2))

/-- Units of a range of HBM that hold data that could not be decoded where it was read (R391). -/
def blitBad (s : State) (a : Nat) (us : List Nat) : State :=
  us.foldl (fun s i =>
    let l := hbmLoc (a + 32 * i)
    s.onDie l.unit fun d => { d with hbmErr := d.hbmErr.set (l.off / 32) (BitVec.allOnes 36) }) s

/-- The bytes of a sparse array of `w`-bit registers. -/
def packStore {w : Nat} (x : Store w) : Store 8 :=
  x.foldr (fun e m => setBytes m (e.1 * (w / 8)) (leBytes (w / 8) e.2.toNat)) []

/-- The array of `w`-bit registers in a range of bytes. -/
def unpackStore (w : Nat) (m : Store 8) (off n : Nat) : Store w :=
  (m.filter fun e => off ≤ e.1 && e.1 < off + n).foldl (fun x e =>
    let k := (e.1 - off) / (w / 8)
    x.set k (BitVec.ofNat w (leNat (getBytes m (off + k * (w / 8)) (w / 8))))) []

/-- The bytes of a scratchpad range of core `k`, and its rows that cannot be decoded, from the start of the range. -/
def spmBytes (s : State) (k off n : Nat) : Store 8 := copyRange (s.core k).spm off n [] 0
def spmBad (s : State) (k off n : Nat) : List Nat :=
  if (s.core k).err.isEmpty && s.glitch.isEmpty then []
  else (List.range (n / 32)).filter fun i => s.badAt { mem := .spm, unit := k, off := off + 32 * i }

/-- Bytes of a save block for which R307 gives the contents and no layout: free values (log entry 55). -/
def openBytes (free n : Nat) : Store 8 :=
  packStore ((List.range ((n + 255) / 256)).foldl (fun m i => Store.set m i (Config.freeWide (free + i))) ([] : Store 2048))

/-- The trap frame and the replay queue (R307): 12 entries of 50 dwords, then the registers of R314. -/
def frameImage (s : State) (k : Nat) (c : Ctx) : Store 64 :=
  let b := c.frame.bsel
  let bar := if b.getLsbD 6 then pget {} (s.die (dieOf k)).bars (c.launch, b.toNat % 64) else tget {} c.bars (b.toNat % 64)
  let entry (m : Store 64) (i : Nat) : Store 64 := match c.frame.replay[i]? with
    | some f => (List.range 50).foldl (fun m j => m.set (50 * i + j) (replayDword c f j (Config.freeWord (s.free + 50 * i + j)))) m
    | none => m
  let reg (m : Store 64) (x : Nat) : Store 64 :=
    m.set (600 + x) (if x = 13 then barWord bar else s.readCsr c (0x10 + x) (Config.freeWord (s.free + 600 + x)))
  (List.range 16).foldl reg ((List.range 12).foldl entry [])

/-- The part of a context's register portion that every grade saves: the handler bank's registers of the running file, the
divisors, core time and the variant (R303, R307). -/
def nodeImage (s : State) (c : Ctx) : List (Nat × Nat × Store 8) :=
  [ (0x1C0, 64, packStore ((c.s.filter fun e => decide (56 ≤ e.1)).map fun e => (e.1 - 56, e.2)))
  , (0x1DC0, 24, setBytes (setBytes (setBytes [] 0 (leBytes 4 c.clkdiv.toNat)) 8 (leBytes 8 c.ctime)) 16 (leBytes 8 c.variant))
  , (0x1E00, 512, openBytes s.free 512)
  , (0xB000, 12288, openBytes (s.free + 2) 12288) ]

/-- The register portion of the save block of a context of core `k`, but for the tiles: offset, length and bytes (R307). -/
def regImage (s : State) (k : Nat) (c : Ctx) : List (Nat × Nat × Store 8) :=
  let num (o n v : Nat) (m : Store 8) : Store 8 := setBytes m o (leBytes n v)
  let small := num 0 4 c.arithV.toNat (num 4 4 c.arithM.toNat (num 8 4 c.momV.toNat (num 12 4 c.momM.toNat [])))
  let saves := num 0 8 c.sq.save.toNat (num 8 8 c.ve.save.toNat (num 16 8 c.me.save.toNat (num 24 8 c.saveh.toNat [])))
  [ (0, 512, packStore c.s)
  , (0x200, 512, packStore c.h)
  , (0x400, 6144, packStore c.v)
  , (0x1C00, 384, packStore (Store.set (Store.set (Store.set ([] : Store 1024) 0 c.la.v) 1 c.lb.v) 2 c.lc.v))
  , (0x1D80, 32, packStore ((List.range 8).foldl (fun m n => Store.set m n (c.rk n)) ([] : Store 32)))
  , (0x1DA0, 16, small)
  , (0x1DD8, 32, saves)
  , (0x4000, 4096, packStore c.q)
  , (0x5000, 8192, packStore c.desc)
  , (0x7000, 4096, openBytes (s.free + 50) 4096)
  , (0x8000, 8192, packStore (s.frameImage k c))
  , (0xA000, 256, openBytes (s.free + 66) 256)
  , (0xA100, 64, packStore (c.bank.map fun e => (e.1 - 56, e.2)))
  , (0xA140, 192, openBytes (s.free + 67) 192)
  , (0x10000, 65536, packStore c.a) ] ++ s.nodeImage c

/-- A context is written to its save block from core `k` (R307): the register portion, with what a lender's files hold of the
tiles, the scratchpad range and the lent window; data that cannot be decoded stays so. -/
def saveBlock (s : State) (k : Nat) (c : Ctx) : State :=
  let b := s.blockOf c.launch c.p
  let tiles := match c.lenders.head? with
    | some j => let m := (s.core j).spill
      [(0x1DB0, 16, copyRange m 0x1DB0 16 [] 0), (0x2000, 8192, copyRange m 0x2000 8192 [] 0)]
    | none => []
  let t := (s.regImage k c ++ tiles).foldl (fun t p => t.blit (b + p.1) p.2.1 p.2.2) s
  let part (t : State) (o j off n : Nat) : State :=
    (t.blit (b + o) n (s.spmBytes j off n)).blitBad (b + o) (s.spmBad j off n)
  let t := part t 0x20000 k c.spb c.spmSize
  let t := (List.range c.lenders.length).foldl (fun t i =>
    part t (0x220000 + i * 2 ^ 21) (c.lenders.getD i 0) 0 (min (c.lentSize - i * 2 ^ 21) (2 ^ 21))) t
  { t with free := s.free + 700 }

/-- The register portion goes to the files of the first lender of a hot or searing context (R246, R307). -/
def spillRegs (s : State) (k : Nat) (c : Ctx) : State :=
  match c.lenders.head? with
  | none => s
  | some j =>
    let put (m : Store 8) (p : Nat × Nat × Store 8) : Store 8 :=
      p.2.2.foldr (fun e m => Store.set m (p.1 + e.1) e.2) (clearRange m p.1 p.2.1)
    ({ s with free := s.free + 700 }).onCore j fun x => { x with spill := (s.regImage k c).foldl put x.spill }

/-- What every grade saves, as a register portion holds it. -/
def loadNode (m : Store 8) (c : Ctx) : Ctx :=
  let num (a n : Nat) : Nat := leNat (getBytes m a n)
  { c with
    s := (c.s.filter fun e => decide (e.1 < 56)) ++ (unpackStore 64 m 0x1C0 64).map fun e => (e.1 + 56, e.2)
    clkdiv := BitVec.ofNat 32 (num 0x1DC0 4)
    ctime := num 0x1DC8 8
    variant := num 0x1DD0 8 }

/-- The register files and registers as the save block holds them. -/
def loadRegs (s : State) (c : Ctx) : Ctx :=
  let m := s.hbmBytes (s.blockOf c.launch c.p) 0x20000
  let num (a n : Nat) : Nat := leNat (getBytes m a n)
  let reg (x : Nat) : BitVec 64 := BitVec.ofNat 64 (num (0x8000 + 4800 + 8 * x) 8)
  let latch (i : Nat) (y : Latch) : Latch := { y with v := BitVec.ofNat 1024 (num (0x1C00 + 128 * i) 128) }
  let c := (List.range 8).foldl (fun c n => c.wk n (BitVec.ofNat 32 (num (0x1D80 + 4 * n) 4))) (loadNode m c)
  { c with
    s := unpackStore 64 m 0 512
    h := unpackStore 256 m 0x200 512
    v := unpackStore 1024 m 0x400 6144
    la := latch 0 c.la, lb := latch 1 c.lb, lc := latch 2 c.lc
    arithV := BitVec.ofNat 32 (num 0x1DA0 4), arithM := BitVec.ofNat 32 (num 0x1DA4 4)
    momV := BitVec.ofNat 32 (num 0x1DA8 4), momM := BitVec.ofNat 32 (num 0x1DAC 4)
    sq := { c.sq with save := BitVec.ofNat 64 (num 0x1DD8 8) }
    ve := { c.ve with save := BitVec.ofNat 64 (num 0x1DE0 8) }
    me := { c.me with save := BitVec.ofNat 64 (num 0x1DE8 8) }
    saveh := BitVec.ofNat 64 (num 0x1DF0 8)
    q := unpackStore 2048 m 0x4000 4096
    desc := unpackStore 256 m 0x5000 8192
    frame := { c.frame with
      pcs := (List.range 5).map fun n => (reg n).setWidth 21
      addr := reg 5, time := (reg 6).toNat, rqsel := (reg 8).setWidth 10, vec := (reg 10).setWidth 21
      step := (reg 11).setWidth 1, bsel := (reg 12).setWidth 7, info := reg 14, scr := reg 15 }
    bank := (unpackStore 64 m 0xA100 64).map fun e => (e.1 + 56, e.2)
    a := unpackStore 32 m 0x10000 65536 }

/-- The context's bytes brought back to core `k` at its scratchpad base and to its lenders, with the register portion in the
files of the first lender; what cannot be decoded stays so (R391). -/
def loadBlock (s : State) (k : Nat) (c : Ctx) : State :=
  let b := s.blockOf c.launch c.p
  let fill (t : State) (o j off n : Nat) : State :=
    t.fillSpm j off n (copyRange (s.hbmBytes (b + o) n) 0 n (t.core j).spm off) fun i => s.badAt (hbmLoc (b + o + i))
  let t := fill s 0x20000 k c.spb c.spmSize
  let t := (List.range c.lenders.length).foldl (fun t i =>
    fill t (0x220000 + i * 2 ^ 21) (c.lenders.getD i 0) 0 (min (c.lentSize - i * 2 ^ 21) (2 ^ 21))) t
  match c.lenders.head? with
  | some j => t.onCore j fun x => { x with spill := s.hbmBytes b 0x20000 }
  | none => t

/-! ### Held contexts and eviction (R301, R305) -/

/-- Every context of a launch that has not exited is held or saved. -/
def allSaved (s : State) (node : Nat) : Bool :=
  !(s.cores.any fun e => e.2.live && e.2.ctx.launch = node && e.2.ctx.mode != .faulted)

/-- The launch shows STATE 3 once all its cores are saved (R302); a failed launch goes on showing STATE 4. -/
def showSaved (s : State) (node : Nat) : State :=
  if node != 0 && s.allSaved node && s.nodeState node != 4 then s.setNodeState node 3 else s

/-- The lenders of a context lend no more. -/
def unlend (s : State) (k : Nat) (c : Ctx) : State :=
  { s with cores := s.cores.map fun e =>
      if e.2.lendTo = some k && c.lenders.contains e.1 then (e.1, { e.2 with lendTo := none, spill := [] }) else e }

/-- The context that an eviction of core `k` takes: a stopped one, faulted on the core, else the held one. -/
def evictee (s : State) (k : Nat) : Option (Bool × Ctx) :=
  let x := s.core k
  if x.live && x.ctx.mode = .faulted && x.ctx.launch != 0 then some (true, x.ctx) else x.held.map fun c => (false, c)

/-- A save block outside HBM: the launch fails with LCAUSE 0x03 (R420). -/
def saveBad (s : State) (c : Ctx) : Bool := hbmBad (s.saveBase c.launch) || hbmBad (s.blockOf c.launch c.p + 0x820000)

/-- A stopped context of core `k` goes to its save block. -/
def putAway (s : State) (k : Nat) (c : Ctx) : State :=
  if s.saveBad c then s.failLaunch c.launch 0x03
  else
    let s := (s.saveBlock k c).unlend k c
    s.onLaunch c.launch fun l => { l with saved := tput c.p c l.saved }

/-- Eviction (R305). -/
def evict (s : State) (k : Nat) : State :=
  match s.evictee k with
  | some (run, c) =>
    let s := s.putAway k c
    let s := if run then s.freeCore k else s.onCore k fun x => { x with held := none }
    (s.showSaved c.launch).redraw ((s.lineage 9 c.launch).drop 1)
  | none => s

/-- Every command that the context issued has left its queue, and only ORD accumulates have not retired (R216); no
asynchronous command runs on a sibling. -/
def ladleEmpty (c : Ctx) : Bool := c.cmds.all (·.left) && c.asyncQ.all (·.taker.isNone)

/-- A stopped context leaves the core: held in place, or evicted where the core holds another (R216, R301, R305). -/
def settle (s : State) (k : Nat) : State :=
  let x := s.core k
  let c := x.ctx
  if !x.live || !(c.mode = .stoppedLoop || c.mode = .stoppedTrap) || !ladleEmpty c || x.taking != 0 then s
  else
    let off (s : State) : State := s.onCore k fun y => { y with live := false, ctx := {}, mark := none, xres := [] }
    if x.held.isSome then ((off (s.putAway k c)).showSaved c.launch).redraw ((s.lineage 9 c.launch).drop 1)
    else (((off s).onCore k fun y => { y with held := some c }).spillRegs k c).showSaved c.launch

/-- What a node boundary keeps of a context (R303). -/
def nodeRecord (c : Ctx) : Ctx :=
  { launch := c.launch, p := c.p, evNode := c.evNode, asid := c.asid, gen := c.gen, hdr := c.hdr, swmap := c.swmap
    mode := .stoppedNode
    s := c.s.filter fun e => 56 ≤ e.1
    clkdiv := c.clkdiv, ctime := c.ctime, opened := c.opened, segs := c.segs, variant := c.variant
    sq := { on := true, pc := c.sq.pc, due := c.sq.due }
    bars := c.bars, lastArr := c.lastArr, rounds := c.rounds, cmds := c.cmds, lseq := c.lseq, defer := c.defer
    causes := c.causes, seq := c.seq, jobs := c.jobs }

/-- The record of a node boundary written to the save block (R303, R307). -/
def saveRecord (s : State) (c : Ctx) : State :=
  { (s.nodeImage c).foldl (fun t p => t.blit (s.blockOf c.launch c.p + p.1) p.2.1 p.2.2) s with free := s.free + 50 }

/-- A YIELD taken at node boundary: everything in flight has landed, no handler runs, nothing but ORD accumulates is
outstanding, and the record is saved (R120, R303). -/
def stopNode (s : State) (k : Nat) : State :=
  let x := s.core k
  let c := x.ctx
  if !x.live || c.mode != .yielding || c.handler || !c.flights.isEmpty || !c.freeze.isEmpty || !ladleEmpty c || !c.asyncQ.isEmpty
    || x.taking != 0 then s
  else if s.saveBad c then s.failLaunch c.launch 0x03
  else
    let s := (s.freeCore k).saveRecord c
    let s := s.onLaunch c.launch fun l => { l with saved := tput c.p (nodeRecord c) l.saved }
    (s.showSaved c.launch).redraw ((s.lineage 9 c.launch).drop 1)

/-! ### Requests and stops -/

/-- A context whose request has grade `g` now; a handler keeps it pending until RETT, when it is taken at trap grade (R312).
For a loop drain the sequencer and the VE drain the loops that are active now (R152, R304). -/
def setReq (c : Ctx) (g : Grade) (now : Nat) : Ctx :=
  let g := if c.handler then .trap else g
  { c with
    req := some g, reqAt := now
    toDrain := if g = .loop then [0, 1].filter fun n => (c.strm n).on && !(c.strm n).loops.isEmpty else [] }

/-- A pre-emption request reaches a context (R302). -/
def askCtx (c : Ctx) (g : Grade) (now : Nat) : Ctx :=
  if c.req.isSome || !(c.mode = .running || c.mode = .yielding) then c else setReq c g now

/-- A request reaches every core of a launch; a core stopped faulted is evicted (R312). -/
def askLaunch (s : State) (l : Launch) (owner : Bool) : State :=
  let g := s.nodeGrade l.node
  let s := s.onLaunch l.node fun l => { l with byOwner := l.byOwner || owner, wanted := false }
  let mine := (s.cores.filter fun e => e.2.live && e.2.ctx.launch = l.node).map (·.1)
  mine.foldl (fun s k =>
    if (s.core k).ctx.mode = .faulted then s.evict k
    else s.onCore k fun x => { x with ctx := askCtx x.ctx g s.ref }) s

/-- A launch some core of which still runs. -/
def runs (s : State) (l : Launch) : Bool := s.cores.any fun e => e.2.live && e.2.ctx.launch = l.node

end State

/-- A BARW that a pre-emption abandons goes on waiting for the phase on which it stands (R57, R113). -/
def Ctx.keepWait (c : Ctx) : Ctx :=
  match c.freeze.findSome? fun f => match f.2 with
      | .barw die b ph => some (barKey die b, ph)
      | _ => none with
  | some w => { c with waitOn := some w }
  | none => c

/-- The streams at a trap-grade stop: the frame of the present edge with TRAPCAUSE 0x18 (R306, R310). -/
def Ctx.stopTrap (c : Ctx) : Ctx :=
  { c.keepWait with
    frame := State.frameOf c, trapcause := 0x18, flights := [], freeze := [], evSeen := []
    mode := .stoppedTrap, req := none, toDrain := [] }

/-- Whether the context stops at trap grade now (R57, R306): at an edge where nothing has issued, or by abandoning the
waits that freeze it. -/
def State.mayStopTrap (k : Core) : Bool :=
  let c := k.ctx
  k.live && !c.handler && c.mode = .running && match c.req with
    | some .trap => if c.freeze.isEmpty then freshEdge k && (c.onEdge || k.mark.any fun m => m.1 = c.ctime) else c.freeze.all fun f => abandons f.2
    | some .loop => !c.freeze.isEmpty && c.freeze.all fun f => abandons f.2
    | _ => false

/-- A wait that has issued is abandoned: core time goes on to the next edge, where the context stops (R57, R324).  A word
that stands has not issued, and the context stops at its edge. -/
def Ctx.abandon (c : Ctx) : Ctx :=
  if c.freeze.any fun f => !c.standing f then
    { c.keepWait with freeze := [], ctime := c.nextEdge, req := some .trap }
  else c.stopTrap

/-- The resume address of a stream at a loop-drain stop (R304): the prologue of a drained loop, else the word after the
rendezvous. -/
def drainPc (w : Nat) (x : Stream) : Int :=
  if x.save.getLsbD 63 then (bits x.save.toNat 60 40 : Int) - w * bits x.save.toNat 39 32 else x.pc.toNat

/-- A context stopped by loop drain (R183, R304): streams at an ending form are joined off; a stream that holds a drained
position has an empty loop stack (R152). -/
def Ctx.stopLoop (c : Ctx) : Ctx :=
  let one (n w : Nat) (x : Stream) : Stream :=
    if x.park = .ending then { x with on := false, park := .no }
    else if n ≤ 1 then { x with
      pc := BitVec.ofInt 64 (drainPc w x), park := .no, due := c.ctime, loops := if x.save.getLsbD 63 then [] else x.loops }
    else { x with park := .no, due := c.ctime }
  { c with
    sq := one 0 4 c.sq, ve := one 1 8 c.ve
    me := { one 2 8 c.me with save := if c.asyncQ.isEmpty then 0 else BitVec.ofNat 64 (2 ^ 63 + c.asyncQ.length) }
    gu := one 3 8 c.gu, ld := one 4 16 c.ld
    mode := .stoppedLoop, req := none, toDrain := [] }

/-- PREEMPT_REQUEST (R302, R312): node `n` is a launch node, or a job or phase node above running launches; `b` tells the
owner's request from the Hob's. -/
def execPreemptRequest (s : State) : Host.Outcome State Fault Refusal :=
  let n := s.arg.n
  .next (if s.nodeKind n = 3 then
      match s.launchOf n with
      | some l => if l.killed || !s.runs l then s else s.askLaunch l s.arg.b
      | none => s
    else ((s.beneath n).filter fun l => s.runs l && !l.killed).foldl (fun s l => s.askLaunch l s.arg.b) s)

/-- An escalation of core `n`'s request to grade `g` (R302, R312). -/
def escalate (s : State) (old g : Grade) (us : Nat) : State :=
  let k := s.arg.n
  let c := (s.core k).ctx
  if (s.core k).live && c.req = some old && decide (c.reqAt + us * 3760 ≤ s.ref) then
    s.onCore k fun x => { x with ctx := State.setReq c g s.ref }
  else s

/-- ESCALATE_TO_LOOP_DRAIN (R302): core `n`, after YTIME microseconds. -/
def execEscalateToLoopDrain (s : State) : Host.Outcome State Fault Refusal :=
  .next (escalate s .node .loop (s.nodeField (s.core s.arg.n).ctx.launch 5 31 16))

/-- ESCALATE_TO_TRAP (R302): core `n`, after DTIME microseconds. -/
def execEscalateToTrap (s : State) : Host.Outcome State Fault Refusal :=
  .next (escalate s .loop .trap (s.nodeField (s.core s.arg.n).ctx.launch 5 47 32))

/-- LOOP_DRAIN_STOP (R216, R304, R305): where the RDV would release, the context stops with core time standing; what is
in flight stays scheduled by core time.  Once its Ladle is empty it leaves the core. -/
def execLoopDrainStop (s : State) : Host.Outcome State Fault Refusal :=
  let c := s.ctx
  .next (if s.me.live && c.mayRelease && c.drainsHere then
      s.setMe { s.me with mark := none, ctx := c.stopLoop }
    else if c.mode = .stoppedLoop then s.settle s.focus else s)

/-- TRAP_GRADE_STOP (R57, R216, R306). -/
def execTrapGradeStop (s : State) : Host.Outcome State Fault Refusal :=
  .next (if State.mayStopTrap s.me then s.setMe { s.me with mark := none, xres := [], ctx := s.ctx.abandon }
    else if s.ctx.mode = .stoppedTrap then s.settle s.focus else s)

/-- EVICT (R305, R312, R398): the stopped context of core `n`. -/
def execEvict (s : State) : Host.Outcome State Fault Refusal := .next (s.evict s.arg.n)

end Sys2Proof.Machine
end

