-- ==== Sys2Proof/Machine/Launches.lean ====
section
/-!
DEFINITION. The start and the end of launches (11_kernels R243; 14_contexts R289 to R293, R297, R301, R302), firmware
kernels (22_prog_hbm_training R415), time-triggered tables (R295, R296), rotation (R298) and the partition selector (R299).
-/

namespace Sys2Proof.Machine

/-- PHASE codes (21_bringup R405, R406). -/
def phRom : BitVec 8 := 0x00
def phSelf : BitVec 8 := 0x01
def phTrain : BitVec 8 := 0x02
def phLinks : BitVec 8 := 0x03
def phReady : BitVec 8 := 0x04
def phSafe : BitVec 8 := 0x80

/-- Bytes rounded up to 64 KiB (R301). -/
def up64k (n : Nat) : Nat := (n + 65535) / 65536 * 65536

/-- Scratchpad, lent bytes and planes of a header. -/
def hdrSpm (h : BitVec 512) : Nat := bits h.toNat 79 64 * 64
def hdrLent (h : BitVec 512) : Nat := bits h.toNat 96 80 * 64
def hdrPlanes (h : BitVec 512) : Nat := bits h.toNat 26 22
def hdrHeat (h : BitVec 512) : Nat := bits h.toNat 99 98

/-- Where an incoming context may stand beside a held one (R301): its scratchpad base, none where the held one must go. -/
def besideSpb (held : Ctx) (h : BitVec 512) : Option Nat :=
  let a := up64k held.spmSize
  let b := up64k (hdrSpm h)
  if hdrLent h != 0 || hdrPlanes h != 0 || a + b > 2 ^ 21 then none
  else if b ≤ held.spb then some 0
  else if held.spb + a + b ≤ 2 ^ 21 then some (held.spb + a)
  else none

/-- A barrier with the members that two bits name (R240): the sequencer, the Ladle. -/
def barOf (mem : Nat) (ps : List Nat) : Bar :=
  { members := ps.flatMap fun p =>
      (if mem % 2 = 1 then [2 * p] else []) ++ (if mem / 2 % 2 = 1 then [2 * p + 1] else []) }

/-- A context as a kernel finds it at its start (R41, R243). -/
def newCtx (h : BitVec 512) (node p ev : Nat) (asid gen : BitVec 16) (spb : Nat) (map lenders : List Nat) : Ctx :=
  { launch := node, p := p, evNode := ev, asid := asid, gen := gen, spb := spb, hdr := h, swmap := map
    lenders := lenders
    bars := (List.range (bits h.toNat 36 32)).map fun n => (n, barOf (bits h.toNat (129 + 2 * n) (128 + 2 * n)) [0])
    sq := { on := true } }

namespace State

/-! ### A context placed on a core -/

/-- The lenders of a lit core of a heat class (R244). -/
def lendersOf (k heat : Nat) : List Nat := (lendPos heat (posOf k)).map fun p => coreAt (dieOf k) (quadOf k) p

/-- Core `k` made ready for a context of header `h`: held contexts that may not stay are evicted, the lenders lend, the
scratchpad base is chosen. -/
def makeRoom (s : State) (k : Nat) (h : BitVec 512) : Nat × State :=
  let ls := lendersOf k (hdrHeat h)
  let s := ls.foldl evict s
  let s := ls.foldl (fun s j => s.onCore j fun x => { x with lendTo := some k }) s
  match (s.core k).held with
  | none => (0, s)
  | some c => (match besideSpb c h with
    | some b => (b, s)
    | none => (0, s.evict k))

/-- The lent window cleared (R243, R303). -/
def clearLent (s : State) (lenders : List Nat) (n : Nat) : State :=
  (lenders.zip (List.range lenders.length)).foldl (fun s j =>
    let n := min (n - j.2 * 2 ^ 21) (2 ^ 21)
    s.fillSpm j.1 0 n (clearRange (s.core j.1).spm 0 n) fun _ => false) s

/-- P0 to P5 written into the launch record at PREC (R83, R292). -/
def putParams (s : State) (k spb prec : Nat) (ps : List (BitVec 64)) : State :=
  if prec = 0xFFFFFFFF then s
  else s.writeAt (Loc.run { mem := .spm, unit := k, off := spb + prec + 16 } 48) (ps.flatMap fun v => leBytes 8 v.toNat)

/-- The tiles of a context that has been placed on core `k` to start or to resume from a node boundary are unconfigured (R308):
in its save area, and where no other context owns them on the core. -/
def freshTiles (s : State) (k : Nat) (c : Ctx) : State :=
  let s := (s.dropTiles c.launch c.p).areaPut c.launch c.p 0x1DB0 (List.replicate 16 0)
  let own (o : List (Nat × (Nat × Nat))) (n : Nat) : List (Nat × (Nat × Nat)) :=
    if o.any (fun e => e.1 = n) then o else tput n (c.launch, c.p) o
  s.onCore k fun x => { x with towner := (List.range 8).foldl own x.towner }

/-- The image and parameters of a launch placed for a context on core `k`. -/
def fillCore (s : State) (k : Nat) (c : Ctx) (l : Launch) : State :=
  let s := match s.imageAt l.image with
    | some im => s.placeImage k c.spb l.image im
    | none => s
  let s := (s.clearLent c.lenders c.lentSize).putParams k c.spb l.prec l.params
  let s := c.lenders.foldl (fun s j => s.onCore j fun x => { x with spill := [] }) s
  (s.onCore k fun x => { x with live := true, ctx := c, mark := none, xres := [] }).freshTiles k c

/-- Logical core `p` of a launch starts on core `k` (R243, R292). -/
def startCore (s : State) (l : Launch) (map : List Nat) (p k : Nat) : State :=
  let (spb, s) := s.makeRoom k l.hdr
  s.fillCore k (newCtx l.hdr l.node p l.parent l.asid l.gen spb map (lendersOf k (hdrHeat l.hdr))) l

/-- The die barriers of a launch (R254, R297). -/
def startBars (s : State) (l : Launch) : State :=
  let n := bits l.hdr.toNat 43 37
  (List.range 8).foldl (fun s d =>
    let ps := (List.range l.n).filter fun p => dieOf (l.cores.getD p 0) = d
    if ps.isEmpty || n = 0 then s
    else s.onDie d fun x => { x with bars := (List.range n).foldl (fun t b =>
      pput (l.node, b) (barOf (bits l.hdr.toNat (161 + 2 * b) (160 + 2 * b)) ps) t) x.bars }) s

/-! ### The oldest entry of a node (R291) -/

def started (s : State) (node : Nat) : Nat := tget 0 s.startedSeq node

def setStarted (s : State) (node q : Nat) : State := { s with startedSeq := tput node q s.startedSeq }

/-- A dword of the entry with sequence number `q`. -/
def entryDword (s : State) (node q k : Nat) : Nat := (s.dword (s.slotOf node q + 8 * k)).toNat

/-- A 256-bit mask of an entry from dword `k` on. -/
def entryMask (s : State) (node q k : Nat) : BitVec 256 :=
  BitVec.ofNat 256 (s.natAt ((hbmLoc (s.slotOf node q + 8 * k)).run 32))

/-- The event vector of a node. -/
def evOf (s : State) (node : Nat) : BitVec 256 := BitVec.ofNat 256 (s.natAt ((hbmLoc (node + 64)).run 32))

/-- An entry fails before it starts (R292, R404). -/
def failEntry (s : State) (node q cause : Nat) : State :=
  let n := s.launchNode node q
  (((s.setNodeState n 4).setLcause n cause).setStarted node q).endEntry node q

/-- The oldest entry of a node that has not started, its WAIT bits set (R291). -/
def waiting (s : State) (node : Nat) : Option Nat :=
  let q := s.started node + 1
  if q > s.seqOf node || s.nodeState (s.launchNode node q) = 5 then none
  else
    let w := s.entryMask node q 9
    if s.evOf node &&& w = w then some q else none

/-- The module without the given launches, to ask what their end would free. -/
def without (s : State) (ns : List Nat) : State :=
  let off (e : Nat × Core) : Nat × Core :=
    let x := e.2
    let x := if x.live && ns.contains x.ctx.launch then { x with live := false } else x
    let x := if x.held.any (fun c => ns.contains c.launch) then { x with held := none } else x
    (e.1, match x.lendTo with
      | some k =>
        let y := s.core k
        if (y.live && ns.contains y.ctx.launch) || y.held.any (fun c => ns.contains c.launch) then { x with lendTo := none }
        else x
      | none => x)
  { s with cores := s.cores.map off, launches := s.launches.filter fun l => !ns.contains l.node }

/-- Room is made for an entry that outranks launches in its way (R302): of those it outranks, the lowest priority and
then the latest start is asked to stop, or, held in place, is evicted. -/
def askRoom (s : State) (prio : Nat) (ok : State → Bool) : State :=
  let below := (s.launches.filter fun l => decide (l.prio < prio) && s.holds l && !l.killed && l.n != l.exited.length)
  let asked (l : Launch) : Bool := s.cores.any fun e => e.2.live && e.2.ctx.launch = l.node && e.2.ctx.req.isSome
  if !(ok (s.without (below.map (·.node)))) || below.any asked then s
  else
    match isort (fun x y => decide (x.prio < y.prio) || (x.prio = y.prio && decide (x.started ≥ y.started))) below with
    | l :: _ =>
      if s.runs l then s.post .preemptRequest { n := l.node }
      else (s.cores.filter fun e => e.2.held.any fun c => c.launch = l.node).foldl (fun s e => s.evict e.1) s
    | [] => s

/-- The start of an entry on the cores given. -/
def begin_ (s : State) (node q : Nat) (im : Image) (ks : List Nat) : State :=
  let n := s.launchNode node q
  let img := s.entryDword node q 1 % 2 ^ 52
  let e2 := s.entryDword node q 2
  let asid := BitVec.ofNat 16 (s.effAsid n)
  let map := s.swmapOf im
  let l : Launch :=
    { node := n, parent := node, seq := q, n := ks.length, heat := hdrHeat im.hdr, prio := s.effPrio n
      dies := (List.range 8).filter fun d => bits e2 23 16 = 0 || bits e2 23 16 / 2 ^ d % 2 = 1
      cores := ks, asid := asid, gen := s.genNext, hdr := im.hdr, set := s.entryMask node q 13
      image := img, prec := bits e2 63 32
      params := (List.range 6).map fun k => BitVec.ofNat 64 (s.entryDword node q (3 + k))
      started := s.clock.ns, exited := [], saved := [], byOwner := false, wanted := false, level := 0, killed := false }
  let s := if bits e2 29 29 = 1 then s.writeAt ((hbmLoc (node + 64)).run 32)
      (leBytes 32 (s.evOf node &&& ~~~ s.entryMask node q 9).toNat) else s
  let t : State := { s with
    genNext := if s.genNext = 0xFFFF then 1 else s.genNext + 1
    pairs := (asid.toNat, s.genNext.toNat) :: s.pairs
    launches := s.launches ++ [l] }
  let s := t.setStarted node q
  let s := (s.setNodeState n 2).placeHbm asid.toNat img im
  let s := (ks.zip (List.range ks.length)).foldl (fun s k => s.startCore l map k.2 k.1) s
  let s := (s.startBars l).redraw []
  if tget 0 s.planAt node = 1 then { s with planAt := tput node (s.clock.ns + 2) s.planAt } else s

end State

/-- LAUNCH_START (R291, R292, R297, R302): the oldest entry of node `n` not yet started starts, fails, or waits. -/
def execLaunchStart (s : State) : Host.Outcome State Fault Refusal :=
  let node := s.arg.n
  let q := s.started node + 1
  .next (if s.boot.phase != phReady || q > s.seqOf node then s
    else if s.nodeState (s.launchNode node q) = 5 then s.setStarted node q
    -- a launch that failed and is still held keeps its launch node from a later entry of the slot (log entry 95)
    else if (s.launchOf (s.launchNode node q)).isSome then s
    else if s.parentBad node then s.failEntry node q 0x03
    else
      let e2 := s.entryDword node q 2
      let n := bits e2 15 0
      if n = 0 || n > 1536 then s.failEntry node q 0x13
      else if (s.waiting node).isNone then s
      else
        let img := s.entryDword node q 1 % 2 ^ 52
        let ln := s.launchNode node q
        if State.hbmBad img || State.hbmBad (s.saveBase ln) || State.hbmBad (s.saveBase ln + n * 0x820000) then
          s.failEntry node q 0x03
        else
          match s.imageAt img with
          | none => s.failEntry node q 0x13
          | some im =>
            let prec := bits e2 63 32
            if headerBad im.hdr || (prec != 0xFFFFFFFF && (prec % 64 != 0 || decide (im.spm.2 < prec + 64))) then
              s.failEntry node q 0x13
            else
              let heat := hdrHeat im.hdr
              let ok (t : State) : Bool := t.fits node n heat (bits im.hdr.toNat 79 64) img
                && (t.placement n heat (bits e2 23 16)).any (t.barsFree (bits im.hdr.toNat 43 37))
              if ok s then
                match s.placement n heat (bits e2 23 16) with
                | some ks => s.begin_ node q im ks
                | none => s
              else s.askRoom (s.effPrio ln) ok)

/-- The makespan of a plan all of whose entries have finished (R299), in microseconds. -/
def State.makespan (s : State) (node : Nat) : State :=
  let t := tget 0 s.planAt node
  let a := tget 0 s.planAt (node + 2)
  let b := tget 0 s.planAt (node + 1)
  if t ≥ 2 && tget 0 s.planAt (node + 3) = 0 && s.doneOf node = b && (List.range (b + 1 - a)).all fun i => s.nodeState (s.launchNode node (a + i)) = 6 then
    let j := s.nodeField node 13 57 56
    { s with planAt := tdel (node + 2) (tdel (node + 1) (tdel node s.planAt)) }.setDword (node + 128 + 8 * j)
      (BitVec.ofNat 64 ((s.clock.ns + 2 - t) / 1000))
  else s

/-- LAUNCH_FINISH (R293, R299, R404): launch node `n` has finished on every core. -/
def execLaunchFinish (s : State) : Host.Outcome State Fault Refusal :=
  .next (match s.launchOf s.arg.n with
    | none => s
    | some l =>
      if l.exited.length < l.n || l.killed then s
      else
        -- an entry that has ended failed stays so, though its owner has let its cores run on (R404, log entry 95)
        let over_ := s.entryEnded l.parent l.seq
        let s := (s.setNodeState l.node (if over_ then 4 else 6)).endLaunch l.node
        let s := if over_ then s
          else (List.range 256).foldl (fun s e => if l.set.getLsbD e then s.putEv l.parent e true else s) s
        let s := s.endEntry l.parent l.seq
        (s.makespan l.parent).redraw (s.lineage 9 l.parent))

/-- FIRMWARE_KERNEL_START (R415): the service core of die `n` starts the kernel whose header is `w` and whose scratchpad
image is `bytes` at base `m`, with P0 `v` and P1 `u` in the launch record at `k`: once the boot ROM has verified the firmware
(R405), and in SAFE on die 0 alone (R406).  With `b` it is, in phase HBMTRAIN, the training routine, which reports at `j`.  The
base that firmware chooses on die 0 leaves its log alone (R410). -/
def execFirmwareKernelStart (s : State) : Host.Outcome State Fault Refusal :=
  let a := s.arg
  let k := 1536 + a.n
  let size := hdrSpm a.w
  let log := Config.logSlot.toNat * 32768
  .next (if !s.boot.power || s.boot.phase = phRom || (s.boot.phase = phSafe && a.n != 0) || decide (a.n ≥ 8)
      || (s.core k).live && (s.core k).ctx.awake || (s.die a.n).routine.isSome || headerBad a.w || a.m % 65536 != 0
      || (a.n = 0 && decide (a.m < log + 32768) && decide (log < a.m + size)) || decide (a.m + size > 2 ^ 21) || decide (a.bytes.length > size) || decide (a.k + 32 > size)
      || hdrLent a.w != 0 then s
    else
      let s := s.fillSpm k a.m size (setBytes (clearRange (s.core k).spm a.m size) a.m a.bytes) fun _ => false
      let s := s.writeAt (Loc.run { mem := .spm, unit := k, off := a.m + a.k + 16 } 16) (leBytes 8 a.v.toNat ++ leBytes 8 a.u.toNat)
      let s := s.onDie a.n fun d => { d with
        bars := d.bars.filter fun b => b.1.1 != 0
        routine := if a.b && s.boot.phase = phTrain then some (a.v.toNat % 4, a.u.toNat, a.m + a.j + 24) else none }
      let c := newCtx a.w 0 0 0 0 0 a.m [] []
      let s := s.onDie a.n fun d => { d with bars := (List.range (bits a.w.toNat 43 37)).foldl (fun t b =>
        pput (0, b) (barOf (bits a.w.toNat (161 + 2 * b) (160 + 2 * b)) [0]) t) d.bars }
      s.onCore k fun x => { (List.range 8).foldl Sys2Proof.Machine.State.clearTile x with
        live := true, ctx := c, mark := none, xres := [], towner := (List.range 8).map fun t => (t, (0, 0)) })

/-! ### Time-triggered tables (R295, R296) -/

/-- The entry after a firing: disarmed, or with TIME beyond the present. -/
def ttNext (e : BitVec 256) (now : Nat) : BitVec 256 :=
  let t := bits e.toNat 255 192
  let p := bits e.toNat 191 128
  BitVec.ofNat 256 (if p = 0 then putBits e.toNat 116 116 0
    else putBits e.toNat 255 192 (if t > now then t else t + ((now - t) / p + 1) * p))

/-- TT_FIRE (R296): entry `k` of die `n`.  The item's failure is reported in NODE; where the template or its NODE is
malformed, in the module root (R420, log entry 20). -/
def execTtFire (s : State) : Host.Outcome State Fault Refusal :=
  let d := s.arg.n
  let k := s.arg.k
  let e := (s.die d).tt.get k
  .next (if s.boot.phase != phReady || !e.getLsbD 116 || bits e.toNat 255 192 > s.clock.ns then s
    else
      let t := s.onDie d fun x => { x with tt := x.tt.set k (ttNext e s.clock.ns) }
      let tmpl := bits e.toNat 115 64
      if State.hbmBad tmpl then t.setLcause Config.rootNode 0x03
      else
        let entry := t.bytesAt ((State.hbmLoc tmpl).run 160)
        let node := leNat (entry.take 8) % 2 ^ 52
        if nodeBad node then t.setLcause Config.rootNode 0x03
        else
          match t.submit node entry true with
          | some (_, u) => u
          | none => t.setLcause node (if t.ringOk node && t.ringFull node then 0x02 else 0x03))

/-- The entry of a die's table that fires first of those that are due (R296): of those whose TIME falls within a nanosecond of
the earliest the lowest index. -/
def ttFirst (t : Store 256) (now : Nat) : Option Nat :=
  let due := (t.filter fun e => e.2.getLsbD 116 && decide (bits e.2.toNat 255 192 ≤ now)).map
    fun e => (bits e.2.toNat 255 192, e.1)
  match due with
  | [] => none
  | e :: l =>
    let m := l.foldl (fun m x => min m x.1) e.1
    (due.filter fun x => decide (x.1 ≤ m + 1)).foldl (fun a x => some (min x.2 (a.getD x.2))) none

/-! ### Rotation and the partition selector -/

/-- HOB_ROTATE (R298): die `n`, once its period has passed. -/
def execHobRotate (s : State) : Host.Outcome State Fault Refusal :=
  let d := s.die s.arg.n
  let p := d.hob.toNat * 3760000
  .next (if d.rotAt + p ≤ s.ref then s.setDie s.arg.n { d with rot := d.rot + 1, rotAt := d.rotAt + p } else s)

/-- HOBCFG_WRITE (R298): value `v` at die `n`; out of 1 to 16 it is ignored. -/
def execHobcfgWrite (s : State) : Host.Outcome State Fault Refusal :=
  let r := s.arg.v.toNat % 32
  .next (if 1 ≤ r && r ≤ 16 then s.onDie s.arg.n fun d => { d with hob := BitVec.ofNat 5 r } else s)

/-- The plan with the smallest makespan, the lowest index among equals (R299). -/
def bestPlan (ms : List Nat) : Nat := (List.range ms.length).foldl (fun a i => if ms.getD i 0 < ms.getD a 0 then i else a) 0

/-- Entries of the chosen plan submitted while the ring of phase node `n` takes them; what is left waits (R291, R299). -/
def State.submitPlan (s : State) (n plan cnt : Nat) : Nat → State
  | 0 => s
  | rem + 1 =>
    match s.submit n (s.bytesAt ((State.hbmLoc (plan + 64 + 160 * (cnt - rem - 1))).run 160)) false with
    | some (q, t) => { t with planAt := tput (n + 3) rem (tput (n + 1) q t.planAt) }.submitPlan n plan cnt rem
    | none => s.noRing n

/-- PLAN_SELECT (R299): a phase boundary of node `n`, with `b` the submission of its first entries, or the next entries of a plan
longer than the ring. -/
def execPlanSelect (s : State) : Host.Outcome State Fault Refusal :=
  let n := s.arg.n
  let k := s.nodeField n 13 55 52
  let rem := tget 0 s.planAt (n + 3)
  let arr := s.nodeField n 13 51 0
  let plan (j : Nat) : Nat := (s.dword (arr + 8 * j)).toNat % 2 ^ 52
  let count (a : Nat) : Nat := s.natAt ((State.hbmLoc a).run 4)
  .next (if nodeBad n || s.nodeKind n != 2 || k = 0 || k > 4 then s
    else if rem != 0 then
      let a := plan (s.nodeField n 13 57 56)
      s.submitPlan n a (count a) rem
    else if !s.arg.b && s.doneOf n != s.seqOf n then s
    else
      let j := bestPlan ((List.range k).map fun i => (s.dword (n + 128 + 8 * i)).toNat)
      let a := plan j
      if State.hbmBad arr || State.hbmBad a then s.setLcause n 0x03
      else
        let t := s.setField (n + 104) 57 56 j
        { t with planAt := tput (n + 3) (count a) (tput (n + 2) (s.seqOf n + 1) (tput n 1 t.planAt)) }.submitPlan
          n a (count a) (count a))

end Sys2Proof.Machine
end

