-- ==== Sys2Proof/Machine/Resume.lean ====
section
/-!
DEFINITION. Resumption (14_contexts R302 to R306, R312), the kill (R321, 18_fabric R357, R374), and invalidation of
translations (R320, R342).
-/

namespace Sys2Proof.Machine

/-! ### Places that move with a context (R301, R305) -/

/-- The places of an effect moved by `f`. -/
def Eff.mapLoc (f : Loc → Loc) : Eff → Eff
  | .store ps src => .store (ps.map fun p => { p with loc := f p.loc }) src
  | .rdS d l n sx t => .rdS d (f l) n sx t
  | .rdH d l t => .rdH d (f l) t
  | .rdV d ps t => .rdV d (ps.map fun p => { p with loc := f p.loc }) t
  | .rdQ d ps km t => .rdQ d (ps.map fun p => { p with loc := f p.loc }) km t
  | .rdT n cs t => .rdT n (cs.map fun c => (c.1, f c.2)) t
  | .rdF d ls c ends off t => .rdF d (ls.map f) c ends off t
  | .rdX ls t => .rdX (ls.map f) t
  | .far d l n sx h got => .far d (f l) n sx h got
  | .out (.store l bs c) => .out (.store (f l) bs c)
  | .out (.piece l bs c) => .out (.piece (f l) bs c)
  | e => e

def Flight.mapLoc (f : Loc → Loc) (x : Flight) : Flight := { x with script := x.script.map fun e => (e.1, e.2.1, e.2.2.mapLoc f) }

/-- The places of a stopped context moved by `f`: what is in flight or in its replay queue, the destinations of ORD accumulates
that still wait (R216), and its round table. -/
def Ctx.mapLoc (f : Loc → Loc) (c : Ctx) : Ctx :=
  { c with
    flights := c.flights.map (·.mapLoc f)
    probes := c.probes.map fun p => { p with flights := p.flights.map (·.mapLoc f) }
    frame := { c.frame with replay := c.frame.replay.map (·.mapLoc f) }
    cmds := c.cmds.map fun x => { x with elems := x.elems.map fun e => { e with src := e.src.map f, dst := e.dst.map f } }
    rounds := c.rounds.map fun r => (f r.1, r.2) }

/-- Where a byte of a context's scratchpad and lent window goes when the context moves from `k` to `k'`. -/
def moveLoc (k : Nat) (c : Ctx) (k' : Nat) (c' : Ctx) (l : Loc) : Loc :=
  if l.mem != .spm then l
  else if l.unit = k && decide (c.spb ≤ l.off) && decide (l.off < c.spb + c.spmSize) then
    { l with unit := k', off := l.off - c.spb + c'.spb }
  else if c.lenders.contains l.unit then { l with unit := c'.lenders.getD (c.lenders.idxOf l.unit) 0 }
  else l

/-- A stopped context that runs on (R305, R306, R315): at loop drain every stream issues at the saved core time; a trapped
one is re-injected. -/
def Ctx.wake (c : Ctx) : Ctx :=
  match c.mode with
  | .stoppedTrap | .faulted => { State.returnFrom c with mode := .running, req := none, evSeen := [] }
  | _ => { c with mode := .running, req := none, evSeen := [] }

/-- A context resumed from a node boundary (R303): every register but what the record holds is as at a kernel's start. -/
def Ctx.wakeNode (c : Ctx) (spb : Nat) (lenders : List Nat) : Ctx :=
  { newCtx c.hdr c.launch c.p c.evNode c.asid c.gen spb c.swmap lenders with
    s := c.s, clkdiv := c.clkdiv, ctime := c.ctime, opened := c.opened, segs := c.segs, variant := c.variant
    sq := { on := true, pc := c.sq.pc, due := max c.sq.due c.ctime }
    bars := c.bars, lastArr := c.lastArr, rounds := c.rounds, cmds := c.cmds, lseq := c.lseq, defer := c.defer
    causes := c.causes, seq := c.seq, jobs := c.jobs }

/-- A stream whose resume address lies below 0 (R152). -/
def Ctx.badResume (c : Ctx) : Option Nat :=
  if c.mode != .stoppedLoop then none else [0, 1].find? fun n => (c.strm n).on && (c.strm n).pc.getLsbD 63

namespace State

/-- The context wakes on core `k`; a resume address below 0 raises 0x13. -/
def wakeOn (s : State) (k : Nat) (c : Ctx) : State :=
  let s1 := s.onCore k fun x => { x with live := true, ctx := c.wake, mark := none, xres := [] }
  match c.badResume with
  | some n => { ({ s1 with focus := k } : State).trapInto c.wake n false 0x13 0 0 0 with focus := s.focus }
  | none => s1

/-- The tiles that a context left on other cores than `k` go to its save area (R308). -/
def gatherTiles (s : State) (k : Nat) (c : Ctx) : State :=
  s.cores.foldl (fun s e =>
    if e.1 = k then s
    else
      (e.2.towner.filter fun o => o.2 = (c.launch, c.p)).foldl (fun s o =>
        let s := if (e.2.tshape.get o.1).getLsbD 12 then s.writeTile e.1 o.1 c.launch c.p else s
        s.onCore e.1 fun x => { clearTile x o.1 with towner := tdel o.1 x.towner }) s) s

/-- A core on which a saved context may run: on the same die, at a free position of its heat class whose lenders are free
(R303, R305). -/
def resumeCore (s : State) (l : Launch) (p : Nat) : Option Nat :=
  let d := dieOf (l.cores.getD p 0)
  if l.heat < 2 then (s.slotsOn d l.heat).head?
  else (((s.quadsOf d).flatMap fun q => (litPos l.heat).map (coreAt d q)).filter fun k =>
    s.freeFor k && (lendersOf k l.heat).all s.freeFor).head?

/-- A saved context placed on core `k`. -/
def placeSaved (s : State) (l : Launch) (c : Ctx) (k : Nat) : State :=
  let old := l.cores.getD c.p 0
  let (spb, s) := s.makeRoom k l.hdr
  let ls := lendersOf k l.heat
  let s := s.onLaunch l.node fun l => { l with saved := tdel c.p l.saved, cores := l.cores.set c.p k }
  if c.mode = .stoppedNode then
    let c1 := loadNode (s.hbmBytes (s.blockOf c.launch c.p) 0x2000) c
    s.fillCore k ((c1.mapLoc (moveLoc old c k { c1 with spb := spb, lenders := ls })).wakeNode spb ls) l
  else
    let c1 := { s.loadRegs c with spb := spb, lenders := ls }
    let f := moveLoc old c k c1
    let c2 := c1.mapLoc f
    let mv (d : Nat × Die) : Nat × Die := (d.1, { d.2 with
      ords := d.2.ords.map fun o => if o.launch = l.node then { o with loc := f o.loc } else o })
    let s : State := { s with diesT := s.diesT.map mv }
    ((s.gatherTiles k c2).loadBlock k c2).wakeOn k c2

/-- Whether the contexts of a launch may resume now (R302): its owner has asked, or it is pre-empted, not by its owner, and its
needs fit again. -/
def mayResume (s : State) (l : Launch) : Bool :=
  !l.killed && (l.wanted || (s.nodeState l.node = 3 && !l.byOwner
    && (s.holds l || s.fits l.parent l.n l.heat (bits l.hdr.toNat 79 64) l.image)))

/-- What a resumption shows: the launch runs, its levels are redrawn. -/
def showRunning (s : State) (l : Launch) : State :=
  ((s.onLaunch l.node fun l => { l with wanted := true }).setNodeState l.node 2).redraw []

end State

/-- CONTEXT_RESUME (R301 to R306, R312, R315): context `m` of launch node `n`, faulted or held on its core, or saved. -/
def execContextResume (s : State) : Host.Outcome State Fault Refusal :=
  .next (match s.launchOf s.arg.n with
    | none => s
    | some l =>
      let p := s.arg.m
      if !s.mayResume l then s
      else
        let mine (c : Ctx) : Bool := c.launch = l.node && c.p = p
        match s.cores.find? fun e => e.2.live && mine e.2.ctx && e.2.ctx.mode = .faulted with
        | some (k, x) => if x.svc = 2 then s else (s.wakeOn k x.ctx).showRunning l
        | none =>
          match s.cores.find? fun e => e.2.held.any mine with
          | some (k, x) =>
            if x.live || x.lendTo.isSome || x.taking != 0 || x.svc = 2 then s
            else
              match x.held with
              | some c => ((s.onCore k fun y => { y with held := none }).wakeOn k c).showRunning l
              | none => s
          | none =>
            match l.saved.find? fun e => e.1 = p with
            | some (_, c) =>
              match s.resumeCore l p with
              | some k => (s.placeSaved l c k).showRunning l
              | none => s
            | none => s)

/-- The owner lets a launch that it has pre-empted run on (R302). -/
def State.ownerResumes (s : State) (l : Launch) : State :=
  if l.byOwner && s.nodeState l.node = 3 then s.onLaunch l.node fun l => { l with byOwner := false } else s

/-- RESUME_REQUEST (R302): the owner's STATE 2 in node `n`; it has no effect on a launch in another state than 3 or 4, nor in the
module root. -/
def execResumeRequest (s : State) : Host.Outcome State Fault Refusal :=
  let n := s.arg.n
  .next (if s.nodeKind n = 3 then
      match s.launchOf n with
      | some l =>
        if s.nodeState n = 4 then
          if s.homes.any fun h => let c := s.ctxAt h; c.launch = n && c.mode = .faulted then
            (s.onLaunch n fun l => { l with wanted := true, byOwner := false }).setNodeState n 2
          else s
        else s.ownerResumes l
      | none => s
    else if s.nodeKind n = 1 || s.nodeKind n = 2 then (s.beneath n).foldl State.ownerResumes s
    else s)

/-! ### Killing (R321) -/

/-- HEAD of queue pair `q` advances past retired slots (18_fabric R356). -/
def headUp (d : Iod) (q : Nat) : Nat → Iod
  | 0 => d
  | n + 1 =>
    let c := (d.qp.get q).toNat
    let h := bits c 31 0
    if d.qretired.contains (q, h) then
      headUp { d with qretired := d.qretired.erase (q, h)
                      qp := d.qp.set q (BitVec.ofNat 256 (putBits c 31 0 ((h + 1) % 2 ^ 32))) } q n
    else d

/-- Slot `h` of queue pair `q` retires. -/
def retireSlot (d : Iod) (q h : Nat) : Iod :=
  let d := { d with armed := d.armed.filter (fun a => !(a.1 = q && a.2.slot = h)), qretired := d.qretired ++ [(q, h)] }
  headUp d q (d.qretired.length + 1)

/-- What the I/O dies do for a killed pair: armed entries retire, sieve partitions take no more packets, plans of the
address space retire (R357, R360, R374). -/
def Iod.retirePair (d : Iod) (asid gen : Nat) : Iod :=
  let hit (q : Nat) : Bool := let c := (d.qp.get q).toNat; bits c 231 216 = asid && bits c 215 200 = gen
  let d := (d.armed.filter fun a => hit a.1).foldl (fun d a => retireSlot d a.1 a.2.slot) d
  let part (v : BitVec 256) : Bool := bits v.toNat 223 208 = asid && bits v.toNat 239 224 = gen
  let one (e : Nat × Sieve) : Nat × Sieve :=
    let run (k : Nat) : Bool := e.2.run.any fun r => r.part = k
    (e.1, { e.2 with part := e.2.part.map fun x =>
      (x.1, if part x.2 && !run x.1 then BitVec.ofNat 256 (putBits x.2.toNat 255 255 0) else x.2) })
  { d with sieves := d.sieves.map one }

namespace State

/-- The entries beneath a killed node that have not started are killed (R321, R404). -/
def killWaiting (s : State) (n : Nat) : State :=
  let rings := s.nodes.filter fun m => (s.lineage 9 m).contains n
  let s := rings.foldl (fun s m =>
    let a := s.started m
    (List.range (s.seqOf m - a)).foldl (fun s i =>
      let q := a + 1 + i
      if s.nodeState (s.launchNode m q) = 1 then (s.setNodeState (s.launchNode m q) 5).endEntry m q else s) s) s
  -- the node itself, a launch that waits
  if s.nodeKind n = 3 && s.nodeState n = 1 then
    let m := s.parentOf n
    let a := s.started m
    match (List.range (s.seqOf m - a)).find? fun i => s.launchNode m (a + 1 + i) = n with
    | some i => (s.setNodeState n 5).endEntry m (a + 1 + i)
    | none => s
  else s

/-- Steps 1 and 2 of a kill for one launch. -/
def killLaunch (s : State) (l : Launch) : State :=
  let pair := (l.asid.toNat, l.gen.toNat)
  let s := (s.dropContexts l.node).onLaunch l.node fun l => { l with killed := true }
  { s with
    retired := s.retired ++ [pair]
    kills := s.kills ++ [(l.node, pair.1, pair.2)]
    iods := s.iods.map fun d => (d.1, d.2.retirePair pair.1 pair.2)
    plans := s.plans.filter fun p => bits p.record 159 144 != pair.1
    diesT := s.diesT.map fun d => (d.1, { d.2 with
      bars := d.2.bars.map fun b => if b.1.1 = l.node then (b.1, { b.2 with broken := true }) else b
      ords := d.2.ords.filter fun o => o.launch != l.node }) }

end State

/-- KILL (R321): STATE 5 written into node `n`: every launch beneath it is killed while the lists of retired pairs have room, the
rest when a slot has become free. -/
def execKill (s : State) : Host.Outcome State Fault Refusal :=
  let n := s.arg.n
  let ls := (s.beneath n).filter fun l => !l.killed
  let now := ls.take (64 - s.retired.length)
  let t := now.foldl State.killLaunch (s.killWaiting n)
  .next (if now.length < ls.length then (t.redraw (s.lineage 9 n)).post .kill { n := n }
    else
      let t := if s.nodeKind n = 3 then t else { t with kills := t.kills ++ [(n, 65536, 0)] }
      t.redraw (s.lineage 9 n))

/-- No request of a killed pair remains in flight: no sieve runs or holds a packet of it, nor does one wait on its way; and for a
node other than a launch, the kills beneath it are done. -/
def State.quiet (s : State) (k : Nat × Nat × Nat) : Bool :=
  let mine (p : Packet) : Bool := bits p.head.toNat 33 18 = k.2.1 && bits p.head.toNat 17 2 = k.2.2
  if k.2.1 = 65536 then !(s.kills.any fun x => x.2.1 != 65536 && (s.lineage 9 x.1).contains k.1)
  else !(s.iods.any fun d => d.2.sieves.any fun v =>
      (v.2.run.any fun r => r.asid.toNat = k.2.1 && r.gen.toNat = k.2.2) || v.2.queue.any fun q => mine q.2)
    && !(s.pend.any fun e => e.2.b && mine e.2.pkt)

/-- KILL_QUIESCE_DONE (R321): the kill of node `n`; page locks went with the commands that held them. -/
def execKillQuiesceDone (s : State) : Host.Outcome State Fault Refusal :=
  let n := s.arg.n
  .next (match s.kills.find? fun k => k.1 = n with
    | none => s
    | some k =>
      if !s.quiet k then s
      else
        let t := { s with kills := s.kills.erase k }
        let t := if k.2.1 = 65536 then t else { t with retired := t.retired.erase (k.2.1, k.2.2) }
        let t := t.setNodeState n 5
        match s.launchOf n with
        | some l => ((t.endLaunch n).endEntry l.parent l.seq).redraw (s.lineage 9 l.parent)
        | none => t)

/-! ### Invalidation (R320, R342) -/

/-- INVGO (R342): a write of the register with value `v` starts an invalidation where none runs. -/
def execInvgo (s : State) : Host.Outcome State Fault Refusal :=
  .next (if s.arg.v.getLsbD 0 then { s with invGo := true } else s)

/-- Whether a page overlaps the range of the invalidation. -/
def State.inRange (s : State) (e : TlbE) : Bool :=
  e.asid = s.invAsid.toNat && (s.invLen = 0 ||
    (decide (e.base < s.invBase.toNat / 65536 * 65536 + s.invLen.toNat * 65536)
      && decide (s.invBase.toNat / 65536 * 65536 < e.base + e.size)))

/-- A page lock on the range (R196): a page of a command not yet retired. -/
def State.rangeLocked (s : State) : Bool :=
  s.homes.any fun h => let c := s.ctxAt h
    c.asid = s.invAsid && c.cmds.any fun x => x.pages.any fun p => s.invLen = 0 ||
      (decide (p.1 < s.invBase.toNat / 65536 * 65536 + s.invLen.toNat * 65536)
        && decide (s.invBase.toNat / 65536 * 65536 < p.1 + p.2))

/-- Whether the access of an issued word goes through the translation of the address space (R92): its address, formed again from
its captured source, lies in the translated window. -/
def Flight.translated (f : Flight) : Bool :=
  let a := f.a.toNat % 2 ^ 64
  let at_ (z : BitVec 2) (o : BitVec 4) : Bool :=
    decide ((BitVec.ofNat 64 a + BitVec.ofInt 64 (o.toInt * (2 ^ z.toNat : Nat))).toNat / 2 ^ 60 = 0)
  match decodeWord .sq f.word with
  | .ok (.ld _ _ _ z _ o _) => at_ z o
  | .ok (.st _ _ _ z o _) => at_ z o
  | .ok (.hld ..) => decide (a / 2 ^ 60 = 0)
  | .ok (.hst ..) => decide (a / 2 ^ 60 = 0)
  | _ => false

/-- Where a byte reached through one of the pages `old` of the invalidation's range lies by the new tables; where these hold no
page for it, the spec says nothing and it stays (R320, log entry 96). -/
def State.newPlace (s : State) (old : List TlbE) (l : Loc) : Loc :=
  match old.find? fun e => decide (e.addr ≤ l.off) && decide (l.off < e.addr + e.size) && e.place (e.base + (l.off - e.addr)) = l with
  | none => l
  | some e =>
    let va := e.base + (l.off - e.addr)
    ((s.walk s.invAsid.toNat va).map fun x => x.place va).getD l

/-- The accesses that a context has issued and not performed use the new mapping (R320); a WAITA that stands is evaluated again. -/
def State.reaim (s : State) (k : Nat) (c : Ctx) : Ctx :=
  if c.asid != s.invAsid then c
  else
    let old := ((s.core k).tlb ++ (s.die (dieOf k)).tlb).filter s.inRange
    let f (x : Flight) : Flight := if x.translated then x.mapLoc (s.newPlace old) else x
    { c with
      flights := c.flights.map f
      frame := { c.frame with replay := c.frame.replay.map f }
      freeze := c.freeze.filter fun x => match x.2 with
        | .addr .. => false
        | _ => true }

/-- INVALIDATION_COMPLETE (R320): cached copies in the range are removed once no page lock holds it. -/
def execInvalidationComplete (s : State) : Host.Outcome State Fault Refusal :=
  .next (if !s.invGo || s.rangeLocked then s
    else
      let keep (l : List TlbE) : List TlbE := l.filter fun e => !s.inRange e
      let aim (e : Nat × Core) : Nat × Core :=
        let c := s.reaim e.1 e.2.ctx
        (e.1, { e.2 with
          ctx := c
          mark := if c.freeze.length < e.2.ctx.freeze.length && c.freeze.isEmpty then some (c.ctime, c) else e.2.mark
          held := e.2.held.map (s.reaim e.1) })
      let s : State := { s with
        cores := s.cores.map aim
        launches := s.launches.map fun l => { l with saved := l.saved.map fun x => (x.1, s.reaim (l.cores.getD x.1 0) x.2) } }
      { s with
        invGo := false
        cores := s.cores.map fun e => (e.1, { e.2 with tlb := keep e.2.tlb, xres := [] })
        diesT := s.diesT.map fun d => (d.1, { d.2 with tlb := keep d.2.tlb }) })

end Sys2Proof.Machine
end

