-- ==== Sys2Proof/Machine/Fabric.lean ====
section
/-!
DEFINITION. The device-memory aperture (18_fabric R343), the notify table (R344), packets and their routes (R346 to R350), counters (R351), and what an arriving request does at its home.
-/

namespace Sys2Proof.Machine

namespace State

/-! ### Counters (R351) -/

def counterLoc (c : Nat) : Loc := { mem := .pantry, unit := c / 512, off := 0x3FFF800 + 4 * (c % 512) }

def counter (s : State) (c : Nat) : Nat := s.natAt ((counterLoc c).run 4)

/-- A counter rises, modulo 2^32; 0xFFF names none, and a port action on data that cannot be decoded performs nothing
(R394). -/
def bump (s : State) (c n : Nat) : State :=
  if c = 0xFFF || s.anyBad ((counterLoc c).run 4) then s
  else s.writeAt ((counterLoc c).run 4) (leBytes 4 ((s.counter c + n) % 2 ^ 32))

/-! ### Translation at an I/O die or a port (R317, R318, R350) -/

/-- The places of `n` bytes at a virtual address, none where a page is absent or forbids the access. -/
def ioLocs (s : State) (asid : Nat) (wr : Bool) : Nat → Nat → Nat → Option (List Loc)
  | 0, _, n => if n = 0 then some [] else none
  | f + 1, va, n =>
    if n = 0 then some []
    else if va ≥ 2 ^ 52 then none
    else
      match s.walk asid va with
      | none => none
      | some e =>
        if !(if wr then e.wr else e.rd) then none
        else
          let k := min n (e.base + e.size - va)
          (s.ioLocs asid wr f (va + k) (n - k)).map fun ls => Loc.run (e.place va) k ++ ls

/-- Pages that `n` bytes can touch, and one more. -/
def ioFuel (n : Nat) : Nat := n / 65536 + 2

end State

end Sys2Proof.Machine

namespace Sys2Proof

open Sys2Proof.Machine

/-! ### Packets (R348) -/

/-- Bits [hi:lo] of header dword `k`. -/
def Packet.f (p : Packet) (k hi lo : Nat) : Nat := bits (p.head.toNat / 2 ^ (64 * k)) hi lo

namespace Packet

def cls (p : Packet) : Nat := p.f 0 63 62
def kind (p : Packet) : Nat := p.f 0 61 58
def dmod (p : Packet) : Nat := p.f 0 57 46
def smod (p : Packet) : Nat := p.f 0 45 34
def sasid (p : Packet) : Nat := p.f 0 33 18
def gen (p : Packet) : Nat := p.f 0 17 2
def esc (p : Packet) : Bool := p.f 0 1 1 = 1
def sv (p : Packet) : Bool := p.f 0 0 0 = 1
def cnt (p : Packet) : Nat := p.f 1 63 52
def addr (p : Packet) : Nat := p.f 1 51 0
def len (p : Packet) : Nat := p.f 2 63 57
def flow (p : Packet) : Nat := p.f 2 49 32
def plan (p : Packet) : Nat := p.f 2 31 0
def rank (p : Packet) : Nat := p.f 3 63 52
def iter (p : Packet) : Nat := p.f 3 51 32
def chunk (p : Packet) : Nat := p.f 3 31 0
def arg (p : Packet) : Nat := p.f 4 31 0

/-- The payload as bytes. -/
def bytes (p : Packet) : List Byte := p.body.flatMap fun x => leBytes 64 x.toNat

/-- Payload bytes of a packet: whole flits, or as many as ARG says where the last flit is cut short (log entry 22). -/
def size (p : Packet) : Nat := if p.arg = 0 || p.arg > 64 * p.body.length then 64 * p.body.length else p.arg

/-- A packet that R348 drops: a reserved CLASS or KIND, LEN past 64, or a reserved field that is not zero. -/
def bad (p : Packet) : Bool :=
  p.cls = 3 || decide (8 ≤ p.kind) || decide (64 < p.len) || p.f 4 63 32 != 0 || p.head.toNat / 2 ^ 320 != 0

/-- A control packet whose header is not as R352, R359 and R380 give it: CLASS 2, and no field but CLASS, KIND, DMOD, SMOD,
LEN and, of a SETUP packet, PLAN that is not 0; a TOKEN or TIME packet has LEN 1. -/
def ctlBad (p : Packet) : Bool :=
  p.cls != 2 || p.f 0 33 0 != 0 || p.f 1 63 0 != 0 || p.f 2 56 32 != 0 || p.f 3 63 0 != 0 || p.f 4 63 0 != 0
    || (p.kind != 5 && (p.len != 1 || p.plan != 0))

end Packet

/-- Bytes as flits, the last filled with zeros. -/
def flitsOf : Nat → List Byte → List (BitVec 512)
  | 0, _ => []
  | n + 1, bs => if bs.isEmpty then [] else BitVec.ofNat 512 (leNat (bs.take 64)) :: flitsOf n (bs.drop 64)

/-- The set-up record of a SETUP packet, the lease record of a TOKEN packet, the type of a PTP message. -/
def Packet.first (p : Packet) : Nat := (p.body.headD 0).toNat

/-- The event that a packet is at its module. -/
def Packet.event (p : Packet) : Instr :=
  match p.kind with
  | 0 => .write
  | 1 => .wreduce
  | 2 => .read
  | 3 => .readrsp
  | 4 => .cadd
  | 5 =>
    match bits p.first 3 0 with
    | 0 => .setupReserve
    | 1 => .setupGrant
    | 2 => .setupRefuse
    | 3 => .setupCommit
    | _ => .setupRelease
  | 6 =>
    match bits p.first 147 144 with
    | 1 => .tokenOffer
    | 2 => .tokenAccept
    | 3 => .tokenCommit
    | _ => .tokenGrant
  | _ =>
    match bits p.first 3 0 with
    | 0 => .syncMessage
    | 8 => .followUpMessage
    | 9 => .delayRespMessage
    | _ => .announceMessage

end Sys2Proof

namespace Sys2Proof.Machine

/-- A packet's header (R348). -/
def header (cls kind dmod sasid gen cnt addr len : Nat) : Nat :=
  cls * 2 ^ 62 + kind * 2 ^ 58 + dmod % 4096 * 2 ^ 46 + Config.moduleId * 2 ^ 34 + sasid % 65536 * 2 ^ 18 + gen % 65536 * 4
    + (cnt % 4096 * 2 ^ 52 + addr % 2 ^ 52) * 2 ^ 64 + len % 128 * 2 ^ (128 + 57)

namespace State

/-- A drop counted at a port (R348, R350). -/
def countDrop (s : State) (i port : Nat) : State :=
  s.onIod i fun d => { d with portDrops := tput port (tget 0 d.portDrops port + 1) d.portDrops }

/-- A packet leaves an I/O die by its route (R349), or stays in the module; a port out of service drops it and counts. -/
def sendPacket (s : State) (i : Nat) (p : Packet) : State :=
  if s.retired.contains (p.sasid, p.gen) then s
  else if p.dmod = Config.moduleId then s.post p.event { n := i, pkt := p, b := true }
  else
    let d := s.iod i
    let port := (d.route.get p.dmod).toNat
    if d.portDown.contains port then s.countDrop i port else { s with sent := s.sent ++ [.packet i port p] }

/-- The pair under which a request is performed (R350): its own for the module's own agents, else by the import table. -/
def pairFor (s : State) (i : Nat) (p : Packet) (own : Bool) : Option (Nat × Nat) :=
  if own then some (p.sasid, p.gen)
  else
    let e := ((s.iod i).import_.get p.smod).toNat
    if bits e 63 63 = 1 && bits e 47 32 = p.sasid then some (bits e 31 16, bits e 15 0) else none

/-- A translation fault counted in the import entry (R350). -/
def countFault (s : State) (i : Nat) (p : Packet) : State :=
  s.onIod i fun d => { d with importFaults := tput p.smod (tget 0 d.importFaults p.smod + 1) d.importFaults }

/-- An arriving request: malformed ones are dropped and counted, one for another module goes on by its route, one with
no import entry is dropped and counted, one of a retired pair dropped (R321, R348 to R350, R357). -/
def incoming (s : State) (f : State → Nat → Nat → State) : State :=
  let a := s.arg
  let p := a.pkt
  if (s.iod a.n).removed then s
  else if p.bad then s.countDrop a.n a.m
  else if p.dmod != Config.moduleId then s.sendPacket a.n p
  else
    match s.pairFor a.n p a.b with
    | none => s.countDrop a.n a.m
    | some (x, g) => if s.retired.contains (x, g) then s else f s x g

/-- A packet with SV set that has not passed its sieve goes there (R367). -/
def toSieve (s : State) : Option State :=
  let a := s.arg
  if a.pkt.sv && a.k = 0 then some (s.post .sievePacket a) else none

/-- A request waits for an invalidation that covers its page (R320). -/
def waitInval (s : State) (asid va : Nat) : Bool := s.invalidating asid va

/-- Whether a write of an I/O die under a pair is performed: one into a translation table by an address space other than 0 is
dropped (R401). -/
def ioOpen (s : State) (asid : Nat) (ls : List Loc) : Bool := !(asid != 0 && s.inTables ls)

/-- Bytes written by a request of another module or an I/O die under a pair. -/
def ioWrite (s : State) (asid : Nat) (ls : List Loc) (bs : List Byte) : State :=
  if s.ioOpen asid ls then (s.hostClear ls).writeAt ls bs else s

end State

/-- PACKET_DROP (R348): the packet `pkt` at port `m` of I/O die `n`. -/
def execPacketDrop (s : State) : Host.Outcome State Fault Refusal :=
  .next (if s.arg.pkt.bad then s.countDrop s.arg.n s.arg.m else s)

/-- WRITE (R350, R351): performed at its home, and then its counter rises by its bytes. -/
def execWrite (s : State) : Host.Outcome State Fault Refusal :=
  let a := s.arg
  let p := a.pkt
  .next (s.incoming fun s x _ =>
    match s.toSieve with
    | some t => t
    | none =>
      if s.waitInval x p.addr then s.repost .write a
      else
        match s.ioLocs x true (State.ioFuel p.size) p.addr p.size with
        | some ls => if s.ioOpen x ls then (s.ioWrite x ls (p.bytes.take p.size)).bump p.cnt p.size else s
        | none => s.countFault a.n p)

/-- CADD (R351). -/
def execCadd (s : State) : Host.Outcome State Fault Refusal :=
  .next (s.incoming fun s _ _ =>
    match s.toSieve with
    | some t => t
    | none => s.bump s.arg.pkt.cnt s.arg.pkt.arg)

/-- READ (R347, R350, R391): LEN flits of the addressed bytes come back (log entry 22); a fault or data that cannot be
decoded comes back as ARG bit 31 with a payload of zeros. -/
def execRead (s : State) : Host.Outcome State Fault Refusal :=
  let a := s.arg
  let p := a.pkt
  let n := 64 * p.len
  let answer (s : State) (fail : Bool) (bs : List Byte) : State :=
    let arg := p.arg % 2 ^ 31 + if fail then 2 ^ 31 else 0
    s.sendPacket a.n { head := BitVec.ofNat 512 (header 1 3 p.smod p.sasid p.gen 0xFFF 0 p.len + arg * 2 ^ 256)
                       body := flitsOf 65 bs }
  .next (s.incoming fun s x _ =>
    match s.toSieve with
    | some t => t
    | none =>
      if s.waitInval x p.addr then s.repost .read a
      else
        match s.ioLocs x false (State.ioFuel n) p.addr n with
        | some ls =>
          if s.anyBad ls then answer (s.touch ls) true (List.replicate n 0) else answer (s.touch ls) false (s.heard ls)
        | none => answer (s.countFault a.n p) true (List.replicate n 0))

/-- READRSP (R347): consumed at the requester without further traffic; no agent of the module has sent a READ, so
nothing waits for it. -/
def execReadrsp (s : State) : Host.Outcome State Fault Refusal :=
  let p := s.arg.pkt
  .next (if p.bad then s.countDrop s.arg.n s.arg.m
    else if p.dmod != Config.moduleId then s.sendPacket s.arg.n p else s)

/-! ### Ports (R346) -/

/-- PORT_RETRAIN (R346): port `m` of I/O die `n` has trained again within 1 ms and is in service. -/
def execPortRetrain (s : State) : Host.Outcome State Fault Refusal :=
  .next (if s.arg.m < Config.portsPerIod then
      s.onIod s.arg.n fun d => { d with portDown := d.portDown.filter (· != s.arg.m) }
    else s)

/-- A port leaves service: the routes that use it are reported, and the fall of its SerDes load, whose size is free (R346,
R387, R410). -/
def State.portLost (s : State) (i port routes : Nat) : State :=
  let s := s.onIod i fun d => { d with portDown := d.portDown ++ [port] }
  let s := s.addLog 0x04 0 port (8 + i) routes 0
  ({ s with free := s.free + 1 } : State).addLog 0x07 0 port (8 + i) (Config.freeWord s.free).toNat 0

/-- PORT_REMOVED (R346, R410): port `m` of I/O die `n` leaves service; the number of routes that use it is reported. -/
def execPortRemoved (s : State) : Host.Outcome State Fault Refusal :=
  let a := s.arg
  let d := s.iod a.n
  let routes := ((List.range 4096).filter fun k => (d.route.get k).toNat = a.m).length
  .next (if d.portDown.contains a.m || a.m ≥ Config.portsPerIod then s
    else s.portLost a.n a.m routes)

/-! ### The notify table (R344) -/

/-- NOTIFY_MESSAGE (R344): entry `n`, whose event bit has become 1. -/
def execNotifyMessage (s : State) : Host.Outcome State Fault Refusal :=
  .next (if (s.notify.get s.arg.n).getLsbD 63 then s.sendBoth (s.arg.n + 2) else s)

/-! ### The device-memory aperture (R343, R391, R401) -/

/-- The core at grid row `r`, column `c` of a die. -/
def gridCore (d r c : Nat) : Nat := coreAt d (r / 2 * 8 + c / 2) (r % 2 * 2 + c % 2)

/-- The place of an offset of a link's aperture, none where nothing is mapped. -/
def State.aperture (s : State) (link addr : Nat) : Option Loc :=
  let w := ((s.link link).apwin.get (addr / 2 ^ 30)).toNat
  let off := addr % 2 ^ 30
  let d := bits w 59 57
  let base := bits w 51 30
  if addr ≥ 2 ^ 36 || bits w 63 63 = 0 || (s.die d).removed then none
  else
    match bits w 62 60 with
    | 0 => if base ≥ 2 ^ 8 || s.boot.phase = phSafe then none else some { mem := .hbm, unit := d, off := base * 2 ^ 30 + off }
    | 1 => if base != 0 || off ≥ 2 ^ 26 then none else some { mem := .pantry, unit := d, off := off }
    | 2 =>
      if base != 0 || off ≥ 192 * 2 ^ 21 then none
      else some { mem := .spm, unit := gridCore d (off / 2 ^ 21 / 16) (off / 2 ^ 21 % 16), off := off % 2 ^ 21 }
    | _ => none

/-- Completion status codes: success, Unsupported Request, Completer Abort; success with poisoned data. -/
def cplOk : Nat := 0
def cplUnsupported : Nat := 1
def cplAbort : Nat := 4
def cplPoisoned : Nat := 0x10

/-- Bytes of an access of `n` bytes at offset `m` that lie in its first aligned 8-byte piece (R263, R278). -/
def firstPiece (m n : Nat) : Nat := min n (8 - m % 8)

/-- HOST_APERTURE_ACCESS (R263, R278, R343, R391, R401): link `n`, BAR4 offset `m`; with `b` a write of `bytes`, poisoned where
`j` is not 0; else a read of `k` bytes, after `bytes` that its earlier pieces have found, poisoned where `j` is not 0.  One
aligned 8-byte piece is performed, and what is left waits. -/
def execHostApertureAccess (s : State) : Host.Outcome State Fault Refusal :=
  let a := s.arg
  let n := if a.b then a.bytes.length else a.k
  let done (s : State) (st : Nat) (bs : List Byte) : State := { s with sent := s.sent ++ [.completion a.n st bs] }
  let ls := (List.range n).map fun k => s.aperture a.n (a.m + k)
  .next (if (s.link a.n).removed || !(s.link a.n).up then s
    else if (s.link a.n).frozen then done s cplAbort []
    else if a.b && a.j != 0 then s.post .violation { viol := .hostPoison a.n }
    else if ls.any (·.isNone) then done s cplUnsupported []
    else
      let x := firstPiece a.m n
      let ls := (ls.filterMap id).take x
      if a.b then
        let t := s.writeAt ls (a.bytes.take x)
        if x < n then t.repost .hostApertureAccess { a with m := a.m + x, bytes := a.bytes.drop x } else t
      else
        let bad := s.anyBad ls || a.j != 0
        let got := a.bytes ++ s.heard ls
        let t := s.touch ls
        if x < n then
          t.repost .hostApertureAccess { a with m := a.m + x, k := n - x, bytes := got, j := if bad then 1 else 0 }
        else done t (if bad then cplPoisoned else cplOk) got)

end Sys2Proof.Machine
end

