-- ==== Sys2Proof/Machine/Sieve.lean ====
section
/-!
DEFINITION. The sieve processors (18_fabric R365 to R374): packets and partitions, the instructions, traps, and the
loader's check.
-/

namespace Sys2Proof.Machine

/-! ### Partitions (R366) -/

/-- Fields of a partition descriptor. -/
structure Part where
  raw : Nat
deriving DecidableEq, Repr

namespace Part

def v (p : Part) : Bool := bits p.raw 255 255 = 1
def evb (p : Part) : Nat := bits p.raw 247 240
def gen (p : Part) : Nat := bits p.raw 239 224
def asid (p : Part) : Nat := bits p.raw 223 208
def node (p : Part) : Nat := bits p.raw 207 156
def tring (p : Part) : Nat := bits p.raw 155 104
def fbase (p : Part) : Nat := bits p.raw 95 84
def fcount (p : Part) : Nat := bits p.raw 83 71
def kbase (p : Part) : Nat := bits p.raw 67 56
def klen (p : Part) : Nat := bits p.raw 55 44
def tbase (p : Part) : Nat := bits p.raw 43 36
def tcount (p : Part) : Nat := bits p.raw 35 29
def reserved (p : Part) : Bool :=
  bits p.raw 254 248 != 0 || bits p.raw 103 96 != 0 || bits p.raw 70 68 != 0 || bits p.raw 28 0 != 0

end Part

def Sieve.desc (x : Sieve) (p : Nat) : Part := { raw := (x.part.get p).toNat }

/-- V of a partition set or cleared. -/
def Sieve.setV (x : Sieve) (p : Nat) (v : Bool) : Sieve :=
  { x with part := x.part.set p (BitVec.ofNat 256 (putBits (x.part.get p).toNat 255 255 (if v then 1 else 0))) }

namespace State

def setSieve (s : State) (i n : Nat) (x : Sieve) : State := s.onIod i fun d => { d with sieves := tput n x d.sieves }

/-- The sieve whose word executes: I/O die and number. -/
def sfIod (s : State) : Nat := s.sfocus / 64
def sfNum (s : State) : Nat := s.sfocus % 64
def sv (s : State) : Sieve := s.sieve s.sfIod s.sfNum

/-! ### Packets taken and ended (R367) -/

/-- The valid partition that holds the packet's flow entry under its pair. -/
def partFor (s : State) (i n : Nat) (own : Bool) (p : Packet) : Option (Nat × Nat × Nat) :=
  let x := s.sieve i n
  let e := bits p.flow 11 0
  match s.pairFor i p own with
  | none => none
  | some (a, g) =>
    ((List.range 64).find? fun k => let d := x.desc k
      d.v && decide (d.fbase ≤ e) && decide (e < d.fbase + d.fcount) && d.asid = a && d.gen = g).map fun k => (k, a, g)

/-- A packet that no partition takes is dropped and counted. -/
def dropAt (s : State) (i n : Nat) : State :=
  let x := s.sieve i n
  s.setSieve i n { x with drops := x.drops + 1 }

/-- The registers at the start of a packet (R365). -/
def startRun (own : Bool) (p : Packet) (k a g rel : Nat) : SRun :=
  { pkt := p, own := own, part := k, flow := rel, pc := 0
    y := ((Store.set [] 1 (BitVec.ofNat 32 p.len)).set 2 (BitVec.ofNat 32 rel)).set 3 (BitVec.ofNat 32 p.smod)
    asid := BitVec.ofNat 16 a, gen := BitVec.ofNat 16 g }

/-- An idle sieve takes the packets of its queue until one runs. -/
def takeNext (s : State) (i n : Nat) : Nat → State
  | 0 => s
  | f + 1 =>
    let x := s.sieve i n
    match x.run, x.queue with
    | none, (own, p) :: rest =>
      let s := s.setSieve i n { x with queue := rest }
      match s.partFor i n own p with
      | none => (s.dropAt i n).takeNext i n f
      | some (k, a, g) =>
        if s.retired.contains (a, g) then (s.dropAt i n).takeNext i n f
        else
          let x := s.sieve i n
          s.setSieve i n { x with run := some (startRun own p k a g (bits p.flow 11 0 - (x.desc k).fbase)) }
    | _, _ => s

/-- The packet of the focused sieve has ended: partitions to be unloaded and those of a killed pair lose V (R372, R374),
and the next packet starts. -/
def endRun (s : State) (r : SRun) : State :=
  let i := s.sfIod
  let n := s.sfNum
  let x := { s.sv with run := none }
  let killed := s.retired.contains (r.asid.toNat, r.gen.toNat)
  let x := if x.unload.contains r.part || killed then x.setV r.part false else x
  let s := s.setSieve i n { x with unload := x.unload.filter (· != r.part) }
  s.takeNext i n (x.queue.length + 1)

/-- A sieve trap (R373): a record into TRING, EVB in NODE's EV, TCNT raised; a record that cannot be written is lost. -/
def sieveTrap (s : State) (r : SRun) (code info : Nat) : State :=
  let x := s.sv
  let d := x.desc r.part
  let t := x.tcnt.get r.part
  let rec_ := code * 2 ^ 248 + info * 2 ^ 240 + s.sfNum * 2 ^ 234 + r.part * 2 ^ 228 + r.pc % 4096 * 2 ^ 216
    + bits r.pkt.flow 11 0 * 2 ^ 204 + r.pkt.smod * 2 ^ 192 + s.clock.ns % 2 ^ 64 * 2 ^ 128 + r.pkt.head.toNat % 2 ^ 128
  let n := t.toNat % 2 ^ 31
  let spot := s.ioLocs d.asid true 3 (d.tring + 32 * (n % 64)) 32
  let room := spot.any fun ls => s.ioOpen d.asid ls && !ls.any s.hbmHeld
  let s := match spot with
    | some ls => s.ioWrite d.asid ls (leBytes 32 rec_)
    | none => s
  let s := if nodeBad d.node then s else s.putEv d.node d.evb true
  let lost := if !room then 2 ^ 31 else t.toNat / 2 ^ 31 * 2 ^ 31
  let y := s.sv
  s.setSieve s.sfIod s.sfNum { y with tcnt := y.tcnt.set r.part (BitVec.ofNat 32 (lost + (n + 1) % 2 ^ 31)) }

end State

/-! ### The shared course of a sieve word -/

/-- What a word does: its registers after it, a transfer, an entry of the flow table written, a packet sent, a trap with
INFO, or the end of the packet, forwarded or not. -/
structure SGo where
  r : SRun
  jump : Option Nat := none
  flow : Option (BitVec 128) := none
  send : Option Packet := none
  trap : Option (Nat × Nat) := none
  fin : Option Bool := none
deriving DecidableEq, Repr

/-- A word of the focused sieve that takes `cycles` cycles.  Past 512 cycles of one packet it is a violation (R401), as is a
packet sent under a pair that was never assigned; a word that is none, which no checked kernel holds, ends the packet. -/
def sieveIssue (i : Instr) (cycles : Nat) (f : Sieve → Part → SRun → SGo) (s : State) : Host.Outcome State Fault Refusal :=
  .next (match s.sv.run with
    | none => s
    | some r =>
      if !i.wf then s.endRun r
      else
        let x := s.sv
        let d := x.desc r.part
        let g := f x d { r with cycles := r.cycles + cycles }
        if g.r.cycles > 512 || (g.send.isSome && s.unassigned d.asid d.gen) then
          ((s.post .violation { viol := .sieveCycles s.sfIod s.sfNum, n := r.part }).setSieve s.sfIod s.sfNum
            (x.setV r.part false)).endRun r
        else
          match g.trap with
          | some (c, n) => (s.sieveTrap r c n).endRun r
          | none =>
            let next := match g.jump with
              | some t => { g.r with pc := t, loops := leaveLoops t g.r.loops }
              | none => let l := loopEnd 1 r.pc false g.r.loops; { g.r with pc := l.1, loops := l.2.1 }
            let x := { x with run := some next }
            let x := match g.flow with
              | some v => { x with flow := x.flow.set (d.fbase + r.flow) v }
              | none => x
            let s := s.setSieve s.sfIod s.sfNum x
            let s := match g.send with
              | some p => s.sendPacket s.sfIod p
              | none => s
            match g.fin with
            | some true =>
              let t := s.post g.r.pkt.event { n := s.sfIod, pkt := g.r.pkt, b := g.r.own, k := 1 }
              t.endRun g.r
            | some false => s.endRun g.r
            | none => s)

/-! ### Registers -/

namespace SRun

def ry (r : SRun) (n : Nat) : BitVec 32 := if n = 0 then 0 else r.y.get n

def wy (r : SRun) (n : Nat) (v : BitVec 32) : SRun := if n = 0 then r else { r with y := r.y.set n v }

def rz (r : SRun) (n : Nat) : BitVec 512 := r.z.get n

def rm (r : SRun) (n : Nat) : BitVec 16 := if n = 0 then 0xFFFF else r.m.get n

def wm (r : SRun) (n : Nat) (v : BitVec 16) : SRun := if n = 0 then r else { r with m := r.m.set n v }

/-- Lane `l` of a z register. -/
def zlane (v : BitVec 512) (l : Nat) : Nat := elemAt 32 v.toNat l

/-- Lanes written under a mask; the others keep their contents. -/
def wz (r : SRun) (n : Nat) (m : BitVec 16) (f : Nat → Nat) : SRun :=
  let old := r.rz n
  { r with z := r.z.set n (BitVec.ofNat 512 (packElems 32 ((List.range 16).map fun l =>
      if m.getLsbD l then f l else zlane old l))) }

end SRun

/-- A scalar operation yD := yA op yB. -/
def sieveAlu (i : Instr) (d a b : BitVec 4) (op : BitVec 32 → BitVec 32 → BitVec 32) (s : State) :
    Host.Outcome State Fault Refusal :=
  sieveIssue i 1 (fun _ _ r => { r := r.wy d.toNat (op (r.ry a.toNat) (r.ry b.toNat)) }) s

/-- An elementwise operation zD:mM (R371). -/
def sieveVec (i : Instr) (d a b : BitVec 4) (t : BitVec 3) (m : BitVec 2) (op : Fm → Nat → Nat → Nat) (s : State) :
    Host.Outcome State Fault Refusal :=
  let f := Fm.ofSieve t
  sieveIssue i 1 (fun _ _ r =>
    let x := r.rz a.toNat
    let y := r.rz b.toNat
    { r := r.wz d.toNat (r.rm m.toNat) fun l =>
        (contMap f.bits (fun p q _ => (op f p q, fNone)) (SRun.zlane x l) (SRun.zlane y l) 0).1 }) s

/-! ### The instructions (R370) -/

def execSieveAdd (d a b : BitVec 4) (s : State) : Host.Outcome State Fault Refusal :=
  sieveAlu (.sieveAdd d a b) d a b (· + ·) s

def execSieveSub (d a b : BitVec 4) (s : State) : Host.Outcome State Fault Refusal :=
  sieveAlu (.sieveSub d a b) d a b (· - ·) s

def execSieveAnd (d a b : BitVec 4) (s : State) : Host.Outcome State Fault Refusal :=
  sieveAlu (.sieveAnd d a b) d a b (· &&& ·) s

def execSieveOr (d a b : BitVec 4) (s : State) : Host.Outcome State Fault Refusal :=
  sieveAlu (.sieveOr d a b) d a b (· ||| ·) s

def execSieveXor (d a b : BitVec 4) (s : State) : Host.Outcome State Fault Refusal :=
  sieveAlu (.sieveXor d a b) d a b (· ^^^ ·) s

def execSieveShl (d a b : BitVec 4) (s : State) : Host.Outcome State Fault Refusal :=
  sieveAlu (.sieveShl d a b) d a b (fun x y => x <<< (y.toNat % 32)) s

def execSieveShr (d a b : BitVec 4) (s : State) : Host.Outcome State Fault Refusal :=
  sieveAlu (.sieveShr d a b) d a b (fun x y => x >>> (y.toNat % 32)) s

def execSieveSar (d a b : BitVec 4) (s : State) : Host.Outcome State Fault Refusal :=
  sieveAlu (.sieveSar d a b) d a b (fun x y => x.sshiftRight (y.toNat % 32)) s

def execSieveSltu (d a b : BitVec 4) (s : State) : Host.Outcome State Fault Refusal :=
  sieveAlu (.sieveSltu d a b) d a b (fun x y => if x.toNat < y.toNat then 1 else 0) s

/-- ADDI: the immediate is sign-extended. -/
def execSieveAddi (d a : BitVec 4) (m : BitVec 18) (s : State) : Host.Outcome State Fault Refusal :=
  sieveAlu (.sieveAddi d a m) d a 0 (fun x _ => x + m.signExtend 32) s

def execSieveMovi (d : BitVec 4) (m : BitVec 18) (s : State) : Host.Outcome State Fault Refusal :=
  sieveAlu (.sieveMovi d m) d 0 0 (fun _ _ => m.signExtend 32) s

/-- MOVHI: bits [31:18] of yD; bits [17:0] are kept. -/
def execSieveMovhi (d : BitVec 4) (m : BitVec 14) (s : State) : Host.Outcome State Fault Refusal :=
  sieveAlu (.sieveMovhi d m) d d 0 (fun x _ => BitVec.ofNat 32 (m.toNat * 2 ^ 18 + x.toNat % 2 ^ 18)) s

def execSieveVadd (d a b : BitVec 4) (t : BitVec 3) (m : BitVec 2) (s : State) : Host.Outcome State Fault Refusal :=
  sieveVec (.sieveVadd d a b t m) d a b t m (fun f x y => (elAdd f {} false x y).1) s

def execSieveVsub (d a b : BitVec 4) (t : BitVec 3) (m : BitVec 2) (s : State) : Host.Outcome State Fault Refusal :=
  sieveVec (.sieveVsub d a b t m) d a b t m (fun f x y => (elSub f {} false x y).1) s

def execSieveVmin (d a b : BitVec 4) (t : BitVec 3) (m : BitVec 2) (s : State) : Host.Outcome State Fault Refusal :=
  sieveVec (.sieveVmin d a b t m) d a b t m (fun f x y => minMax f false x y) s

def execSieveVmax (d a b : BitVec 4) (t : BitVec 3) (m : BitVec 2) (s : State) : Host.Outcome State Fault Refusal :=
  sieveVec (.sieveVmax d a b t m) d a b t m (fun f x y => minMax f true x y) s

def execSieveVmul (d a b : BitVec 4) (t : BitVec 3) (m : BitVec 2) (s : State) : Host.Outcome State Fault Refusal :=
  sieveVec (.sieveVmul d a b t m) d a b t m (fun f x y => (elMul f {} false x y).1) s

/-- VSCN (R34): the left fold from the carry yB, lane 0 first; a lane outside mM passes the running value on. -/
def execVscn (d a b : BitVec 4) (t : BitVec 3) (m : BitVec 2) (s : State) : Host.Outcome State Fault Refusal :=
  let f := Fm.ofSieve t
  let k := 32 / f.bits
  sieveIssue (.vscn d a b t m) 4 (fun _ _ r =>
    let msk := r.rm m.toNat
    let es := (List.range (16 * k)).map fun e =>
      if msk.getLsbD (e / k) then some (elemAt f.bits (r.rz a.toNat).toNat e) else none
    let c := (r.ry b.toNat).toNat % 2 ^ f.bits
    let out := (scanFold (elAdd f {} false) c es).1.map (canon f)
    { r := r.wz d.toNat msk fun l => packElems f.bits ((out.drop (l * k)).take k) }) s

def execVsplat (d a : BitVec 4) (m : BitVec 2) (s : State) : Host.Outcome State Fault Refusal :=
  sieveIssue (.vsplat d a m) 1 (fun _ _ r => { r := r.wz d.toNat (r.rm m.toNat) fun _ => (r.ry a.toNat).toNat }) s

/-- VCMP (R135): bit l is 1 where mM[l] is 1 and the condition holds for every element of lane l. -/
def execSieveVcmp (d : BitVec 2) (a b : BitVec 4) (t : BitVec 3) (m : BitVec 2) (c : BitVec 3) (s : State) :
    Host.Outcome State Fault Refusal :=
  let f := Fm.ofSieve t
  sieveIssue (.sieveVcmp d a b t m c) 1 (fun _ _ r =>
    let msk := r.rm m.toNat
    let x := r.rz a.toNat
    let y := r.rz b.toNat
    let bit (l : Nat) : Bool := msk.getLsbD l && (List.range (32 / f.bits)).all fun i =>
      cmpElem f c.toNat (elemAt f.bits (SRun.zlane x l) i) (elemAt f.bits (SRun.zlane y l) i)
    { r := r.wm d.toNat (BitVec.ofNat 16 (packElems 1 ((List.range 16).map fun l => if bit l then 1 else 0))) }) s

def execSieveVsel (d a b : BitVec 4) (m : BitVec 2) (s : State) : Host.Outcome State Fault Refusal :=
  sieveIssue (.sieveVsel d a b m) 1 (fun _ _ r =>
    let msk := r.rm m.toNat
    { r := r.wz d.toNat 0xFFFF fun l =>
        if msk.getLsbD l then SRun.zlane (r.rz a.toNat) l else SRun.zlane (r.rz b.toNat) l }) s

def execVext (d a l : BitVec 4) (s : State) : Host.Outcome State Fault Refusal :=
  sieveIssue (.vext d a l) 1 (fun _ _ r => { r := r.wy d.toNat (BitVec.ofNat 32 (SRun.zlane (r.rz a.toNat) l.toNat)) }) s

def execVins (d a l : BitVec 4) (s : State) : Host.Outcome State Fault Refusal :=
  sieveIssue (.vins d a l) 1 (fun _ _ r =>
    { r := r.wz d.toNat (1#16 <<< l.toNat) fun _ => (r.ry a.toNat).toNat }) s

/-- PLD (R373): a flit index at or beyond LEN is trap 1. -/
def execPld (d a : BitVec 4) (f : BitVec 6) (s : State) : Host.Outcome State Fault Refusal :=
  sieveIssue (.pld d a f) 2 (fun _ _ r =>
    let k := (r.ry a.toNat).toNat + f.toNat
    if k ≥ r.pkt.len then { r := r, trap := some (1, 0) }
    else { r := { r with z := r.z.set d.toNat (r.pkt.body.getD k 0) } }) s

def execPst (d a : BitVec 4) (f : BitVec 6) (s : State) : Host.Outcome State Fault Refusal :=
  sieveIssue (.pst d a f) 2 (fun _ _ r =>
    let k := (r.ry a.toNat).toNat + f.toNat
    if k ≥ r.pkt.len then { r := r, trap := some (1, 0) }
    else { r := { r with pkt := { r.pkt with body := r.pkt.body.set k (r.rz d.toNat) } } }) s

/-- FLD: word w of the packet's flow entry. -/
def execFld (d : BitVec 4) (w : BitVec 2) (s : State) : Host.Outcome State Fault Refusal :=
  sieveIssue (.fld d w) 1 (fun x p r =>
    { r := r.wy d.toNat (BitVec.ofNat 32 (elemAt 32 (x.flow.get (p.fbase + r.flow)).toNat w.toNat)) }) s

def execFst (a : BitVec 4) (w : BitVec 2) (s : State) : Host.Outcome State Fault Refusal :=
  sieveIssue (.fst a w) 1 (fun x p r =>
    { r := r
      flow := some (BitVec.ofNat 128 (putBits (x.flow.get (p.fbase + r.flow)).toNat (32 * w.toNat + 31) (32 * w.toNat)
        (r.ry a.toNat).toNat)) }) s

/-- HDR: a field of the packet's header. -/
def execHdr (d : BitVec 4) (f : BitVec 3) (s : State) : Host.Outcome State Fault Refusal :=
  sieveIssue (.hdr d f) 1 (fun _ _ r =>
    let p := r.pkt
    let v := match f.toNat with
      | 0 => p.len
      | 1 => p.smod
      | 2 => bits p.flow 11 0
      | 3 => p.f 0 1 0
      | 4 => bits p.addr 31 0
      | 5 => bits p.addr 51 32
      | _ => p.cnt
    { r := r.wy d.toNat (BitVec.ofNat 32 v) }) s

/-- A branch: next := own address + 4·OFF18 where the condition holds. -/
def sieveBranch (i : Instr) (a b : BitVec 4) (o : BitVec 18) (c : BitVec 32 → BitVec 32 → Bool) (s : State) :
    Host.Outcome State Fault Refusal :=
  sieveIssue i 1 (fun _ _ r => { r := r, jump := if c (r.ry a.toNat) (r.ry b.toNat) then some (r.pc + o.toNat) else none }) s

def execSieveBeq (a b : BitVec 4) (o : BitVec 18) (s : State) : Host.Outcome State Fault Refusal :=
  sieveBranch (.sieveBeq a b o) a b o (fun x y => x = y) s

def execSieveBne (a b : BitVec 4) (o : BitVec 18) (s : State) : Host.Outcome State Fault Refusal :=
  sieveBranch (.sieveBne a b o) a b o (fun x y => x != y) s

def execSieveBltu (a b : BitVec 4) (o : BitVec 18) (s : State) : Host.Outcome State Fault Refusal :=
  sieveBranch (.sieveBltu a b o) a b o (fun x y => decide (x.toNat < y.toNat)) s

/-- LOOP (R98): the words up to the label run n times. -/
def execSieveLoop (n : BitVec 8) (e : BitVec 10) (s : State) : Host.Outcome State Fault Refusal :=
  sieveIssue (.sieveLoop n e) 1 (fun _ _ r =>
    { r := { r with loops := { start := r.pc + 1, stop := r.pc + e.toNat, rem := n.toNat, opener := r.pc } :: r.loops }
      jump := some (r.pc + 1) }) s

/-- SEND (R370, R373): a one-flit WRITE to a target; an invalid target, an index at or beyond TCOUNT, or a nonzero
yB[15:6] is trap 2 (log entry 23). -/
def execSend (a b : BitVec 4) (s : State) : Host.Outcome State Fault Refusal :=
  sieveIssue (.send a b) 4 (fun x p r =>
    let v := (r.ry b.toNat).toNat
    let t := (x.target.get (p.tbase + v % 64)).toNat
    if bits v 15 6 != 0 || v % 64 ≥ p.tcount || bits t 127 127 = 0 then { r := r, trap := some (2, 0) }
    else
      { r := r
        send := some { head := BitVec.ofNat 512 (header 0 0 (bits t 126 115) p.asid p.gen (bits t 114 103)
                         ((bits t 51 0 + 64 * bits v 31 16) % 2 ^ 52) 1)
                       body := [r.rz a.toNat] } }) s

/-- DROP: the packet goes no further. -/
def execDrop (s : State) : Host.Outcome State Fault Refusal :=
  sieveIssue .drop 1 (fun _ _ r => { r := r, fin := some false }) s

/-- DONE: the packet is sent on with its payload as the kernel left it (R367). -/
def execSieveDone (s : State) : Host.Outcome State Fault Refusal :=
  sieveIssue .sieveDone 1 (fun _ _ r => { r := r, fin := some true }) s

/-- TRAPS n: trap 3 with n in INFO. -/
def execTraps (n : BitVec 8) (s : State) : Host.Outcome State Fault Refusal :=
  sieveIssue (.traps n) 1 (fun _ _ r => { r := r, trap := some (3, n.toNat) }) s

def execSnop (o : BitVec 3) (x : BitVec 26) (s : State) : Host.Outcome State Fault Refusal :=
  sieveIssue (.snop o x) 1 (fun _ _ r => { r := r }) s

/-- SIEVE_PACKET (R367): packet `pkt` for a sieve of I/O die `n`; a full queue makes it wait. -/
def execSievePacket (s : State) : Host.Outcome State Fault Refusal :=
  let a := s.arg
  let n := bits a.pkt.flow 17 12
  .next (s.incoming fun s _ _ =>
    let x := s.sieve a.n n
    if (s.partFor a.n n a.b a.pkt).isNone then s.dropAt a.n n
    else if x.queue.length ≥ 64 then s.repost .sievePacket a
    else (s.setSieve a.n n { x with queue := x.queue ++ [(a.b, a.pkt)] }).takeNext a.n n (x.queue.length + 1))

/-! ### The loader (R372) -/

/-- Whether two ranges overlap. -/
def overlaps (b1 n1 b2 n2 : Nat) : Bool := decide (0 < n1) && decide (0 < n2) && decide (b1 < b2 + n2) && decide (b2 < b1 + n1)

/-- Code 5. -/
def rangeBad (x : Sieve) (k : Nat) : Bool :=
  let d := x.desc k
  d.fcount = 0 || d.klen = 0 || decide (d.fcount > 4096) || decide (d.tcount > 64) || decide (d.fbase + d.fcount > 4096)
    || decide (d.kbase + d.klen > 4096) || decide (d.tbase + d.tcount > 256)
    || (List.range 64).any fun j => let e := x.desc j
      j != k && e.v && (overlaps d.fbase d.fcount e.fbase e.fcount || overlaps d.kbase d.klen e.kbase e.klen
        || overlaps d.tbase d.tcount e.tbase e.tcount)

/-- Cycles of a sieve word (R370). -/
def sieveCycles : Instr → Nat
  | .vscn .. | .send .. => 4
  | .pld .. | .pst .. => 2
  | _ => 1

def sieveEnds : Instr → Bool
  | .drop | .sieveDone | .traps _ => true
  | _ => false

/-- Offset of a branch. -/
def branchOff : Instr → Option Nat
  | .sieveBeq _ _ o | .sieveBne _ _ o | .sieveBltu _ _ o => some o.toNat
  | _ => none

def loopOf : Instr → Option (Nat × Nat)
  | .sieveLoop n e => some (n.toNat, e.toNat)
  | _ => none

/-- Code 2: the form of branches and loops; `open_` holds the ends of the loops around word `w`. -/
def formBad (ws : List Instr) : Nat → List Instr → List Nat → Bool
  | _, [], _ => false
  | w, i :: rest, open_ =>
    let n := ws.length
    let open_ := open_.filter (w ≤ ·)
    match branchOff i, loopOf i with
    | some o, _ => o = 0 || decide (n ≤ w + o) || formBad ws (w + 1) rest open_
    | _, some (c, e) =>
      let last := ws.getD (w + e) .drop
      c = 0 || e = 0 || decide (n ≤ w + e) || (branchOff last).isSome || (loopOf last).isSome || decide (open_.length ≥ 2)
        || formBad ws (w + 1) rest ((w + e) :: open_)
    | _, _ => formBad ws (w + 1) rest open_

/-- The words that a path from the first reaches, forward; code 3 where one passes the last word. -/
def passesEnd : Nat → List Instr → List Nat → Bool
  | w, [], reach => reach.contains w
  | w, i :: rest, reach =>
    if !reach.contains w || sieveEnds i then passesEnd (w + 1) rest reach
    else
      match branchOff i with
      | some o => passesEnd (w + 1) rest ((w + o) :: (w + 1) :: reach)
      | none => passesEnd (w + 1) rest ((w + 1) :: reach)

/-- Worst-case cycles from every word on, from word `w`, up to word `stop`; each word comes with the cost of the body that it
opens. -/
def pathCosts (stop : Nat) : Nat → List (Instr × Nat) → List Nat
  | _, [] => []
  | w, (i, body) :: l =>
    let acc := pathCosts stop (w + 1) l
    let c :=
      if w = stop then 0
      else if sieveEnds i then sieveCycles i
      else
        match branchOff i, loopOf i with
        | some o, _ => 1 + max (acc.getD (o - 1) 0) (acc.getD 0 0)
        | _, some (n, e) => 1 + n * body + acc.getD e 0
        | _, _ => sieveCycles i + acc.getD 0 0
    c :: acc

/-- Every word with the cost of the body that it opens: a body is the path from the word after the LOOP to its end. -/
def withBodies : Nat → List Instr → List (Instr × Nat)
  | _, [] => []
  | w, i :: l =>
    let r := withBodies (w + 1) l
    match loopOf i with
    | some (_, e) => (i, (pathCosts (w + e + 1) (w + 1) r).getD 0 0) :: r
    | none => (i, 0) :: r

/-- Worst-case cycles of a kernel from its first word (R372). -/
def worstCase (ws : List Instr) : Nat := (pathCosts ws.length 0 (withBodies 0 ws)).getD 0 0

/-- The loader's verdict on a partition: a refusal code, or 0. -/
def sieveCheck (x : Sieve) (k : Nat) : Nat :=
  let d := x.desc k
  if rangeBad x k then 5
  else
    let ws := (List.range d.klen).map fun w => (decodeWord .sv (x.imem.get (d.kbase + w)).toNat).toOption
    if d.reserved || ws.any (·.isNone) then 1
    else
      let ws := ws.filterMap id
      if formBad ws 0 ws [] then 2
      else if passesEnd 0 ws [0] then 3
      else if worstCase ws > 512 then 4
      else 0

/-- LOADGO (R372): value `v` at I/O die `n`; one check runs at a time. -/
def execLoadgo (s : State) : Host.Outcome State Fault Refusal :=
  let v := s.arg.v.toNat
  .next (s.onIod s.arg.n fun d => { d with loading := d.loading ++ [(bits v 5 0, bits v 11 6)], loadst := 0 })

/-- LOAD_CHECK_DONE (R372): the first check of I/O die `n` ends; LOADST reports on the latest LOADGO. -/
def execLoadCheckDone (s : State) : Host.Outcome State Fault Refusal :=
  let i := s.arg.n
  .next (match (s.iod i).loading with
    | [] => s
    | (n, k) :: rest =>
      let x := s.sieve i n
      let c := sieveCheck x k
      let s := if c = 0 then s.setSieve i n { x.setV k true with unload := x.unload.filter (· != k) } else s
      s.onIod i fun d => { d with
        loading := rest
        loadst := if rest.isEmpty then (if c = 0 then 0x100 else BitVec.ofNat 64 c) else d.loadst })

/-- PARTITION_UNLOAD (R372): partition `k` of sieve `m` of I/O die `n`, after its running packet ends. -/
def execPartitionUnload (s : State) : Host.Outcome State Fault Refusal :=
  let a := s.arg
  let x := s.sieve a.n a.m
  .next (s.setSieve a.n a.m (if x.run.any fun r => r.part = a.k then { x with unload := a.k :: x.unload } else x.setV a.k false))

end Sys2Proof.Machine
end

