-- ==== Sys2Proof/Machine/Plans.lean ====
section
/-!
DEFINITION. Queue pairs and work entries (18_fabric R354 to R357), and collective plans: their set-up, triggers, tree and
results (R358 to R364, 01_numbers R36).
-/

namespace Sys2Proof.Machine

/-- An event performed with operands of its own. -/
def State.perform (s : State) (f : State → Host.Outcome State Fault Refusal) (a : EvArg) : State :=
  match f { s with arg := a } with
  | .next t => { t with arg := s.arg }
  | _ => s

/-! ### The tree of a plan (R359, R362) -/

/-- Levels of the tree of `nr` ranks. -/
def planLevels (nr : Nat) : Nat := if nr ≤ 1 then 0 else Nat.log2 (nr - 1) + 1

/-- Combining nodes of a level: those whose right half is not empty. -/
def nodesAt (nr l : Nat) : Nat := (nr + 2 ^ (l - 1) - 1) / 2 ^ l

/-- Index of the `j`-th combining node of level `l`: levels are numbered from the root toward the leaves. -/
def nodeIdx (nr l j : Nat) : Nat := ((List.range (planLevels nr - l)).map fun k => nodesAt nr (l + 1 + k)).sum + j

/-- The level and place of a combining node, by its index. -/
def nodePlace (nr : Nat) : Nat → Nat → Option (Nat × Nat)
  | 0, _ => none
  | l + 1, i => if i < nodesAt nr (l + 1) then some (l + 1, i) else nodePlace nr l (i - nodesAt nr (l + 1))

/-- The combining node that takes what place `j` of level `l` yields, and whether as its right child; none at the root.  An
odd last member rises unchanged. -/
def parentPlace (nr : Nat) : Nat → Nat → Nat → Option (Nat × Nat × Bool)
  | 0, _, _ => none
  | f + 1, l, j =>
    if planLevels nr ≤ l then none
    else if j / 2 * 2 ^ (l + 1) + 2 ^ l < nr then some (l + 1, j / 2, j % 2 = 1)
    else parentPlace nr f (l + 1) (j / 2)

/-- What stands at place `j` of level `l`: a combining node's index, or 0xFFF for a leaf. -/
def childIdx (nr : Nat) : Nat → Nat → Nat
  | 0, _ => 0xFFF
  | l + 1, j => if j * 2 ^ (l + 1) + 2 ^ l < nr then nodeIdx nr (l + 1) j else childIdx nr l (2 * j)

/-- The combining node whose right child starts at rank `f`. -/
def rightOf (nr f : Nat) : Nat → Option Nat
  | 0 => none
  | l + 1 =>
    if f % 2 ^ (l + 1) = 2 ^ l then (if f < nr then some (nodeIdx nr (l + 1) (f / 2 ^ (l + 1))) else none)
    else rightOf nr f l

/-! ### Records (R358, R359) -/

namespace PlanPart

def nr (p : PlanPart) : Nat := bits p.record 44 32
def node (p : PlanPart) : Nat := bits p.record 59 48
def niod (p : PlanPart) : Nat := bits p.record 60 60
def pmod (p : PlanPart) : Nat := bits p.record 87 76
def first (p : PlanPart) : Nat := bits p.record 107 96
def last (p : PlanPart) : Nat := bits p.record 119 108
def fm (p : PlanPart) : Fm := (Fm.ofWire (bits p.record 123 120)).getD .fp32
def op (p : PlanPart) : Nat := bits p.record 126 124
def mode (p : PlanPart) : Nat := bits p.record 129 128
/-- Chunk size in bytes. -/
def csize (p : PlanPart) : Nat := 2 ^ bits p.record 135 130
def asid (p : PlanPart) : Nat := bits p.record 159 144
def elems (p : PlanPart) : Nat := bits p.record 191 160

/-- Bytes of an element on the wire and in the escape format (R363). -/
def esize (p : PlanPart) (esc : Bool) : Nat := if !esc then p.fm.bits / 8 else if p.fm.isFloat then 4 else 6

/-- Elements of a chunk (R358). -/
def per (p : PlanPart) : Nat := p.csize / p.esize false

def chunks (p : PlanPart) : Nat := (p.elems + p.per - 1) / p.per

/-- Elements of chunk `c`. -/
def count (p : PlanPart) (c : Nat) : Nat := min p.per (p.elems - c * p.per)

/-- Entry of rank `r` on this module. -/
def rank (p : PlanPart) (r : Nat) : Option Nat := (p.ranks.find? fun e => e.1 = r).map (·.2.toNat)

/-- Bytes of chunk buffers that a node reserves: two of the escape size for each of its two children (R360). -/
def room (p : PlanPart) : Nat := 4 * (p.per * p.esize true)

/-- A trigger slot (R360). -/
def slot (p : PlanPart) : Nat := p.handle % 2048

end PlanPart

/-- A request that R358 calls malformed, from its header. -/
def headBad (h : Nat) : Bool :=
  let nr := bits h 15 0
  nr < 1 || nr > 4096 || bits h 19 16 > 8 || bits h 22 20 > 2 || bits h 23 23 != 0 || bits h 25 24 > 1
    || bits h 31 26 < 10 || bits h 31 26 > 16 || h / 2 ^ 80 != 0

/-- Reserved bits of a rank entry. -/
def rankBad (e : Nat) : Bool := bits e 63 24 != 0 || bits e 127 116 != 0 || bits e 191 180 != 0 || bits e 255 244 != 0

/-- The set-up record of R359. -/
def setupRecord (sop status oiod nr node niod parent pmod piod first last : Nat) (h : Nat) : Nat :=
  sop + Config.moduleId % 4096 * 2 ^ 4 + oiod * 2 ^ 16 + nr * 2 ^ 32 + node * 2 ^ 48 + niod * 2 ^ 60 + parent * 2 ^ 64
    + pmod * 2 ^ 76 + piod * 2 ^ 88 + first * 2 ^ 96 + last * 2 ^ 108 + bits h 19 16 * 2 ^ 120 + bits h 22 20 * 2 ^ 124
    + bits h 25 24 * 2 ^ 128 + bits h 31 26 * 2 ^ 130 + status * 2 ^ 136 + bits h 79 64 * 2 ^ 144 + bits h 63 32 * 2 ^ 160

/-- Rank entries two to a flit, the lower in the low half. -/
def rankFlits : List Nat → List (BitVec 512)
  | [] => []
  | [a] => [BitVec.ofNat 512 a]
  | a :: b :: l => BitVec.ofNat 512 (a + b * 2 ^ 256) :: rankFlits l

/-- A SETUP packet. -/
def setupPacket (dmod handle rec : Nat) (entries : List Nat) : Packet :=
  let fs := rankFlits entries
  { head := BitVec.ofNat 512 (header 2 5 dmod 0 0 0 0 (1 + fs.length) + handle % 2 ^ 32 * 2 ^ 128)
    body := BitVec.ofNat 512 rec :: fs }

/-- Runs of ranks that one RESERVE carries (log entry 24): consecutive ranks of one module, at most 126, whose tree parents
other than the first's lie on that module; first rank, its module, its entries. -/
def rankRuns (nr : Nat) (modOf : Nat → Nat) : List (Nat × Nat) → List (Nat × Nat × List Nat)
  | [] => []
  | (r, e) :: l =>
    match rankRuns nr modOf l with
    | (r', m', es) :: rs =>
      let far := match parentPlace nr 13 0 r' with
        | some (lv, j, true) => modOf (j * 2 ^ lv) != m'
        | _ => false
      if m' = modOf r && r' = r + 1 && es.length < 126 && !far then (r, m', e :: es) :: rs
      else (r, modOf r, [e]) :: (r', m', es) :: rs
    | [] => [(r, modOf r, [e])]

namespace State

/-! ### Control packets -/

/-- A control-class packet: malformed ones are dropped and counted, one for another module goes on; one whose header is not as
its kind has it is dropped at its module, and counted as a token packet is (R380; log entry 97). -/
def control (s : State) (f : State → Packet → State) : State :=
  let p := s.arg.pkt
  if (s.iod s.arg.n).removed then s
  else if p.bad then s.countDrop s.arg.n s.arg.m
  else if p.dmod != Config.moduleId then s.sendPacket s.arg.n p
  else if p.ctlBad then
    (if p.kind = 6 then { s with power := { s.power with pdrop := s.power.pdrop + 1 } } else s.countDrop s.arg.n s.arg.m)
  else f s p

/-! ### Set-up at the origin (R358, R360) -/

/-- The set-up ends with a status or a handle in PLANRES. -/
def setupEnds (s : State) (i : Nat) (v : Nat) : State :=
  s.onIod i fun d => { d with setup := none, planres := BitVec.ofNat 64 v }

/-- The same SETUP operation to each of several modules. -/
def tellAll (s : State) (i sop handle h : Nat) (ms : List Nat) : State :=
  ms.foldl (fun s m => s.sendPacket i
    (setupPacket m handle (setupRecord sop 0 i (bits h 15 0) 0xFFF 0 0xFFF 0 0 0 0 h) [])) s

/-- The header and the rank entries of a request. -/
def requestAt (s : State) (a : Nat) : Nat × List Nat :=
  let h := s.natAt ((hbmLoc a).run 64)
  (h, (List.range (bits h 15 0)).map fun r => s.natAt ((hbmLoc (a + 64 + 32 * r)).run 32))

/-- A trigger slot for a plan: the lowest that no plan part of this module holds and no module has refused. -/
def freeSlot (s : State) (tries : List Nat) : Nat :=
  ((List.range 2048).find? fun t => !tries.contains t && !s.plans.any fun p => !p.ranks.isEmpty && p.slot = t).getD 0

/-- RESERVE for every combining node and for every module's ranks. -/
def reserve (s : State) (i req : Nat) (tries : List Nat) : State :=
  let (h, es) := s.requestAt req
  let nr := bits h 15 0
  let modOf (r : Nat) : Nat := es.getD r 0 % 4096
  let d := s.iod i
  let handle := d.serial.toNat * 2 ^ 24 + i * 2 ^ 23 + Config.moduleId % 4096 * 2 ^ 11 + s.freeSlot tries
  let parent (l j : Nat) : Nat × Nat × Nat := match parentPlace nr 13 l j with
    | some (l', j', _) => (nodeIdx nr l' j', modOf (j' * 2 ^ l'), nodeIdx nr l' j' % 2)
    | none => (0xFFF, 0, 0)
  let nodes : List (Nat × Nat × Nat × Nat) := (List.range (nr - 1)).map fun n =>
    let (l, j) := (nodePlace nr (planLevels nr) n).getD (0, 0)
    let (pi, pm, po) := parent l j
    let f := j * 2 ^ l
    (n, f, modOf f, setupRecord 0 0 i nr n (n % 2) pi pm po f (min ((j + 1) * 2 ^ l) nr - 1) h)
  let runs := rankRuns nr modOf ((List.range nr).zip es)
  let s := nodes.foldl (fun s n => s.sendPacket i (setupPacket n.2.2.1 handle n.2.2.2 [])) s
  let s := runs.foldl (fun s r =>
    let (pi, pm, po) := parent 0 r.1
    s.sendPacket i (setupPacket r.2.1 handle
      (setupRecord 0 0 i nr 0xFFF 0 pi pm po r.1 (r.1 + r.2.2.length - 1) h) r.2.2)) s
  let ms := (nodes.map (·.2.2.1) ++ runs.map (·.2.1)).foldl (fun a m => if a.contains m then a else a ++ [m]) []
  s.onIod i fun d => { d with
    planres := 0
    setup := some
      { handle := handle, req := req, sent := ms, deadline := s.clock.ns + Config.ms, tries := tries
        wait := nodes.map (fun n => (n.2.2.1, n.1, n.2.1)) ++ runs.map fun r => (r.2.1, 0xFFF, r.1) } }

end State

/-- PLANREQ (R358, R360): the request at module HBM address `v` is written to I/O die `n`.  A write while a set-up runs is
ignored (log entry 24). -/
def execPlanreq (s : State) : Host.Outcome State Fault Refusal :=
  let i := s.arg.n
  let a := s.arg.v.toNat
  .next (if (s.iod i).setup.isSome then s
    else
      let (h, es) := s.requestAt a
      if State.hbmBad a || headBad h || es.any rankBad then s.setupEnds i (2 ^ 62 + 3)
      else (s.onIod i fun d => { d with serial := d.serial + 1 }).reserve i a [])

/-- PLANREL (R360): handle `v` is written to I/O die `n`, the origin of the plan; the records carry the plan's own header. -/
def execPlanrel (s : State) : Host.Outcome State Fault Refusal :=
  let i := s.arg.n
  let h := s.arg.v.toNat % 2 ^ 32
  .next (match (s.iod i).made.find? fun e => e.1 = h with
    | some (_, r, ms) => (s.onIod i fun d => { d with made := d.made.filter fun e => e.1 != h }).tellAll i 4 h r ms
    | none => s)

/-! ### Set-up at the modules of a plan (R360) -/

/-- Whether a SETUP packet is accepted: from the module's own I/O die, or from a module whose import entry is valid for the
record's address space. -/
def setupOk (s : State) (p : Packet) : Bool :=
  let e := ((s.iod s.arg.n).import_.get p.smod).toNat
  s.arg.b || (bits e 63 63 = 1 && bits e 47 32 = bits p.first 159 144)

/-- The answer to a SETUP packet: its record with another operation and status. -/
def answer (s : State) (p : Packet) (sop status : Nat) : State :=
  let r := putBits (putBits (p.first % 2 ^ 512) 3 0 sop) 143 136 status
  s.sendPacket s.arg.n (setupPacket p.smod p.plan r [])

/-- A record whose reserved bits or operation R359 does not allow: it is dropped and counted (log entry 24). -/
def recordBad (r : Nat) : Bool :=
  bits r 3 0 > 4 || bits r 31 17 != 0 || bits r 47 45 != 0 || bits r 63 61 != 0 || bits r 95 89 != 0 || bits r 127 127 != 0
    || r / 2 ^ 192 != 0

/-- Rank entries of a RESERVE. -/
def ranksIn (p : Packet) : List (Nat × BitVec 256) :=
  let n := bits p.first 119 108 + 1 - bits p.first 107 96
  (List.range n).map fun k =>
    (bits p.first 107 96 + k, BitVec.ofNat 256 ((p.body.getD (1 + k / 2) 0).toNat / 2 ^ (256 * (k % 2))))

/-- A SETUP packet that reaches its module: a bad record is dropped, an unaccepted one refused. -/
def setupAt (s : State) (f : State → Packet → State) : State :=
  s.control fun s p =>
    if recordBad p.first then s.countDrop s.arg.n s.arg.m
    else if setupOk s p then f s p else answer s p 2 3

/-- SETUP_RESERVE (R360 steps 4 to 6). -/
def execSetupReserve (s : State) : Host.Outcome State Fault Refusal :=
  .next (setupAt s fun s p =>
    let part (rs : List (Nat × BitVec 256)) : PlanPart :=
      { handle := p.plan, record := p.first % 2 ^ 192, ranks := rs, live := false, right := Config.moduleId }
    if bits p.first 59 48 != 0xFFF then
      -- a reduction ALU slot, and chunk buffers among the 96 MiB of the I/O die (00_scope R1)
      let there := s.plans.filter fun x => x.node != 0xFFF && x.niod = bits p.first 60 60
      if there.length ≥ Config.planNodes || decide (96 * 2 ^ 20 < (there.map (·.room)).sum + (part []).room) then
        answer s p 2 1
      else answer { s with plans := s.plans ++ [part []] } p 1 0
    else if s.plans.any fun x => !x.ranks.isEmpty && x.slot = p.plan % 2048 && x.handle != p.plan then answer s p 2 2
    else answer { s with plans := s.plans ++ [part (ranksIn p)] } p 1 0)

/-- An answer that reaches the origin: a bad record is dropped, and one that is not accepted is ignored, since an answer is
given none (log entry 24). -/
def answered (s : State) (f : State → Packet → State) : State :=
  s.control fun s p =>
    if recordBad p.first then s.countDrop s.arg.n s.arg.m
    else if setupOk s p then f s p else s

/-- The set-up that an answer belongs to: its I/O die and its state. -/
def setupOf (s : State) (p : Packet) : Option (Nat × Setup) :=
  let i := bits p.first 16 16
  match (s.iod i).setup with
  | some su => if su.handle = p.plan && su.wait.contains (p.smod, bits p.first 59 48, bits p.first 107 96) then some (i, su)
    else none
  | none => none

/-- SETUP_GRANT (R360 steps 4 and 7). -/
def execSetupGrant (s : State) : Host.Outcome State Fault Refusal :=
  .next (answered s fun s p =>
    match setupOf s p with
    | none => s
    | some (i, su) =>
      let w := su.wait.erase (p.smod, bits p.first 59 48, bits p.first 107 96)
      if s.clock.ns > su.deadline then s
      else if w.isEmpty then
        let (h, _) := s.requestAt su.req
        let s := s.tellAll i 3 su.handle h su.sent
        (s.onIod i fun d => { d with made := d.made ++ [(su.handle, h, su.sent)] }).setupEnds i (2 ^ 63 + su.handle)
      else s.onIod i fun d => { d with setup := some { su with wait := w } })

/-- SETUP_REFUSE (R360 steps 4 and 8 to 10). -/
def execSetupRefuse (s : State) : Host.Outcome State Fault Refusal :=
  .next (answered s fun s p =>
    match setupOf s p with
    | none => s
    | some (i, su) =>
      let (h, _) := s.requestAt su.req
      let s := s.tellAll i 4 su.handle h su.sent
      match bits p.first 143 136 with
      | 1 => s.setupEnds i (2 ^ 62 + 1)
      | 2 =>
        if su.tries.length ≥ 16 then s.setupEnds i (2 ^ 62 + 1)
        else s.reserve i su.req (su.handle % 2048 :: su.tries)
      | _ => s.setupEnds i (2 ^ 62 + 2))

/-- SETUP_COMMIT (R360 step 7). -/
def execSetupCommit (s : State) : Host.Outcome State Fault Refusal :=
  .next (setupAt s fun s p =>
    { s with plans := s.plans.map fun x => if x.handle = p.plan then { x with live := true } else x })

/-- SETUP_RELEASE (R360 steps 8 and 11). -/
def execSetupRelease (s : State) : Host.Outcome State Fault Refusal :=
  .next (setupAt s fun s p =>
    { s with
      plans := s.plans.filter fun x => x.handle != p.plan
      chunks := s.chunks.filter fun x => x.plan != p.plan
      trigs := s.trigs.filter fun x => x.1 != p.plan
      iters := s.iters.filter fun x => x.1.1 != p.plan })

/-- SETUP_TIMEOUT (R360 steps 8 and 10): the set-up of I/O die `n`. -/
def execSetupTimeout (s : State) : Host.Outcome State Fault Refusal :=
  let i := s.arg.n
  .next (match (s.iod i).setup with
    | some su =>
      if s.clock.ns ≤ su.deadline then s
      else
        let (h, _) := s.requestAt su.req
        (s.tellAll i 4 su.handle h su.sent).setupEnds i (2 ^ 62 + 2)
    | none => s)

/-! ### Values on the tree (R36, R363) -/

/-- An element of the wire in the escape format: FP32, or 48-bit two's complement. -/
def wireToEsc (f : Fm) (x : Nat) : Nat :=
  if f.isFloat then (roundF .fp32 (valOf f x) 0 false).1 else wrapN 48 (intVal f x)

/-- An element of the escape format rounded once into the wire format, with whether it was clamped. -/
def escToWire (f : Fm) (y : Nat) : Nat × Bool :=
  if f.isFloat then ((roundF f (valOf .fp32 y) 0 false).1, false)
  else
    let n := sgn 48 y
    let c := clampI n (intLo f) (intHi f)
    (wrapN f.bits c, c != n)

/-- Two elements of the escape format combined at a node. -/
def combineEsc (f : Fm) (op x y : Nat) : Nat :=
  match op with
  | 0 => if f.isFloat then (addF .fp32 x y 0 false).1 else wrapN 48 (sgn 48 x + sgn 48 y)
  | o =>
    if f.isFloat then minMax .fp32 (o = 2) x y
    else
      let a := sgn 48 x
      let b := sgn 48 y
      wrapN 48 (if (o = 2) = decide (a < b) then b else a)

/-- The elements of a chunk's bytes. -/
def unitsOf (n : Nat) : Nat → List Byte → List Nat
  | 0, _ => []
  | k + 1, bs => leNat (bs.take n) :: unitsOf n k (bs.drop n)

/-- The elements of a chunk in the escape format. -/
def PlanPart.escElems (p : PlanPart) (c : Nat) (esc : Bool) (bs : List Byte) : List Nat :=
  let xs := unitsOf (p.esize esc) (p.count c) bs
  if esc then xs else xs.map (wireToEsc p.fm)

/-- A node's partial chunk as it travels on: in the wire format where no child came escaped and every element is exact
there, else in the escape format. -/
def PlanPart.encode (p : PlanPart) (esc : Bool) (ys : List Nat) : Bool × List Byte :=
  if !esc && ys.all fun y => wireToEsc p.fm (escToWire p.fm y).1 = y then
    (false, ys.flatMap fun y => leBytes (p.esize false) (escToWire p.fm y).1)
  else (true, ys.flatMap fun y => leBytes (p.esize true) y)

/-! ### Contributions and results (R356, R361 to R364) -/

/-- Pieces of at most 4,096 bytes, with their places. -/
def piecesFrom : Nat → Nat → List Byte → List (Nat × List Byte)
  | 0, _, _ => []
  | n + 1, o, bs => if bs.length ≤ 4096 then [(o, bs)] else (o, bs.take 4096) :: piecesFrom n (o + 4096) (bs.drop 4096)

namespace State

/-- A WREDUCE packet (log entry 24): ADDR [0] marks a result on its way to the ranks, [12:1] its place in the tree below, [13]
a failed chunk, [51:16] the piece's place in its chunk.  Within the module it goes straight to the combining node `hint`. -/
def sendReduce (s : State) (i dmod hint addr : Nat) (p : PlanPart) (rank iter chunk gen : Nat) (esc : Bool)
    (bs : List Byte) : State :=
  let n := (bs.length + 63) / 64
  let w := header 0 1 dmod p.asid gen 0xFFF addr n + (if esc then 2 else 0) + bits p.record 123 120 * 2 ^ (128 + 53)
    + p.op * 2 ^ (128 + 50) + p.handle % 2 ^ 32 * 2 ^ 128 + (rank % 4096 * 2 ^ 52 + iter % 2 ^ 20 * 2 ^ 32 + chunk) * 2 ^ 192
    + (if bs.length % 64 = 0 then 0 else bs.length) * 2 ^ 256
  let x : Packet := { head := BitVec.ofNat 512 w, body := flitsOf 65 bs }
  if dmod = Config.moduleId then
    (if s.retired.contains (x.sasid, x.gen) then s else s.post .wreduce { n := i, pkt := x, b := true, j := hint })
  else s.sendPacket i x

/-- A chunk goes down to what stands at place `j` of level `l`, which starts on module `m`. -/
def sendDown (s : State) (i m : Nat) (p : PlanPart) (l j iter chunk gen : Nat) (esc bad : Bool)
    (ps : List (Nat × List Byte)) : State :=
  let c := childIdx p.nr l j
  ps.foldl (fun s q => s.sendReduce i m 0 (1 + c * 2 + (if bad then 2 ^ 13 else 0) + q.1 * 2 ^ 16) p (j * 2 ^ l) iter chunk
    gen esc q.2) s

/-- A node passes a result to its children; in MODE 1 the result goes to rank 0 alone, but a failure to every rank (R404). -/
def passDown (s : State) (i : Nat) (p : PlanPart) (iter chunk gen : Nat) (esc bad : Bool) (ps : List (Nat × List Byte)) :
    State :=
  match nodePlace p.nr (planLevels p.nr) p.node with
  | none => s
  | some (l, j) =>
    let s := s.sendDown i Config.moduleId p (l - 1) (2 * j) iter chunk gen esc bad ps
    if p.mode = 1 && !bad then s else s.sendDown i p.right p (l - 1) (2 * j + 1) iter chunk gen esc bad ps

/-- Bits of a rank's status word are set by a port OR (R364, R404). -/
def orStatus (s : State) (p : PlanPart) (r v : Nat) : State :=
  match p.rank r with
  | none => s
  | some e =>
    match s.ioLocs p.asid true 3 (bits e 243 192) 4 with
    -- a port action on data that cannot be decoded performs nothing (20_reliability R394)
    | some ls => if s.anyBad ls then s else s.ioWrite p.asid ls (leBytes 4 (s.natAt ls ||| v))
    | none => s

/-- A result chunk reaches rank `r` (R364): rounded once into the wire format, written to DST, the status word updated, then
RCNT raised by its bytes.  A failed chunk sets status bit 2 and raises nothing (R404).  A translation fault is counted in the import
entry of the packet `x` that brought the chunk to I/O die `i`, where one did (R350). -/
def deliver (s : State) (i : Nat) (x : Option Packet) (p : PlanPart) (r chunk : Nat) (esc bad : Bool) (bs : List Byte) :
    State :=
  match p.rank r with
  | none => s
  | some e =>
    if bad then s.orStatus p r 4
    else
      let ws := (p.escElems chunk esc bs).map (escToWire p.fm)
      let out := if esc then ws.flatMap fun w => leBytes (p.esize false) w.1 else bs
      match s.ioLocs p.asid true (ioFuel out.length) (bits e 179 128 + chunk * p.csize) out.length with
      | none => match x with
        | some x => s.countFault i x
        | none => s
      | some ls =>
        if !s.ioOpen p.asid ls then s
        else
        let s := s.ioWrite p.asid ls out
        let st := (if esc && ws.any (·.2) then 1 else 0) + (if esc then 2 else 0)
        let s := if st = 0 then s else s.orStatus p r st
        s.bump (bits e 23 12) out.length

/-- A partial chunk rises from place `j` of level `l`: to its combining node, or, at the root, as the result; `pm` is the
module of the node it rises to, and `own` the part that holds the rank where the tree has no node. -/
def rise (s : State) (i : Nat) (p : PlanPart) (l j iter chunk gen : Nat) (esc bad : Bool) (bs : List Byte) : State :=
  match parentPlace p.nr 13 l j with
  | some (l', j', right) =>
    let m := if right && (p.node != 0xFFF || j * 2 ^ l = p.first) then p.pmod else Config.moduleId
    (piecesFrom (bs.length / 4096 + 1) 0 bs).foldl (fun s q =>
      s.sendReduce i m (nodeIdx p.nr l' j' + 1) ((if bad then 2 ^ 13 else 0) + q.1 * 2 ^ 16) p (j * 2 ^ l) iter chunk gen
        esc q.2) s
  | none =>
    if p.node = 0xFFF then s.deliver i none p 0 chunk esc bad bs
    else s.passDown i p iter chunk gen esc bad (piecesFrom (bs.length / 4096 + 1) 0 bs)

/-- The contribution of rank `r` for one iteration, chunk by chunk; bytes beyond those given are zero. -/
def contribute (s : State) (i : Nat) (p : PlanPart) (r iter gen : Nat) (bad : Bool) (bs : List Byte) : State :=
  (List.range p.chunks).foldl (fun s c =>
    let n := p.count c * p.esize false
    let b := (bs.drop (c * p.csize)).take n
    s.rise i p 0 r iter c gen false bad (b ++ List.replicate (n - b.length) 0)) s

/-- The live part of a plan that holds rank `r`. -/
def rankPart (s : State) (h r : Nat) : Option PlanPart :=
  s.plans.find? fun p => p.handle = h && p.live && p.ranks.any fun e => e.1 = r

/-- A node that its I/O die has lost fails a chunk: the failure rises in place of its partial chunk, and comes down to every
rank of the plan, on whichever module (R403, R404). -/
def failAt (s : State) (i : Nat) (p : PlanPart) (iter chunk gen : Nat) : State :=
  match nodePlace p.nr (planLevels p.nr) p.node with
  | none => s
  | some (l, j) =>
    s.rise i p l j iter chunk gen false true (List.replicate (p.count chunk * p.esize false) 0)

/-- The I/O die that serves in place of one that has been removed. -/
def servingIod (s : State) (i : Nat) : Nat := if (s.iod i).removed then 1 - i else i

/-- The pieces of one chunk that have come, in their order. -/
def piecesOf' (s : State) (h node rank iter chunk : Nat) : List Chunk :=
  isort (fun x y => decide (x.off ≤ y.off)) (s.chunks.filter fun x =>
    x.plan = h && x.node = node && x.rank = rank && x.iter = iter && x.chunk = chunk)

/-- A whole chunk, once all its pieces have come: escaped, failed, bytes. -/
def wholeChunk (s : State) (p : PlanPart) (node rank iter chunk : Nat) : Option (Bool × Bool × List Byte) :=
  match s.piecesOf' p.handle node rank iter chunk with
  | [] => none
  | x :: l =>
    let bs := (x :: l).flatMap (·.bytes)
    if bs.length = p.count chunk * p.esize x.esc then some (x.esc, (x :: l).any (·.bad), bs) else none

def dropChunk (s : State) (h node rank iter chunk : Nat) : State :=
  { s with chunks := s.chunks.filter fun x =>
      !(x.plan = h && x.node = node && x.rank = rank && x.iter = iter && x.chunk = chunk) }

/-- A contribution's piece at a combining node; with both children there, the partial chunk rises (R36, R362). -/
def atNode (s : State) (i : Nat) (p : PlanPart) (x : Chunk) (gen smod : Nat) : State :=
  let s := { s with
    chunks := s.chunks ++ [x]
    plans := if x.rank = p.first then s.plans
      else s.plans.map fun q => if q.handle = p.handle && q.node = p.node then { q with right := smod } else q }
  match nodePlace p.nr (planLevels p.nr) p.node with
  | none => s
  | some (l, j) =>
    let mid := p.first + 2 ^ (l - 1)
    match s.wholeChunk p p.node p.first x.iter x.chunk, s.wholeChunk p p.node mid x.iter x.chunk with
    | some (e1, b1, s1), some (e2, b2, s2) =>
      let ys := ((p.escElems x.chunk e1 s1).zip (p.escElems x.chunk e2 s2)).map fun q => combineEsc p.fm p.op q.1 q.2
      let (e, bs) := p.encode (e1 || e2) ys
      let s := (s.dropChunk p.handle p.node p.first x.iter x.chunk).dropChunk p.handle p.node mid x.iter x.chunk
      match s.plans.find? fun q => q.handle = p.handle && q.node = p.node with
      | some q => s.rise i q l j x.iter x.chunk gen e (b1 || b2) bs
      | none => s
    | _, _ => s

end State

/-- WREDUCE (R350, R362 to R364): a contribution for a combining node, or a result for a node's children or a rank.  One
that names no live part of a plan is dropped. -/
def execWreduce (s : State) : Host.Outcome State Fault Refusal :=
  let a := s.arg
  let p := a.pkt
  .next (s.incoming fun s x g =>
    match s.toSieve with
    | some t => t
    | none =>
      let piece (node : Nat) : Chunk :=
        { plan := p.plan, node := node, rank := p.rank, iter := p.iter, chunk := p.chunk, esc := p.esc
          bad := p.addr / 2 ^ 13 % 2 = 1, off := p.addr / 2 ^ 16, bytes := p.bytes.take p.size }
      if p.addr % 2 = 0 then
        let nr := ((s.plans.find? fun q => q.handle = p.plan).map (·.nr)).getD 0
        let node := if a.j = 0 then rightOf nr p.rank 13 else some (a.j - 1)
        match s.plans.find? fun q => q.handle = p.plan && some q.node = node && q.live && q.asid = x with
        | some q =>
          if (s.iod q.niod).removed then
            -- the first piece of the left child stands for the chunk
            (if p.rank = q.first && p.addr / 2 ^ 16 = 0 then s.failAt a.n q p.iter p.chunk g else s)
          else s.atNode a.n q (piece q.node) g p.smod
        | none => s
      else
        let c := p.addr / 2 % 4096
        if c = 0xFFF then
          match s.rankPart p.plan p.rank with
          | some q =>
            let s := { s with chunks := s.chunks ++ [piece 0xFFF] }
            match s.wholeChunk q 0xFFF p.rank p.iter p.chunk with
            | some (e, b, bs) =>
              (s.dropChunk p.plan 0xFFF p.rank p.iter p.chunk).deliver a.n (if a.b then none else some p) q p.rank p.chunk e b bs
            | none => s
          | none => s
        else
          match s.plans.find? fun q => q.handle = p.plan && q.node = c && q.live with
          | some q =>
            s.passDown a.n q p.iter p.chunk g p.esc (p.addr / 2 ^ 13 % 2 = 1 || (s.iod q.niod).removed)
              [(p.addr / 2 ^ 16, p.bytes.take p.size)]
          | none => s)

namespace State

/-- The iteration of a plan's rank that starts next. -/
def nextIter (s : State) (h r : Nat) : Nat := ((s.iters.find? fun e => e.1 = (h, r)).map (·.2)).getD 0

/-- Contributions start from the next iteration on, as long as its trigger is held. -/
def startIters (s : State) (i : Nat) (p : PlanPart) (r : Nat) : Nat → State
  | 0 => s
  | n + 1 =>
    let t := s.nextIter p.handle r
    if !s.trigs.contains (p.handle, r, t) then s
    else
      let s := { s with
        trigs := s.trigs.filter fun x => x != (p.handle, r, t)
        iters := ((p.handle, r), (t + 1) % 2 ^ 20) :: s.iters.filter fun e => e.1 != (p.handle, r) }
      let e := (p.rank r).getD 0
      let len := p.elems * p.esize false
      let s := match s.ioLocs p.asid false (ioFuel len) (bits e 115 64) len with
        | some ls => (s.touch ls).contribute i p r t 0 (s.anyBad ls) (s.heard ls)
        | none => s.contribute i p r t 0 true []
      s.startIters i p r n

end State

/-- TRIGGER_WRITE (R361): the value `v` written to trigger word `m` of compute die `n`. -/
def execTriggerWrite (s : State) : Host.Outcome State Fault Refusal :=
  let v := s.arg.v.toNat
  let h := bits v 31 0
  let r := bits v 43 32
  let i := bits v 63 44
  .next (if h % 2048 != (s.arg.n * 256 + s.arg.m) % 2048 then s
    else
      match s.rankPart h r with
      | none => s
      | some p =>
        let ahead := (i + 2 ^ 20 - s.nextIter h r) % 2 ^ 20
        if ahead ≥ 2 ^ 19 || s.trigs.contains (h, r, i) then s
        else
          let s := { s with trigs := s.trigs ++ [(h, r, i)] }
          s.startIters (s.servingIod (bits h 23 23)) p r (s.trigs.length + 1))

/-! ### Queue pairs (R354 to R357) -/

namespace State

def qctx (s : State) (i q : Nat) : Nat := ((s.iod i).qp.get q).toNat

/-- The places of slot `n` of a queue pair's ring. -/
def slotLocs (s : State) (i q n : Nat) (wr : Bool) : Option (List Loc) :=
  let c := s.qctx i q
  s.ioLocs (bits c 231 216) wr 3 (bits c 147 96 + 64 * (n % bits c 95 80)) 64

/-- A work entry retires failed (R356, R404): dword n7 of its slot tells the cause, and NODE's LCAUSE. -/
def failEntryQ (s : State) (i q n cause : Nat) : State :=
  let c := s.qctx i q
  let s := match s.slotLocs i q n true with
    | some ls => s.ioWrite (bits c 231 216) (ls.drop 56) (leBytes 8 (2 ^ 63 + cause))
    | none => s
  let s := if hbmBad (bits c 199 148) then s else s.setLcause (bits c 199 148) cause
  s.onIod i fun d => retireSlot d q n

/-- An entry that R356 retires unfired: reserved codes and bits, a length out of range. -/
def workBad (x : Nat) : Bool :=
  let d (k : Nat) : Nat := x / 2 ^ (64 * k) % 2 ^ 64
  bits (d 0) 63 60 > 1 || bits (d 0) 58 24 != 0 || bits (d 2) 63 52 != 0 || bits (d 4) 31 0 < 1 || bits (d 4) 31 0 > 2 ^ 24
    || bits (d 6) 63 44 != 0 || d 7 != 0 || (bits (d 0) 63 60 = 1 && bits (d 3) 51 0 != 0)

/-- The sequencer reads the slots that TAIL covers, in slot order, while fewer than 64 entries of the pair are armed. -/
def armSlots (s : State) (i q : Nat) : Nat → State
  | 0 => s
  | f + 1 =>
    let c := s.qctx i q
    let d := s.iod i
    let n := tget 0 d.qseen q
    if bits c 255 255 = 0 || bits c 95 80 = 0 || d.removed || n = bits c 63 32
        || (d.armed.filter fun a => a.1 = q).length ≥ 64 then s
    else
      let s := s.onIod i fun d => { d with qseen := tput q ((n + 1) % 2 ^ 32) d.qseen }
      (match s.slotLocs i q n false with
        | none => s.failEntryQ i q n 0x04
        | some ls =>
          let x := s.natAt ls
          if s.anyBad ls then s.failEntryQ i q n 0x0B
          else if workBad x then s.failEntryQ i q n 0x12
          else
            let w : Armed := { slot := n, entry := BitVec.ofNat 512 x, fired := 0 }
            s.onIod i fun d => { d with armed := d.armed ++ [(q, w)] }
        ).armSlots i q f

/-- Slots posted and not yet read. -/
def unread (s : State) (i q : Nat) : Nat := (bits (s.qctx i q) 63 32 + 2 ^ 32 - tget 0 (s.iod i).qseen q) % 2 ^ 32

end State

/-- QP_POST (R354, R356): TAIL of queue pair `m` of I/O die `n` becomes `v`. -/
def execQpPost (s : State) : Host.Outcome State Fault Refusal :=
  let i := s.arg.n
  let q := s.arg.m
  let t := s.onIod i fun d => { d with
    qp := d.qp.set q (BitVec.ofNat 256 (putBits (d.qp.get q).toNat 63 32 (s.arg.v.toNat % 2 ^ 32))) }
  .next (t.armSlots i q (min (t.unread i q) 65536))

/-- Whether a counter has reached a threshold (R356). -/
def reached (c t : Nat) : Bool := decide ((c + 2 ^ 32 - t) % 2 ^ 32 < 2 ^ 31)

/-- A signed stride added to an address, wrapping. -/
def stride (a d : Nat) : Nat := wrapN 52 ((a : Int) + sgn 32 d)

/-- WORK_ENTRY_FIRE (R356, R391, R401, R404): the armed entry of slot `k` of queue pair `m` of I/O die `n`. -/
def execWorkEntryFire (s : State) : Host.Outcome State Fault Refusal :=
  let i := s.arg.n
  let q := s.arg.m
  let c := s.qctx i q
  let asid := bits c 231 216
  let gen := bits c 215 200
  .next (match (s.iod i).armed.find? fun a => a.1 = q && a.2.slot = s.arg.k with
    | none => s
    | some (_, w) =>
      let d (k : Nat) : Nat := w.entry.toNat / 2 ^ (64 * k) % 2 ^ 64
      let len := bits (d 4) 31 0
      let src := bits (d 2) 51 0
      let trig := bits (d 0) 11 0
      if trig = 0xFFF || !reached (s.counter trig) (bits (d 1) 31 0) then s
      else if s.unassigned asid gen then s.post .violation { viol := .pairQueue i q }
      else if s.waitInval asid src then s
      else
        let fail (cause : Nat) : State := (s.failEntryQ i q w.slot cause).armSlots i q 64
        match s.ioLocs asid false (State.ioFuel len) src len with
        | none => fail 0x04
        | some ls =>
          let red := bits (d 0) 63 60 = 1
          let part := match s.rankPart (bits (d 6) 31 0) (bits (d 6) 43 32) with
            | some p => if p.asid = asid then some p else none
            | none => none
          if red && part.isNone then fail 0x03
          else if s.anyBad ls then (s.touch ls).failEntryQ i q w.slot 0x0B |>.armSlots i q 64
          else
            let bs := s.heard ls
            let s := s.touch ls
            let send (s : State) (x : Nat × List Byte) : State := s.sendPacket i
              { head := BitVec.ofNat 512 (header 0 0 (bits c 243 232) asid gen (bits (d 3) 63 52)
                  (bits (d 3) 51 0 + x.1) ((x.2.length + 63) / 64)
                  + (if x.2.length % 64 = 0 then 0 else x.2.length) * 2 ^ 256)
                body := flitsOf 65 x.2 }
            let s := match (if red then part else none) with
              | some p => s.contribute i p (bits (d 6) 43 32) (w.fired % 2 ^ 20) gen false bs
              | none => (piecesFrom (len / 4096 + 1) 0 bs).foldl send s
            let s := s.bump (bits (d 0) 23 12) 1
            let fired := w.fired + 1
            if bits (d 0) 59 59 = 0 || (bits (d 4) 63 32 != 0 && fired = bits (d 4) 63 32) then
              (s.onIod i fun d => retireSlot d q w.slot).armSlots i q 64
            else
              let e := w.entry.toNat
              let e := putBits e 95 64 (bits (d 1) 31 0 + bits (d 1) 63 32)
              let e := putBits e 179 128 (stride src (bits (d 5) 31 0))
              let e := putBits e 243 192 (stride (bits (d 3) 51 0) (bits (d 5) 63 32))
              let again (a : Nat × Armed) : Nat × Armed :=
                if a.1 = q && a.2.slot = w.slot then (q, { w with entry := BitVec.ofNat 512 e, fired := fired }) else a
              s.onIod i fun x => { x with armed := x.armed.map again })

end Sys2Proof.Machine
end

