-- ==== Sys2Proof/Machine/Power.lean ====
section
/-!
DEFINITION. The time base (18_fabric R352, R353) and power: leases, trades, levels, overdraw, simmer (19_power R379 to R388).
-/

namespace Sys2Proof.Machine

/-! ### PTP messages (R352), laid out by IEEE 1588-2019 (log entry 25) -/

/-- Bytes [o, o + n) of a message in network byte order. -/
def ptpField (p : Packet) (o n : Nat) : Nat := ((p.bytes.drop o).take n).foldl (fun a b => a * 256 + b.toNat) 0

/-- A ten-byte timestamp in nanoseconds. -/
def ptpTime (p : Packet) (o : Nat) : Nat := ptpField p o 6 * 1000000000 + ptpField p (o + 6) 4

/-- The correction field in whole nanoseconds. -/
def ptpCorrection (p : Packet) : Int := sgn 64 (ptpField p 8 8) / 65536

def ptpSeq (p : Packet) : Nat := ptpField p 30 2

def ptpTwoStep (p : Packet) : Bool := ptpField p 6 1 / 2 % 2 = 1

namespace State

def tmSrc (s : State) : Nat := bits s.clock.ctl.toNat 11 0
def tmDom (s : State) : Nat := bits s.clock.ctl.toNat 19 12

/-- The expected Sync interval in nanoseconds (R353): 2^SYNCLOG seconds. -/
def syncInterval (s : State) : Nat :=
  let l := sgn 8 (bits s.clock.ctl.toNat 27 20)
  if 0 ≤ l then 1000000000 * 2 ^ l.toNat else 1000000000 / 2 ^ (-l).toNat

/-- The disciplined counter with the nanoseconds since its last step, as a port's timestamp clock shows it. -/
def stamp (s : State) : Nat := s.clock.ns + s.clock.frac * 25 / Config.refPer25ns

/-- A message of the time source in the configured domain; any other is ignored. -/
def fromSource (s : State) (p : Packet) : Bool := p.smod = s.tmSrc && ptpField p 4 1 = s.tmDom

/-- The number in a signed 32-bit register, saturating. -/
def sat32 (n : Int) : BitVec 32 := BitVec.ofInt 32 (clampI n (-2147483648) 2147483647)

/-- A measured offset (R353): OFFSET, the count of good Syncs, lock and loss of lock, the one step at the first lock, with the
times that are counted from the time base, and the slew that later corrections ask for. -/
def offsetSeen (s : State) (off : Int) : State :=
  let c := s.clock
  let good := if off.natAbs ≤ 50 then c.good + 1 else 0
  let locks := !c.lock && decide (8 ≤ good)
  let lock := (c.lock || locks) && decide (off.natAbs ≤ 1000)
  let c := { c with offset := sat32 off, good := good, lock := lock }
  let steps := locks && !c.stepped
  let moved (t : Nat) : Nat := ((t : Int) - off).toNat % 2 ^ 64
  let c := if steps then { c with stepped := true, ns := moved c.ns, lastSync := moved c.lastSync, slew := 0 }
    else if lock then { c with slew := off }
    else { c with slew := 0 }
  { s with clock := c, power := if steps then { s.power with simAt := moved s.power.simAt } else s.power }

/-- The offset from a Sync that left the source at `t1` and arrived at `t2`. -/
def syncSeen (s : State) (t1 : Int) (t2 : Nat) : State :=
  ({ s with clock := { s.clock with last := some (t1, t2) } } : State).offsetSeen ((t2 : Int) - t1 - s.clock.delayNs)

/-- The time base, 64 bits wide (R352), advances by `n` nanoseconds of the reference clock; a slew takes or gives one in ten
thousand (R353). -/
def advance (s : State) (n : Nat) : State :=
  let c := s.clock
  let a := c.slewAt + n
  let c := if c.lock && c.slew != 0 && decide (10000 ≤ a) then
      (if 0 < c.slew then { c with ns := (c.ns + n - 1) % 2 ^ 64, slew := c.slew - 1, slewAt := a - 10000 }
      else { c with ns := (c.ns + n + 1) % 2 ^ 64, slew := c.slew + 1, slewAt := a - 10000 })
    else { c with ns := (c.ns + n) % 2 ^ 64, slewAt := min a 10000 }
  { s with clock := c }

end State

/-- SYNC_MESSAGE (R352, R353): the packet `pkt`; a two-step Sync waits for its Follow_Up. -/
def execSyncMessage (s : State) : Host.Outcome State Fault Refusal :=
  .next (s.control fun s p =>
    if !s.fromSource p then s
    else
      let t := s.stamp
      let s := { s with clock := { s.clock with lastSync := s.clock.ns, sync := some (t, ptpCorrection p, ptpSeq p) } }
      if ptpTwoStep p then s else s.syncSeen (ptpTime p 34 + ptpCorrection p) t)

/-- FOLLOW_UP_MESSAGE (R352): the precise origin time of the Sync of the same sequence number. -/
def execFollowUpMessage (s : State) : Host.Outcome State Fault Refusal :=
  .next (s.control fun s p =>
    match s.clock.sync with
    | some (t2, c, q) =>
      if !s.fromSource p || q != ptpSeq p then s
      else
        ({ s with clock := { s.clock with sync := none } } : State).syncSeen (ptpTime p 34 + c + ptpCorrection p) t2
    | none => s)

/-- DELAY_REQ (R352): a Delay_Req leaves for the time source, and its port notes when. -/
def execDelayReq (s : State) : Host.Outcome State Fault Refusal :=
  let q := (s.clock.seqNo + 1) % 65536
  let b (k : Nat) : Byte :=
    match k with
    | 0 => 1
    | 1 => 2
    | 3 => 44
    | 4 => BitVec.ofNat 8 s.tmDom
    | 26 => BitVec.ofNat 8 (Config.moduleId / 256)
    | 27 => BitVec.ofNat 8 Config.moduleId
    | 29 => 1
    | 30 => BitVec.ofNat 8 (q / 256)
    | 31 => BitVec.ofNat 8 q
    | 32 => 1
    | 33 => 0x7F
    | _ => 0
  let p : Packet :=
    { head := BitVec.ofNat 512 (header 2 7 s.tmSrc 0 0 0 0 1), body := flitsOf 2 ((List.range 64).map b) }
  let t : State := { s with clock := { s.clock with seqNo := q, delayT3 := some (s.stamp, q) } }
  .next (t.sendPacket 0 p)

/-- DELAY_RESP_MESSAGE (R352): the mean path delay from the last Sync and this exchange. -/
def execDelayRespMessage (s : State) : Host.Outcome State Fault Refusal :=
  .next (s.control fun s p =>
    match s.clock.delayT3, s.clock.last with
    | some (t3, q), some (t1, t2) =>
      if !s.fromSource p || q != ptpSeq p then s
      else
        let t4 : Int := ptpTime p 34 - ptpCorrection p
        { s with clock := { s.clock with delayT3 := none, delayNs := (((t2 : Int) - t3) + (t4 - t1)) / 2 } }
    | _, _ => s)

/-- ANNOUNCE_MESSAGE (R352): the best master clock algorithm is not run, so an Announce changes nothing; other message types
are ignored alike. -/
def execAnnounceMessage (s : State) : Host.Outcome State Fault Refusal := .next (s.control fun s _ => s)

/-- SYNC_TIMEOUT (R353): no Sync for 8 intervals. -/
def execSyncTimeout (s : State) : Host.Outcome State Fault Refusal :=
  .next (if s.clock.lock && decide (s.clock.lastSync + 8 * s.syncInterval < s.clock.ns) then
      { s with clock := { s.clock with lock := false, good := 0, slew := 0 } }
    else s)

/-! ### Token packets (R380 to R383) -/

/-- A lease record. -/
def leaseRecord (trade origin op tokens expiry lease : Nat) : Nat :=
  lease % 2 ^ 64 + expiry % 2 ^ 64 * 2 ^ 64 + tokens % 2 ^ 16 * 2 ^ 128 + op * 2 ^ 144 + origin % 4096 * 2 ^ 148
    + trade % 2 ^ 32 * 2 ^ 160

def tokenPacket (dmod rec : Nat) : Packet :=
  { head := BitVec.ofNat 512 (header 2 6 dmod 0 0 0 0 1), body := [BitVec.ofNat 512 rec] }

/-- Module of neighbour `j`, where it is valid (R379). -/
def neighbour (p : Power) (j : Nat) : Option Nat :=
  if p.nbr.getLsbD (48 + j) then some (bits p.nbr.toNat (12 * j + 11) (12 * j)) else none

def isNeighbour (p : Power) (m : Nat) : Bool := (List.range 4).any fun j => neighbour p j = some m

/-- A token packet that R380 drops. -/
def tokenBad (s : State) (p : Packet) : Bool :=
  let op := bits p.first 147 144
  p.first / 2 ^ 192 != 0 || op > 3 || !s.clock.lock
    || (if op = 0 then p.smod != s.power.coord.toNat else !isNeighbour s.power p.smod)

namespace State

/-- A token packet at its module: dropped and counted, or acted on; none is accepted before READY (21_bringup R405). -/
def tokenAt (s : State) (f : State → Packet → State) : State :=
  s.control fun s p =>
    if tokenBad s p then { s with power := { s.power with pdrop := s.power.pdrop + 1 } }
    else if s.boot.phase != phReady then s
    else f s p

/-- The base of the budget, less the committed outgoing trades (R382, R383). -/
def spare (s : State) : Nat :=
  let p := s.power
  let now := s.clock.ns
  let base := if p.lease != 0 && decide (p.expiry.toNat > now) then p.tokens.toNat
    else if p.lease != 0 then min p.tokens.toNat p.floor.toNat else p.floor.toNat
  base - ((p.out.filter fun t => t.2 > now).map (·.1)).sum

end State

/-- TOKEN_GRANT (R381). -/
def execTokenGrant (s : State) : Host.Outcome State Fault Refusal :=
  .next (s.tokenAt fun s p =>
    let r := p.first
    if bits r 63 0 ≤ s.power.lease.toNat || bits r 127 64 ≤ s.clock.ns then s
    else
      ({ s with power := { s.power with
          lease := BitVec.ofNat 64 (bits r 63 0), expiry := BitVec.ofNat 64 (bits r 127 64)
          tokens := BitVec.ofNat 16 (bits r 143 128) } } : State).rebudget)

/-- LEASE_EXPIRY (R382): the budget follows the lease and the trades that have lapsed. -/
def execLeaseExpiry (s : State) : Host.Outcome State Fault Refusal := .next s.rebudget

/-- PTRADE (R379, R383): the value `v` written. -/
def execPtrade (s : State) : Host.Outcome State Fault Refusal :=
  let k := bits s.arg.v.toNat 63 48
  let p := s.power
  .next (match neighbour p (bits s.arg.v.toNat 47 46) with
    | none => s
    | some m =>
      if k = 0 || (budgetOf' s).hold || decide (s.spare < k) then s
      else
        let t := p.trade + 1
        let w : Trade := { who := m, trade := t % 2 ^ 32, k := k, expiry := p.expiry.toNat, lease := p.lease.toNat
                           at_ := s.clock.ns, applied := false }
        ({ s with power := { p with trade := t, offers := p.offers ++ [w] } } : State).sendPacket 0
          (tokenPacket m (leaseRecord t Config.moduleId 1 k p.expiry.toNat p.lease.toNat)))
where
  /-- The budget as it stands now. -/
  budgetOf' (s : State) : Power := State.budgetOf s.power s.clock.ns

/-- TOKEN_OFFER (R383 step 2). -/
def execTokenOffer (s : State) : Host.Outcome State Fault Refusal :=
  .next (s.tokenAt fun s p =>
    let r := p.first
    if bits r 127 64 ≤ s.clock.ns + Config.ms then s
    else
      let w : Trade := { who := bits r 159 148, trade := bits r 191 160, k := bits r 143 128, expiry := bits r 127 64
                         lease := bits r 63 0, at_ := s.clock.ns, applied := false }
      let known := s.power.accepted.any fun x => x.who = w.who && x.trade = w.trade
      let s := if known then s else { s with power := { s.power with accepted := s.power.accepted ++ [w] } }
      s.sendPacket s.arg.n (tokenPacket p.smod (putBits r 147 144 2)))

/-- TOKEN_ACCEPT (R383 step 3): in every case the offer is closed. -/
def execTokenAccept (s : State) : Host.Outcome State Fault Refusal :=
  .next (s.tokenAt fun s p =>
    let r := p.first
    match s.power.offers.find? fun w => w.who = p.smod && w.trade = bits r 191 160 && bits r 159 148 = Config.moduleId
        && w.lease = bits r 63 0 && w.expiry = bits r 127 64 with
    | none => s
    | some w =>
      let ok := decide (s.clock.ns ≤ w.at_ + Config.ms) && decide (w.expiry > s.clock.ns) && decide (w.k ≤ s.spare)
      let s : State := { s with power := { s.power with offers := s.power.offers.filter (· != w) } }
      if !ok then s
      else
        ({ s with power := { s.power with out := s.power.out ++ [(w.k, w.expiry)] } } : State).rebudget.sendPacket s.arg.n
          (tokenPacket p.smod (leaseRecord w.trade Config.moduleId 3 w.k w.expiry w.lease)))

/-- TOKEN_COMMIT (R383 step 4): once for each accepted trade, before its expiry. -/
def execTokenCommit (s : State) : Host.Outcome State Fault Refusal :=
  .next (s.tokenAt fun s p =>
    let r := p.first
    let hit (w : Trade) : Bool := w.who = bits r 159 148 && w.trade = bits r 191 160
    match s.power.accepted.find? fun w => hit w && !w.applied with
    | none => s
    | some _ =>
      if bits r 127 64 ≤ s.clock.ns then s
      else
        let mark (w : Trade) : Trade := if hit w then { w with applied := true } else w
        ({ s with power := { s.power with
            accepted := s.power.accepted.map mark
            inn := s.power.inn ++ [(bits r 143 128, bits r 127 64)] } } : State).rebudget)

/-! ### Registers (R379) -/

/-- Whether thresholds rise with the level. -/
def levelsRise (v0 v1 : BitVec 64) : Bool :=
  let t (i : Nat) : Nat := if i < 4 then bits v0.toNat (16 * i + 15) (16 * i)
    else bits v1.toNat (16 * (i - 4) + 15) (16 * (i - 4))
  (List.range 7).all fun i => decide (t i < t (i + 1))

/-- PLOCK (R379). -/
def execPlock (s : State) : Host.Outcome State Fault Refusal := .next { s with power := { s.power with lock := true } }

/-- PLVLTH_WRITE (R379): PLVLTH0, or PLVLTH1 where `n` is 1, becomes `v`, unless locked or the thresholds would not rise. -/
def execPlvlthWrite (s : State) : Host.Outcome State Fault Refusal :=
  let p := s.power
  let q := if s.arg.n = 1 then { p with lvlth1 := s.arg.v } else { p with lvlth0 := s.arg.v }
  .next (if p.lock || !levelsRise q.lvlth0 q.lvlth1 then s
    else { s with power := { q with level := State.levelFor q } })

/-- PRAMP_WRITE (R379): ignored when 0 or locked. -/
def execPrampWrite (s : State) : Host.Outcome State Fault Refusal :=
  let v := s.arg.v.setWidth 16
  .next (if s.power.lock || v = 0 then s else { s with power := { s.power with ramp := v } })

/-! ### Overdraw and simmer (R385, R387) -/

/-- POWER_OVERDRAW (R385): the working draw averaged over 100 ms, `k` tokens as measured; where it exceeds BUDGET, the
running launch that R302 puts first is asked to stop. -/
def execPowerOverdraw (s : State) : Host.Outcome State Fault Refusal :=
  let run := s.launches.filter fun l => s.runs l && !l.killed
    && !s.cores.any fun e => e.2.live && e.2.ctx.launch = l.node && e.2.ctx.req.isSome
  .next (if s.arg.k ≤ s.power.budget then s
    else
      match isort (fun x y => decide (x.prio < y.prio) || (x.prio = y.prio && decide (x.started ≥ y.started))) run with
      | l :: _ => s.post .preemptRequest { n := l.node }
      | [] => s)

/-- SIMMER_TICK (R387): once a microsecond F follows the working load, with `b` by a new measurement `k` of it in tokens; a
measurement that comes within the microsecond counts at its end.  F is kept in thousandths of a token. -/
def execSimmerTick (s : State) : Host.Outcome State Fault Refusal :=
  let p := s.power
  let d := if s.arg.b then s.arg.k else p.seen
  let f := max (1000 * d) (p.fall - p.ramp.toNat)
  let t := (f - 1000 * d) / 1000
  .next (if s.clock.ns < p.simAt + 1000 then { s with power := { p with seen := d } } else { s with power := { p with
    draw := d, seen := d, fall := f, simAt := s.clock.ns
    simn := if f != 1000 * d && p.fall ≤ 1000 * p.draw then p.simn + 1 else p.simn
    simt := BitVec.ofNat 16 t } })

end Sys2Proof.Machine
end

