-- ==== Sys2Proof/Machine/Reliab.lean ====
section
/-!
DEFINITION. Errors, repairs and guarantees (20_reliability R389 to R404): write-backs, failed banks, scrubbing, violations
and the removal of parts.
-/

namespace Sys2Proof.Machine

/-! ### The code of R389, R392 and R394

State holds the data of every row and unit and which of its symbols are in error; the check symbols that are stored beside
them follow from the data. -/

/-- A product in GF(2^8) with the field polynomial 0x11D. -/
def gfMul (a b : Nat) : Nat :=
  ((List.range 8).foldl (fun (x : Nat × Nat) k =>
    (if b.testBit k then x.1 ^^^ x.2 else x.1, if 2 * x.2 < 256 then 2 * x.2 else (2 * x.2) ^^^ 0x11D)) (0, a)).1

/-- The generator polynomial for `n` check symbols, below its leading term, the highest power first (R389, R392). -/
def genPoly : Nat → List Nat
  | 4 => [0x0F, 0x36, 0x78, 0x40]
  | 3 => [0x07, 0x0E, 0x08]
  | _ => [0x03, 0x02]

/-- The `n` check symbols after data symbols: the remainder that makes the codeword divisible by the generator. -/
def checkSyms (n : Nat) (data : List Nat) : List Nat :=
  data.foldl (fun r d => List.zipWith (· ^^^ ·) (r.drop 1 ++ [0]) ((genPoly n).map (gfMul (d ^^^ r.headD 0))))
    (List.replicate n 0)

/-- How many of the failed data banks have had their byte of row `r` moved by the rebuild walk. -/
def Core.moved (k : Core) (r : Nat) : Nat :=
  let n := min 2 (k.failed.filter (· < 32)).length
  if k.walking && decide (k.walk ≤ r) then n - 1 else n

namespace State

/-- The 36 symbols that row `r` of core `k` stores where none is in error: its data, and its check symbols in the code of its
side of the rebuild walk, with the byte of the first failed data bank in bank 35 and that of the second in bank 34. -/
def rowCode (s : State) (k r : Nat) : List Nat :=
  let x := s.core k
  let data := (getBytes x.spm (32 * r) 32).map (·.toNat)
  let gone := (x.failed.filter (· < 32)).map fun b => data.getD b 0
  let m := x.moved r
  data ++ checkSyms (4 - m) data ++ (gone.take m).reverse

/-- The 36 symbols of a unit of HBM or Pantry at a location (R394). -/
def unitCode (s : State) (l : Loc) : List Nat :=
  let data := (s.bytesAt ((rowStart l).run 32)).map (·.toNat)
  data ++ checkSyms 4 data

/-! ### Scratchpads (R390, R392) -/

/-- A bank of core `k` is declared failed: its rebuild walk starts, or, at the third failure, the core is taken out of
service and its context is asked to stop at trap grade. -/
def failBank (s : State) (k b : Nat) : State :=
  let x := s.core k
  let f := x.failed ++ [b]
  let x := { x with failed := f, hits := x.hits.filter fun h => h.1 != b }
  if 3 ≤ f.length then
    let ask (c : Ctx) : Ctx := if c.mode = .running || c.mode = .yielding then { c with req := some .trap, reqAt := s.ref } else c
    (s.setCore k { x with walking := false, ctx := if x.live && x.ctx.launch != 0 then ask x.ctx else x.ctx }).outOfService
      k 0x0B
  else if b < 32 then s.setCore k { x with walk := 0, walking := true, svc := 1 }
  else s.setCore k x

/-- Reads of a bank that have been corrected within 2^20 reference cycles (R392). -/
def recentHits (s : State) (k b : Nat) : Nat :=
  ((s.core k).hits.filter fun h => h.1 = b && decide (s.ref < h.2 + 2 ^ 20)).length

end State

/-- CORRECTED_WRITEBACK (R390, R392): row `m` of core `n`.  A bank that shows an error still is declared failed. -/
def execCorrectedWriteback (s : State) : Host.Outcome State Fault Refusal :=
  let k := s.arg.n
  let x := s.core k
  .next (if !x.wb.contains s.arg.m then s
    else
      let e := x.err.get s.arg.m &&& x.stuckBits
      let s := s.setCore k { x with wb := x.wb.erase s.arg.m, err := x.err.set s.arg.m e }
      match (List.range 36).find? fun b => e.getLsbD b && !x.failed.contains b with
      | some b => s.post .bankFailure { n := k, m := b, b := true }
      | none => s)

/-- BANK_FAILURE (R392): bank `m` of core `n`, with `b` where a write-back did not clear it. -/
def execBankFailure (s : State) : Host.Outcome State Fault Refusal :=
  let k := s.arg.n
  let b := s.arg.m
  .next (if b ≥ 36 || (s.core k).failed.contains b || !(s.arg.b || decide (16 ≤ s.recentHits k b)) then s
    else s.failBank k b)

/-- REBUILD_WALK (R392): the next row of core `n` is decoded, its byte of the failed bank moves and it is re-encoded (`rowCode`):
it carries no error but those that no write clears. -/
def execRebuildWalk (s : State) : Host.Outcome State Fault Refusal :=
  let k := s.arg.n
  let x := s.core k
  let r := x.walk
  .next (if !x.walking then s
    else
      let e := x.err.get r
      let err := if x.failed.length + 2 * liveErrs x.failed e 36 > 4 then x.err else x.err.set r (e &&& x.stuckBits)
      let fin := decide (65536 ≤ r + 1)
      s.setCore k { x with
        err := err, walk := r + 1, walking := !fin, wb := x.wb.filter (· != r)
        svc := if fin && x.svc = 1 then 0 else x.svc })

/-! ### HBM and Pantry (R394 to R396) -/

/-- The bank of a Pantry unit (12_memory_model R256). -/
def panBank (u : Nat) : Nat := u % 256

/-- Units of a scrubber's pass, of memory 0, bank `b` of the Pantry of a die, or of memory 1 to 4, an HBM stack: how many, and
the one at a place of the pass. -/
def scrubUnits (m b : Nat) : Nat × (Nat → Nat) :=
  if m = 0 then (2 ^ 13, fun p => 256 * p + b) else (2 ^ 31, fun p => (m - 1) * 2 ^ 31 + p)

/-- The scrubber of memory `m` that reads unit `u`. -/
def Die.scrub (d : Die) (m u : Nat) : Scrub := if m = 0 then tget {} d.panScrub (panBank u) else d.hbmScrub.getD (m - 1) {}

def Die.setScrub (d : Die) (m u : Nat) (x : Scrub) : Die :=
  if m = 0 then { d with panScrub := tput (panBank u) x d.panScrub } else { d with hbmScrub := d.hbmScrub.set (m - 1) x }

def Die.errs (d : Die) (m : Nat) : Store 36 := if m = 0 then d.panErr else d.hbmErr

def Die.setErrs (d : Die) (m : Nat) (e : Store 36) : Die := if m = 0 then { d with panErr := e } else { d with hbmErr := e }

/-- A row joins its watch list, or stays there with no clean visit (R395). -/
def Die.watchRow (d : Die) (m row : Nat) : Die :=
  let mine := d.watch.filter fun w => w.1 = m
  let cap := if m = 0 then 256 else 4096
  let rest := d.watch.filter fun w => !(w.1 = m && w.2.1 = row)
  if mine.any (fun w => w.2.1 = row) || mine.length < cap then { d with watch := rest ++ [(m, row, 0)] }
  else
    let most := mine.foldl (fun a w => max a w.2.2) 0
    match mine.find? fun w => w.2.2 = most with
    | some w => { d with watch := rest.erase w ++ [(m, row, 0)] }
    | none => d

/-- A clean visit of a watched row; after 16 in succession it leaves. -/
def Die.cleanVisit (d : Die) (m row : Nat) : Die :=
  { d with watch := d.watch.filterMap fun w =>
      if w.1 = m && w.2.1 = row then (if 16 ≤ w.2.2 + 1 then none else some (m, row, w.2.2 + 1)) else some w }

/-- A visit of a watched row that meets a unit that cannot be decoded: the row's clean visits begin anew. -/
def Die.foulVisit (d : Die) (m row : Nat) : Die :=
  { d with watch := d.watch.map fun w => if w.1 = m && w.2.1 = row then (m, row, 0) else w }

namespace State

/-- A scrub read of one unit: a corrected one is due to be written back, one that cannot be decoded is marked so and
reported. -/
def scrubUnit (s : State) (d m u : Nat) : State :=
  let x := s.die d
  let e := (x.errs m).get u
  let n := popCount e 36
  if n = 0 then s
  else if n ≤ 2 then
    let y := x.scrub m u
    s.setDie d ((x.setScrub m u { y with due := (y.due.filter fun z => z.1 != u) ++ [(u, false)] }).watchRow m (u / 32))
  else if e = BitVec.allOnes 36 then s
  else
    (s.setDie d (x.setErrs m ((x.errs m).set u (BitVec.allOnes 36)))).addLog 0x03 (if m = 0 then 1 else 0)
      (if m = 0 then u % 256 else m - 1) d 0 (32 * u)

end State

/-- SCRUB_READ (R395, R396): of memory `m` of compute die `n`, in the Pantry of bank `j`, the scrubber's next unit; with `b`, a
visit to the watched row `k`. -/
def execScrubRead (s : State) : Host.Outcome State Fault Refusal :=
  let d := s.arg.n
  let m := s.arg.m
  let (n, unit) := scrubUnits m s.arg.j
  .next (if s.arg.b then
      let us := (List.range 32).map fun i => 32 * s.arg.k + i
      let clean := us.all fun u => ((s.die d).errs m).get u = 0
      let t := us.foldl (fun s u => s.scrubUnit d m u) s
      t.onDie d fun x => if clean then x.cleanVisit m s.arg.k else x.foulVisit m s.arg.k
    else
      let u := unit ((s.die d).scrub m s.arg.j).pos
      (s.scrubUnit d m u).onDie d fun x =>
        let y := x.scrub m u
        x.setScrub m u { y with pos := (y.pos + 1) % n })

/-- SCRUB_WRITEBACK (R396): unit `k` of memory `m` of compute die `n`; not made where a write has entered the unit. -/
def execScrubWriteback (s : State) : Host.Outcome State Fault Refusal :=
  let x := s.die s.arg.n
  let m := s.arg.m
  let y := x.scrub m s.arg.k
  .next (match y.due.find? fun z => z.1 = s.arg.k with
    | none => s
    | some z =>
      let x := x.setScrub m s.arg.k { y with due := y.due.erase z }
      s.setDie s.arg.n (if z.2 || popCount ((x.errs m).get z.1) 36 > 2 then x else x.setErrs m ((x.errs m).set z.1 0)))

/-! ### Violations (R401) -/

namespace State

/-- The translations of an address space leave the caches of a core and its die. -/
def dropXlat (s : State) (k asid : Nat) : State :=
  let s := s.onCore k fun x => { x with tlb := x.tlb.filter (fun e => e.asid != asid), xres := [] }
  s.onDie (dieOf k) fun d => { d with tlb := d.tlb.filter fun e => e.asid != asid }

/-- A core is frozen for a violation, as one that R398 freezes: its frame is captured, its context stops faulted with LCAUSE 0x03
and is evicted, and the core goes out of service (R398, R401). -/
def freezeCore (s : State) (k : Nat) : State :=
  let c := (s.core k).ctx
  if !(s.core k).live then s
  else
    let c1 := if c.handler then c else { c with frame := frameOf c, flights := [], freeze := [] }
    let t := (({ s with focus := k } : State).setCtx c1).stopFaulted 0x03
    ((({ t with focus := s.focus } : State).dropXlat k c.asid.toNat).outOfService k 0x03).post .evict { n := k }

end State

/-- VIOLATION (R401): the master that `viol` names is frozen and its owner told. -/
def execViolation (s : State) : Host.Outcome State Fault Refusal :=
  .next (match s.arg.viol with
    | .pairUnknown k => s.freezeCore k
    | .tableWrite k q ladle =>
      let x := s.core k
      let c := if x.live then some x.ctx else x.held
      if !ladle then s.freezeCore k
      else
        match c with
        | none => s
        | some c =>
          let stop (y : Ctx) : Ctx := { y with vq := if y.vq.contains q then y.vq else q :: y.vq }
          let s := s.onCore k fun y => if y.live then { y with ctx := stop y.ctx } else { y with held := y.held.map stop }
          (if c.launch = 0 then s else s.setLcause c.launch 0x03).dropXlat k c.asid.toNat
    | .pairQueue i q =>
      let slots := ((s.iod i).armed.filter fun a => a.1 = q).map (·.2.slot)
      let s := slots.foldl (fun s n => s.failEntryQ i q n 0x03) s
      s.onIod i fun d => { d with qp := d.qp.set q (BitVec.ofNat 256 (putBits (d.qp.get q).toNat 255 255 0)) }
    | .sieveCycles i n =>
      let x := s.sieve i n
      let s := s.setSieve i n (x.setV s.arg.n false)
      s.setLcause (x.desc s.arg.n).node 0x03
    | .hostPoison n => (s.onLink n fun l => { l with frozen := true }).addLog 0x05 0 n (8 + n) 0 0)

/-! ### Removed parts (R402, R403) -/

namespace State

/-- The highest sequence number that the journals hold for a node (R402). -/
def journalSeq (s : State) (node : Nat) : Nat :=
  let d := node / 2 ^ 38 % 8
  let one (d i : Nat) : Nat :=
    let l : Loc := { mem := .pantry, unit := d, off := 0x3FF0000 + 16 * i }
    if s.natAt (l.run 8) % 2 ^ 52 = node then s.natAt (Loc.run { l with off := l.off + 8 } 8) else 0
  (List.range 3840).foldl (fun a i => max a (max (one d i) (one ((d + 1) % 8) i))) 0

/-- The launches with cores on a die fail (R403). -/
def failOnDie (s : State) (d : Nat) : State :=
  (s.launches.filter fun l => l.cores.any fun k => dieOf k = d).foldl (fun s l => s.failLaunch l.node 0x03) s

/-- What a compute die loses with a fault or a reset of it; its memories stand. -/
def resetDie (s : State) (d : Nat) (gone : Bool) : State :=
  let s := s.failOnDie d
  let old := s.die d
  let fresh (e : Nat × Core) : Nat × Core :=
    if dieOf e.1 = d then (e.1, { spm := e.2.spm, err := e.2.err, stuck := e.2.stuck }) else e
  let s := { s with cores := s.cores.map fresh }
  s.setDie d { pan := old.pan, hbm := old.hbm, panErr := old.panErr, hbmErr := old.hbmErr, gone := old.gone, removed := gone }

/-- The slots of a queue pair that TAIL covers and that have not been read retire failed, in slot order (R403). -/
def failPosted (s : State) (i q : Nat) : State :=
  let first := tget 0 (s.iod i).qseen q
  if bits (s.qctx i q) 255 255 = 0 || bits (s.qctx i q) 95 80 = 0 then s
  else (List.range (min (s.unread i q) 65536)).foldl (fun s k => s.failEntryQ i q ((first + k) % 2 ^ 32) 0x03) s

/-- An I/O die that goes (R403): its entries, armed and posted, retire failed, and plans with a node on it fail the chunks of
which that node held the left child's first piece, the others when it comes (`execWreduce`). -/
def loseIod (s : State) (i : Nat) : State :=
  let s := (s.iod i).armed.foldl (fun s a => s.failEntryQ i a.1 a.2.slot 0x03) s
  let s := ((s.iod i).qp.map (·.1)).foldl (fun s q => s.failPosted i q) s
  let ps := s.plans.filter fun p => p.node != 0xFFF && p.niod = i
  let mine (p : PlanPart) (c : Chunk) : Bool := p.handle = c.plan && p.node = c.node
  let s := ps.foldl (fun s p =>
    (s.chunks.filter fun c => mine p c && c.rank = p.first && c.off = 0).foldl
      (fun s c => s.failAt (1 - i) p c.iter c.chunk 0) s) s
  { s with chunks := s.chunks.filter fun c => !(ps.any fun p => mine p c) }

end State

/-- PART_REMOVAL (R402, R403, R410): part `m` of kind `n` (0 compute die, 1 I/O die, 2 host link, 3 fabric port numbered
16·die + port, 4 HBM stack numbered 4·die + stack); with `b`, a reset of the part instead of its removal. -/
def execPartRemoval (s : State) : Host.Outcome State Fault Refusal :=
  let m := s.arg.m
  let b := s.arg.b
  let log (s : State) (die unit : Nat) : State := s.addLog 0x08 s.arg.n unit die m 0
  .next (match s.arg.n with
    | 0 =>
      let t := s.resetDie m (!b)
      let t := if b then (t.nodes.filter fun n => n / 2 ^ 38 % 8 = m).foldl (fun t n =>
          t.setDword (n + 48) (BitVec.ofNat 64 (max (t.seqOf n) (t.journalSeq n)))) t
        else t
      log (t.redraw []) m 0xFF
    | 1 =>
      let d := s.iod m
      let t := s.loseIod m
      let keep : Iod := { route := d.route, removed := !b }
      let t := t.setIod m keep
      log (if b then t else t.onLink m fun l => { l with removed := true }) (8 + m) 0xFF
    | 2 =>
      -- a command of the link's mailbox goes with it
      let t : State := { s with boot := { s.boot with mailq := s.boot.mailq.filter (· != m) } }
      log (t.onLink m fun l => if b then { bars := l.bars, up := l.up, width := l.width, rate := l.rate }
        else { l with removed := true }) (8 + m) m
    | 3 =>
      let i := m / 16
      let p := m % 16
      if b then log s (8 + i) p
      else log (if (s.iod i).portDown.contains p then s else s.portLost i p
        ((List.range 4096).filter fun k => ((s.iod i).route.get k).toNat = p).length) (8 + i) p
    | _ =>
      let d := m / 4
      log (if b then s else s.onDie d fun x => { x with gone := if x.gone.contains (m % 4) then x.gone else m % 4 :: x.gone })
        d (m % 4))

end Sys2Proof.Machine
end

