-- ==== Sys2Proof/Machine/Boot.lean ====
section
/-!
DEFINITION. Bring-up (21_bringup R405 to R408, R413), HBM PHY tests (R412), the management mailbox (R409 to R411), and reset.
-/

namespace Sys2Proof.Machine

namespace State

/-! ### SAFE (R406) -/

/-- A step of bring-up fails: the log tells where, and the module enters SAFE. -/
def toSafe (s : State) (unit die detail : Nat) : State :=
  let s := s.addLog 0x01 s.boot.phase.toNat unit die detail 0
  let hold (e : Nat × Core) : Nat × Core := if e.1 = 1536 then e else (e.1, { e.2 with live := false, ctx := {}, mark := none })
  let s := { s with boot := { s.boot with fail := s.boot.phase, phase := phSafe }, cores := s.cores.map hold }
  s.onLink 1 fun l => { l with up := false, width := 0xF, rate := 0 }

/-- A step fails at a place that only the silicon knows; DIE is one of the codes of R410. -/
def toSafeFree (s : State) : State :=
  let w := (Config.freeWord s.free).toNat
  let die := bits w 15 8 % 11
  ({ s with free := s.free + 1 } : State).toSafe (bits w 7 0) (if die = 10 then 0xFF else die) (bits w 47 16)

/-- Whether the next test or training step passes. -/
def nextPasses (s : State) : Bool × State := (Config.stepPasses s.free, { s with free := s.free + 1 })

/-! ### Firmware images (R407) -/

/-- Why a copy is refused: 0 accepted, 1 key hash, 2 signature, 3 rollback.  The modulus is little-endian (00_scope R5), the
signature an octet string of PKCS #1 (log entry 26). -/
def verifyCopy (bs : List Byte) (rollback : Nat) : Nat :=
  let modulus := bs.take 384
  let sv := leNat ((bs.drop 384).take 4)
  let body := bs.take (bs.length - 384)
  if bs.length < 772 || ofOctets (sha256 modulus) != Config.vendorKeyHash.toNat then 1
  else if !rsaOk (leNat modulus) (sha256 body) (bs.drop (bs.length - 384)) then 2
  else if sv < rollback then 3
  else 0

def copyOf (b : Boot) (second : Bool) : List Byte := if second then b.flashB else b.flashA

end State

/-- POWER_GOOD (R405): host link 0 trains at ×1 at a rate `k` the partner offers (1 where none is given), and the mailbox
opens. -/
def execPowerGood (s : State) : Host.Outcome State Fault Refusal :=
  let r := if 1 ≤ s.arg.k && s.arg.k ≤ 7 then s.arg.k else 1
  .next (if s.boot.power then s
    else
      let s := { s with boot := { s.boot with power := true, phase := phRom, fail := 0xFF } }
      s.onLink 0 fun l => { l with up := true, width := 0, rate := r })

/-- ROM_VERIFY (R407, R410): the copy to be tried first, then the other; a staged copy is tried first once. -/
def execRomVerify (s : State) : Host.Outcome State Fault Refusal :=
  let try_ (s : State) (second : Bool) : State :=
    if s.boot.booted.isSome then s
    else
      let bs := State.copyOf s.boot second
      let v := State.verifyCopy bs s.boot.rollback.toNat
      if v = 0 then
        { s with boot := { s.boot with
            booted := some second, phase := phSelf, m1 := sha256 bs
            sv := BitVec.ofNat 32 (leNat ((bs.drop 384).take 4)) } }
      else s.addLog 0x02 (if second then 2 else 1) 0xFF 8 v 0
  .next (if !s.boot.power || s.boot.phase != phRom || s.boot.booted.isSome then s
    else
      let t := try_ (try_ s s.boot.first) (!s.boot.first)
      let t : State := { t with boot := { t.boot with first := false } }
      if t.boot.booted.isSome then t else t.toSafe 0xFF 8 0)

/-- Whether byte `o` of core `k`'s scratchpad lies in the log (R410). -/
def inLog (k o : Nat) : Bool := k = 1536 && o / 32768 = Config.logSlot.toNat

/-- SELFTEST (R405): the march tests leave every scratchpad but the log, every Pantry, sieve memory and flow table cleared (log
entry 27).  A core with three banks that no write clears shows rows that cannot be decoded, and fails it; with one or two the
symbols that the test injects decide. -/
def execSelftest (s : State) : Host.Outcome State Fault Refusal :=
  .next (if s.boot.phase != phSelf then s
    else
      match s.cores.find? fun e => decide (3 ≤ popCount e.2.stuckBits 36) with
      | some e => s.toSafe (e.2.stuck.headD 0) (dieOf e.1) 0
      | none =>
      match s.nextPasses with
      | (false, t) => t.toSafeFree
      | (true, t) =>
        let core (e : Nat × Core) : Nat × Core :=
          (e.1, { e.2 with spm := e.2.spm.filter fun b => inLog e.1 b.1, err := [], wb := [], hits := [] })
        let die (e : Nat × Die) : Nat × Die := (e.1, { e.2 with pan := [], panErr := [] })
        let sieve (e : Nat × Sieve) : Nat × Sieve := (e.1, { e.2 with imem := [], flow := [] })
        let iod (e : Nat × Iod) : Nat × Iod := (e.1, { e.2 with sieves := e.2.sieves.map sieve })
        { t with
          cores := t.cores.map core, diesT := t.diesT.map die, iods := t.iods.map iod
          boot := { t.boot with phase := phTrain } })

/-! ### The HBM PHY (R412 to R414) -/

/-- TESTST after a test: PASS and PSPARE as measured. -/
def testResult (n : Nat) : Nat := 2 ^ 63 + (Config.patternTest n).toNat

/-- PATTERN_TEST_GO (R412): a write of `v` to TESTCTL at PHY offset `m` of compute die `n`. -/
def execPatternTestGo (s : State) : Host.Outcome State Fault Refusal :=
  .next (s.phyControl s.arg.n (s.arg.m / 0x800 * 0x800 + 0x18) s.arg.v)

/-- What a test on the pseudo-channel at PHY offset `o` of die `d` leaves in HBM; in SAFE no HBM command is issued (R406). -/
def State.testWritten (s : State) (d o : Nat) : State :=
  if s.boot.phase = phSafe then s
  else (Config.testWrites (o / 2 ^ 20 % 4) (o / 0x800 % 512)).foldl
    (fun s w => s.setByte { mem := .hbm, unit := d, off := w.1 % 2 ^ 38 } w.2) s

/-- PATTERN_TEST_DONE (R412): the test on the pseudo-channel at PHY offset `m` of compute die `n` ends; its bursts stand in HBM,
and what was held takes effect. -/
def execPatternTestDone (s : State) : Host.Outcome State Fault Refusal :=
  let o := s.arg.m / 0x800 * 0x800
  let d := s.die s.arg.n
  .next (if (d.phyGet (o + 0x20)).getLsbD 63 then s
    else
      let d := d.phySet (o + 0x20) (BitVec.ofNat 64 (testResult s.boot.tests))
      let d := d.phySet (o + 0x18) (d.phyGet (o + 0x18) &&& 2)
      let mine (h : Nat × BitVec 64) : Bool := h.1 / 0x800 * 0x800 = o
      let d := (d.phyHeld.filter mine).foldl (fun d h => d.phySet h.1 h.2) d
      let t := (s.setDie s.arg.n { d with phyHeld := d.phyHeld.filter fun h => !mine h }).testWritten s.arg.n o
      { t with boot := { t.boot with tests := t.boot.tests + 1 } })

/-- PHY_SETTING_WRITE (R412): a write of `v` to RDLY, WDLY or REPAIR at PHY offset `m` of compute die `n`. -/
def execPhySettingWrite (s : State) : Host.Outcome State Fault Refusal :=
  .next (if s.arg.m % 0x800 = 0 || s.arg.m % 0x800 = 8 || s.arg.m % 0x800 = 0x10 then s.phySetting s.arg.n s.arg.m s.arg.v
    else s)

/-- The longest run of passing delays of a lane whose results are a list from delay 0 up: its length and its last delay, the
earlier run where two are equal (R413). -/
def longestRun : List Bool → Nat → Nat → Nat → Nat → Nat × Nat
  | [], _, _, best, last => (best, last)
  | b :: l, d, cur, best, last =>
    let cur := if b then cur + 1 else 0
    if best < cur then longestRun l (d + 1) cur cur d else longestRun l (d + 1) cur best last

/-- The midpoint of a run (R413). -/
def runMid (r : Nat × Nat) : Nat := (2 * r.2 + 1 - r.1) / 2

/-- The 128 results of a lane in a sweep that begins at test `n`; lane 8 is the spare. -/
def laneRun (n lane : Nat) : Nat × Nat :=
  longestRun ((List.range 128).map fun d => (Config.patternTest (n + d)).getLsbD lane) 0 0 0 0

/-- A sweep in both directions from test `n`: the delays chosen for each direction and the narrow lanes, the lane `sel`
standing on the spare (R413 steps 1 to 3). -/
def sweepFrom (n : Nat) (sel : Option Nat) : Nat × Nat × List Nat :=
  let bit (j : Nat) : Nat := if sel = some j then 8 else j
  let run (dir j : Nat) : Nat × Nat := laneRun (n + 128 * dir) (bit j)
  let word (dir : Nat) : Nat := ((List.range 8).map fun j => runMid (run dir j) * 2 ^ (8 * j)).sum
  (word 0, word 1, (List.range 8).filter fun j => decide ((run 0 j).1 < 16) || decide ((run 1 j).1 < 16))

/-- The training of one pseudo-channel from test `n` (R413): whether it is confirmed, RDLY, WDLY, REPAIR, the tests it
took. -/
def trainOne (n : Nat) : Bool × Nat × Nat × Nat × Nat :=
  let confirm (n need : Nat) : Bool := (List.range 2).all fun i =>
    (Config.patternTest (n + i)).toNat &&& need = need
  match sweepFrom n none with
  | (r, w, []) => (confirm (n + 256) 0xFF, r, w, 0, 258)
  | (_, _, [j]) =>
    match sweepFrom (n + 256) (some j) with
    | (r, w, []) => (confirm (n + 512) (0x1FF - 2 ^ j), r, w, 16 + j, 514)
    | (r, w, _) => (false, r, w, 16 + j, 512)
  | (r, w, _) => (false, r, w, 0, 256)

namespace State

/-- The training of the pseudo-channel at PHY offset `o` of die `d`: its registers as R413 leaves them. -/
def trainAt (s : State) (d o : Nat) : Bool × State :=
  let (ok, r, w, x, k) := trainOne s.boot.tests
  let s := s.onDie d fun y =>
    ((((y.phySet o (BitVec.ofNat 64 r)).phySet (o + 8) (BitVec.ofNat 64 w)).phySet (o + 0x10) (BitVec.ofNat 64 x)).phySet
      (o + 0x18) 2).phySet (o + 0x20) (BitVec.ofNat 64 (testResult (s.boot.tests + k - 1)))
  let s := s.testWritten d o
  (ok, { s with boot := { s.boot with tests := s.boot.tests + k } })

/-- Pseudo-channels in order: die, stack, number. -/
def channels : List (Nat × Nat × Nat) :=
  (List.range 8).flatMap fun d => (List.range 4).flatMap fun t => (List.range 384).map fun p => (d, t, p)

/-- Training channel by channel, but for those that a routine has trained; the first that fails ends it. -/
def trainAll (s : State) : List (Nat × Nat × Nat) → Option (Nat × Nat × Nat) × State
  | [] => (none, s)
  | (d, t, p) :: l =>
    if (s.die d).trained.contains (t, p) then s.trainAll l
    else
    match s.trainAt d (t * 2 ^ 20 + p * 0x800) with
    | (true, s) => s.trainAll l
    | (false, s) => (some (d, t, p), s)

/-- M2 (R408): RDLY, WDLY and REPAIR of every pseudo-channel, in stack and pseudo-channel order. -/
def measureM2 (s : State) : List Byte :=
  sha256 (channels.flatMap fun c =>
    let x := s.die c.1
    let o := c.2.1 * 2 ^ 20 + c.2.2 * 0x800
    [0, 8, 16].flatMap fun k => leBytes 8 (x.phyGet (o + k)).toNat)

end State

/-- A firmware kernel runs on the service core of a die. -/
def State.serviceRuns (s : State) (d : Nat) : Bool := (s.core (1536 + d)).live && (s.core (1536 + d)).ctx.awake

/-- HBMTRAIN (R413, R415).  With `b` the firmware of die `n` regains control from its training routine and takes its report: a
status of 0 at EXIT, and no other outcome, is a channel trained.  Else, while no service core runs a kernel and no report is
awaited, firmware trains every channel that no routine has trained, and in phase LINKS it writes TMCTL (R353). -/
def execHbmtrain (s : State) : Host.Outcome State Fault Refusal :=
  let d := s.arg.n
  .next (if s.boot.phase != phTrain then s
    else if s.arg.b then
      match (s.die d).routine with
      | none => s
      | some (t, p, o) =>
        if s.serviceRuns d then s
        else
          let k := s.core (1536 + d)
          let ls := Loc.run { mem := .spm, unit := 1536 + d, off := o } 8
          let ok := !k.live && !s.anyBad ls && s.natAt ls = 0
          let s := (s.touch ls).onDie d fun x => { x with routine := none }
          if ok then s.onDie d fun x => { x with trained := (t, p) :: x.trained } else s.toSafe t d p
    else if (List.range 8).any fun d => s.serviceRuns d || (s.die d).routine.isSome then s
    else
      match s.trainAll State.channels with
      | (some (d, st, p), t) => t.toSafe st d p
      | (none, t) =>
        { t with
          boot := { t.boot with phase := phLinks, m2 := t.measureM2 }
          clock := { t.clock with ctl := Config.bootTmctl } })

/-- READY (R405, R407): both host links retrain to their full width, or with `b` to what the partner offers (log2 of the
lanes in `m`, rate in `k`); the rollback counter rises to SV. -/
def execReady (s : State) : Host.Outcome State Fault Refusal :=
  let w := if s.arg.b then min s.arg.m 4 else 4
  let r := if s.arg.b then max 1 (min s.arg.k 7) else 7
  .next (if s.boot.phase != phReady then s
    else
      let up (l : Link) : Link := if l.removed then l else { l with up := true, width := w, rate := r }
      let b := s.boot
      let raised := if b.rollback.toNat < b.sv.toNat then b.sv else b.rollback
      ({ s with boot := { b with rollback := raised, full := true } }.onLink 0 up).onLink 1 up)

/-- MODULE_RESET (R41): registers return to their reset values.  The boot flash, the rollback fuses and the bytes of the
memories stand (log entry 27); where power is good, bring-up starts again. -/
def execModuleReset (s : State) : Host.Outcome State Fault Refusal :=
  let core (e : Nat × Core) : Nat × Core := (e.1, { spm := e.2.spm, err := e.2.err, stuck := e.2.stuck })
  let die (e : Nat × Die) : Nat × Die :=
    (e.1, { pan := e.2.pan, hbm := e.2.hbm, panErr := e.2.panErr, hbmErr := e.2.hbmErr, gone := e.2.gone
            removed := e.2.removed })
  let iod (e : Nat × Iod) : Nat × Iod := (e.1, { removed := e.2.removed })
  let link (e : Nat × Link) : Nat × Link := (e.1, { removed := e.2.removed })
  let b := s.boot
  let t : State :=
    { State.reset with
      turn := s.turn, free := s.free, focus := s.focus, sfocus := s.sfocus, arg := s.arg
      cores := s.cores.map core, diesT := s.diesT.map die, iods := s.iods.map iod, links := s.links.map link
      host := s.host, cxl := s.cxl, cxlBad := s.cxlBad, inputs := s.inputs, sent := s.sent
      boot := { rollback := b.rollback, flashA := b.flashA, flashB := b.flashB, first := b.first, tests := b.tests } }
  .next (if b.power then t.post .powerGood {} else t)

/-! ### The management mailbox (R409 to R411) -/

namespace State

/-- A command of link `n` ends: response, RLEN, RC and TAG are written, GO clears, and vector 0 fires. -/
def mailDone (s : State) (n rc : Nat) (resp : List Byte) : State :=
  let l := s.link n
  let m := l.mail
  let m := { m with
    resp := setBytes [] 0 (resp.take 0xE00), rlen := BitVec.ofNat 12 (min resp.length 0xE00)
    rc := BitVec.ofNat 8 rc, doneTag := m.tag, go := false }
  ({ s with boot := { s.boot with mailq := s.boot.mailq.erase n } }.setLink n { l with mail := m }).sendMsix n 0

/-- The number in `n` argument bytes at `o`. -/
def mailArg (s : State) (link o n : Nat) : Nat := leNat (getBytes (s.link link).mail.args o n)

/-- Service of command `op` of link `n`: the oldest GO of the two mailboxes; refused with RC 3 outside its phases. -/
def serve (s : State) (op : Nat) (ok : BitVec 8 → Bool) (f : State → Nat → State) : State :=
  let n := s.arg.n
  let m := (s.link n).mail
  if s.boot.mailq.head? != some n || !m.go || m.op.toNat != op then s
  else if !ok s.boot.phase then s.mailDone n 3 []
  else f s n

def anyPhase (_ : BitVec 8) : Bool := true
def onReady (p : BitVec 8) : Bool := p = phReady
def readyOrSafe (p : BitVec 8) : Bool := p = phReady || p = phSafe

/-- The status record (R411). -/
def statusRecord (s : State) : Nat :=
  let w (n : Nat) : Nat := let l := s.link n; if l.up && !l.removed then l.width % 16 else 0xF
  let r (n : Nat) : Nat := let l := s.link n; if l.up && !l.removed then l.rate % 16 else 0
  let b := s.boot
  b.phase.toNat + b.fail.toNat * 2 ^ 8 + b.sv.toNat * 2 ^ 32 + w 0 * 2 ^ 64 + w 1 * 2 ^ 68 + r 0 * 2 ^ 72 + r 1 * 2 ^ 76
    + b.logNext % 2 ^ 32 * 2 ^ 96 + s.logOld % 2 ^ 32 * 2 ^ 128

/-- The health record of a core (R393). -/
def healthRecord (k : Core) : Nat :=
  k.svc % 4 + k.walk * 2 ^ 15 + k.failed.getD 1 0xFF * 2 ^ 32 + k.failed.getD 0 0xFF * 2 ^ 40 + k.unc.toNat * 2 ^ 48
    + k.mism.toNat * 2 ^ 64 + k.corr.toNat * 2 ^ 96

/-- A power register as it reads (R379), by its offset. -/
def powerRead (s : State) (o : Nat) : Nat :=
  let p := s.power
  match o with
  | 0x00 => (if p.lock then 2 ^ 16 else 0) + p.floor.toNat
  | 0x08 => p.level * 2 ^ 32 + (if p.hold then 2 ^ 31 else 0) + p.budget % 2 ^ 16
  | 0x10 => p.lease.toNat
  | 0x18 => p.expiry.toNat
  | 0x20 => p.lvlth0.toNat
  | 0x28 => p.lvlth1.toNat
  | 0x30 => p.tcost.toNat
  | 0x38 => p.ramp.toNat
  | 0x40 => p.coord.toNat
  | 0x48 => p.nbr.toNat
  | 0x58 => p.simn.toNat * 2 ^ 16 + p.simt.toNat
  | 0x60 => p.pdrop.toNat
  | _ => 0

/-- A write of a whole power register (R379). -/
def powerWrite (s : State) (o : Nat) (v : BitVec 64) : State :=
  let p := s.power
  match o with
  | 0x00 =>
    let s := if p.lock then s else { s with power := { p with floor := v.setWidth 16 } }.rebudget
    if v.getLsbD 16 then s.perform execPlock {} else s
  | 0x20 => s.perform execPlvlthWrite { n := 0, v := v }
  | 0x28 => s.perform execPlvlthWrite { n := 1, v := v }
  | 0x30 => if p.lock then s else { s with power := { p with tcost := v } }.redraw []
  | 0x38 => s.perform execPrampWrite { v := v }
  | 0x40 => if p.lock then s else { s with power := { p with coord := v.setWidth 12 } }
  | 0x48 => if p.lock then s else { s with power := { p with nbr := v.setWidth 52 } }
  | 0x50 => s.perform execPtrade { v := v }
  | _ => s

end State

/-- What firmware writes in phase LINKS (R405): the routing tables, the ASID root table and the region-node pool, and the power
registers; the CXL decoders are as `Config.cxlConfined` has them (R345). -/
def State.linksWritten (s : State) : State :=
  let routes (i : Nat) (s : State) : State := s.onIod i fun d => { d with
    route := (List.range 4096).foldl (fun t k => t.set k (Config.bootRoute i k)) d.route }
  let s := routes 1 (routes 0 s)
  let s := Config.bootDwords.foldl (fun s w => s.setDword w.1 w.2) s
  [0x00, 0x20, 0x28, 0x30, 0x38, 0x40, 0x48].foldl
    (fun s o => s.powerWrite o (Config.bootPower o &&& if o = 0 then 0xFFFF else BitVec.allOnes 64)) s

/-- LINKS (R405): once the time base is locked, the other steps report; the tables and registers are written and PLOCK is set. -/
def execLinks (s : State) : Host.Outcome State Fault Refusal :=
  .next (if s.boot.phase != phLinks || !s.clock.lock then s
    else
      match s.nextPasses with
      | (false, t) => t.toSafeFree
      | (true, t) =>
        let t := t.linksWritten
        { t with power := { t.power with lock := true }, boot := { t.boot with phase := phReady } })

/-- STATUS (R411) of link `n`. -/
def execStatus (s : State) : Host.Outcome State Fault Refusal :=
  .next (s.serve 0x01 State.anyPhase fun s n => s.mailDone n 0 (leBytes 32 s.statusRecord))

/-- LOGREAD (R410). -/
def execLogread (s : State) : Host.Outcome State Fault Refusal :=
  .next (s.serve 0x02 State.anyPhase fun s n =>
    let first := max (s.mailArg n 0 4) s.logOld
    s.mailDone n 0 ((List.range (min 96 (s.boot.logNext - first))).flatMap fun k => s.logRecord (first + k)))

/-- HEALTH (R393). -/
def execHealth (s : State) : Host.Outcome State Fault Refusal :=
  .next (s.serve 0x03 State.anyPhase fun s n =>
    let d := s.mailArg n 0 1
    let r := s.mailArg n 1 1
    let c := s.mailArg n 2 1
    if d > 7 || r > 11 || c > 15 then s.mailDone n 4 []
    else s.mailDone n 0 (leBytes 16 (State.healthRecord (s.core (gridCore d r c)))))

/-- ATTEST (R408). -/
def execAttest (s : State) : Host.Outcome State Fault Refusal :=
  .next (s.serve 0x04 State.onReady fun s n =>
    let nonce := getBytes (s.link n).mail.args 0 32
    let m0 := octets 32 Config.romDigest.toNat
    let sv := leBytes 4 s.boot.sv.toNat
    let ms := m0 ++ s.boot.m1 ++ s.boot.m2
    let sig := rsaSign Config.identityModulus.toNat Config.identityExponent.toNat (sha256 (nonce ++ ms ++ sv))
      (octets 32 (Config.salt s.free).toNat)
    ({ s with free := s.free + 1 } : State).mailDone n 0 (ms ++ sv ++ sig ++ Config.certificate))

/-- Whether an offset names a power register. -/
def powerReg (o : Nat) : Bool := o % 8 = 0 && decide (o ≤ 0x60)

/-- PREGRD (R409). -/
def execPregrd (s : State) : Host.Outcome State Fault Refusal :=
  .next (s.serve 0x05 State.onReady fun s n =>
    let o := s.mailArg n 0 2
    if powerReg o then s.mailDone n 0 (leBytes 8 (s.powerRead o)) else s.mailDone n 4 [])

/-- PREGWR (R409): the register is written and then read. -/
def execPregwr (s : State) : Host.Outcome State Fault Refusal :=
  .next (s.serve 0x06 State.onReady fun s n =>
    let o := s.mailArg n 0 2
    if powerReg o then
      let t := s.powerWrite o (BitVec.ofNat 64 (s.mailArg n 2 8))
      t.mailDone n 0 (leBytes 8 (t.powerRead o))
    else s.mailDone n 4 [])

/-- FNRESET (R401, R409). -/
def execFnreset (s : State) : Host.Outcome State Fault Refusal :=
  .next (s.serve 0x07 State.onReady fun s n => (s.onLink n fun l => { l with frozen := false }).mailDone n 0 [])

/-- A copy with 192 bytes of chunk `c` put in; chunk 0 begins the copy anew (log entry 26). -/
def stageChunk (bs : List Byte) (c : Nat) (x : List Byte) : List Byte :=
  if c = 0 then x
  else bs.take (192 * c) ++ List.replicate (192 * c - bs.length) 0 ++ x ++ bs.drop (192 * c + 192)

/-- FWSTAGE (R407): the copy that did not boot takes a chunk, and is tried first at the next reset. -/
def execFwstage (s : State) : Host.Outcome State Fault Refusal :=
  .next (s.serve 0x08 State.readyOrSafe fun s n =>
    let c := s.mailArg n 0 4
    let x := getBytes (s.link n).mail.args 4 192
    let second := s.boot.booted = some false
    if (c + 1) * 192 > 2 ^ 25 then s.mailDone n 4 []
    else
      let b := s.boot
      let b := if second then { b with flashB := stageChunk b.flashB c x } else { b with flashA := stageChunk b.flashA c x }
      { s with boot := { b with first := second } }.mailDone n 0 [])

/-- MAILBOX_UNKNOWN_OP (R409): a code that names no command; in SAFE every other command is refused (R406). -/
def execMailboxUnknownOp (s : State) : Host.Outcome State Fault Refusal :=
  let op := (s.link s.arg.n).mail.op.toNat
  .next (if 1 ≤ op && op ≤ 8 then s
    else s.serve op State.anyPhase fun s n => s.mailDone n (if s.boot.phase = phSafe then 3 else 2) [])

end Sys2Proof.Machine
end

