-- ==== Sys2Proof/Machine/Regs.lean ====
section
/-!
DEFINITION. Writes and reads of registers through the host links (18_fabric R340 to R344, R350, R354, R358, R366, R372;
14_contexts R295, R298, R302, R321; 19_power R379; 21_bringup R409).
-/

namespace Sys2Proof.Machine

/-- A write cut at 8-byte boundaries: the offset of each piece, its value and the mask of the bits it writes. -/
def cut8 : Nat → Nat → List Byte → List (Nat × BitVec 64 × BitVec 64)
  | 0, _, _ => []
  | f + 1, k, bs =>
    if bs.isEmpty then []
    else
      let n := min (8 - k % 8) bs.length
      let sh := 8 * (k % 8)
      (k / 8 * 8, BitVec.ofNat 64 (leNat (bs.take n) * 2 ^ sh), BitVec.ofNat 64 ((2 ^ (8 * n) - 1) * 2 ^ sh))
        :: cut8 f (k + n) (bs.drop n)

/-- The written bits put into an old value. -/
def merge64 (old v m : BitVec 64) : BitVec 64 := (old &&& ~~~ m) ||| (v &&& m)

/-- One dword of a wider register replaced. -/
def mergeWide {w : Nat} (x : BitVec w) (k : Nat) (v m : BitVec 64) : BitVec w :=
  let old := BitVec.ofNat 64 (x.toNat / 2 ^ (64 * k))
  BitVec.ofNat w (putBits x.toNat (64 * k + 63) (64 * k) (merge64 old v m).toNat)

namespace State

/-! ### BAR0 -/

/-- The mailbox's control register (R409): GO, TAG and OP are ignored while GO reads 1. -/
def mailGo (s : State) (n : Nat) (v m : BitVec 64) : State :=
  let l := s.link n
  if l.mail.go then s
  else
    let w := merge64 (BitVec.ofNat 64 (l.mail.tag.toNat * 2 ^ 16 + l.mail.op.toNat)) v m
    let go := (v &&& m).getLsbD 31
    let x := { l.mail with tag := BitVec.ofNat 8 (w.toNat / 2 ^ 16), op := BitVec.ofNat 8 w.toNat, go := go }
    let s := s.setLink n { l with mail := x }
    if go then { s with boot := { s.boot with mailq := s.boot.mailq ++ [n] } } else s

/-- An entry of the MSI-X table: a vector that is pending and no longer masked is sent (log entry 21). -/
def msixPut (s : State) (n o : Nat) (v m : BitVec 64) : State :=
  let k := o / 16
  let l := s.link n
  let e := mergeWide (msixEntry l k) (o / 8 % 2) v m
  let l := { l with msix := l.msix.set k (e ^^^ (1#128 <<< 96)) }
  if !e.getLsbD 96 && l.pba.getLsbD k then
    (s.setLink n { l with pba := l.pba &&& ~~~ (1#64 <<< k) }).sendMsix n k
  else s.setLink n l

/-- Argument bytes of the mailbox. -/
def mailArgs (s : State) (n o : Nat) (v m : BitVec 64) : State :=
  s.onLink n fun l =>
    let put (a : Store 8) (i : Nat) : Store 8 :=
      if m.getLsbD (8 * i) then a.set (o + i) (BitVec.ofNat 8 (v.toNat / 2 ^ (8 * i))) else a
    { l with mail := { l.mail with args := (List.range 8).foldl put l.mail.args } }

def bar0 (s : State) (n o : Nat) (v m : BitVec 64) : State :=
  if o = 0 then s.mailGo n v m
  else if 0x100 ≤ o && o < 0x200 then s.mailArgs n (o - 0x100) v m
  else if 0x10000 ≤ o && o < 0x10200 then
    s.onLink n fun l =>
      let k := (o - 0x10000) / 8
      { l with apwin := l.apwin.set k (merge64 (l.apwin.get k) v m &&& 0xFE0FFFFFC0000000) }
  else if 0x20000 ≤ o && o < 0x20400 then s.msixPut n (o - 0x20000) v m
  else if 0x30000 ≤ o && o ≤ 0x30060 then
    let r := o - 0x30000
    -- a bit that is written by setting it, or that starts something, counts only where it is written
    s.powerWrite r (if r = 0x50 then v &&& m else merge64 (BitVec.ofNat 64 (s.powerRead r % (if r = 0 then 2 ^ 16 else 2 ^ 64))) v m)
  else if o = 0x38000 then
    (if s.power.lock then s
      else { s with clock := { s.clock with ctl := (merge64 (s.clock.ctl.zeroExtend 64) v m).setWidth 28 } })
  else s

/-! ### BAR2: the region-node window (R341) -/

/-- A write of STATE into a live node (R302, R321, R341). -/
def stateWritten (s : State) (n v : Nat) : State :=
  match v with
  | 2 => s.post .resumeRequest { n := n, b := true }
  | 3 => s.post .preemptRequest { n := n, b := true }
  | 5 => s.post .kill { n := n, b := true }
  | _ => s

/-- A write of dword `k` of the event vector of a node: bits that become 1 wake their waiters (R114, R344). -/
def evWritten (s : State) (n k : Nat) (new : BitVec 64) : State :=
  let old := s.dword (n + 64 + 8 * k)
  (List.range 64).foldl (fun s i => if old.getLsbD i = new.getLsbD i then s else s.putEv n (64 * k + i) (new.getLsbD i)) s

/-- A write into the region-node pool. -/
def poolWrite (s : State) (o : Nat) (v m : BitVec 64) : State :=
  let a := Config.poolBase + o
  let n := a / 256 * 256
  let k := a / 8 % 32
  if !s.liveNode n then
    s.writeAt ((hbmLoc a).run 8) (leBytes 8 (merge64 (s.dword a) v m).toNat)
  else
    let new := merge64 (s.dword a) v (m &&& nodeWritable k)
    let t := if 8 ≤ k && k < 12 then s.evWritten n (k - 8) new else s.setDword a new
    if k = 0 && m.getLsbD 4 then t.stateWritten n (bits v.toNat 7 4)
    else if k = 2 then t.redraw []
    else t

/-- A time-triggered table entry (R295); none is accepted before READY (21_bringup R405). -/
def ttPut (s : State) (d o : Nat) (v m : BitVec 64) : State :=
  if s.boot.phase != phReady then s
  else s.onDie d fun x =>
    let e := mergeWide (x.tt.get (o / 32)) (o / 8 % 4) v m
    { x with tt := x.tt.set (o / 32) (BitVec.ofNat 256 (putBits (e.toNat / 2 ^ 64 * 2 ^ 64) 127 117 0)) }

/-- The invalidation registers (R342). -/
def invPut (s : State) (o : Nat) (v m : BitVec 64) : State :=
  match o with
  | 0x00 => if s.invGo then s else { s with invAsid := (merge64 (s.invAsid.zeroExtend 64) v m).setWidth 16 }
  | 0x08 => if s.invGo then s else { s with invBase := merge64 s.invBase v m &&& 0x000FFFFFFFFF0000 }
  | 0x10 => if s.invGo then s else { s with invLen := merge64 s.invLen v m }
  | 0x18 => s.perform execInvgo { v := v &&& m }
  | _ => s

/-- A queue-pair context (R354): HEAD is read-only, a write of TAIL posts, and a context that becomes valid starts at HEAD. -/
def qpPut (s : State) (i q k : Nat) (v m : BitVec 64) : State :=
  let old := s.qctx i q
  let m := if k = 0 then m &&& 0xFFFFFFFF00000000 else m
  let new := mergeWide (BitVec.ofNat 256 old) k v m
  let new := BitVec.ofNat 256 (putBits (putBits new.toNat 254 244 0) 79 64 0)
  let s := s.onIod i fun d => { d with
    qp := d.qp.set q new
    qseen := if bits old 255 255 = 0 && new.getLsbD 255 then tput q (bits old 31 0) d.qseen else d.qseen }
  if m = 0 then s else s.perform execQpPost { n := i, m := q, v := BitVec.ofNat 64 (bits new.toNat 63 32) }

/-- A partition descriptor (R366, R372): V is set by the loader alone; V = 0 unloads. -/
def partPut (s : State) (i o : Nat) (v m : BitVec 64) : State :=
  let n := o / 2048
  let p := o / 32 % 64
  let k := o / 8 % 4
  let x := s.sieve i n
  let old := x.part.get p
  let new := mergeWide old k v (if k = 3 then m &&& 0x7FFFFFFFFFFFFFFF else m)
  let s := s.setSieve i n { x with part := x.part.set p new }
  if k = 3 && m.getLsbD 63 && !v.getLsbD 63 && old.getLsbD 255 then s.perform execPartitionUnload { n := i, m := n, k := p }
  else s

/-- Two words of a sieve's instruction memory; those of a valid partition keep their value (R372). -/
def imemPut (s : State) (i o : Nat) (v m : BitVec 64) : State :=
  let n := o / 0x4000
  let x := s.sieve i n
  let held (w : Nat) : Bool := (List.range 64).any fun p =>
    let d := x.desc p
    d.v && decide (d.kbase ≤ w) && decide (w < d.kbase + d.klen)
  let one (x : Sieve) (h : Nat) : Sieve :=
    let w := o % 0x4000 / 4 + h
    if held w then x
    else
      let old := x.imem.get w
      let mm : BitVec 32 := BitVec.ofNat 32 (m.toNat / 2 ^ (32 * h))
      let vv : BitVec 32 := BitVec.ofNat 32 (v.toNat / 2 ^ (32 * h))
      { x with imem := x.imem.set w ((old &&& ~~~ mm) ||| (vv &&& mm)) }
  s.setSieve i n (one (one x 0) 1)

/-- The registers of I/O die `i` in the window. -/
def iodPut (s : State) (i o : Nat) (v m : BitVec 64) : State :=
  if (s.iod i).removed then s
  else if o < 0x4000 then s.qpPut i (o / 32) (o / 8 % 4) v m
  else if 0x100000 ≤ o && o < 0x108000 then
    s.onIod i fun d =>
      let k := (o - 0x100000) / 8
      { d with import_ := d.import_.set k (merge64 (d.import_.get k) v m &&& 0x8000FFFFFFFFFFFF) }
  else if o = 0x200000 then s.perform execPlanreq { n := i, v := v &&& m }
  else if o = 0x200010 then s.perform execPlanrel { n := i, v := v &&& m }
  else if 0x300000 ≤ o && o < 0x320000 then s.partPut i (o - 0x300000) v m
  else if 0x400000 ≤ o && o < 0x440000 then
    let r := o - 0x400000
    let x := s.sieve i (r / 4096)
    let e := mergeWide (x.target.get (r / 16 % 256)) (r / 8 % 2) v m
    s.setSieve i (r / 4096) { x with target := x.target.set (r / 16 % 256) (BitVec.ofNat 128 (putBits e.toNat 102 52 0)) }
  else if 0x500000 ≤ o && o < 0x600000 then s.imemPut i (o - 0x500000) v m
  else if 0x600000 ≤ o && o < 0xA00000 then
    let r := o - 0x600000
    let x := s.sieve i (r / 0x10000)
    let k := r / 16 % 4096
    s.setSieve i (r / 0x10000) { x with flow := x.flow.set k (mergeWide (x.flow.get k) (r / 8 % 2) v m) }
  else if o = 0xA00000 then s.perform execLoadgo { n := i, v := v &&& m }
  else s

/-- A notify entry (R344): armed on a bit that is 1 already, it sends one message; an entry that was armed on this bit before
sends none again.  One whose NODE is malformed fails with LCAUSE 0x03 in the module root (14_contexts R420). -/
def notifyPut (s : State) (k : Nat) (v m : BitVec 64) : State :=
  let old := s.notify.get k
  let e := merge64 old v m &&& 0x8FFFFFFFFFFFFFFF
  let node := bits e.toNat 51 0
  let s := { s with notify := s.notify.set k e }
  if !e.getLsbD 63 || e = old then s
  else if nodeBad node then s.setLcause Config.rootNode 0x03
  else if s.evBit node (bits e.toNat 59 52) then s.post .notifyMessage { n := k }
  else s

def bar2 (s : State) (o : Nat) (v m : BitVec 64) : State :=
  if o < 0x20000000 then (if s.boot.phase = phSafe then s else s.poolWrite o v m)
  else if o < 0x20800000 then
    let d := (o - 0x20000000) / 0x100000
    let r := o % 0x100000
    if (s.die d).removed then s
    else if r < 0x8000 then s.ttPut d r v m
    else if r = 0x8000 then
      s.perform execHobcfgWrite { n := d, v := merge64 ((s.die d).hob.zeroExtend 64) v m }
    else s
  else if 0x21000000 ≤ o && o < 0x21000020 then s.invPut (o - 0x21000000) v m
  else if 0x22000000 ≤ o && o < 0x24000000 then s.iodPut ((o - 0x22000000) / 0x1000000) (o % 0x1000000) v m
  else if 0x24000000 ≤ o && o < 0x240001F0 then s.notifyPut ((o - 0x24000000) / 8) v m
  else s

/-- A base address register in a function's configuration space, with the size of its window (R340, log entry 28). -/
def barPut (s : State) (n o : Nat) (v m : BitVec 64) : State :=
  let b := (o - 0x10) / 4
  let mask : BitVec 64 := match b with
    | 0 => ~~~ 0xFFFFF#64
    | 2 => ~~~ 0x3FFFFFFF#64
    | _ => ~~~ 0xFFFFFFFFF#64
  if o = 0x10 || o = 0x18 || o = 0x20 then
    s.onLink n fun l => { l with bars := l.bars.set b (merge64 (l.bars.get b) v m &&& mask) }
  else s

/-- One piece of a register write. -/
def regPiece (s : State) (n bar : Nat) (x : Nat × BitVec 64 × BitVec 64) : State :=
  match bar with
  | 0 => s.bar0 n x.1 x.2.1 x.2.2
  | 2 => s.bar2 x.1 x.2.1 x.2.2
  | 12 => s.barPut n x.1 x.2.1 x.2.2
  | _ => s

end State

namespace State

/-! ### Reads -/

/-- A dword of BAR0 of link `n` as it reads (R343, R344, R353, R379, R409). -/
def bar0Read (s : State) (n o : Nat) : BitVec 64 :=
  let l := s.link n
  let x := l.mail
  if o = 0 then BitVec.ofNat 64 ((if x.go then 2 ^ 31 else 0) + x.tag.toNat * 2 ^ 16 + x.op.toNat)
  else if o = 8 then BitVec.ofNat 64 (s.boot.phase.toNat * 2 ^ 32 + x.doneTag.toNat * 2 ^ 16 + x.rlen.toNat)
  else if o = 0x10 then BitVec.ofNat 64 x.rc.toNat
  else if 0x100 ≤ o && o < 0x200 then BitVec.ofNat 64 (leNat (getBytes x.args (o - 0x100) 8))
  else if 0x200 ≤ o && o < 0x1000 then BitVec.ofNat 64 (leNat (getBytes x.resp (o - 0x200) 8))
  else if 0x10000 ≤ o && o < 0x10200 then l.apwin.get ((o - 0x10000) / 8)
  else if 0x20000 ≤ o && o < 0x20400 then wideDword (msixEntry l ((o - 0x20000) / 16)) (o / 8 % 2)
  else if o = 0x21000 then l.pba
  else if 0x30000 ≤ o && o ≤ 0x30060 then BitVec.ofNat 64 (s.powerRead (o - 0x30000))
  else if o = 0x38000 then s.clock.ctl.zeroExtend 64
  else if o = 0x38008 then BitVec.ofNat 64 ((if s.clock.lock then 2 ^ 32 else 0) + s.clock.offset.toNat)
  else 0

/-- A base address register as configuration space reads it (R340): a 64-bit window, prefetchable for BAR4. -/
def barRead (s : State) (n o : Nat) : BitVec 64 :=
  if o = 0x10 || o = 0x18 || o = 0x20 then (s.link n).bars.get ((o - 0x10) / 4) ||| (if o = 0x20 then 0xC else 0x4)
  else 0

/-- The dword at an offset that is a multiple of 8, of one of the spaces that hold registers. -/
def regRead (s : State) (n bar o : Nat) : BitVec 64 :=
  match bar with
  | 0 => s.bar0Read n o
  | 2 => s.windowRead o
  | 12 => s.barRead n o
  | _ => 0

/-- What the bytes of a read in one aligned 8-byte piece are. -/
def regBytes (s : State) (n bar k x : Nat) : List Byte :=
  (List.range x).map fun j => BitVec.ofNat 8 ((s.regRead n bar (k / 8 * 8)).toNat / 2 ^ (8 * (k % 8 + j)))

/-- A read of the region-node pool that meets data that cannot be decoded (R391). -/
def regBad (s : State) (bar k x : Nat) : Bool :=
  bar = 2 && decide (k < 0x20000000) && s.anyBad ((hbmLoc (Config.poolBase + k)).run x)

end State

/-- REGISTER_WRITE (R7, R341): `bytes` written at offset `k` of BAR `m` of host link `n`, poisoned where `j` is not 0; with `b`,
the host's read of `u` bytes there, after `bytes` that its earlier pieces have found, poisoned where `j` is not 0.  BAR 12 is
configuration space, and BAR 15 stands for the firmware's own writes of the routing table of I/O die `n` (R349).  A
register with a behaviour of its own has it.  One aligned 8-byte piece is performed, and what is left waits.  A frozen link
serves its mailbox alone (R401, log entry 28). -/
def execRegisterWrite (s : State) : Host.Outcome State Fault Refusal :=
  let a := s.arg
  let l := s.link a.n
  let n := if a.b then a.u.toNat else a.bytes.length
  let x := firstPiece a.k n
  .next (if a.m = 15 then
      s.onIod a.n fun d => { d with route := d.route.set (a.k % 4096) (BitVec.ofNat 16 (leNat a.bytes)) }
    else if l.removed || !l.up then s
    else if l.frozen && !(a.m = 0 && decide (a.k < 0x1000)) then
      { s with sent := s.sent ++ [.completion a.n cplAbort []] }
    else if a.b then
      let bad := s.regBad a.m a.k x || a.j != 0
      let got := a.bytes ++ s.regBytes a.n a.m a.k x
      if x < n then
        s.repost .registerWrite
          { a with k := a.k + x, u := BitVec.ofNat 64 (n - x), bytes := got, j := if bad then 1 else 0 }
      else { s with sent := s.sent ++ [.completion a.n (if bad then cplPoisoned else cplOk) got] }
    else if a.j != 0 && a.m = 2 && decide (a.k < 0x20000000) then s.post .violation { viol := .hostPoison a.n }
    else
      let t := (cut8 1 a.k (a.bytes.take x)).foldl (fun s y => s.regPiece a.n a.m y) s
      if x < n then t.repost .registerWrite { a with k := a.k + x, bytes := a.bytes.drop x } else t)

end Sys2Proof.Machine
end

