-- ==== Sys2Proof/Machine/Dispatch.lean ====
section
/-!
DEFINITION. One arm for every instruction and event: a direct call of its meaning.
-/

namespace Sys2Proof.Machine

/-- The meaning of every instruction and event (00_scope R8). -/
def exec (i : Instr) (s : State) : Host.Outcome State Fault Refusal :=
  match i with
  | .add x0 x1 x2 x3 => Sys2Proof.Machine.execAdd x0 x1 x2 x3 s
  | .sub x0 x1 x2 x3 => Sys2Proof.Machine.execSub x0 x1 x2 x3 s
  | .band x0 x1 x2 x3 => Sys2Proof.Machine.execBand x0 x1 x2 x3 s
  | .bor x0 x1 x2 x3 => Sys2Proof.Machine.execBor x0 x1 x2 x3 s
  | .bxor x0 x1 x2 x3 => Sys2Proof.Machine.execBxor x0 x1 x2 x3 s
  | .sll x0 x1 x2 x3 => Sys2Proof.Machine.execSll x0 x1 x2 x3 s
  | .srl x0 x1 x2 x3 => Sys2Proof.Machine.execSrl x0 x1 x2 x3 s
  | .sra x0 x1 x2 x3 => Sys2Proof.Machine.execSra x0 x1 x2 x3 s
  | .mul x0 x1 x2 x3 => Sys2Proof.Machine.execMul x0 x1 x2 x3 s
  | .mulh x0 x1 x2 x3 => Sys2Proof.Machine.execMulh x0 x1 x2 x3 s
  | .mulhu x0 x1 x2 x3 => Sys2Proof.Machine.execMulhu x0 x1 x2 x3 s
  | .div x0 x1 x2 x3 => Sys2Proof.Machine.execDiv x0 x1 x2 x3 s
  | .divu x0 x1 x2 x3 => Sys2Proof.Machine.execDivu x0 x1 x2 x3 s
  | .rem x0 x1 x2 x3 => Sys2Proof.Machine.execRem x0 x1 x2 x3 s
  | .remu x0 x1 x2 x3 => Sys2Proof.Machine.execRemu x0 x1 x2 x3 s
  | .slt x0 x1 x2 x3 => Sys2Proof.Machine.execSlt x0 x1 x2 x3 s
  | .sltu x0 x1 x2 x3 => Sys2Proof.Machine.execSltu x0 x1 x2 x3 s
  | .min x0 x1 x2 x3 => Sys2Proof.Machine.execMin x0 x1 x2 x3 s
  | .max x0 x1 x2 x3 => Sys2Proof.Machine.execMax x0 x1 x2 x3 s
  | .addi x0 x1 x2 x3 => Sys2Proof.Machine.execAddi x0 x1 x2 x3 s
  | .andi x0 x1 x2 x3 => Sys2Proof.Machine.execAndi x0 x1 x2 x3 s
  | .ori x0 x1 x2 x3 => Sys2Proof.Machine.execOri x0 x1 x2 x3 s
  | .xori x0 x1 x2 x3 => Sys2Proof.Machine.execXori x0 x1 x2 x3 s
  | .slti x0 x1 x2 x3 => Sys2Proof.Machine.execSlti x0 x1 x2 x3 s
  | .slli x0 x1 x2 x3 => Sys2Proof.Machine.execSlli x0 x1 x2 x3 s
  | .srli x0 x1 x2 x3 => Sys2Proof.Machine.execSrli x0 x1 x2 x3 s
  | .srai x0 x1 x2 x3 => Sys2Proof.Machine.execSrai x0 x1 x2 x3 s
  | .insw0 x0 x1 x2 => Sys2Proof.Machine.execInsw0 x0 x1 x2 s
  | .insw16 x0 x1 x2 => Sys2Proof.Machine.execInsw16 x0 x1 x2 s
  | .insw32 x0 x1 x2 => Sys2Proof.Machine.execInsw32 x0 x1 x2 s
  | .insw48 x0 x1 x2 => Sys2Proof.Machine.execInsw48 x0 x1 x2 s
  | .ld x0 x1 x2 x3 x4 x5 x6 => Sys2Proof.Machine.execLd x0 x1 x2 x3 x4 x5 x6 s
  | .st x0 x1 x2 x3 x4 x5 => Sys2Proof.Machine.execSt x0 x1 x2 x3 x4 x5 s
  | .beq x0 x1 x2 x3 => Sys2Proof.Machine.execBeq x0 x1 x2 x3 s
  | .bne x0 x1 x2 x3 => Sys2Proof.Machine.execBne x0 x1 x2 x3 s
  | .blt x0 x1 x2 x3 => Sys2Proof.Machine.execBlt x0 x1 x2 x3 s
  | .bge x0 x1 x2 x3 => Sys2Proof.Machine.execBge x0 x1 x2 x3 s
  | .bltu x0 x1 x2 x3 => Sys2Proof.Machine.execBltu x0 x1 x2 x3 s
  | .bgeu x0 x1 x2 x3 => Sys2Proof.Machine.execBgeu x0 x1 x2 x3 s
  | .j x0 x1 => Sys2Proof.Machine.execJ x0 x1 s
  | .jal x0 x1 => Sys2Proof.Machine.execJal x0 x1 s
  | .jr x0 x1 x2 => Sys2Proof.Machine.execJr x0 x1 x2 s
  | .jalr x0 x1 x2 => Sys2Proof.Machine.execJalr x0 x1 x2 s
  | .loop x0 x1 x2 => Sys2Proof.Machine.execLoop x0 x1 x2 s
  | .loopi x0 x1 x2 => Sys2Proof.Machine.execLoopi x0 x1 x2 s
  | .hld x0 x1 x2 => Sys2Proof.Machine.execHld x0 x1 x2 s
  | .hst x0 x1 x2 => Sys2Proof.Machine.execHst x0 x1 x2 s
  | .dput x0 x1 x2 => Sys2Proof.Machine.execDput x0 x1 x2 s
  | .dget x0 x1 x2 => Sys2Proof.Machine.execDget x0 x1 x2 s
  | .hset x0 x1 x2 x3 => Sys2Proof.Machine.execHset x0 x1 x2 x3 s
  | .hget x0 x1 x2 x3 => Sys2Proof.Machine.execHget x0 x1 x2 x3 s
  | .lntw x0 x1 x2 x3 => Sys2Proof.Machine.execLntw x0 x1 x2 x3 s
  | .fork x0 x1 x2 => Sys2Proof.Machine.execFork x0 x1 x2 s
  | .rdv x0 x1 => Sys2Proof.Machine.execRdv x0 x1 s
  | .waitf x0 x1 x2 => Sys2Proof.Machine.execWaitf x0 x1 x2 s
  | .waite x0 x1 => Sys2Proof.Machine.execWaite x0 x1 s
  | .waita x0 x1 x2 x3 x4 => Sys2Proof.Machine.execWaita x0 x1 x2 x3 x4 s
  | .bara x0 x1 x2 => Sys2Proof.Machine.execBara x0 x1 x2 s
  | .barw x0 x1 x2 x3 => Sys2Proof.Machine.execBarw x0 x1 x2 x3 s
  | .evset x0 x1 => Sys2Proof.Machine.execEvset x0 x1 s
  | .evclr x0 x1 => Sys2Proof.Machine.execEvclr x0 x1 s
  | .fenceC x0 x1 x2 => Sys2Proof.Machine.execFenceC x0 x1 x2 s
  | .clkdiv x0 x1 => Sys2Proof.Machine.execClkdiv x0 x1 s
  | .swpt x0 x1 => Sys2Proof.Machine.execSwpt x0 x1 s
  | .idle x0 x1 => Sys2Proof.Machine.execIdle x0 x1 s
  | .csrr x0 x1 x2 => Sys2Proof.Machine.execCsrr x0 x1 x2 s
  | .csrw x0 x1 x2 => Sys2Proof.Machine.execCsrw x0 x1 x2 s
  | .yield x0 => Sys2Proof.Machine.execYield x0 s
  | .trap x0 x1 => Sys2Proof.Machine.execTrap x0 x1 s
  | .exit x0 => Sys2Proof.Machine.execExit x0 s
  | .rett x0 => Sys2Proof.Machine.execRett x0 s
  | .launch x0 x1 x2 => Sys2Proof.Machine.execLaunch x0 x1 x2 s
  | .bkpt x0 => Sys2Proof.Machine.execBkpt x0 s
  | .nop x0 x1 => Sys2Proof.Machine.execNop x0 x1 s
  | .vadd x0 x1 => Sys2Proof.Machine.execVadd x0 x1 s
  | .vsub x0 x1 => Sys2Proof.Machine.execVsub x0 x1 s
  | .vmul x0 x1 => Sys2Proof.Machine.execVmul x0 x1 s
  | .vfma x0 x1 => Sys2Proof.Machine.execVfma x0 x1 s
  | .vmin x0 x1 => Sys2Proof.Machine.execVmin x0 x1 s
  | .vmax x0 x1 => Sys2Proof.Machine.execVmax x0 x1 s
  | .vdiv x0 => Sys2Proof.Machine.execVdiv x0 s
  | .vsqrt x0 => Sys2Proof.Machine.execVsqrt x0 s
  | .vrcp x0 => Sys2Proof.Machine.execVrcp x0 s
  | .vrsq x0 => Sys2Proof.Machine.execVrsq x0 s
  | .vexp2 x0 => Sys2Proof.Machine.execVexp2 x0 s
  | .vlog2 x0 => Sys2Proof.Machine.execVlog2 x0 s
  | .vabs x0 => Sys2Proof.Machine.execVabs x0 s
  | .vneg x0 => Sys2Proof.Machine.execVneg x0 s
  | .vand x0 => Sys2Proof.Machine.execVand x0 s
  | .vor x0 => Sys2Proof.Machine.execVor x0 s
  | .vxor x0 => Sys2Proof.Machine.execVxor x0 s
  | .vnot x0 => Sys2Proof.Machine.execVnot x0 s
  | .vsll x0 => Sys2Proof.Machine.execVsll x0 s
  | .vsrl x0 => Sys2Proof.Machine.execVsrl x0 s
  | .vsra x0 => Sys2Proof.Machine.execVsra x0 s
  | .vsel x0 => Sys2Proof.Machine.execVsel x0 s
  | .vcmp x0 x1 => Sys2Proof.Machine.execVcmp x0 x1 s
  | .vcvt x0 => Sys2Proof.Machine.execVcvt x0 s
  | .vcvtb x0 => Sys2Proof.Machine.execVcvtb x0 s
  | .vrsum x0 x1 => Sys2Proof.Machine.execVrsum x0 x1 s
  | .vrmax x0 x1 => Sys2Proof.Machine.execVrmax x0 x1 s
  | .vrmin x0 x1 => Sys2Proof.Machine.execVrmin x0 x1 s
  | .vscan x0 x1 => Sys2Proof.Machine.execVscan x0 x1 s
  | .vcomp2of4 x0 => Sys2Proof.Machine.execVcomp2of4 x0 s
  | .dot16E4 x0 => Sys2Proof.Machine.execDot16E4 x0 s
  | .radd x0 => Sys2Proof.Machine.execRadd x0 s
  | .rsub x0 => Sys2Proof.Machine.execRsub x0 s
  | .fprint x0 => Sys2Proof.Machine.execFprint x0 s
  | .vmov x0 => Sys2Proof.Machine.execVmov x0 s
  | .vbcast x0 => Sys2Proof.Machine.execVbcast x0 s
  | .viota x0 => Sys2Proof.Machine.execViota x0 s
  | .kand x0 => Sys2Proof.Machine.execKand x0 s
  | .kor x0 => Sys2Proof.Machine.execKor x0 s
  | .kxor x0 => Sys2Proof.Machine.execKxor x0 s
  | .knot x0 => Sys2Proof.Machine.execKnot x0 s
  | .kfromv x0 => Sys2Proof.Machine.execKfromv x0 s
  | .vfromk x0 => Sys2Proof.Machine.execVfromk x0 s
  | .vld x0 => Sys2Proof.Machine.execVld x0 s
  | .vst x0 => Sys2Proof.Machine.execVst x0 s
  | .tcfg x0 => Sys2Proof.Machine.execTcfg x0 s
  | .tcfgZ x0 => Sys2Proof.Machine.execTcfgZ x0 s
  | .tset x0 => Sys2Proof.Machine.execTset x0 s
  | .tget x0 => Sys2Proof.Machine.execTget x0 s
  | .tzero x0 => Sys2Proof.Machine.execTzero x0 s
  | .tld x0 => Sys2Proof.Machine.execTld x0 s
  | .tst x0 => Sys2Proof.Machine.execTst x0 s
  | .trsum x0 => Sys2Proof.Machine.execTrsum x0 s
  | .qadd x0 => Sys2Proof.Machine.execQadd x0 s
  | .qsub x0 => Sys2Proof.Machine.execQsub x0 s
  | .qmul x0 => Sys2Proof.Machine.execQmul x0 s
  | .qfma x0 => Sys2Proof.Machine.execQfma x0 s
  | .qrelu x0 => Sys2Proof.Machine.execQrelu x0 s
  | .qmake x0 => Sys2Proof.Machine.execQmake x0 s
  | .qcolMean x0 => Sys2Proof.Machine.execQcolMean x0 s
  | .qcolVar x0 => Sys2Proof.Machine.execQcolVar x0 s
  | .qcolSd x0 => Sys2Proof.Machine.execQcolSd x0 s
  | .qscl x0 => Sys2Proof.Machine.execQscl x0 s
  | .qld x0 => Sys2Proof.Machine.execQld x0 s
  | .qst x0 => Sys2Proof.Machine.execQst x0 s
  | .vloop x0 => Sys2Proof.Machine.execVloop x0 s
  | .vcsrr x0 => Sys2Proof.Machine.execVcsrr x0 s
  | .vcsrw x0 => Sys2Proof.Machine.execVcsrw x0 s
  | .vrdv x0 => Sys2Proof.Machine.execVrdv x0 s
  | .vrdvEnd x0 => Sys2Proof.Machine.execVrdvEnd x0 s
  | .vidle x0 => Sys2Proof.Machine.execVidle x0 s
  | .vnop x0 x1 x2 => Sys2Proof.Machine.execVnop x0 x1 x2 s
  | .mmaF8 x0 => Sys2Proof.Machine.execMmaF8 x0 s
  | .mmaBf16 x0 => Sys2Proof.Machine.execMmaBf16 x0 s
  | .mmaF32 x0 => Sys2Proof.Machine.execMmaF32 x0 s
  | .mmaB2e8 x0 => Sys2Proof.Machine.execMmaB2e8 x0 s
  | .mmaB2e4 x0 => Sys2Proof.Machine.execMmaB2e4 x0 s
  | .mmaMom x0 => Sys2Proof.Machine.execMmaMom x0 s
  | .mmv x0 => Sys2Proof.Machine.execMmv x0 s
  | .drain x0 => Sys2Proof.Machine.execDrain x0 s
  | .drainMom x0 => Sys2Proof.Machine.execDrainMom x0 s
  | .azero x0 => Sys2Proof.Machine.execAzero x0 s
  | .aload x0 => Sys2Proof.Machine.execAload x0 s
  | .go x0 => Sys2Proof.Machine.execGo x0 s
  | .mwait x0 => Sys2Proof.Machine.execMwait x0 s
  | .mrdv x0 => Sys2Proof.Machine.execMrdv x0 s
  | .mrdvEnd x0 => Sys2Proof.Machine.execMrdvEnd x0 s
  | .mcsrr x0 => Sys2Proof.Machine.execMcsrr x0 s
  | .mcsrw x0 => Sys2Proof.Machine.execMcsrw x0 s
  | .midle x0 => Sys2Proof.Machine.execMidle x0 s
  | .mnop x0 x1 x2 => Sys2Proof.Machine.execMnop x0 x1 x2 s
  | .gidx x0 => Sys2Proof.Machine.execGidx x0 s
  | .gfill x0 => Sys2Proof.Machine.execGfill x0 s
  | .grdv x0 => Sys2Proof.Machine.execGrdv x0 s
  | .grdvEnd x0 => Sys2Proof.Machine.execGrdvEnd x0 s
  | .gidle x0 => Sys2Proof.Machine.execGidle x0 s
  | .gnop x0 x1 x2 => Sys2Proof.Machine.execGnop x0 x1 x2 s
  | .copy1d x0 => Sys2Proof.Machine.execCopy1d x0 s
  | .copy2d x0 => Sys2Proof.Machine.execCopy2d x0 s
  | .copy3d x0 => Sys2Proof.Machine.execCopy3d x0 s
  | .copyx x0 => Sys2Proof.Machine.execCopyx x0 s
  | .scan x0 => Sys2Proof.Machine.execScan x0 s
  | .xchg x0 => Sys2Proof.Machine.execXchg x0 s
  | .cmpx x0 => Sys2Proof.Machine.execCmpx x0 s
  | .enq x0 => Sys2Proof.Machine.execEnq x0 s
  | .deq x0 => Sys2Proof.Machine.execDeq x0 s
  | .copy1dAcc x0 x1 => Sys2Proof.Machine.execCopy1dAcc x0 x1 s
  | .copy2dAcc x0 x1 => Sys2Proof.Machine.execCopy2dAcc x0 x1 s
  | .copy3dAcc x0 x1 => Sys2Proof.Machine.execCopy3dAcc x0 x1 s
  | .qfence x0 => Sys2Proof.Machine.execQfence x0 s
  | .cwrite x0 => Sys2Proof.Machine.execCwrite x0 s
  | .barrive x0 => Sys2Proof.Machine.execBarrive x0 s
  | .lrdv x0 => Sys2Proof.Machine.execLrdv x0 s
  | .lrdvEnd x0 => Sys2Proof.Machine.execLrdvEnd x0 s
  | .lidle x0 => Sys2Proof.Machine.execLidle x0 s
  | .lnop x0 x1 x2 => Sys2Proof.Machine.execLnop x0 x1 x2 s
  | .sieveAdd x0 x1 x2 => Sys2Proof.Machine.execSieveAdd x0 x1 x2 s
  | .sieveSub x0 x1 x2 => Sys2Proof.Machine.execSieveSub x0 x1 x2 s
  | .sieveAnd x0 x1 x2 => Sys2Proof.Machine.execSieveAnd x0 x1 x2 s
  | .sieveOr x0 x1 x2 => Sys2Proof.Machine.execSieveOr x0 x1 x2 s
  | .sieveXor x0 x1 x2 => Sys2Proof.Machine.execSieveXor x0 x1 x2 s
  | .sieveShl x0 x1 x2 => Sys2Proof.Machine.execSieveShl x0 x1 x2 s
  | .sieveShr x0 x1 x2 => Sys2Proof.Machine.execSieveShr x0 x1 x2 s
  | .sieveSar x0 x1 x2 => Sys2Proof.Machine.execSieveSar x0 x1 x2 s
  | .sieveSltu x0 x1 x2 => Sys2Proof.Machine.execSieveSltu x0 x1 x2 s
  | .sieveAddi x0 x1 x2 => Sys2Proof.Machine.execSieveAddi x0 x1 x2 s
  | .sieveMovi x0 x1 => Sys2Proof.Machine.execSieveMovi x0 x1 s
  | .sieveMovhi x0 x1 => Sys2Proof.Machine.execSieveMovhi x0 x1 s
  | .sieveVadd x0 x1 x2 x3 x4 => Sys2Proof.Machine.execSieveVadd x0 x1 x2 x3 x4 s
  | .sieveVsub x0 x1 x2 x3 x4 => Sys2Proof.Machine.execSieveVsub x0 x1 x2 x3 x4 s
  | .sieveVmin x0 x1 x2 x3 x4 => Sys2Proof.Machine.execSieveVmin x0 x1 x2 x3 x4 s
  | .sieveVmax x0 x1 x2 x3 x4 => Sys2Proof.Machine.execSieveVmax x0 x1 x2 x3 x4 s
  | .sieveVmul x0 x1 x2 x3 x4 => Sys2Proof.Machine.execSieveVmul x0 x1 x2 x3 x4 s
  | .vscn x0 x1 x2 x3 x4 => Sys2Proof.Machine.execVscn x0 x1 x2 x3 x4 s
  | .vsplat x0 x1 x2 => Sys2Proof.Machine.execVsplat x0 x1 x2 s
  | .sieveVcmp x0 x1 x2 x3 x4 x5 => Sys2Proof.Machine.execSieveVcmp x0 x1 x2 x3 x4 x5 s
  | .sieveVsel x0 x1 x2 x3 => Sys2Proof.Machine.execSieveVsel x0 x1 x2 x3 s
  | .vext x0 x1 x2 => Sys2Proof.Machine.execVext x0 x1 x2 s
  | .vins x0 x1 x2 => Sys2Proof.Machine.execVins x0 x1 x2 s
  | .pld x0 x1 x2 => Sys2Proof.Machine.execPld x0 x1 x2 s
  | .pst x0 x1 x2 => Sys2Proof.Machine.execPst x0 x1 x2 s
  | .fld x0 x1 => Sys2Proof.Machine.execFld x0 x1 s
  | .fst x0 x1 => Sys2Proof.Machine.execFst x0 x1 s
  | .hdr x0 x1 => Sys2Proof.Machine.execHdr x0 x1 s
  | .sieveBeq x0 x1 x2 => Sys2Proof.Machine.execSieveBeq x0 x1 x2 s
  | .sieveBne x0 x1 x2 => Sys2Proof.Machine.execSieveBne x0 x1 x2 s
  | .sieveBltu x0 x1 x2 => Sys2Proof.Machine.execSieveBltu x0 x1 x2 s
  | .sieveLoop x0 x1 => Sys2Proof.Machine.execSieveLoop x0 x1 s
  | .send x0 x1 => Sys2Proof.Machine.execSend x0 x1 s
  | .traps x0 => Sys2Proof.Machine.execTraps x0 s
  | .snop x0 x1 => Sys2Proof.Machine.execSnop x0 x1 s
  | .rendezvousRelease => Sys2Proof.Machine.execRendezvousRelease s
  | .divisorSwitch => Sys2Proof.Machine.execDivisorSwitch s
  | .variantSwitch => Sys2Proof.Machine.execVariantSwitch s
  | .kernelExitReport => Sys2Proof.Machine.execKernelExitReport s
  | .outwardActionPerform => Sys2Proof.Machine.execOutwardActionPerform s
  | .tasterRetry => Sys2Proof.Machine.execTasterRetry s
  | .resultLand => Sys2Proof.Machine.execResultLand s
  | .farLoadReturn => Sys2Proof.Machine.execFarLoadReturn s
  | .coreResume => Sys2Proof.Machine.execCoreResume s
  | .tileSwap => Sys2Proof.Machine.execTileSwap s
  | .asyncCommandRun => Sys2Proof.Machine.execAsyncCommandRun s
  | .matrixReplay => Sys2Proof.Machine.execMatrixReplay s
  | .portAction => Sys2Proof.Machine.execPortAction s
  | .ordContributionApply => Sys2Proof.Machine.execOrdContributionApply s
  | .ladleCommandRetire => Sys2Proof.Machine.execLadleCommandRetire s
  | .ladleReperform => Sys2Proof.Machine.execLadleReperform s
  | .barrierPhaseComplete => Sys2Proof.Machine.execBarrierPhaseComplete s
  | .movableTake => Sys2Proof.Machine.execMovableTake s
  | .translationWalk => Sys2Proof.Machine.execTranslationWalk s
  | .asyncTrapDelivery => Sys2Proof.Machine.execAsyncTrapDelivery s
  | .preemptRequest => Sys2Proof.Machine.execPreemptRequest s
  | .escalateToLoopDrain => Sys2Proof.Machine.execEscalateToLoopDrain s
  | .escalateToTrap => Sys2Proof.Machine.execEscalateToTrap s
  | .loopDrainStop => Sys2Proof.Machine.execLoopDrainStop s
  | .trapGradeStop => Sys2Proof.Machine.execTrapGradeStop s
  | .evict => Sys2Proof.Machine.execEvict s
  | .contextResume => Sys2Proof.Machine.execContextResume s
  | .resumeRequest => Sys2Proof.Machine.execResumeRequest s
  | .kill => Sys2Proof.Machine.execKill s
  | .killQuiesceDone => Sys2Proof.Machine.execKillQuiesceDone s
  | .hostEntrySubmit => Sys2Proof.Machine.execHostEntrySubmit s
  | .launchStart => Sys2Proof.Machine.execLaunchStart s
  | .launchFinish => Sys2Proof.Machine.execLaunchFinish s
  | .firmwareKernelStart => Sys2Proof.Machine.execFirmwareKernelStart s
  | .ttFire => Sys2Proof.Machine.execTtFire s
  | .hobRotate => Sys2Proof.Machine.execHobRotate s
  | .hobcfgWrite => Sys2Proof.Machine.execHobcfgWrite s
  | .planSelect => Sys2Proof.Machine.execPlanSelect s
  | .invgo => Sys2Proof.Machine.execInvgo s
  | .invalidationComplete => Sys2Proof.Machine.execInvalidationComplete s
  | .hostApertureAccess => Sys2Proof.Machine.execHostApertureAccess s
  | .notifyMessage => Sys2Proof.Machine.execNotifyMessage s
  | .write => Sys2Proof.Machine.execWrite s
  | .wreduce => Sys2Proof.Machine.execWreduce s
  | .read => Sys2Proof.Machine.execRead s
  | .readrsp => Sys2Proof.Machine.execReadrsp s
  | .cadd => Sys2Proof.Machine.execCadd s
  | .packetDrop => Sys2Proof.Machine.execPacketDrop s
  | .portRemoved => Sys2Proof.Machine.execPortRemoved s
  | .planreq => Sys2Proof.Machine.execPlanreq s
  | .planrel => Sys2Proof.Machine.execPlanrel s
  | .setupReserve => Sys2Proof.Machine.execSetupReserve s
  | .setupGrant => Sys2Proof.Machine.execSetupGrant s
  | .setupRefuse => Sys2Proof.Machine.execSetupRefuse s
  | .setupCommit => Sys2Proof.Machine.execSetupCommit s
  | .setupRelease => Sys2Proof.Machine.execSetupRelease s
  | .setupTimeout => Sys2Proof.Machine.execSetupTimeout s
  | .triggerWrite => Sys2Proof.Machine.execTriggerWrite s
  | .qpPost => Sys2Proof.Machine.execQpPost s
  | .workEntryFire => Sys2Proof.Machine.execWorkEntryFire s
  | .sievePacket => Sys2Proof.Machine.execSievePacket s
  | .drop => Sys2Proof.Machine.execDrop s
  | .sieveDone => Sys2Proof.Machine.execSieveDone s
  | .loadgo => Sys2Proof.Machine.execLoadgo s
  | .loadCheckDone => Sys2Proof.Machine.execLoadCheckDone s
  | .partitionUnload => Sys2Proof.Machine.execPartitionUnload s
  | .syncMessage => Sys2Proof.Machine.execSyncMessage s
  | .followUpMessage => Sys2Proof.Machine.execFollowUpMessage s
  | .delayRespMessage => Sys2Proof.Machine.execDelayRespMessage s
  | .announceMessage => Sys2Proof.Machine.execAnnounceMessage s
  | .syncTimeout => Sys2Proof.Machine.execSyncTimeout s
  | .tokenGrant => Sys2Proof.Machine.execTokenGrant s
  | .leaseExpiry => Sys2Proof.Machine.execLeaseExpiry s
  | .ptrade => Sys2Proof.Machine.execPtrade s
  | .tokenOffer => Sys2Proof.Machine.execTokenOffer s
  | .tokenAccept => Sys2Proof.Machine.execTokenAccept s
  | .tokenCommit => Sys2Proof.Machine.execTokenCommit s
  | .powerOverdraw => Sys2Proof.Machine.execPowerOverdraw s
  | .simmerTick => Sys2Proof.Machine.execSimmerTick s
  | .plock => Sys2Proof.Machine.execPlock s
  | .plvlthWrite => Sys2Proof.Machine.execPlvlthWrite s
  | .prampWrite => Sys2Proof.Machine.execPrampWrite s
  | .registerWrite => Sys2Proof.Machine.execRegisterWrite s
  | .status => Sys2Proof.Machine.execStatus s
  | .logread => Sys2Proof.Machine.execLogread s
  | .health => Sys2Proof.Machine.execHealth s
  | .attest => Sys2Proof.Machine.execAttest s
  | .pregrd => Sys2Proof.Machine.execPregrd s
  | .pregwr => Sys2Proof.Machine.execPregwr s
  | .fnreset => Sys2Proof.Machine.execFnreset s
  | .fwstage => Sys2Proof.Machine.execFwstage s
  | .correctedWriteback => Sys2Proof.Machine.execCorrectedWriteback s
  | .bankFailure => Sys2Proof.Machine.execBankFailure s
  | .rebuildWalk => Sys2Proof.Machine.execRebuildWalk s
  | .scrubRead => Sys2Proof.Machine.execScrubRead s
  | .scrubWriteback => Sys2Proof.Machine.execScrubWriteback s
  | .violation => Sys2Proof.Machine.execViolation s
  | .partRemoval => Sys2Proof.Machine.execPartRemoval s
  | .powerGood => Sys2Proof.Machine.execPowerGood s
  | .romVerify => Sys2Proof.Machine.execRomVerify s
  | .selftest => Sys2Proof.Machine.execSelftest s
  | .hbmtrain => Sys2Proof.Machine.execHbmtrain s
  | .links => Sys2Proof.Machine.execLinks s
  | .ready => Sys2Proof.Machine.execReady s
  | .moduleReset => Sys2Proof.Machine.execModuleReset s
  | .patternTestGo => Sys2Proof.Machine.execPatternTestGo s
  | .patternTestDone => Sys2Proof.Machine.execPatternTestDone s
  | .phySettingWrite => Sys2Proof.Machine.execPhySettingWrite s
  | .portRetrain => Sys2Proof.Machine.execPortRetrain s
  | .delayReq => Sys2Proof.Machine.execDelayReq s
  | .mailboxUnknownOp => Sys2Proof.Machine.execMailboxUnknownOp s

end Sys2Proof.Machine
end

