-- ==== Sys2Proof/Machine/Sched.lean ====
section
/-!
DEFINITION. What the module may do next (02_core_state R55 to R57; 00_scope R3; log entry 1): the acts that the present edge
of a core asks for, the timers that are due, and, where nothing is due, the acts of agents whose time is free, a tick of
the reference clock among them.
-/

namespace Sys2Proof.Machine

/-- One act of the module: an event with the core it concerns and its operands, the next word of a core's stream or of a
sieve, an access of a Ladle, the stop at a node boundary, an event that waits, an input, a tick of the reference clock. -/
inductive Act where
  | ev (i : Instr) (core : Nat) (a : EvArg)
  | word (k n : Nat)
  | sword (i n : Nat)
  | lad (h : Home) (id : Nat) (a : State.LAct)
  | node (k : Nat)
  | take (m : Nat)
  | input
  | tick
deriving DecidableEq, Repr

namespace State

/-! ### A core's present edge -/

/-- Whether stream `n` issues at the present edge: it is due, it does not stand, and no wait of its own holds it; a handler
runs the sequencer alone. -/
def issues (c : Ctx) (n : Nat) : Bool :=
  let x := c.strm n
  x.on && x.park = .no && decide (x.due ≤ c.ctime) && (!c.handler || n = 0)
    && (c.mode = .running || (c.awake && (n != 0 || c.handler)))
    && c.freeze.all fun f => f.1 != n && !c.standing f

/-- A word that uses a value of the sequencer at once (R397): DPUT, HSET, LNTW, VCSRR, MCSRR, a load, whose address is
compared (log entry 66), and the words of the VE, the ME and the gather unit with their BE bit set (R74, R77, R79). -/
def delivers (i : Instr) (n w : Nat) : Bool :=
  match i with
  | .dput .. | .hset .. | .lntw .. | .vcsrr .. | .mcsrr .. | .ld .. | .hld .. | .waita .. => true
  | .vnop .. | .mnop .. | .gnop .. => false
  | _ => match n with
    | 1 => w.testBit 10
    | 2 => w.testBit 17
    | 3 => w.testBit 16
    | _ => false

/-- A word of stream `n` has executed as `t`; one that issued, and whose delivered value the Taster disagrees with, raises
0x0A (R398). -/
def tasted (s t : State) (i : Instr) (n w : Nat) : State :=
  let c := t.ctx
  if !s.me.tasteNow || !delivers i n w || c.freeze.any (fun f => f.1 = n) || (c.handler && !s.ctx.handler)
    || c.mode = .faulted then t
  else (t.setMe { t.me with tasteNow := false, mark := none }).tasterStop c

/-- The issue of the next word of stream `n` of core `k`: a fetch that fails traps (R63), a word that is none is illegal
(R64), a bank conflict stalls it (R59), and else it executes. -/
def issueWord (s0 : State) (n : Nat) : Host.Outcome State Fault Refusal :=
  let s := s0.fetched n
  let c := s.ctx
  let x := c.strm n
  match s0.fetch n with
  | .error cause => .next (s.trap n cause 0 x.pc)
  | .ok w =>
    match decodeWord (strmOf n) w with
    | .error _ => .next (s.trap n 0x01 0 0)
    | .ok i =>
      if stallOf i != 0 && !x.stalled then
        .next (s.setCtx (c.setStrm n { x with due := x.due + stallOf i * c.div n, stalled := true }))
      else
        match exec i s with
        | .next t => .next (s.tasted t i n w)
        | r => r

/-- How the word of stream `n` would fare: 0 it issues, 1 it freezes the core and nothing else issues, 2 it traps. -/
def look (s : State) (n : Nat) : Nat :=
  match issueWord s n with
  | .next t =>
    let c := t.ctx
    if c.freeze.any fun f => f.1 = n && beforeIssue n f.2 then 1
    else if (c.handler && !s.ctx.handler) || (c.mode = .faulted && s.ctx.mode != .faulted) then 2
    else 0
  | _ => 0

/-- The stream of core `focus` whose word issues next at this edge (R55): of the sequencer, VE, ME, gather unit and Ladle
the first; but an abandoned wait is evaluated again before them (R57), and no word issues at an edge at which one freezes
the core before its issue or traps (R56, R310). -/
def nextStrm (s : State) : Option Nat :=
  match (List.range 5).filter (issues s.ctx) with
  | [] => none
  | [n] => some n
  | n :: l =>
    match (n :: l).find? fun m => decide ((s.ctx.strm m).due < s.ctx.ctime) with
    | some m => some m
    | none =>
    let looks := (n :: l).map fun m => (m, s.look m)
    match looks.find? fun x => x.2 = 1 with
    | some x => some x.1
    | none =>
      match looks.find? fun x => x.2 = 2 with
      | some x => some x.1
      | none => some n

/-- The act that the present edge of core `k` asks for, none where its time may go on.  Frozen: the end of the freeze, words
of other streams due at the edge, outward actions, and what a drain lands, before a switch.  Not frozen: what is scheduled
by now, stops, traps, rendezvous, exit, and then the words due. -/
def coreAct (s0 : State) (k : Nat) : Option Act :=
  let s := { s0 with focus := k }
  let x := s.core k
  let c := x.ctx
  let ev (i : Instr) : Option Act := some (.ev i k {})
  if !x.live || !c.awake then none
  else if !c.freeze.isEmpty then
    if mayStopTrap x then ev .trapGradeStop
    else if c.freeze.all fun f => s.clears f.2 then ev .coreResume
    else
      match nextStrm s with
      | some n => some (.word k n)
      | none =>
        match s.readyOut with
        | some _ => ev .outwardActionPerform
        | none =>
          if !c.draining then none
          else
            match c.nextItem with
            | some y =>
              match y.eff with
              | .far .. => none
              | _ => if y.eff.isOut || heldBack c (c.flightOf y.seq) y then none else ev .resultLand
            | none =>
              if !c.flights.isEmpty then none
              else if c.freeze.any fun f => isClk f.2 then ev .divisorSwitch
              else if c.freeze.any fun f => isSwpt f.2 then ev .variantSwitch
              else none
  else
    match c.nextItem with
    | some y =>
      if y.t ≤ c.ctime then (if y.eff.isOut then ev .outwardActionPerform else ev .resultLand)
      else atEdge s k x c
    | none => atEdge s k x c
where
  atEdge (s : State) (k : Nat) (x : Core) (c : Ctx) : Option Act :=
    if mayStopTrap x then some (.ev .trapGradeStop k {})
    else if mayDeliver x then some (.ev .asyncTrapDelivery k {})
    else if c.mayRelease && !c.drainWaits then some (.ev (if c.drainsHere then .loopDrainStop else .rendezvousRelease) k {})
    else if c.mayExit then some (.ev .kernelExitReport k {})
    else (nextStrm s).map (.word k)

/-- The next word of a running sieve (R365); one that is none ends the packet (log entry 23). -/
def sieveWord (s : State) : Host.Outcome State Fault Refusal :=
  match s.sv.run with
  | none => .next s
  | some r =>
    match decodeWord .sv (s.sv.imem.get ((s.sv.desc r.part).kbase + r.pc)).toNat with
    | .error _ => .next (s.endRun r)
    | .ok i => exec i s

/-! ### Timers -/

/-- Escalations that are due (R302). -/
def escalations (s : State) : List Act :=
  s.cores.filterMap fun e =>
    let c := e.2.ctx
    let past (hi lo : Nat) : Bool := decide (c.reqAt + s.nodeField c.launch 5 hi lo * 3760 ≤ s.ref)
    if !e.2.live || c.launch = 0 then none
    else
      match c.req with
      | some .node => if past 31 16 then some (.ev .escalateToLoopDrain e.1 { n := e.1 }) else none
      | some .loop => if past 47 32 then some (.ev .escalateToTrap e.1 { n := e.1 }) else none
      | _ => none

/-- Barrier phases that are complete (R254). -/
def barrierActs (s : State) : List Act :=
  (s.homes.flatMap fun h => ((s.ctxAt h).bars.filter fun b => b.2.complete).map fun b =>
    Act.ev .barrierPhaseComplete 0 (homeArg h 0 b.1))
  ++ s.diesT.flatMap fun d => (d.2.bars.filter fun b => b.2.complete).map fun b =>
    Act.ev .barrierPhaseComplete 0 { n := d.1, k := b.1.2, v := 1, u := BitVec.ofNat 64 b.1.1 }

/-- What the passing of time asks for now (R296, R298, R302, R353, R360, R382, R387). -/
def timers (s : State) : List Act :=
  let p := budgetOf s.power s.clock.ns
  s.escalations ++ s.barrierActs
  ++ (if s.boot.phase != phReady then [] else s.diesT.filterMap fun d =>
      (ttFirst d.2.tt s.clock.ns).map fun k => Act.ev .ttFire 0 { n := d.1, k := k })
  ++ ((List.range 8).filter fun d => decide ((s.die d).rotAt + (s.die d).hob.toNat * 3760000 ≤ s.ref)).map
      (fun d => Act.ev .hobRotate 0 { n := d })
  ++ (if s.clock.lock && decide (s.clock.lastSync + 8 * s.syncInterval < s.clock.ns) then [.ev .syncTimeout 0 {}] else [])
  ++ (s.iods.filter fun i => i.2.setup.any fun u => decide (u.deadline < s.clock.ns)).map
      (fun i => Act.ev .setupTimeout 0 { n := i.1 })
  ++ (if p.budget != s.power.budget || p.hold != s.power.hold then [.ev .leaseExpiry 0 {}] else [])
  ++ (if s.boot.power && decide (s.power.simAt + 1000 ≤ s.clock.ns) then [.ev .simmerTick 0 {}] else [])

/-- The next word of every running sieve. -/
def sieveActs (s : State) : List Act :=
  s.iods.flatMap fun i => (i.2.sieves.filter fun x => x.2.run.isSome).map fun x => Act.sword i.1 x.1

/-- Everything that must come before time goes on. -/
def due (s : State) : List Act := s.cores.filterMap (fun e => s.coreAct e.1) ++ s.sieveActs ++ s.timers

/-! ### Acts whose time is free -/

/-- Acts of one core that take as long as they take. -/
def slowActs (s0 : State) (k : Nat) : List Act :=
  let s := { s0 with focus := k }
  let x := s.core k
  let c := x.ctx
  let on (p : Freeze → Bool) (i : Instr) : List Act := if c.freeze.any fun f => p f.2 then [.ev i k {}] else []
  (if !x.live then [] else
    on (fun f => f = .far || drains f) .farLoadReturn
    ++ on (fun f => match f with | .xlat .. => true | _ => false) .translationWalk
    ++ on (fun f => match f with | .tile _ => true | _ => false) .tileSwap
    ++ on isReplay .matrixReplay
    ++ on (fun f => f = .taster) .tasterRetry
    ++ ((List.range c.asyncQ.length).filter s.mayRunJob).map (fun q => Act.ev .asyncCommandRun k { k := q })
    ++ (match c.mode with
      | .stoppedLoop => [.ev .loopDrainStop k {}]
      | .stoppedTrap => [.ev .trapGradeStop k {}]
      | .yielding => [.node k]
      | _ => []))
  ++ (if x.svc = 2 && (s.evictee k).isSome then [.ev .evict k { n := k }] else [])
  ++ (match s.nextServed k with
    | some j => [.ev .movableTake k { n := k, m := j }, .ev .movableTake k { n := k, m := j, b := true }]
    | none => [])
  ++ x.wb.map (fun r => Act.ev .correctedWriteback k { n := k, m := r })
  ++ (if x.walking then [.ev .rebuildWalk k { n := k }] else [])
  ++ ((List.range 36).filter fun b => !x.failed.contains b && decide (16 ≤ s.recentHits k b)).map
      (fun b => Act.ev .bankFailure k { n := k, m := b })

/-- Accesses and completions of the Ladles, and contributions whose turn has come. -/
def ladleActs (s : State) : List Act :=
  (s.allLadActs.map fun x =>
    match x.2.2 with
    | .port e => Act.ev .portAction 0 (homeArg x.1 x.2.1 e)
    | .retire => .ev .ladleCommandRetire 0 (homeArg x.1 x.2.1 0)
    | .reperform => .ev .ladleReperform 0 (homeArg x.1 x.2.1 0)
    | a => .lad x.1 x.2.1 a)
  ++ s.diesT.flatMap fun d => ((d.2.ords.zip (List.range d.2.ords.length)).filter fun o =>
      o.1.waits.any fun w => (w.round, w.prod) = s.ordDue o.1).map fun o =>
        Act.ev .ordContributionApply 0 { n := d.1, k := o.2 }

/-- What the Hob may do. -/
def hobActs (s : State) : List Act :=
  (if s.boot.phase != phReady then [] else
    (s.nodes.filter fun n => decide (s.started n < s.seqOf n)).map fun n => Act.ev .launchStart 0 { n := n })
  ++ (s.launches.filter s.mayResume).flatMap (fun l => (List.range l.n).filterMap fun p =>
      if s.homes.any (fun h => let c := s.ctxAt h; c.launch = l.node && c.p = p && !c.awake) then
        some (Act.ev .contextResume 0 { n := l.node, m := p })
      else none)
  ++ (s.nodes.filter fun n => tget 0 s.planAt (n + 3) != 0).map (fun n => Act.ev .planSelect 0 { n := n })
  ++ (s.kills.filter s.quiet).map (fun k => Act.ev .killQuiesceDone 0 { n := k.1 })
  ++ (if s.invGo then [.ev .invalidationComplete 0 {}] else [])

/-- What the I/O dies may do. -/
def iodActs (s : State) : List Act :=
  s.iods.flatMap fun i =>
    -- of the entries of a queue pair that may fire at one time the first fires first (R356)
    let ready := i.2.armed.filter fun a => reached (s.counter (bits a.2.entry.toNat 11 0)) (bits a.2.entry.toNat 95 64)
    (ready.filter fun a => (ready.find? fun b => b.1 = a.1).any fun b => b.2.slot = a.2.slot).map (fun a =>
      Act.ev .workEntryFire 0 { n := i.1, m := a.1, k := a.2.slot })
    ++ (if i.2.loading.isEmpty then [] else [.ev .loadCheckDone 0 { n := i.1 }])

/-- The command of the mailbox whose GO came first (R409). -/
def mailActs (s : State) : List Act :=
  match s.boot.mailq with
  | [] => []
  | n :: _ =>
    let i : Instr := match (s.link n).mail.op.toNat with
      | 1 => .status
      | 2 => .logread
      | 3 => .health
      | 4 => .attest
      | 5 => .pregrd
      | 6 => .pregwr
      | 7 => .fnreset
      | 8 => .fwstage
      | _ => .mailboxUnknownOp
    [.ev i 0 { n := n }]

/-- The step of bring-up in progress (R405), and the Delay_Req exchanges of the time base (R352). -/
def bootActs (s : State) : List Act :=
  if !s.boot.power then []
  else
    (if s.boot.phase = phRom then [.ev .romVerify 0 {}]
    else if s.boot.phase = phSelf then [.ev .selftest 0 {}]
    else if s.boot.phase = phTrain then
      (if (List.range 8).any fun d => s.serviceRuns d || (s.die d).routine.isSome then [] else [.ev .hbmtrain 0 {}])
      ++ ((List.range 8).filter fun d => (s.die d).routine.isSome && !s.serviceRuns d).map fun d =>
          .ev .hbmtrain 0 { n := d, b := true }
    else if s.boot.phase = phLinks then [.ev .links 0 {}, .ev .delayReq 0 {}]
    else if s.boot.phase = phReady then
      (if s.boot.full then [] else [.ev .ready 0 {}]) ++ [.ev .delayReq 0 {}]
    else [])

/-- PHY tests that run, and scrubbers (R395, R412). -/
def memoryActs (s : State) : List Act :=
  (s.diesT.flatMap fun d => (d.2.phy.filter fun e => e.1 % 256 = 4 && !(d.2.phyGet (8 * e.1)).getLsbD 63).map fun e =>
    Act.ev .patternTestDone 0 { n := d.1, m := 8 * e.1 })
  ++ (if s.boot.phase != phReady then [] else s.diesT.flatMap fun d =>
      (List.range 4).map (fun m => Act.ev .scrubRead 0 { n := d.1, m := m + 1 })
      ++ (List.range 256).map (fun b => Act.ev .scrubRead 0 { n := d.1, j := b })
      ++ d.2.watch.map (fun w => Act.ev .scrubRead 0 { n := d.1, m := w.1, b := true, k := w.2.1 })
      ++ (d.2.panScrub.flatMap fun x => x.2.due.map fun u => Act.ev .scrubWriteback 0 { n := d.1, k := u.1 })
      ++ (d.2.hbmScrub.zip (List.range 4)).flatMap fun x =>
          x.1.due.map fun u => Act.ev .scrubWriteback 0 { n := d.1, m := x.2 + 1, k := u.1 })

/-- Events that carry a fabric packet. -/
def carries : Instr → Bool
  | .write | .wreduce | .read | .readrsp | .cadd | .setupReserve | .setupGrant | .setupRefuse | .setupCommit | .setupRelease
  | .tokenGrant | .tokenOffer | .tokenAccept | .tokenCommit | .syncMessage | .followUpMessage | .delayRespMessage
  | .announceMessage | .sievePacket => true
  | _ => false

/-- Waiting events that keep their order: packets of one class at one I/O die (R347, R349, R367), accesses through one host
link (R278), and writes of one trigger word (R361). -/
def inLine (i : Instr) (a : EvArg) : Option (Nat × Nat × Nat) :=
  if carries i then some (0, a.n, a.pkt.cls)
  else match i with
    | .hostApertureAccess | .registerWrite => some (1, a.n, 0)
    | .triggerWrite => some (2, a.n, a.m)
    | _ => none

/-- Whether an event has to wait for one of those before it. -/
def behind (l : List (Instr × EvArg)) (i : Instr) (a : EvArg) : Bool :=
  (inLine i a).isSome && l.any fun e => inLine e.1 e.2 = inLine i a

/-- Waiting events that may come now. -/
def waitingActs (s : State) : List Act :=
  ((List.range s.pend.length).filter fun m =>
    match s.pend[m]? with
    | none => false
    | some (i, a) => !behind (s.pend.take m) i a).map .take

/-- Everything that may come while no core is due: the waiting events, a tick of the reference clock, the rest. -/
def free_ (s : State) : List Act :=
  s.waitingActs ++ [.tick] ++ (if s.inputs.isEmpty then [] else [.input]) ++ s.cores.flatMap (fun e => s.slowActs e.1)
    ++ s.ladleActs ++ s.hobActs ++ s.iodActs ++ s.mailActs ++ s.bootActs ++ s.memoryActs

/-! ### The choice -/

/-- A core that is in the midst of an edge: a word has issued at its present core time and the next one is due. -/
def midEdge (s : State) : Option Act :=
  (s.cores.filterMap fun e =>
    match e.2.mark with
    | some (t, _) => if t = e.2.ctx.ctime then
        (match s.coreAct e.1 with
          | some (.word k n) => some (.word k n)
          | _ => none)
      else none
    | none => none).head?

/-- One of several acts. -/
def choose (s : State) : List Act → Act
  | [] => .tick
  | [a] => a
  | a :: b :: l => (a :: b :: l).getD (Config.pick s.turn % (l.length + 2)) a

/-- The act that comes next (log entry 1). -/
def nextAct (s : State) : Act :=
  match s.midEdge with
  | some a => a
  | none =>
    match s.due with
    | [] => s.choose s.free_
    | l => s.choose l

/-! ### Acts performed -/

/-- One cycle of the reference clock: the core time of every core that is neither frozen nor stopped, and 25 ns of the time
base in every 94 cycles. -/
def tick (s : State) : State :=
  let on (e : Nat × Core) : Nat × Core :=
    if e.2.live && e.2.ctx.awake && e.2.ctx.freeze.isEmpty then (e.1, { e.2 with ctx := { e.2.ctx with ctime := e.2.ctx.ctime + 1 } })
    else e
  let s := { s with ref := s.ref + 1, cores := s.cores.map on }
  if s.clock.frac + 1 < Config.refPer25ns then { s with clock := { s.clock with frac := s.clock.frac + 1 } }
  else ({ s with clock := { s.clock with frac := 0 } } : State).advance 25

/-- Events that come from outside the module. -/
def outside : Instr → Bool
  | .hostEntrySubmit | .hostApertureAccess | .registerWrite | .packetDrop | .portRemoved | .portRetrain
  | .firmwareKernelStart | .powerGood | .moduleReset | .partRemoval | .powerOverdraw | .simmerTick | .hbmtrain => true
  | i => carries i

/-- The first input: a packet, or an access through a host link on which another one waits, joins those that wait; another
event from outside comes about. -/
def takeInput (s : State) : Host.Outcome State Fault Refusal :=
  match s.inputs with
  | [] => .next s
  | (i, a) :: rest =>
    let s := { s with inputs := rest }
    if carries i || behind s.pend i a then .next (s.post i a)
    else if outside i then exec i { s with arg := a }
    else .next s

/-- An act of the module. -/
def perform_ (s : State) (a : Act) : Host.Outcome State Fault Refusal :=
  match a with
  | .ev i k a => exec i { s with focus := k, arg := a }
  | .word k n => issueWord { s with focus := k } n
  | .sword i n => sieveWord { s with sfocus := i * 64 + n }
  | .lad h id a => .next (s.ladAct h id a)
  | .node k => .next (s.stopNode k)
  | .take m =>
    match s.pend[m]? with
    | some (i, a) => exec i { s with pend := s.pend.eraseIdx m, arg := a }
    | none => .next s
  | .input => s.takeInput
  | .tick => .next s.tick

end State

end Sys2Proof.Machine
end

