-- ==== Sys2Proof/Machine/Step.lean ====
section
/-!
DEFINITION. One step of the module, and the placing of one instruction word where the next step fetches it.
-/

namespace Sys2Proof.Machine

/-- One step: the next act of the module (log entry 1). -/
def step (s : State) : Host.Outcome State Fault Refusal :=
  let s := { s with turn := s.turn + 1 }
  s.perform_ s.nextAct

namespace State

/-- The stream that a table word belongs to by its width, as `decodeTableWord` reads it. -/
def tableStrm (nbits w : Nat) : Strm :=
  let ok (st : Strm) : Bool := (decodeWord st w).toOption.isSome
  if nbits ≤ 32 then (if ok .sq || !ok .sv then .sq else .sv)
  else if nbits ≤ 64 then (if ok .ve || !(ok .me || ok .gu) then .ve else if ok .me then .me else .gu)
  else .ld

/-- A kernel header that declares every resource of a cool kernel (11_kernels R240). -/
def fullHeader : BitVec 512 :=
  BitVec.ofNat 512 (64 + 48 * 2 ^ 7 + 8 * 2 ^ 13 + 16 * 2 ^ 17 + 16 * 2 ^ 22 + 16 * 2 ^ 27 + 16 * 2 ^ 32 + 64 * 2 ^ 37
    + 32768 * 2 ^ 64)

/-- The service core of die 0 in a firmware kernel of ASID 0 (22_prog_hbm_training R415), at an edge where stream `n` alone
issues the word at its address 0; the sequencer, where it is another stream's, waits far ahead (log entry 29). -/
def wordCore (n : Nat) (w : Nat) : Core :=
  let st : Stream := { on := true, stalled := true }
  let c := { newCtx fullHeader 0 0 0 0 0 0 [] [] with sq := { on := true, pc := 0x1000, due := 1000000 }, opened := true, segs := 1 }
  let c := c.setStrm n st
  { live := true, ctx := c, spm := setBytes [] 0 (leBytes (strmOf n).bytes w), mark := some (0, c)
    towner := (List.range 8).map fun t => (t, (0, 0)) }

/-- Sieve 0 of I/O die 0 at the first word of a packet of one flit (18_fabric R365, log entry 29). -/
def wordSieve (w : Nat) : Sieve :=
  { imem := Store.set [] 0 (BitVec.ofNat 32 w)
    part := Store.set [] 0 (BitVec.ofNat 256 (2 ^ 255 + 4096 * 2 ^ 71 + 4095 * 2 ^ 44 + 64 * 2 ^ 29))
    run := some (startRun true { head := BitVec.ofNat 512 (1 + 2 ^ 185), body := [0] } 0 0 0 0) }

/-- The word `w` of `nbits` bits placed where the next step fetches it (log entry 29). -/
def withFetchWord (s : State) (nbits w : Nat) : State :=
  match tableStrm nbits w with
  | .sq => { s with cores := tput 1536 (wordCore 0 w) s.cores }
  | .ve => { s with cores := tput 1536 (wordCore 1 w) s.cores }
  | .me => { s with cores := tput 1536 (wordCore 2 w) s.cores }
  | .gu => { s with cores := tput 1536 (wordCore 3 w) s.cores }
  | .ld => { s with cores := tput 1536 (wordCore 4 w) s.cores }
  | .sv => s.setSieve 0 0 (wordSieve w)

end State

end Sys2Proof.Machine
end

