-- ==== Sys2Proof/Safety.lean ====
section
/-!
DEFINITION. What the statements call a safe state: every memory of the module in its canonical form; and the conditions on
a state that they name often.
-/

namespace Sys2Proof

/-- Two names of one place: the host's memory and the CXL pool are one each, whichever link reaches them (R256). -/
def Loc.same (k l : Loc) : Prop :=
  k.mem = l.mem ∧ k.off = l.off ∧ (k.unit = l.unit ∨ k.mem = .host ∨ k.mem = .cxl)

/-- The place is none of those listed. -/
def Loc.apart (l : Loc) (ls : List Loc) : Prop := ∀ k ∈ ls, ¬ k.same l

/-- No place is listed twice. -/
def Loc.distinct (ls : List Loc) : Prop := ls.Pairwise fun k l => ¬ k.same l

end Sys2Proof

namespace Sys2Proof.Machine

/-- A core's scratchpad is canonical. -/
def Core.memWf (k : Core) : Bool := Memory.wf k.spm

/-- A die's memories are canonical. -/
def Die.memWf (d : Die) : Bool := Memory.wf d.pan && Memory.wf d.hbm

namespace State

/-- Every memory of the module is in its canonical form (R256). -/
def memWf (s : State) : Bool :=
  Memory.wf s.host && Memory.wf s.cxl && (s.cores.all fun e => e.2.memWf) && s.diesT.all fun e => e.2.memWf

/-- A step that neither faults nor is refused. -/
def goesOn (s : State) : Prop := ∃ t, step s = .next t

/-- The word is legal, and single step does not follow it with a trap (R64, R125). -/
def mayIssue (s : State) (i : Instr) (n : Nat) : Prop :=
  i.wf = true ∧ (n = 0 → s.ctx.frame.step = 1#1 → s.ctx.handler = true)

/-- Fewer than twelve instructions are outstanding (R127). -/
def room (s : State) : Prop := s.ctx.outstanding < 12

/-- Every byte of every memory reads in `t` as in `s`. -/
def sameMemory (s t : State) : Prop := ∀ l, t.byteAt l = s.byteAt l

/-- Every byte of every memory but the ring of the log (R410) reads in `t` as in `s`. -/
def sameButLog (s t : State) : Prop := ∀ l : Loc, (l.mem = .spm → inLog l.unit l.off = false) → t.byteAt l = s.byteAt l

/-- Byte `off` of the running context's scratchpad (R301). -/
def ownLoc (s : State) (off : Nat) : Loc := { mem := .spm, unit := s.focus, off := s.ctx.spb + off }

/-- Only the core that executes differs. -/
def onlyMe (s t : State) : Prop := { t with cores := s.cores } = s ∧ ∀ j, j ≠ s.focus → t.core j = s.core j

/-- `t` is `s` with the bytes `ls` read (R390, R391): of a core only its counts, the rows to be written back and the hits
differ, and read errors that occur once are over. -/
def readOf (s t : State) (ls : List Loc) : Prop :=
  t = s.touch ls ∧ { t with cores := s.cores, glitch := s.glitch } = s
    ∧ ∀ j, { t.core j with
        corr := (s.core j).corr, unc := (s.core j).unc, wb := (s.core j).wb, hits := (s.core j).hits } = s.core j

/-- Item `x` is the next of the core's schedule and its core time has come (R55, R62). -/
def landing (s : State) (x : Item) : Prop :=
  s.me.live = true ∧ s.ctx.freeze = [] ∧ s.ctx.nextItem = some x ∧ x.t ≤ s.ctx.ctime

/-- Word `i` of stream `n` issues with the context `c` at its edge and `script` to come; it neither transfers control nor
spends ticks beyond its idle count nor freezes the core (R55, R66, R127). -/
def issuesWith (s : State) (i : Instr) (n idle : Nat) (c : Ctx) (script : List (Nat × Nat × Eff)) : Prop :=
  ∃ g : Go, exec i s = .next (s.afterIssue i n idle g) ∧ g.ctx = c ∧ g.script = script ∧ g.jump = none ∧ g.idle = 0
    ∧ g.post = []

/-- The sources of a VR word at the positions `ps`, its destination where it is a vector register, and its broadcast scalar
lie within the kernel's limits, and no held source violates R130 (R242). -/
def vrOk (s : State) (f : VR) (ps : List Pos) (dst : Bool) : Prop :=
  (∀ p ∈ ps, (p = .b ∧ f.be = 1#1) ∨ (holdBad s.ctx f p = false ∧ vrReg f p < s.ctx.vregs))
    ∧ (dst = true → f.vd.toNat < s.ctx.vregs) ∧ (f.be = 1#1 → f.bc.toNat < s.ctx.sregs)

/-- A source after its swizzle at element width `w` (R61). -/
def operand (s : State) (f : VR) (p : Pos) (w : Nat) : BitVec 1024 :=
  swzAll (match p with
    | .a => f.ma
    | .b => f.mb
    | .c => f.mc) w (srcOf s.ctx f p)

/-- A VR word writes `v` into the lanes of its destination that its mask selects, `lat` ticks after issue, with the flags
`fl`; where NVT is set and NV among them, it raises 0x10 instead (R23, R127). -/
def vecWrites (s : State) (i : Instr) (f : VR) (ps : List Pos) (lat : Nat) (m v : BitVec 1024) (fl : Flags) : Prop :=
  (s.ctx.arithV.getLsbD 3 && fl.getLsbD 0) = false ∧
      s.issuesWith i 1 f.i.toNat (fillAll s.ctx f ps) [(s.ctx.ctime + lat * s.ctx.div 1, 2, .vreg f.vd.toNat m v fl)]
    ∨ (s.ctx.arithV.getLsbD 3 && fl.getLsbD 0) = true ∧ exec i s = .next (s.trap 1 0x10 0 0)

/-- A flag is set when the element function sets it in some element that takes part. -/
def flagsOf (k : BitVec 32) (n : Nat) (el : Nat → Nat → Nat × Flags) (fl : Flags) : Prop :=
  ∀ b, b < 6 → (fl.getLsbD b = true ↔ ∃ l, l < 32 ∧ k.getLsbD l = true ∧ ∃ j, j < n ∧ (el l j).2.getLsbD b = true)

/-- The context of core `k` has stopped faulted and the core is out of service; unless it stood in handler mode, its trap frame
holds what was running (R310, R398, R401). -/
def liveStops (s t : State) (k : Nat) : Prop :=
  let c := (s.core k).ctx
  (t.core k).svc = 2
    ∧ (c.handler = true → (t.core k).ctx = { c with mode := .faulted, freeze := [] })
    ∧ (c.handler = false → (t.core k).ctx = { c with mode := .faulted, freeze := [], flights := [], frame := frameOf c }
        ∧ (frameOf c).replay = c.flights ∧ (frameOf c).time = c.ctime)

/-- The core is in the handler of cause `cause` with INFO `info`, raised by stream `n` at the present edge, and its next
word is the one at TFVEC (R310, R312, R313). -/
def inHandler (s t : State) (n cause info : Nat) : Prop :=
  t.ctx.handler = true ∧ t.ctx.sq.pc = s.ctx.frame.vec.zeroExtend 64 ∧ t.ctx.sq.loops = []
    ∧ t.ctx.trapcause.toNat = n * 2 ^ 29 + info % 256 * 2 ^ 16 + cause
    ∧ t.ctx.frame.time = s.ctx.ctime ∧ t.ctx.flights = []

end State

end Sys2Proof.Machine
end

