-- ==== Sys2Proof/Certificates/Slice0/Obligations.lean ====
section
/-!
DEFINITION. The statements for the provers.
-/

open Sys2Proof Sys2Proof.Machine

/-! ### Issue and landing -/

/-- Issue of a word (R55, R127; frame of every word of the core's streams): only the core that executes changes, and no byte
of memory, but that what the word has read at issue is counted (R390); of its context only the stream of the word, the
instructions in flight, their counter, what freezes the core, the loops still to drain and the high half of a drained loop's
count differ from what the word's own effects give; the stream's next word is due `1 + idle` of its ticks after this edge. -/
def Obligations.IssueFrame : Prop :=
  ∀ (s : State) (i : Instr) (n idle : Nat) (g : Go), n ≤ 4 → State.again g.ctx i n = false →
    let t := s.afterIssue i n idle g
    (∃ u, s.onlyMe u ∧ { u.me with ctx := s.ctx, mark := s.me.mark, xres := s.me.xres, tlb := s.me.tlb } = s.me
      ∧ u.readOf t g.seen)
    ∧ (g.seen = [] → s.onlyMe t) ∧ s.sameMemory t
    ∧ { t.ctx with
          sq := g.ctx.sq, ve := g.ctx.ve, me := g.ctx.me, gu := g.ctx.gu, ld := g.ctx.ld, flights := g.ctx.flights
          seq := g.ctx.seq, freeze := g.ctx.freeze, saveh := g.ctx.saveh, toDrain := g.ctx.toDrain } = g.ctx
    ∧ (∀ m ∈ t.ctx.toDrain, m ∈ g.ctx.toDrain)
    ∧ (∀ m, m ≤ 4 → m ≠ n → t.ctx.strm m = g.ctx.strm m)
    ∧ t.ctx.freeze = g.ctx.freeze ++ g.post
    ∧ (t.ctx.strm n).due = (g.ctx.ctime / g.ctx.div n + 1 + idle + g.idle) * g.ctx.div n
    ∧ (∀ a, g.jump = some a → (t.ctx.strm n).pc = a ∧ (t.ctx.strm n).loops = (g.ctx.strm n).loops)
    ∧ (∃ f : Flight, f.strm = n ∧ f.pc = (g.ctx.strm n).pc ∧ f.script = g.script ∧ f.a = g.a ∧ f.b = g.b ∧ f.c = g.c
        ∧ t.ctx.flights = g.ctx.flights ++ (if g.script = [] then [] else [f]))

/-- The address after a word that does not transfer control (R63, R98, R99): loops that end at the word and are on their last
pass are popped, from the innermost outward; the next one out that ends there iterates, and where none does the next word
follows.  The stream is not draining its loops, or the core is in a handler. -/
def Obligations.NextWord : Prop :=
  ∀ (s : State) (i : Instr) (n idle : Nat) (g : Go) (done rest : List Loop), n ≤ 1 → g.jump = none →
    g.after = none → (n ∉ g.ctx.toDrain ∨ g.ctx.handler = true) → (g.ctx.strm n).loops = done ++ rest →
    (∀ l ∈ done, l.stop = (g.ctx.strm n).pc.toNat ∧ l.rem ≤ 1) →
    let x := g.ctx.strm n
    let t := (s.afterIssue i n idle g).ctx.strm n
    (rest = [] → t.loops = [] ∧ t.pc = x.pc + (if n = 0 then 4 else 8))
    ∧ (∀ l ls, rest = l :: ls → l.stop ≠ x.pc.toNat → t.loops = l :: ls ∧ t.pc = x.pc + (if n = 0 then 4 else 8))
    ∧ (∀ l ls, rest = l :: ls → l.stop = x.pc.toNat → 1 < l.rem →
        t.loops = { l with rem := l.rem - 1 } :: ls ∧ t.pc.toNat = l.start % 2 ^ 64)

/-! ### The sequencer's arithmetic -/

/-- The ALU group and the immediate forms (R86, R89, R90): the value of each operation, and the tick at which it lands. -/
def Obligations.ArithmeticWords : Prop :=
  (∀ w ∈ ([(Instr.add, 1, fun x y => BitVec.ofInt 64 ((x.toNat : Int) + y.toNat)),
       (Instr.sub, 1, fun x y => BitVec.ofInt 64 ((x.toNat : Int) - y.toNat)),
       (Instr.band, 1, fun x y => x &&& y), (Instr.bor, 1, fun x y => x ||| y), (Instr.bxor, 1, fun x y => x ^^^ y),
       (Instr.sll, 1, fun x y => x <<< (y &&& 63#64)), (Instr.srl, 1, fun x y => x >>> (y &&& 63#64)),
       (Instr.sra, 1, fun x y => BitVec.ofInt 64 (x.toInt / 2 ^ (y &&& 63#64).toNat)),
       (Instr.mul, 3, fun x y => BitVec.ofNat 64 (x.toNat * y.toNat)),
       (Instr.mulh, 3, fun x y => (x.signExtend 128 * y.signExtend 128).extractLsb' 64 64),
       (Instr.mulhu, 3, fun x y => (x.zeroExtend 128 * y.zeroExtend 128).extractLsb' 64 64),
       (Instr.div, 18, fun x y => if y = 0#64 then BitVec.allOnes 64 else BitVec.sdiv x y),
       (Instr.divu, 18, fun x y => if y = 0#64 then BitVec.allOnes 64 else BitVec.ofNat 64 (x.toNat / y.toNat)),
       (Instr.rem, 18, fun x y => BitVec.srem x y),
       (Instr.remu, 18, fun x y => BitVec.ofNat 64 (x.toNat % y.toNat)),
       (Instr.slt, 1, fun x y => if x.toInt < y.toInt then 1 else 0),
       (Instr.sltu, 1, fun x y => if x.toNat < y.toNat then 1 else 0),
       (Instr.min, 1, fun x y => if x.toInt ≤ y.toInt then x else y),
       (Instr.max, 1, fun x y => if x.toInt ≤ y.toInt then y else x)] :
       List ((BitVec 6 → BitVec 6 → BitVec 6 → BitVec 3 → Instr) × Nat × (Word → Word → Word))),
     ∀ (d a b : BitVec 6) (idle : BitVec 3) (s : State),
     s.mayIssue (w.1 d a b idle) 0 → s.room →
     d.toNat < s.ctx.sregs → a.toNat < s.ctx.sregs → b.toNat < s.ctx.sregs →
     let x := s.ctx.rs a.toNat
     let y := s.ctx.rs b.toNat
     exec (w.1 d a b idle) s = .next (s.afterIssue (w.1 d a b idle) 0 idle.toNat
       { ctx := s.ctx, script := [(s.ctx.ctime + w.2.1 * s.ctx.div 0, 2, .sreg d.toNat (w.2.2 x y))]
         a := x.zeroExtend 1024, b := y.zeroExtend 1024 }))
  ∧ ((∀ w ∈ ([(Instr.addi, fun x m => x + m), (Instr.andi, fun x m => x &&& m), (Instr.ori, fun x m => x ||| m),
         (Instr.xori, fun x m => x ^^^ m), (Instr.slti, fun x m => if x.toInt < m.toInt then 1 else 0)] :
         List ((BitVec 6 → BitVec 6 → BitVec 11 → BitVec 3 → Instr) × (Word → Word → Word))),
       ∀ (d a : BitVec 6) (m : BitVec 11) (idle : BitVec 3) (s : State),
       s.mayIssue (w.1 d a m idle) 0 → s.room → d.toNat < s.ctx.sregs → a.toNat < s.ctx.sregs →
       let x := s.ctx.rs a.toNat
       exec (w.1 d a m idle) s = .next (s.afterIssue (w.1 d a m idle) 0 idle.toNat
         { ctx := s.ctx, script := [(s.ctx.ctime + s.ctx.div 0, 2, .sreg d.toNat (w.2 x (BitVec.ofInt 64 m.toInt)))]
           a := x.zeroExtend 1024 }))
     ∧ (∀ w ∈ ([(Instr.slli, fun x n => x <<< n), (Instr.srli, fun x n => x >>> n),
         (Instr.srai, fun x n => BitVec.ofInt 64 (x.toInt / 2 ^ n))] :
         List ((BitVec 6 → BitVec 6 → BitVec 6 → BitVec 3 → Instr) × (Word → Nat → Word))),
       ∀ (d a n : BitVec 6) (idle : BitVec 3) (s : State),
       s.mayIssue (w.1 d a n idle) 0 → s.room → d.toNat < s.ctx.sregs → a.toNat < s.ctx.sregs →
       let x := s.ctx.rs a.toNat
       exec (w.1 d a n idle) s = .next (s.afterIssue (w.1 d a n idle) 0 idle.toNat
         { ctx := s.ctx, script := [(s.ctx.ctime + s.ctx.div 0, 2, .sreg d.toNat (w.2 x n.toNat))]
           a := x.zeroExtend 1024 })))

/-- INSW (R91): its encoding, the bits it replaces and keeps, that four of them build any constant, and that with D = 0
nothing is written. -/
def Obligations.InsertWords : Prop :=
  let put (sh : Nat) (m : BitVec 16) (x v : Word) : Prop :=
    ∀ j, j < 64 → v.getLsbD j = if sh ≤ j ∧ j < sh + 16 then m.getLsbD (j - sh) else x.getLsbD j
  (∀ w ∈ ([(Instr.insw0, 0x09, 0), (Instr.insw16, 0x0A, 16), (Instr.insw32, 0x0B, 32), (Instr.insw48, 0x0C, 48)] :
      List ((BitVec 6 → BitVec 16 → BitVec 3 → Instr) × Nat × Nat)),
    ∀ (d : BitVec 6) (m : BitVec 16) (idle : BitVec 3) (s : State),
    decodeWord .sq (w.2.1 * 2 ^ 26 + d.toNat * 2 ^ 20 + m.toNat * 2 ^ 4 + idle.toNat) = .ok (w.1 d m idle)
    ∧ (s.mayIssue (w.1 d m idle) 0 → s.room → d.toNat < s.ctx.sregs →
        ∃ v, put w.2.2 m (s.ctx.rs d.toNat) v ∧
          exec (w.1 d m idle) s = .next (s.afterIssue (w.1 d m idle) 0 idle.toNat
            { ctx := s.ctx, script := [(s.ctx.ctime + s.ctx.div 0, 2, .sreg d.toNat v)]
              a := (s.ctx.rs d.toNat).zeroExtend 1024 })))
  ∧ (∀ c x v0 v1 v2 v3 : Word, put 0 (c.extractLsb' 0 16) x v0 → put 16 (c.extractLsb' 16 16) v0 v1 →
      put 32 (c.extractLsb' 32 16) v1 v2 → put 48 (c.extractLsb' 48 16) v2 v3 → v3 = c)
  ∧ ∀ (c : Ctx) (v : Word), c.ws 0 v = c

/-! ### The sequencer's memory words -/

/-- LD, ST, HLD and HST in the kernel's own scratchpad and, three ticks later and in the lender's scratchpad, in the lent
window (R86, R88, R92, R93, R102, R126, R245, R266): the place read or stored to, and when; a load of data that cannot be
decoded raises 0x0B, and the read counts. -/
def Obligations.ScratchpadWords : Prop :=
  ∀ (s : State) (addr : Word) (off n lent : Nat) (loc : Loc) (idle : BitVec 3), off < 2 ^ 21 → off % n = 0 → s.room →
    ((addr.toNat = 8 * 2 ^ 60 + off ∧ off + n ≤ s.ctx.spmSize ∧ loc = s.ownLoc off ∧ lent = 0)
      ∨ (addr.toNat = 9 * 2 ^ 60 + off ∧ off + n ≤ s.ctx.lentSize ∧ lent = 3
        ∧ loc = { mem := .spm, unit := s.ctx.lenders.getD 0 0, off := off })) →
    let at_ (k : Nat) : Nat := s.ctx.ctime + (k + lent) * s.ctx.div 0
    let good := ∀ l ∈ loc.run n, s.badAt l = false
    (∀ (d a : BitVec 6) (oc o : BitVec 4) (z : BitVec 2) (g : BitVec 1),
      let i := Instr.ld d a oc z g o idle
      addr = s.ctx.rs a.toNat + BitVec.ofInt 64 (o.toInt * 2 ^ z.toNat) → n = 2 ^ z.toNat →
      d.toNat < s.ctx.sregs → a.toNat < s.ctx.sregs → s.mayIssue i 0 →
      (good → exec i s = .next (s.afterIssue i 0 idle.toNat
        { ctx := s.ctx, script := [(at_ 1, 1, .rdS d.toNat loc n (g = 1#1) (at_ 5))]
          a := (s.ctx.rs a.toNat).zeroExtend 1024 }))
      ∧ (¬ good → exec i s = .next ((s.touch (loc.run n)).trap 0 0x0B 0 addr)))
    ∧ (∀ (d a : BitVec 6) (oc o : BitVec 4) (z : BitVec 2),
      let i := Instr.st d a oc z o idle
      addr = s.ctx.rs a.toNat + BitVec.ofInt 64 (o.toInt * 2 ^ z.toNat) → n = 2 ^ z.toNat →
      d.toNat < s.ctx.sregs → a.toNat < s.ctx.sregs → s.mayIssue i 0 →
      exec i s = .next (s.afterIssue i 0 idle.toNat
        { ctx := s.ctx, script := [(at_ 4, 0, .store (bytePieces loc n) ((s.ctx.rs d.toNat).zeroExtend 2048))]
          a := (s.ctx.rs a.toNat).zeroExtend 1024, c := (s.ctx.rs d.toNat).zeroExtend 1024 }))
    ∧ (∀ (h : BitVec 4) (a : BitVec 6),
      let i := Instr.hld h a idle
      addr = s.ctx.rs a.toNat → n = 32 → a.toNat < s.ctx.sregs → s.mayIssue i 0 →
      (good → exec i s = .next (s.afterIssue i 0 idle.toNat
        { ctx := s.ctx, script := [(at_ 1, 1, .rdH h.toNat loc (at_ 5))], a := addr.zeroExtend 1024 }))
      ∧ (¬ good → exec i s = .next ((s.touch (loc.run 32)).trap 0 0x0B 0 addr)))
    ∧ (∀ (h : BitVec 4) (a : BitVec 6),
      let i := Instr.hst h a idle
      addr = s.ctx.rs a.toNat → n = 32 → a.toNat < s.ctx.sregs → s.mayIssue i 0 →
      exec i s = .next (s.afterIssue i 0 idle.toNat
        { ctx := s.ctx, script := [(at_ 4, 0, .store (bytePieces loc 32) ((s.ctx.h.get h.toNat).zeroExtend 2048))]
          a := addr.zeroExtend 1024, c := (s.ctx.h.get h.toNat).zeroExtend 1024 }))

/-- The same words in the die's Pantry and at a virtual address whose page is cached (R86, R88, R92, R126, R263, R264, R319): a
load freezes the core from issue + 1; a store is an outward action, of one part in each single-copy-atomic unit that it
touches, performed at issue + 4 or, where earlier accesses of its class or of oc15 stand later, with the last of them. -/
def Obligations.FarWords : Prop :=
  ∀ (s : State) (addr : Word) (off n : Nat) (loc : Loc) (used : List TlbE) (load : Bool) (idle : BitVec 3), off % n = 0 →
    s.room →
    ((addr.toNat = 10 * 2 ^ 60 + off ∧ off < 2 ^ 26 ∧ loc = { mem := .pantry, unit := dieOf s.focus, off := off } ∧ used = [])
      ∨ (addr.toNat = off ∧ off < 2 ^ 52 ∧ s.invalidating s.ctx.asid.toNat off = false ∧ ∃ e,
          s.me.lookup s.ctx.asid.toNat off = .page e ∧ (if load then e.rd else e.wr) = true ∧ loc = e.place off ∧ used = [e])) →
    let at_ (k : Nat) : Nat := s.ctx.ctime + k * s.ctx.div 0
    let good := ∀ l ∈ loc.run n, s.badAt l = false
    (∀ cls, s.ctx.ctime ≤ s.ctx.sq.due → at_ 4 ≤ outEdge s.ctx cls)
    ∧ ((∀ f ∈ s.ctx.flights, f.strm ≠ 0) → s.ctx.ctime ≤ s.ctx.sq.due → ∀ cls, outEdge s.ctx cls = at_ 4)
    ∧ (∀ cls, ∀ f ∈ s.ctx.flights, f.strm = 0 → cls = 15 ∨ classOf f = cls ∨ classOf f = 15 →
        ∀ e ∈ f.script, (∃ ps v, e.2.2 = .store ps v) → e.1 ≤ outEdge s.ctx cls)
    ∧ (∀ (d a : BitVec 6) (oc o : BitVec 4) (z : BitVec 2) (g : BitVec 1),
      let i := Instr.ld d a oc z g o idle
      load = true → addr = s.ctx.rs a.toNat + BitVec.ofInt 64 (o.toInt * 2 ^ z.toNat) → n = 2 ^ z.toNat →
      d.toNat < s.ctx.sregs → a.toNat < s.ctx.sregs → s.mayIssue i 0 →
      (good → exec i s = .next (s.afterIssue i 0 idle.toNat
        { ctx := s.ctx, script := [(at_ 1, 1, .far d.toNat loc n (g = 1#1) false [])], used := used
          a := (s.ctx.rs a.toNat).zeroExtend 1024 }))
      ∧ (¬ good → exec i s = .next ((s.touch (loc.run n)).trap 0 0x0B 0 addr)))
    ∧ (∀ (d a : BitVec 6) (oc o : BitVec 4) (z : BitVec 2),
      let i := Instr.st d a oc z o idle
      load = false → addr = s.ctx.rs a.toNat + BitVec.ofInt 64 (o.toInt * 2 ^ z.toNat) → n = 2 ^ z.toNat →
      d.toNat < s.ctx.sregs → a.toNat < s.ctx.sregs → s.mayIssue i 0 →
      exec i s = .next (s.afterIssue i 0 idle.toNat
        { ctx := s.ctx, used := used
          script := [(outEdge s.ctx oc.toNat, 4, .out (.store loc (leBytes n (s.ctx.rs d.toNat).toNat) oc))]
          a := (s.ctx.rs a.toNat).zeroExtend 1024, c := (s.ctx.rs d.toNat).zeroExtend 1024 }))
    ∧ (∀ (h : BitVec 4) (a : BitVec 6),
      let i := Instr.hld h a idle
      load = true → addr = s.ctx.rs a.toNat → n = 32 → a.toNat < s.ctx.sregs → s.mayIssue i 0 →
      (good → exec i s = .next (s.afterIssue i 0 idle.toNat
        { ctx := s.ctx, script := [(at_ 1, 1, .far h.toNat loc 32 false true [])], used := used
          a := addr.zeroExtend 1024 }))
      ∧ (¬ good → exec i s = .next ((s.touch (loc.run 32)).trap 0 0x0B 0 addr)))
    ∧ (∀ (h : BitVec 4) (a : BitVec 6),
      let i := Instr.hst h a idle
      load = false → addr = s.ctx.rs a.toNat → n = 32 → a.toNat < s.ctx.sregs → s.mayIssue i 0 →
      let bs := leBytes 32 (s.ctx.h.get h.toNat).toNat
      let part (k : Nat) : Loc := { loc with off := loc.off + 8 * k }
      exec i s = .next (s.afterIssue i 0 idle.toNat
        { ctx := s.ctx, used := used
          script := if loc.mem = .host ∨ loc.mem = .cxl then
              [(outEdge s.ctx 15, 4, .out (.store (part 0) (bs.take 8) 15)),
               (outEdge s.ctx 15, 4, .out (.piece (part 1) ((bs.drop 8).take 8) 15)),
               (outEdge s.ctx 15, 4, .out (.piece (part 2) ((bs.drop 16).take 8) 15)),
               (outEdge s.ctx 15, 4, .out (.piece (part 3) ((bs.drop 24).take 8) 15))]
            else [(outEdge s.ctx 15, 4, .out (.store loc bs 15))]
          a := addr.zeroExtend 1024, c := (s.ctx.h.get h.toNat).zeroExtend 1024 }))

/-- The faults of LD, ST, HLD and HST in the order of R126 (R92, R93, R102, R242), and the freeze of a translation miss; the
word neither reads nor writes.  A page fault waits for what the Taster withholds (R399).  Window 0xC, of service cores, is left to its own rule (R412). -/
def Obligations.AccessFaults : Prop :=
  ∀ (s : State) (i : Instr) (addr : Word) (n : Nat) (load : Bool) (regs : List Nat),
    ((∃ d a oc z g o idle, i = Instr.ld d a oc z g o idle
        ∧ addr = s.ctx.rs a.toNat + BitVec.ofInt 64 (o.toInt * 2 ^ z.toNat) ∧ n = 2 ^ z.toNat ∧ load = true
        ∧ regs = [d.toNat, a.toNat])
      ∨ (∃ d a oc z o idle, i = Instr.st d a oc z o idle
        ∧ addr = s.ctx.rs a.toNat + BitVec.ofInt 64 (o.toInt * 2 ^ z.toNat) ∧ n = 2 ^ z.toNat ∧ load = false
        ∧ regs = [d.toNat, a.toNat])
      ∨ (∃ h a idle, i = Instr.hld h a idle ∧ addr = s.ctx.rs a.toNat ∧ n = 32 ∧ load = true ∧ regs = [a.toNat])
      ∨ (∃ h a idle, i = Instr.hst h a idle ∧ addr = s.ctx.rs a.toNat ∧ n = 32 ∧ load = false ∧ regs = [a.toNat])) →
    i.wf = true →
    let win := addr.toNat / 2 ^ 60
    let off := addr.toNat % 2 ^ 60
    let hole := win ∉ [0x0, 0x8, 0x9, 0xA, 0xC] ∨ (win = 0x0 ∧ 2 ^ 52 ≤ off) ∨ (win = 0x8 ∧ 2 ^ 21 ≤ off)
      ∨ (win = 0x9 ∧ (2 ^ 21 ≤ off ∨ s.ctx.lentSize = 0)) ∨ (win = 0xA ∧ 2 ^ 26 ≤ off)
    let past := (win = 0x8 ∧ s.ctx.spmSize < off + n) ∨ (win = 0x9 ∧ s.ctx.lentSize < off + n)
    let virt := win = 0x0 ∧ off < 2 ^ 52 ∧ s.invalidating s.ctx.asid.toNat off = false
    let inside := ∀ r ∈ regs, r < s.ctx.sregs
    (addr.toNat % n ≠ 0 → exec i s = .next (s.trap 0 0x05 0 addr))
    ∧ (addr.toNat % n = 0 → hole → exec i s = .next (s.trap 0 0x03 0 addr))
    ∧ (addr.toNat % n = 0 → ¬ hole → past → exec i s = .next (s.trap 0 0x02 0 addr))
    ∧ (addr.toNat % n = 0 → ¬ hole → win ≠ 0x0 → win ≠ 0xC → ¬ inside → exec i s = .next (s.trap 0 0x02 0 addr))
    ∧ (addr.toNat % n = 0 → virt → inside → s.me.lookup s.ctx.asid.toNat off = .absent →
        (s.me.tasteBad = 0 ∨ State.untasted s.ctx = false → exec i s = .next (s.trap 0 0x04 0 addr))
        ∧ (s.me.tasteBad ≠ 0 → State.untasted s.ctx = true → ∃ t, s.tasterHolds = some t ∧ exec i s = .next t))
    ∧ (addr.toNat % n = 0 → virt → inside → s.me.lookup s.ctx.asid.toNat off = .miss →
        exec i s = .next (s.freezeOn 0 (.xlat s.ctx.asid.toNat off)))
    ∧ (∀ e, addr.toNat % n = 0 → virt → s.me.lookup s.ctx.asid.toNat off = .page e →
        (if load then e.rd else e.wr) = false → exec i s = .next (s.trap 0 0x03 0 addr))

/-! ### Branches, jumps and loops -/

/-- Branches and jumps (R86, R95, R96, R101): condition, target and link; the loops whose body does not hold the target are
left; the cause of a misaligned register target, which neither transfers nor links. -/
def Obligations.TransferWords : Prop :=
  (∀ w ∈ ([(Instr.beq, fun x y => decide (x = y)), (Instr.bne, fun x y => decide (x ≠ y)),
       (Instr.blt, fun x y => decide (x.toInt < y.toInt)), (Instr.bge, fun x y => decide (y.toInt ≤ x.toInt)),
       (Instr.bltu, fun x y => decide (x.toNat < y.toNat)), (Instr.bgeu, fun x y => decide (y.toNat ≤ x.toNat))] :
       List ((BitVec 6 → BitVec 6 → BitVec 11 → BitVec 3 → Instr) × (Word → Word → Bool))),
     ∀ (a b : BitVec 6) (o : BitVec 11) (idle : BitVec 3) (s : State),
     let i := w.1 a b o idle
     s.mayIssue i 0 → a.toNat < s.ctx.sregs → b.toNat < s.ctx.sregs →
     let t := s.ctx.sq.pc + BitVec.ofInt 64 (4 * o.toInt)
     (w.2 (s.ctx.rs a.toNat) (s.ctx.rs b.toNat) = true → exec i s = .next (s.afterIssue i 0 idle.toNat
         { ctx := { s.ctx with sq := { s.ctx.sq with
             loops := s.ctx.sq.loops.dropWhile fun l => !(decide (l.start ≤ t.toNat) && decide (t.toNat ≤ l.stop)) } }
           jump := some t }))
     ∧ (w.2 (s.ctx.rs a.toNat) (s.ctx.rs b.toNat) = false →
         exec i s = .next (s.afterIssue i 0 idle.toNat { ctx := s.ctx })))
  ∧ (∀ (s : State) (idle : BitVec 3),
       let leave (t : Word) : Ctx := { s.ctx with sq := { s.ctx.sq with
         loops := s.ctx.sq.loops.dropWhile fun l => !(decide (l.start ≤ t.toNat) && decide (t.toNat ≤ l.stop)) } }
       let linked : List (Nat × Nat × Eff) := [(s.ctx.ctime + s.ctx.div 0, 2, .sreg 63 (s.ctx.sq.pc + 4))]
       (∀ o : BitVec 23,
         let t := s.ctx.sq.pc + BitVec.ofInt 64 (4 * o.toInt)
         (s.mayIssue (.j o idle) 0 →
           exec (.j o idle) s = .next (s.afterIssue (.j o idle) 0 idle.toNat { ctx := leave t, jump := some t }))
         ∧ (s.mayIssue (.jal o idle) 0 → s.room → 63 < s.ctx.sregs →
           exec (.jal o idle) s = .next (s.afterIssue (.jal o idle) 0 idle.toNat
             { ctx := s.ctx, jump := some t, script := linked })))
       ∧ ∀ (a : BitVec 6) (m : BitVec 11), a.toNat < s.ctx.sregs →
         let t := s.ctx.rs a.toNat + BitVec.ofInt 64 m.toInt
         (s.mayIssue (.jr a m idle) 0 → t.toNat % 4 = 0 →
           exec (.jr a m idle) s = .next (s.afterIssue (.jr a m idle) 0 idle.toNat { ctx := leave t, jump := some t }))
         ∧ (s.mayIssue (.jalr a m idle) 0 → s.room → 63 < s.ctx.sregs → t.toNat % 4 = 0 →
           exec (.jalr a m idle) s = .next (s.afterIssue (.jalr a m idle) 0 idle.toNat
             { ctx := s.ctx, jump := some t, script := linked }))
         ∧ (t.toNat % 4 ≠ 0 → (Instr.jr a m idle).wf = true → exec (.jr a m idle) s = .next (s.trap 0 0x05 0 t))
         ∧ (t.toNat % 4 ≠ 0 → (Instr.jalr a m idle).wf = true → exec (.jalr a m idle) s = .next (s.trap 0 0x05 0 t)))

/-- LOOP and LOOPI (R98, R100, R152): the count, that of a drained loop where LOOPSAVE names this address; what is pushed and
where the sequencer goes; and the causes of a loop that R100 forbids. -/
def Obligations.LoopWords : Prop :=
  ∀ (s : State) (i : Instr) (own e idle : Nat) (regs : List Nat),
    ((∃ a v j, i = Instr.loop a v j ∧ own = (s.ctx.rs a.toNat).toNat ∧ e = v.toNat ∧ regs = [a.toNat] ∧ idle = j.toNat)
      ∨ (∃ n v j, i = Instr.loopi n v j ∧ own = n.toNat ∧ e = v.toNat ∧ regs = [] ∧ idle = j.toNat)) →
    i.wf = true →
    let p := s.ctx.sq.pc.toNat
    let stop := p + 4 * e
    let op := s.natAt (s.spmLocs stop 4) / 2 ^ 26 % 64
    let fn := s.natAt (s.spmLocs stop 4) / 2 ^ 3 % 32
    let save := s.ctx.sq.save.toNat
    let held := s.ctx.sq.save.getLsbD 63 = true ∧ save / 2 ^ 40 % 2 ^ 21 = p
    let count := if held then s.ctx.saveh.toNat % 2 ^ 32 * 2 ^ 32 + save % 2 ^ 32 else own
    let x := if held then { s.ctx.sq with save := s.ctx.sq.save &&& 0x7FFFFFFFFFFFFFFF#64 } else s.ctx.sq
    let full := 4 ≤ s.ctx.sq.loops.length ∨ (∃ l ls, s.ctx.sq.loops = l :: ls ∧ l.stop < stop)
      ∨ (stop + 4 ≤ s.ctx.spmSize ∧ ((0x18 ≤ op ∧ op ≤ 0x23) ∨ (op = 0x3E ∧ fn ∈ [2, 3, 4])))
    let inside := (∀ r ∈ regs, r < s.ctx.sregs) ∧ stop + 4 ≤ s.ctx.spmSize
    (full → exec i s = .next (s.trap 0 0x08 0 0))
    ∧ (¬ full → ¬ inside → exec i s = .next (s.trap 0 0x02 0 0))
    ∧ (¬ full → inside → s.mayIssue i 0 → count = 0 → exec i s = .next (s.afterIssue i 0 idle
        { ctx := { s.ctx with sq := x }, jump := some (BitVec.ofNat 64 (stop + 4)) }))
    ∧ (¬ full → inside → s.mayIssue i 0 → count ≠ 0 → exec i s = .next (s.afterIssue i 0 idle
        { ctx := { s.ctx with sq := { x with
            loops := { start := p + 4, stop := stop, rem := count, opener := p } :: s.ctx.sq.loops } }
          jump := some (BitVec.ofNat 64 (p + 4)) }))

/-! ### Handles, descriptors and the loop-nest table -/

/-- DPUT and DGET (R103): their encodings, the entry written with its reserved bits zero, seen from issue + 2 (R54), whatever
the entry says; and the handle written at issue + 1. -/
def Obligations.DescriptorWords : Prop :=
  ∀ (s : State) (h : BitVec 4) (n : BitVec 8) (idle : BitVec 3),
    decodeWord .sq (0x2A * 2 ^ 26 + h.toNat * 2 ^ 22 + n.toNat * 2 ^ 8 + idle.toNat) = .ok (.dput h n idle)
    ∧ decodeWord .sq (0x2B * 2 ^ 26 + h.toNat * 2 ^ 22 + n.toNat * 2 ^ 8 + idle.toNat) = .ok (.dget h n idle)
    ∧ (s.mayIssue (.dput h n idle) 0 → s.room → ∃ v : BitVec 256,
        (∀ j, j < 256 → v.getLsbD j =
          (!(decide (252 ≤ j ∧ j ≤ 254) || decide (192 ≤ j ∧ j ≤ 193) || decide (112 ≤ j ∧ j ≤ 127))
            && (s.ctx.h.get h.toNat).getLsbD j))
        ∧ exec (.dput h n idle) s = .next (s.afterIssue (.dput h n idle) 0 idle.toNat
            { ctx := s.ctx, script := [(s.ctx.ctime + 2 * s.ctx.div 0, 2, .desc n.toNat v)]
              a := (s.ctx.h.get h.toNat).zeroExtend 1024 }))
    ∧ (s.mayIssue (.dget h n idle) 0 → s.room →
        exec (.dget h n idle) s = .next (s.afterIssue (.dget h n idle) 0 idle.toNat
          { ctx := s.ctx, script := [(s.ctx.ctime + s.ctx.div 0, 2, .hreg h.toNat (s.ctx.desc.get n.toNat))] }))

/-- HSET and HGET (R51, R104): each field's bits, kept and replaced, zero- or sign-extended; and LNTW (R105), whose field of the
shadow table takes the low bits of the register two ticks on while the live table stays. -/
def Obligations.FieldWords : Prop :=
  (∀ f ∈ ([(0, 255, 255), (1, 251, 248), (2, 247, 246), (3, 245, 194), (4, 191, 160), (5, 159, 128), (6, 111, 96),
       (7, 95, 80), (8, 79, 64), (9, 63, 56), (10, 55, 52), (11, 51, 0)] : List (Nat × Nat × Nat)),
     ∀ (s : State) (h : BitVec 4) (a : BitVec 6) (idle : BitVec 3), a.toNat < s.ctx.sregs →
     let fld := BitVec.ofNat 4 f.1
     let old := s.ctx.h.get h.toNat
     (s.mayIssue (.hset h a fld idle) 0 → ∃ v : BitVec 256,
       (∀ j, j < 256 → v.getLsbD j =
         if f.2.2 ≤ j ∧ j ≤ f.2.1 then (s.ctx.rs a.toNat).getLsbD (j - f.2.2) else old.getLsbD j)
       ∧ exec (.hset h a fld idle) s = .next (s.afterIssue (.hset h a fld idle) 0 idle.toNat
           { ctx := { s.ctx with h := s.ctx.h.set h.toNat v } }))
     ∧ (s.mayIssue (.hget h a fld idle) 0 → s.room → ∃ v : Word,
       (∀ j, j < 64 → v.getLsbD j =
         if j ≤ f.2.1 - f.2.2 then old.getLsbD (f.2.2 + j) else (f.1 = 4 || f.1 = 5) && old.getLsbD f.2.1)
       ∧ exec (.hget h a fld idle) s = .next (s.afterIssue (.hget h a fld idle) 0 idle.toNat
           { ctx := s.ctx, script := [(s.ctx.ctime + s.ctx.div 0, 2, .sreg a.toNat v)], a := old.zeroExtend 1024 })))
  ∧ ((∀ (s : State) (a : BitVec 6) (l f : BitVec 3) (idle : BitVec 3), a.toNat < s.ctx.sregs → s.room →
       s.mayIssue (.lntw a l f idle) 0 →
       exec (.lntw a l f idle) s = .next (s.afterIssue (.lntw a l f idle) 0 idle.toNat
         { ctx := s.ctx, script := [(s.ctx.ctime + 2 * s.ctx.div 0, 2, .lnt l.toNat f.toNat (s.ctx.rs a.toNat))]
           a := (s.ctx.rs a.toNat).zeroExtend 1024 }))
     ∧ ∀ f ∈ ([(0, 143, 128), (1, 127, 96), (2, 95, 64), (3, 63, 32), (4, 31, 0)] : List (Nat × Nat × Nat)),
       ∀ (s : State) (x : Item) (l : Nat) (v : Word), s.landing x → x.eff = .lnt l f.1 v →
         ∃ t, exec .resultLand s = .next t ∧ t.ctx.lnt = s.ctx.lnt ∧ s.onlyMe t ∧ s.sameMemory t
           ∧ (∀ m, m ≠ l → t.ctx.lnts.get m = s.ctx.lnts.get m)
           ∧ ∀ j, j < 144 → (t.ctx.lnts.get l).getLsbD j =
               if f.2.2 ≤ j ∧ j ≤ f.2.1 then v.getLsbD (j - f.2.2) else (s.ctx.lnts.get l).getLsbD j)

/-! ### Streams, waits and barriers -/

/-- FORK (R83, R84, R88, R106, R397): the record as the sequencer's own stores leave it; the streams that EN enables start at
their addresses, each at the first edge of its clock from the record's comparison on, four ticks after issue (the model's
reading of when, log entry 11); the others keep their state.  RDV (R107): the sequencer stands, its mask kept; a mask that names a
stream that does not run, or an opening mask other than EN, raises 0x13. -/
def Obligations.ForkWords : Prop :=
  (∀ (s : State) (a : BitVec 6) (m : BitVec 11) (idle : BitVec 3),
     let i := Instr.fork a m idle
     let off := (s.ctx.rs a.toNat + BitVec.ofInt 64 m.toInt).toNat
     let ls := (s.ownLoc off).run 64
     let r := leNat (ls.map (s.forwarded s.ctx.seq))
     let at4 := s.ctx.ctime + 4 * s.ctx.div 0
     let pcOf (n : Nat) : Nat := r / 2 ^ (32 * (n - 1)) % 2 ^ 21
     let en (n : Nat) : Bool := r.testBit (20 + n)
     s.mayIssue i 0 → s.room → s.ctx.handler = false → a.toNat < s.ctx.sregs → off % 64 = 0 → off + 64 ≤ s.ctx.spmSize →
     (∀ l ∈ ls, s.badAt l = false) → r / 2 ^ 25 % 2 ^ 7 = 0 → r / 2 ^ 53 % 2 ^ 11 = 0 → r / 2 ^ 85 % 2 ^ 11 = 0 → r / 2 ^ 117 % 2 ^ 11 = 0 →
     (∀ n ∈ [1, 2, 3, 4], en n = true →
       (s.ctx.strm n).on = false ∧ pcOf n % (if n = 4 then 16 else 8) = 0 ∧ pcOf n < s.ctx.spmSize) →
     ∃ g : Go, exec i s = .next (s.afterIssue i 0 idle.toNat g)
       ∧ g.script = [(at4, 4, .out (.fork (r / 2 ^ 21 % 16)))] ∧ g.jump = none ∧ g.idle = 0 ∧ g.post = [] ∧ g.seen = ls
       ∧ g.ctx.forked = some (r / 2 ^ 21 % 16) ∧ g.ctx.opened = false ∧ g.ctx.sq = s.ctx.sq
       ∧ { g.ctx with ve := s.ctx.ve, me := s.ctx.me, gu := s.ctx.gu, ld := s.ctx.ld, forked := s.ctx.forked
                      opened := s.ctx.opened } = s.ctx
       ∧ ∀ n ∈ [1, 2, 3, 4], if en n then
           (g.ctx.strm n).on = true ∧ (g.ctx.strm n).pc = BitVec.ofNat 64 (pcOf n) ∧ (g.ctx.strm n).park = .no
             ∧ (0 < s.ctx.div n → s.ctx.div n ∣ (g.ctx.strm n).due ∧ at4 ≤ (g.ctx.strm n).due
                 ∧ (g.ctx.strm n).due < at4 + s.ctx.div n)
         else g.ctx.strm n = s.ctx.strm n)
  ∧ (∀ (s : State) (m : BitVec 4) (idle : BitVec 3),
       let i := Instr.rdv m idle
       let bad := (∃ n, 1 ≤ n ∧ n ≤ 4 ∧ m.getLsbD (n - 1) = true ∧ (s.ctx.strm n).on = false)
         ∨ (∃ en, s.ctx.forked = some en ∧ en ≠ m.toNat)
       s.ctx.handler = false →
       (bad → i.wf = true → exec i s = .next (s.trap 0 0x13 0 0))
       ∧ (¬ bad → s.mayIssue i 0 → exec i s = .next (s.afterIssue i 0 idle.toNat
           { ctx := { s.ctx with sq := { s.ctx.sq with park := .stand }, rdv := m } })))

/-- WAITF (R109, R242, R252) completes when the ring holds n filled entries, and claims nothing; WAITA (R86, R111) when its
condition on the word and the register holds, and writes the word one tick after; each freezes the core until then, and WAITA
also while an earlier outward action of the sequencer waits (R94).  With nothing in flight WAITA's word is the four bytes in
memory. -/
def Obligations.WaitWords : Prop :=
  (∀ (s : State) (n : BitVec 7) (g : BitVec 4) (idle : BitVec 3),
     let i := Instr.waitf n g idle
     let d := Desc.of (s.ctx.desc.get (240 + g.toNat))
     let filled := (s.ctx.rings.get (4 * g.toNat + 1) - s.ctx.rings.get (4 * g.toNat + 2)).toNat
     s.mayIssue i 0 → d.invalid = false → d.dim2 = 1 → d.fm.isBlock = false → d.misaligned = false → d.space ≤ 2 →
     (d.space = 1 → s.ctx.lentSize ≠ 0) → g.toNat < s.ctx.ringsN → n.toNat ≤ d.dim1 →
     (n.toNat ≤ filled → exec i s = .next (s.afterIssue i 0 idle.toNat { ctx := s.ctx }))
     ∧ (filled < n.toNat → exec i s = .next (s.freezeOn 0 (.ringFill g.toNat n.toNat))))
  ∧ (∀ (s : State) (d a b : BitVec 6) (k : BitVec 2) (idle : BitVec 3) (p : Path) (ls : List Loc) (used : List TlbE),
       let i := Instr.waita d a b k idle
       let addr := s.ctx.rs a.toNat
       let w := s.waitWord (firstLoc ls) (decide (p = .lent))
       let x : BitVec 32 := BitVec.ofNat 32 w
       let y : BitVec 32 := (s.ctx.rs b.toNat).setWidth 32
       let holds := (k = 0 ∧ x = y) ∨ (k = 1 ∧ x ≠ y) ∨ (k = 2 ∧ y.toInt ≤ x.toInt) ∨ (k = 3 ∧ y.toNat ≤ x.toNat)
       s.mayIssue i 0 → s.room → addr.toNat % 4 = 0 → s.reach addr 4 false = .at p ls used →
       d.toNat < s.ctx.sregs → a.toNat < s.ctx.sregs → b.toNat < s.ctx.sregs → (∀ l ∈ ls, s.badAt l = false) →
       (orderedBefore s.ctx s.ctx.seq 15 ls = true → exec i s = .next (s.freezeOn 0 .order))
       ∧ (orderedBefore s.ctx s.ctx.seq 15 ls = false → holds → exec i s = .next (s.afterIssue i 0 idle.toNat
           { ctx := s.ctx, a := addr.zeroExtend 1024, b := (s.ctx.rs b.toNat).zeroExtend 1024, used := used, seen := ls
             script := [(min s.ctx.ctime s.ctx.sq.due + s.ctx.div 0, 2, .sreg d.toNat (x.zeroExtend 64))] }))
       ∧ (orderedBefore s.ctx s.ctx.seq 15 ls = false → ¬ holds →
           exec i s = .next (s.freezeOn 0 (.addr (firstLoc ls) k.toNat y)))
       ∧ (s.ctx.flights = [] → w = s.natAt ((firstLoc ls).run 4)))

/-- WAITE (R110): its encoding, that it completes where the bit of the context's event vector is 1 and leaves the bit set, and
that it freezes the core where the bit is 0, until it is 1.  No bit that became 1 earlier during the wait is recorded. -/
def Obligations.WaiteWord : Prop :=
  ∀ (s : State) (e : BitVec 8) (idle : BitVec 3),
    let i := Instr.waite e idle
    decodeWord .sq (0x33 * 2 ^ 26 + e.toNat * 2 ^ 3 + idle.toNat) = .ok i
    ∧ (∀ r, 0 < r → r < 2 ^ 15 →
        ∃ x, decodeWord .sq (0x33 * 2 ^ 26 + r * 2 ^ 11 + e.toNat * 2 ^ 3 + idle.toNat) = .error x)
    ∧ (s.mayIssue i 0 → s.ctxEv s.ctx e.toNat = true →
        ∃ t, exec i s = .next t ∧ t = s.afterIssue i 0 idle.toNat { ctx := { s.ctx with evSeen := [] } }
          ∧ t.ctxEv t.ctx e.toNat = true)
    ∧ (s.mayIssue i 0 → s.ctxEv s.ctx e.toNat = false → s.ctx.evSeen = [] →
        exec i s = .next (s.freezeOn 0 (.event e.toNat)) ∧ s.clears (.event e.toNat) = false)
    ∧ (s.ctxEv s.ctx e.toNat = true → s.clears (.event e.toNat) = true)

/-- BARA and BARW (R88, R112, R113, R242): an arrival is an outward action, behind the earlier accesses of the sequencer, or
freezes the core where the sequencer has arrived in this phase; BARW writes 0 for a phase that completed and 1 for a barrier that broke, and with D = 0 a broken one
raises 0x0C; the bound is tested before membership. -/
def Obligations.BarrierWords : Prop :=
  ∀ (s : State) (d : BitVec 6) (x : BitVec 1) (b : BitVec 6) (idle : BitVec 3),
    let die := decide (x = 1#1)
    let bar := s.bar s.focus die b.toNat
    let me := s.ctx.agent die false
    let declared := b.toNat < (if die then s.ctx.dbarsN else s.ctx.barsN)
    let arrived := me ∈ bar.arrived ∨ (∃ o ∈ outsOf s.ctx, o.2 = .bara die b.toNat)
    let bara := Instr.bara x b idle
    let barw := Instr.barw d x b idle
    (bara.wf = true → ¬ declared → exec bara s = .next (s.trap 0 0x02 0 0))
    ∧ (bara.wf = true → declared → me ∉ bar.members → exec bara s = .next (s.trap 0 0x03 0 0))
    ∧ (s.mayIssue bara 0 → s.room → declared → me ∈ bar.members → (bar.broken = true ∨ ¬ arrived) →
        exec bara s = .next (s.afterIssue bara 0 idle.toNat
          { ctx := s.ctx, script := [(outEdge s.ctx 15, 4, .out (.bara die b.toNat))] }))
    ∧ (bara.wf = true → declared → me ∈ bar.members → bar.broken = false → arrived →
        exec bara s = .next (s.freezeOn 0 (.bara die b.toNat bar.phase)))
    ∧ (declared → d.toNat < s.ctx.sregs →
        let phase := match s.ctx.waitOn with
          | some (key, ph) => if key = barKey die b.toNat then ph else bar.phase
          | none => bar.phase
        let wrote (v : Word) : State := s.afterIssue barw 0 idle.toNat
          { ctx := { s.ctx with evSeen := [], waitOn := none }
            script := [(min s.ctx.ctime s.ctx.sq.due + s.ctx.div 0, 2, .sreg d.toNat v)] }
        let past := ((∃ e ∈ s.ctx.lastArr, e.1 = barKey die b.toNat ∧ e.2 < bar.phase)
            ∧ ¬ ∃ o ∈ outsOf s.ctx, o.2 = .bara die b.toNat) ∨ latchBar die b.toNat ∈ s.ctx.evSeen ∨ phase < bar.phase
        (s.mayIssue barw 0 → s.room → bar.broken = true → d ≠ 0 → exec barw s = .next (wrote 1))
        ∧ (barw.wf = true → bar.broken = true → d = 0 → exec barw s = .next (s.trap 0 0x0C 0 0))
        ∧ (s.mayIssue barw 0 → s.room → bar.broken = false → past → exec barw s = .next (wrote 0))
        ∧ (barw.wf = true → bar.broken = false → ¬ past →
            exec barw s = .next (s.freezeOn 0 (.barw die b.toNat phase))))

/-- EVSET, EVCLR, CSRW, EXIT and FENCE.C (R88, R114, R115, R119, R122, R271): what each leaves to be performed at issue + 4, the
events' behind every store of the sequencer that lands later, and when FENCE.C waits. -/
def Obligations.OutwardWords : Prop :=
  ∀ (s : State) (idle : BitVec 3),
    let at4 := s.ctx.ctime + 4 * s.ctx.div 0
    (∀ e : BitVec 8, s.room →
      (s.mayIssue (.evset e idle) 0 → exec (.evset e idle) s = .next (s.afterIssue (.evset e idle) 0 idle.toNat
        { ctx := s.ctx, script := [(outEdge s.ctx 15, 4, .out (.evset e.toNat))] }))
      ∧ (s.mayIssue (.evclr e idle) 0 → exec (.evclr e idle) s = .next (s.afterIssue (.evclr e idle) 0 idle.toNat
        { ctx := s.ctx, script := [(outEdge s.ctx 15, 4, .out (.evclr e.toNat))] })))
    ∧ (∀ f ∈ s.ctx.flights, f.strm = 0 → ∀ e ∈ f.script, (∃ ps v, e.2.2 = .store ps v) → e.1 ≤ outEdge s.ctx 15)
    ∧ ((∀ f ∈ s.ctx.flights, f.strm ≠ 0) → s.ctx.ctime ≤ s.ctx.sq.due → outEdge s.ctx 15 = at4)
    ∧ (∀ a x : BitVec 6, s.room → a.toNat < s.ctx.sregs → s.mayIssue (.csrw a x idle) 0 →
      exec (.csrw a x idle) s = .next (s.afterIssue (.csrw a x idle) 0 idle.toNat
        { ctx := s.ctx, script := [(at4, 3, .out (.csrw x.toNat (s.ctx.rs a.toNat)))]
          a := (s.ctx.rs a.toNat).zeroExtend 1024 }))
    ∧ (let run := s.ctx.ve.on || s.ctx.me.on || s.ctx.gu.on || s.ctx.ld.on
      (run = false → s.room → s.mayIssue (.exit idle) 0 →
        exec (.exit idle) s = .next (s.afterIssue (.exit idle) 0 idle.toNat
          { ctx := { s.ctx with mode := .exiting }, script := [(at4, 4, .out .exitKernel)] }))
      ∧ (run = true → exec (.exit idle) s = .next (s.trap 0 0x13 0 0)))
    ∧ ∀ (m : BitVec 16) (sco : BitVec 4),
      let i := Instr.fenceC m sco idle
      let free := ∀ o ∈ outsOf s.ctx, ∀ loc bs k, o.2 = .store loc bs k ∨ o.2 = .piece loc bs k → m.getLsbD k.toNat = false
      (s.mayIssue i 0 → free → exec i s = .next (s.afterIssue i 0 idle.toNat { ctx := s.ctx }))
      ∧ (i.wf = true → ¬ free → exec i s = .next (s.freezeOn 0 (.fence m)))

/-- CSRR (R71, R119, R313, R314): what each register reads as, zero-extended, one tick on, where no CSRW waits; CTIME once the
kernel's streams have met.  The replay queue's window is left to its own rule. -/
def Obligations.ReadRegister : Prop :=
  ∀ (s : State) (d x : BitVec 6) (idle : BitVec 3),
    let i := Instr.csrr d x idle
    let f := s.ctx.frame
    let bar := s.bar s.focus (f.bsel.getLsbD 6) (f.bsel.toNat % 64)
    s.mayIssue i 0 → s.room → d.toNat < s.ctx.sregs → (∀ o ∈ outsOf s.ctx, ∀ r v, o.2 ≠ .csrw r v) →
    ∃ v, exec i s = .next (s.afterIssue i 0 idle.toNat
        { ctx := s.ctx, script := [(s.ctx.ctime + s.ctx.div 0, 2, .sreg d.toNat v)] })
      ∧ (x = 0x02 → s.ctx.opened = true → v = BitVec.ofNat 64 s.ctx.ctime)
      ∧ ∀ r ∈ ([(0x00, s.ctx.clkdiv.zeroExtend 64), (0x01, 0x53356), (0x03, s.ctx.sq.save),
          (0x04, s.ctx.trapcause.zeroExtend 64), (0x05, s.ctx.saveh), (0x10, (f.pcs.getD 0 0).zeroExtend 64),
          (0x11, (f.pcs.getD 1 0).zeroExtend 64), (0x12, (f.pcs.getD 2 0).zeroExtend 64),
          (0x13, (f.pcs.getD 3 0).zeroExtend 64), (0x14, (f.pcs.getD 4 0).zeroExtend 64), (0x15, f.addr),
          (0x16, BitVec.ofNat 64 f.time), (0x17, BitVec.ofNat 64 f.replay.length), (0x18, f.rqsel.zeroExtend 64),
          (0x1A, f.vec.zeroExtend 64), (0x1B, f.step.zeroExtend 64), (0x1C, f.bsel.zeroExtend 64),
          (0x1D, BitVec.ofNat 64 (bar.pend % 2 ^ 28 + bar.phase % 256 * 2 ^ 32 + if bar.broken then 2 ^ 40 else 0)),
          (0x1E, f.info), (0x1F, f.scr)] : List (BitVec 6 × Word)), x = r.1 → v = r.2

/-! ### Clocks, schedules, idling, the system group -/

/-- CLKDIV and SWPT (R48, R116, R117, R242, R249): each drains the core; once the divisors have been written, or the switch
point has been passed, the word completes, after a move in the chosen variant at its own entry + 4; and their faults.  The
hint words and YIELD (R65, R120, R303): no operation, but that YIELD with a request pending and an empty loop stack stops
the sequencer at a node boundary. -/
def Obligations.SwitchWords : Prop :=
  (∀ (s : State) (idle : BitVec 3), s.ctx.handler = false →
     (∀ a : BitVec 6, a.toNat < s.ctx.sregs →
       let i := Instr.clkdiv a idle
       let v : BitVec 32 := (s.ctx.rs a.toNat).setWidth 32
       let ok := v &&& 0xE0E0E0E0 = 0 ∧ ∀ k ∈ [0, 8, 16, 24], 4 ≤ v.toNat / 2 ^ k % 32 ∧ v.toNat / 2 ^ k % 32 ≤ 16
       (i.wf = true → ¬ ok → latchClk ∉ s.ctx.evSeen → exec i s = .next (s.trap 0 0x11 0 0))
       ∧ (i.wf = true → ok → latchClk ∉ s.ctx.evSeen → exec i s = .next (s.freezeOn 0 (.clk v)))
       ∧ (s.mayIssue i 0 → latchClk ∈ s.ctx.evSeen →
           exec i s = .next (s.afterIssue i 0 idle.toNat { ctx := { s.ctx with evSeen := [] } })))
     ∧ ∀ n : BitVec 10,
       let i := Instr.swpt n idle
       let points := s.ctx.hdr.toNat / 2 ^ 100 % 2 ^ 11
       (i.wf = true → points ≤ n.toNat → exec i s = .next (s.trap 0 0x02 0 0))
       ∧ (i.wf = true → n.toNat < points → latchMoved ∉ s.ctx.evSeen → latchSwpt ∉ s.ctx.evSeen →
           exec i s = .next (s.freezeOn 0 (.swpt n.toNat)))
       ∧ (s.mayIssue i 0 → n.toNat < points → latchMoved ∉ s.ctx.evSeen → latchSwpt ∈ s.ctx.evSeen →
           exec i s = .next (s.afterIssue i 0 idle.toNat { ctx := { s.ctx with evSeen := [] } }))
       ∧ (s.mayIssue i 0 → n.toNat < points → latchMoved ∈ s.ctx.evSeen →
           exec i s = .next (s.afterIssue i 0 idle.toNat
             { ctx := { s.ctx with evSeen := [] }
               jump := some (BitVec.ofNat 64 (s.ctx.swmap.getD (15 * n.toNat + 5 * s.ctx.variant) 0) + 4) })))
  ∧ (∀ (s : State) (idle : BitVec 3),
       (∀ x : BitVec 23, s.mayIssue (.nop x idle) 0 →
         exec (.nop x idle) s = .next (s.afterIssue (.nop x idle) 0 idle.toNat { ctx := s.ctx }))
       ∧ (let run := s.ctx.ve.on || s.ctx.me.on || s.ctx.gu.on || s.ctx.ld.on
         s.ctx.handler = false →
         (run = true → exec (.yield idle) s = .next (s.trap 0 0x13 0 0))
         ∧ (run = false → s.mayIssue (.yield idle) 0 → (s.ctx.req = none ∨ s.ctx.sq.loops ≠ []) →
             exec (.yield idle) s = .next (s.afterIssue (.yield idle) 0 idle.toNat { ctx := s.ctx }))
         ∧ (run = false → s.mayIssue (.yield idle) 0 → s.ctx.req ≠ none → s.ctx.sq.loops = [] →
             exec (.yield idle) s = .next (s.afterIssue (.yield idle) 0 idle.toNat
               { ctx := { s.ctx with mode := .yielding } }))))

/-- IDLE (R118): its encoding, the spacing of the next instruction (R66), and that nothing else changes but the sequencer's
own stream, what a loop that drains there saves and the streams whose loops are still to drain (R152). -/
def Obligations.IdleWord : Prop :=
  ∀ (s : State) (n : BitVec 23) (idle : BitVec 3),
    decodeWord .sq (0x3D * 2 ^ 26 + n.toNat * 2 ^ 3 + idle.toNat) = .ok (.idle n idle)
    ∧ (s.mayIssue (.idle n idle) 0 → ∃ t, exec (.idle n idle) s = .next t
        ∧ t = s.afterIssue (.idle n idle) 0 idle.toNat { ctx := s.ctx, idle := n.toNat }
        ∧ t.ctx.sq.due = (s.ctx.ctime / s.ctx.div 0 + 1 + idle.toNat + n.toNat) * s.ctx.div 0
        ∧ { t.ctx with sq := s.ctx.sq, saveh := s.ctx.saveh, toDrain := s.ctx.toDrain } = s.ctx ∧ s.onlyMe t ∧ s.sameMemory t)

/-- TRAP n and BKPT (R122, R124, R310, R312, R313): outside a handler and with TFVEC set, the sequencer enters the handler, the
frame keeps the address after the word, the streams' due times, the loops, which do not turn, and what was in flight, and the
rest stays.
RETT (R123, R315): outside a handler 0x03; inside, while an effect of the handler is outstanding, the core freezes; else
handler mode ends, the streams stand as the frame says, core time is TFTIME and the replay queue is in flight again. -/
def Obligations.TrapWords : Prop :=
  (∀ (s : State) (i : Instr) (idle : BitVec 3) (cause info : Nat),
     ((∃ x : BitVec 6, i = .trap x idle ∧ x ≠ 0 ∧ cause = 0x14 ∧ info = x.toNat) ∨ (i = .bkpt idle ∧ cause = 0x0F ∧ info = 0)) →
     s.ctx.handler = false → s.ctx.frame.vec ≠ 0 →
     ∃ t, exec i s = .next t ∧ s.inHandler t 0 cause info
       ∧ t.ctx.frame.pcs.getD 0 0 = (s.ctx.sq.pc + 4).setWidth 21
       ∧ (∀ n, 1 ≤ n → n ≤ 4 → t.ctx.frame.pcs.getD n 0 = (s.ctx.strm n).pc.setWidth 21
           ∧ t.ctx.frame.dues.getD n 0 = (s.ctx.strm n).due ∧ t.ctx.strm n = s.ctx.strm n)
       ∧ t.ctx.frame.dues.getD 0 0 = (s.ctx.ctime / s.ctx.div 0 + 1 + idle.toNat) * s.ctx.div 0
       ∧ t.ctx.frame.loops = s.ctx.sq.loops ∧ t.ctx.frame.replay = s.ctx.flights
       ∧ t.ctx.frame.addr = 0 ∧ t.ctx.frame.info = 0 ∧ t.ctx.freeze = []
       ∧ { t.ctx with frame := s.ctx.frame, trapcause := s.ctx.trapcause, sq := s.ctx.sq, flights := s.ctx.flights
                      handler := s.ctx.handler, freeze := s.ctx.freeze } = s.ctx
       ∧ s.onlyMe t ∧ s.sameMemory t)
  ∧ (∀ (s : State) (idle : BitVec 3),
       (s.ctx.handler = false → exec (.rett idle) s = .next (s.trap 0 0x03 0 0))
       ∧ (s.ctx.handler = true → s.ctx.flights ≠ [] → exec (.rett idle) s = .next (s.freezeOn 0 .rett))
       ∧ (s.ctx.handler = true → s.ctx.flights = [] →
           ∃ t, exec (.rett idle) s = .next t ∧ t.ctx.handler = false ∧ t.ctx.ctime = s.ctx.frame.time
             ∧ t.ctx.flights = s.ctx.frame.replay ∧ t.ctx.sq.loops = s.ctx.frame.loops
             ∧ (∀ n, n ≤ 4 → (t.ctx.strm n).pc = (s.ctx.frame.pcs.getD n 0).zeroExtend 64
                 ∧ (t.ctx.strm n).due = s.ctx.frame.dues.getD n 0 ∧ (t.ctx.strm n).on = s.ctx.frame.ons.getD n false
                 ∧ (t.ctx.strm n).park = s.ctx.frame.parks.getD n .no)
             ∧ { t.ctx with
                   handler := s.ctx.handler, ctime := s.ctx.ctime, flights := s.ctx.flights, hist := s.ctx.hist
                   sq := s.ctx.sq, ve := s.ctx.ve, me := s.ctx.me, gu := s.ctx.gu, ld := s.ctx.ld
                   frame := s.ctx.frame } = s.ctx
             ∧ s.onlyMe t ∧ s.sameMemory t))

/-- LAUNCH (R86, R88, R121, R126, R287, R294): the entry's bytes are read at issue as the sequencer's own stores leave them and
the submission is an outward action; a node that is none, or that the kernel may not name, raises 0x03. -/
def Obligations.LaunchWord : Prop :=
  ∀ (s : State) (d a : BitVec 6) (idle : BitVec 3) (p p2 : Path) (ls ls2 : List Loc) (used used2 : List TlbE),
    let i := Instr.launch d a idle
    let addr := s.ctx.rs a.toNat
    let cut := 2 ^ 16 - addr.toNat % 2 ^ 16
    let locs := (List.range 160).map fun k =>
      if k < cut then { firstLoc ls with off := (firstLoc ls).off + k }
      else { firstLoc ls2 with off := (firstLoc ls2).off + k - 128 }
    let entry := locs.map s.ownByte
    let node := leNat (((firstLoc ls).run 8).map s.ownByte) % 2 ^ 52
    let named := node / 2 ^ 41 = 0 ∧ Config.poolBase ≤ node ∧ node + 256 ≤ Config.poolBase + Config.poolSize
      ∧ s.ctx.launch ≠ 0 ∧ (node = s.ctx.evNode ∨ (node ≠ s.ctx.launch ∧ s.ctx.launch ∈ s.lineage 9 node))
      ∧ s.effAsid node = s.ctx.asid.toNat ∧ s.depthOf node < 7
    s.ctx.handler = false → addr.toNat % 32 = 0 → s.reach addr 32 false = .at p ls used →
    s.reach (addr + 128) 32 false = .at p2 ls2 used2 → d.toNat < s.ctx.sregs → a.toNat < s.ctx.sregs →
    (∀ l ∈ locs, s.badAt l = false) →
    (¬ named → exec i s = .next (s.trap 0 0x03 0 (BitVec.ofNat 64 node)))
    ∧ (named → i.wf = true → s.room → exec i s = .next (s.afterIssue i 0 idle.toNat
        { ctx := s.ctx, seen := locs, late := true, used := used ++ used2.filter (fun e => !used.contains e)
          script := [(s.ctx.ctime + s.ctx.div 0, 1, .frz .launch),
                     (s.ctx.ctime + 4 * s.ctx.div 0, 4, .out (.launch d.toNat entry node))] }))

/-- Single step (R125): outside a handler and with STEP set and TFVEC not 0, a sequencer word whose issue completes is followed
by the step trap, cause 0x0E, with the word's own effects in the frame.  Stops (R310, R312): a trap taken in handler mode is a
double fault, 0x1A, and one taken with TFVEC 0 stops the core with its own cause: the context stands faulted and not frozen,
and its registers stay; a firmware kernel has no node to report to. -/
def Obligations.StepAndStop : Prop :=
  (∀ (s : State) (d a : BitVec 6) (m : BitVec 11) (idle : BitVec 3),
     let i := Instr.addi d a m idle
     s.ctx.handler = false → s.ctx.frame.step = 1#1 → s.ctx.frame.vec ≠ 0 → s.room → d.toNat < s.ctx.sregs →
     a.toNat < s.ctx.sregs → s.ctx.sq.loops = [] →
     ∃ t, exec i s = .next t ∧ s.inHandler t 0 0x0E 0 ∧ t.ctx.frame.pcs.getD 0 0 = (s.ctx.sq.pc + 4).setWidth 21
       ∧ t.ctx.frame.replay.length = s.ctx.flights.length + 1
       ∧ (∃ f ∈ t.ctx.frame.replay, f.strm = 0
           ∧ f.script = [(s.ctx.ctime + s.ctx.div 0, 2, .sreg d.toNat (s.ctx.rs a.toNat + BitVec.ofInt 64 m.toInt))]))
  ∧ (∀ (s : State) (n cause info : Nat) (addr : BitVec 64), s.me.mark = none → cause ≠ 0x10 → cause < 256 →
       (s.ctx.handler = true ∨ s.ctx.frame.vec = 0 ∨ cause = 0x0A ∨ cause = 0x1A) →
       let t := s.trap n cause info addr
       t.ctx.mode = .faulted ∧ t.ctx.freeze = [] ∧ t.ctx.handler = s.ctx.handler ∧ t.ctx.s = s.ctx.s ∧ t.ctx.v = s.ctx.v
         ∧ (s.ctx.launch = 0 → s.onlyMe t ∧ s.sameMemory t))

/-! ### The vector engine's register words -/

/-- The arithmetic groups (R20, R24, R127, R131): every element of a selected lane is the exact result rounded once, or the
integer wrapped or clamped; minimum and maximum compare by value; flags are those of the elements taking part. -/
def Obligations.VectorArithmetic : Prop :=
  ∀ (t : BitVec 3) (f : VR) (s : State),
    let fm := Fm.ofT t
    let w := fm.bits
    let float := decide (t.toNat < 5)
    let env := envV s.ctx f.rq f.sat
    let k := s.ctx.rk f.km.toNat
    let x (l j : Nat) : Nat := elemAt w (lane (s.operand f .a w) l) j
    let y (l j : Nat) : Nat := elemAt w (lane (s.operand f .b w) l) j
    let z (l j : Nat) : Nat := elemAt w (lane (s.operand f .c w) l) j
    let lat := if float then 4 else 2
    let rounded (r : Val × Flags) : Nat × Flags :=
      ((roundF fm r.1 env.rm env.sat).1, r.2 ||| (roundF fm r.1 env.rm env.sat).2)
    let whole (n : Int) : Nat × Flags :=
      if f.sat = 1#1 ∧ n < -(2 : Int) ^ (w - 1) then (2 ^ (w - 1), fSA)
      else if f.sat = 1#1 ∧ (2 : Int) ^ (w - 1) ≤ n then (2 ^ (w - 1) - 1, fSA)
      else ((n % (2 : Int) ^ w).toNat, 0)
    let isFm (a b : Nat) : Bool := (valOf fm a).isNan || (valOf fm b).isNan
    let result (i : Instr) (ps : List Pos) (el : Nat → Nat → Nat × Flags) : Prop :=
      s.mayIssue i 1 → s.room → s.vrOk f ps true →
        ∃ v fl, (∀ l j, l < 32 → j < 32 / w → k.getLsbD l = true → elemAt w (lane v l) j = (el l j).1)
          ∧ State.flagsOf k (32 / w) el fl ∧ s.vecWrites i f ps lat (laneMask k) v fl
    (∀ o ∈ ([(Instr.vadd, Val.add, fun a b => a + b), (Instr.vsub, fun a b => a.add b.neg, fun a b => a - b),
        (Instr.vmul, Val.mul, fun a b => a * b)] :
        List ((BitVec 3 → VR → Instr) × (Val → Val → Val × Flags) × (Int → Int → Int))),
      result (o.1 t f) [.a, .b] fun l j =>
        if float then rounded (o.2.1 (valOf fm (x l j)) (valOf fm (y l j)))
        else whole (o.2.2 (sgn w (x l j)) (sgn w (y l j))))
    ∧ result (.vfma t f) [.a, .b, .c] (fun l j =>
        let p := (valOf fm (x l j)).mul (valOf fm (y l j))
        let q := p.1.add (valOf fm (z l j))
        if (valOf fm (z l j)).isNan then rounded (.nan, 0) else rounded (q.1, p.2 ||| q.2))
    ∧ result (.vmin t f) [.a, .b] (fun l j =>
        if float then
          if isFm (x l j) (y l j) then (fm.nanBits, 0)
          else
            let c := (valOf fm (x l j)).cmp (valOf fm (y l j))
            if c < 0 then (x l j, 0) else if 0 < c then (y l j, 0)
            else if !(valOf fm (x l j)).sign && (valOf fm (y l j)).sign then (y l j, 0) else (x l j, 0)
        else if sgn w (x l j) ≤ sgn w (y l j) then (x l j, 0) else (y l j, 0))
    ∧ result (.vmax t f) [.a, .b] (fun l j =>
        if float then
          if isFm (x l j) (y l j) then (fm.nanBits, 0)
          else
            let c := (valOf fm (x l j)).cmp (valOf fm (y l j))
            if c < 0 then (y l j, 0) else if 0 < c then (x l j, 0)
            else if (valOf fm (x l j)).sign && !(valOf fm (y l j)).sign then (y l j, 0) else (x l j, 0)
        else if sgn w (x l j) ≤ sgn w (y l j) then (y l j, 0) else (x l j, 0))

/-- The F32 functions (R127, R132): the exact result of each lane rounded once; and the special operands, each function's result
and flags, in every rounding mode without saturation. -/
def Obligations.VectorFunctions : Prop :=
  (∀ (f : VR) (s : State),
     let env := envV s.ctx f.rq f.sat
     let k := s.ctx.rk f.km.toNat
     let x (l : Nat) : Nat := lane (s.operand f .a 32) l
     let y (l : Nat) : Nat := lane (s.operand f .b 32) l
     let rounded (r : Val × Flags) : Nat × Flags :=
       ((roundF .fp32 r.1 env.rm env.sat).1, r.2 ||| (roundF .fp32 r.1 env.rm env.sat).2)
     let result (i : Instr) (ps : List Pos) (lat : Nat) (el : Nat → Nat × Flags) : Prop :=
       s.mayIssue i 1 → s.room → s.vrOk f ps true →
         ∃ v fl, (∀ l, l < 32 → k.getLsbD l = true → lane v l = (el l).1) ∧ State.flagsOf k 1 (fun l _ => el l) fl
           ∧ s.vecWrites i f ps lat (laneMask k) v fl
     (∀ o ∈ ([(Instr.vsqrt, 12, vsqrtV), (Instr.vrcp, 8, vrcpV), (Instr.vrsq, 8, vrsqV), (Instr.vexp2, 8, vexp2V),
         (Instr.vlog2, 8, vlog2V)] : List ((VR → Instr) × Nat × (Val → Val × Flags))),
       result (o.1 f) [.a] o.2.1 fun l => rounded (o.2.2 (valOf .fp32 (x l))))
     ∧ result (.vdiv f) [.a, .b] 12 (fun l => rounded ((valOf .fp32 (x l)).div (valOf .fp32 (y l))))
     ∧ result (.vabs f) [.a] 2 (fun l => (if (valOf .fp32 (x l)).isNan then 0x7FC00000 else x l % 2 ^ 31, 0))
     ∧ result (.vneg f) [.a] 2 (fun l =>
         (if (valOf .fp32 (x l)).isNan then 0x7FC00000 else (BitVec.ofNat 32 (x l) ^^^ 0x80000000#32).toNat, 0)))
  ∧ (∀ rm : RMode, ∀ r ∈ ([(vsqrtV, 0x80000000, 0x80000000, 0), (vsqrtV, 0xBF800000, 0x7FC00000, fNV),
         (vsqrtV, 0x7F800000, 0x7F800000, 0), (vrcpV, 0, 0x7F800000, fDZ), (vrcpV, 0x80000000, 0xFF800000, fDZ),
         (vrcpV, 0x7F800000, 0, 0), (vrcpV, 0xFF800000, 0x80000000, 0), (vrsqV, 0, 0x7F800000, fDZ),
         (vrsqV, 0x80000000, 0xFF800000, fDZ), (vrsqV, 0xBF800000, 0x7FC00000, fNV), (vrsqV, 0x7F800000, 0, 0),
         (vexp2V, 0xFF800000, 0, 0), (vexp2V, 0x7F800000, 0x7F800000, 0), (vlog2V, 0, 0xFF800000, fDZ),
         (vlog2V, 0x80000000, 0xFF800000, fDZ), (vlog2V, 0xBF800000, 0x7FC00000, fNV), (vlog2V, 0x7F800000, 0x7F800000, 0),
         (vlog2V, 0x3F800000, 0, 0)] : List ((Val → Val × Flags) × Nat × Nat × Flags)),
       let q := r.1 (valOf .fp32 r.2.1)
       (roundF .fp32 q.1 rm false).1 = r.2.2.1 ∧ q.2 ||| (roundF .fp32 q.1 rm false).2 = r.2.2.2)

/-- A number that a floating format holds is rounded to itself, in every mode, without a flag (R20, R24); a NaN is rounded to
the canonical NaN. -/
def Obligations.RoundExact : Prop :=
  ∀ (f : Fm) (x : Nat) (rm : RMode) (sat : Bool), f.isFloat = true → x < 2 ^ f.bits →
    ((valOf f x).isNan = true → roundF f (valOf f x) rm sat = (f.nanBits, 0))
    ∧ ((valOf f x).isNan = false → (valOf f x).isInf = false → roundF f (valOf f x) rm sat = (x, 0))
    ∧ ((valOf f x).isInf = true → sat = false → roundF f (valOf f x) rm sat = (x, 0))

/-- The logic group, the fixed-point sums and the moves (R17, R127, R133, R134, R135, R146): the value of each selected lane;
none raises a flag.  Compares and masks (R127, R135): bit l of a compare is 1 when lane l takes part and the condition holds
for every element of its container. -/
def Obligations.VectorLogic : Prop :=
  (∀ (f : VR) (s : State),
     let k := s.ctx.rk f.km.toNat
     let x (l : Nat) : BitVec 32 := BitVec.ofNat 32 (lane (s.operand f .a 32) l)
     let y (l : Nat) : BitVec 32 := BitVec.ofNat 32 (lane (s.operand f .b 32) l)
     let scalar : BitVec 32 := (s.ctx.bcast 1 f.bc.toNat).setWidth 32
     let result (i : Instr) (ps : List Pos) (el : Nat → BitVec 32) : Prop :=
       s.mayIssue i 1 → s.room → s.vrOk f ps true →
         ∃ v, (∀ l, l < 32 → k.getLsbD l = true → lane v l = (el l).toNat) ∧ s.vecWrites i f ps 2 (laneMask k) v 0
     (∀ o ∈ ([(Instr.vand, fun a b => a &&& b), (Instr.vor, fun a b => a ||| b), (Instr.vxor, fun a b => a ^^^ b),
         (Instr.vsll, fun a b => a <<< (b &&& 31#32)), (Instr.vsrl, fun a b => a >>> (b &&& 31#32)),
         (Instr.vsra, fun a b => BitVec.ofInt 32 (a.toInt / 2 ^ (b &&& 31#32).toNat)),
         (Instr.radd, fun a b => a + b), (Instr.rsub, fun a b => a - b)] :
         List ((VR → Instr) × (BitVec 32 → BitVec 32 → BitVec 32))),
       result (o.1 f) [.a, .b] fun l => o.2 (x l) (y l))
     ∧ result (.vnot f) [.a] (fun l => ~~~ x l)
     ∧ result (.vsel f) [.a, .b] (fun l => if (s.ctx.rk f.vc.toNat).getLsbD l then x l else y l)
     ∧ result (.vmov f) [.a] (fun l => BitVec.ofNat 32 (lane (s.operand f .a (32 / 2 ^ (f.ma.toNat / 4))) l))
     ∧ result (.vbcast f) [] (fun _ => scalar)
     ∧ result (.viota f) [] (fun l => BitVec.ofNat 32 l + if f.be = 1#1 then scalar else 0)
     ∧ result (.vfromk f) [] (fun l => if (s.ctx.rk f.va.toNat).getLsbD l then 0xFFFFFFFF else 0))
  ∧ (∀ (f : VR) (s : State),
       let k := s.ctx.rk f.km.toNat
       let writes (i : Instr) (c : Ctx) (bit : Nat → Prop) : Prop :=
         ∃ v : BitVec 32, (∀ l, l < 32 → (v.getLsbD l = true ↔ bit l))
           ∧ s.issuesWith i 1 f.i.toNat c [(s.ctx.ctime + 2 * s.ctx.div 1, 2, .kreg f.vd.toNat v)]
       (∀ t : BitVec 3,
         let fm := Fm.ofT t
         let w := fm.bits
         let x (l j : Nat) : Nat := elemAt w (lane (s.operand f .a w) l) j
         let y (l j : Nat) : Nat := elemAt w (lane (s.operand f .b w) l) j
         let less (a b : Nat) : Prop := if t.toNat < 5 then (valOf fm a).cmp (valOf fm b) < 0 else sgn w a < sgn w b
         let holds (a b : Nat) : Prop :=
           if t.toNat < 5 ∧ ((valOf fm a).isNan ∨ (valOf fm b).isNan) then f.vc = 1 ∨ f.vc = 6
           else (f.vc = 0 ∧ ¬ less a b ∧ ¬ less b a) ∨ (f.vc = 1 ∧ (less a b ∨ less b a)) ∨ (f.vc = 2 ∧ less a b)
             ∨ (f.vc = 3 ∧ ¬ less b a) ∨ (f.vc = 4 ∧ less b a) ∨ (f.vc = 5 ∧ ¬ less a b)
         s.mayIssue (.vcmp t f) 1 → s.room → s.vrOk f [.a, .b] false →
           writes (.vcmp t f) (fillAll s.ctx f [.a, .b])
             (fun l => k.getLsbD l = true ∧ ∀ j, j < 32 / w → holds (x l j) (y l j)))
       ∧ (s.mayIssue (.kfromv f) 1 → s.room → s.vrOk f [.a] false →
           writes (.kfromv f) (fillAll s.ctx f [.a]) (fun l => lane (s.operand f .a 32) l ≠ 0))
       ∧ ∀ o ∈ ([(Instr.kand, fun a b => a && b), (Instr.kor, fun a b => a || b), (Instr.kxor, fun a b => a ^^ b),
           (Instr.knot, fun a _ => !a)] : List ((VR → Instr) × (Bool → Bool → Bool))),
         s.mayIssue (o.1 f) 1 → s.room →
           writes (o.1 f) s.ctx
             (fun l => o.2 ((s.ctx.rk f.va.toNat).getLsbD l) ((s.ctx.rk f.vb.toNat).getLsbD l) = true))

/-- Conversions, reductions, scans, compress and dot product (R127, R136, R137, R142 to R145): the latency of each, and its
value as the model's function of its sources after their modifiers; DOT16.E4 writes lanes 0 to 7 alone, VCVTB, VRSUM, VRMAX,
VRMIN, VSCAN and VCOMP.2OF4 write every lane.
The running sum of VSCAN (R34, R143): an element that takes part is the rounded or wrapped sum of the one before and its
source; one that does not takes the running value; of the element types that VSCAN has.
The elements VCOMP.2OF4 keeps (R144): of each group of four two indices, ascending, each of which outranks both others; a
NaN outranks a number, then the larger magnitude, then the lower index; a kept NaN is canonical. -/
def Obligations.VectorAcross : Prop :=
  (∀ (t : BitVec 3) (f : VR) (s : State),
     let k := s.ctx.rk f.km.toNat
     let env := envV s.ctx f.rq f.sat
     let a := srcOf s.ctx f .a
     let b := srcOf s.ctx f .b
     let c := srcOf s.ctx f .c
     let e : Env := { env with km := k }
     let result (i : Instr) (ps : List Pos) (lat : Nat) (r : VRes) : Prop :=
       s.mayIssue i 1 → s.room → s.vrOk f ps true → s.vecWrites i f ps lat r.m r.v r.fl
     result (.vcvt f) [.a] 3 (vcvt f k e a)
     ∧ (result (.vcvtb f) [.a] 6 (vcvtb f e a) ∧ (vcvtb f e a).m = BitVec.allOnes 1024)
     ∧ (result (.vrsum t f) [.a] 8 (vrsum t f k e a) ∧ (vrsum t f k e a).m = BitVec.allOnes 1024)
     ∧ (result (.vrmax t f) [.a] 8 (vrmax t f k a) ∧ (vrmax t f k a).m = BitVec.allOnes 1024
         ∧ (vrmax t f k a).fl = 0)
     ∧ (result (.vrmin t f) [.a] 8 (vrmin t f k a) ∧ (vrmin t f k a).m = BitVec.allOnes 1024
         ∧ (vrmin t f k a).fl = 0)
     ∧ (result (.vscan t f) (if f.vc = 1 then [.a] else [.a, .b]) 36 (vscan t f k e a b)
         ∧ (vscan t f k e a b).m = BitVec.allOnes 1024)
     ∧ (result (.vcomp2of4 f) [.a] 3 (vcomp f a) ∧ (vcomp f a).m = BitVec.allOnes 1024 ∧ (vcomp f a).fl = 0)
     ∧ (result (.dot16E4 f) [.a, .b, .c] 6 (dot16 f k e a b c) ∧ (dot16 f k e a b c).m = laneMask (k &&& 0xFF)))
  ∧ (∀ (t : BitVec 3) (f : VR) (k : BitVec 32) (env : Env) (a b : BitVec 1024), t ≠ 3 → t ≠ 4 →
       let fm := Fm.ofT t
       let w := fm.bits
       let x (j : Nat) : Nat := elemAt w (swzAll f.ma w a).toNat j
       let out (j : Nat) : Nat := elemAt w (vscan t f k env a b).v.toNat j
       let start := if f.vc = 1 then (if t.toNat < 5 then 2 ^ (w - 1) else 0)
         else elemAt w (swzAll f.mb w b).toNat (1024 / w - 1)
       ∀ j, j < 1024 / w →
         let prev := if j = 0 then start else out (j - 1)
         out j = if k.getLsbD (j * w / 32) then (elAdd fm env (f.sat = 1#1) prev (x j)).1 % 2 ^ w else canon fm prev)
  ∧ (∀ (f : VR) (a : BitVec 1024) (g : Nat), f.vc.toNat < 5 →
       let fm := Fm.ofT (f.vc.setWidth 3)
       let w := fm.bits
       let x (i : Nat) : Nat := elemAt w (swzAll f.ma w a).toNat (4 * g + i)
       let nan (i : Nat) : Bool := (valOf fm (x i)).isNan
       let mag (i : Nat) : Val := valOf fm (x i % 2 ^ (w - 1))
       let above (i j : Nat) : Prop :=
         (nan i = true ∧ (nan j = false ∨ i < j))
           ∨ (nan i = false ∧ nan j = false ∧ (0 < (mag i).cmp (mag j) ∨ ((mag i).cmp (mag j) = 0 ∧ i < j)))
       g < 1024 / w / 4 →
       ∃ i j, i < j ∧ j < 4
         ∧ (∀ n, n < 4 → n ≠ i → n ≠ j → above i n ∧ above j n)
         ∧ elemAt w (vcomp f a).v.toNat (2 * g) = (if nan i then fm.nanBits else x i)
         ∧ elemAt w (vcomp f a).v.toNat (2 * g + 1) = (if nan j then fm.nanBits else x j)
         ∧ elemAt 2 ((vcomp f a).v.toNat / 2 ^ 512) (2 * g) = i
         ∧ elemAt 2 ((vcomp f a).v.toNat / 2 ^ 512) (2 * g + 1) = j)

/-! ### The vector engine's memory, tile, moment and control words -/

/-- VLD, VST, QLD and QST (R53, R138 to R140, R191): with a valid descriptor in reach and every selected element inside it, the
edges of the access, its pieces, and where a load lands; 0x12, 0x03, 0x05 and 0x02 in that order otherwise.
What the data of a load raises (R154, R191, R310, R391): at its read edge 0x0B where a byte cannot be decoded and 0x07 where a
variance that the mask selects is negative; the trap is that of the word's issue edge (the model's reading, log entry 31), with
the vector engine and core time as they stood there.
Where an element of a tensor stands (R51, R60, R138): the linear index splits into coordinates of the tensor, and the bytes
of the element follow its base by its coordinates' strides. -/
def Obligations.VectorMemory : Prop :=
  (∀ (f : VM) (s : State) (i : Instr) (mom load : Bool),
     ((i = .vld f ∧ mom = false ∧ load = true) ∨ (i = .vst f ∧ mom = false ∧ load = false)
       ∨ (i = .qld f ∧ mom = true ∧ load = true) ∨ (i = .qst f ∧ mom = true ∧ load = false)) →
     i.wf = true →
     let d := Desc.of (s.ctx.desc.get f.did.toNat)
     let k := s.ctx.rk f.km.toNat
     let off : Int := f.off.toNat + if f.be = 1#1 then (s.ctx.bcast 1 f.bc.toNat).toInt else 0
     let unit := if mom then 64 else 32
     let es := elemsSel (if mom then 32 else 1024 / d.w) (if mom then 64 else d.w) unit k off
     let ps := s.elemPieces d unit k es
     let at_ (n : Nat) : Nat := s.ctx.ctime + (n + if d.space = 1 then 3 else 0) * s.ctx.div 1
     let fits := d.invalid = false ∧ (mom = true ↔ d.fm = .mom)
     let reach := d.space = 0 ∨ (d.space = 1 ∧ s.ctx.lentSize ≠ 0)
     let inside := f.v.toNat < (if mom then s.ctx.qregs else s.ctx.vregs) ∧ (f.be = 1#1 → f.bc.toNat < s.ctx.sregs)
       ∧ ∀ e ∈ es, 0 ≤ e.2 ∧ (d.split e.2).2.2 < d.dim2 ∧ s.ctx.elemOut d (d.split e.2) = false
     (¬ fits → exec i s = .next (s.trap 1 0x12 0 0))
     ∧ (fits → ¬ reach → exec i s = .next (s.trap 1 0x03 0 0))
     ∧ (fits → reach → d.misaligned = true → exec i s = .next (s.trap 1 0x05 0 0))
     ∧ (fits → reach → d.misaligned = false → ¬ inside → exec i s = .next (s.trap 1 0x02 0 0))
     ∧ (fits → reach → d.misaligned = false → inside → s.mayIssue i 1 → s.room →
         (mom = false → load = true → s.issuesWith i 1 f.i.toNat s.probed [(at_ 1, 1, .rdV f.v.toNat ps (at_ 5))])
         ∧ (mom = false → load = false → s.issuesWith i 1 f.i.toNat s.ctx
             [(at_ 2, 0, .store ps ((s.ctx.rv f.v.toNat).zeroExtend 2048))])
         ∧ (mom = true → load = false → s.issuesWith i 1 f.i.toNat s.ctx [(at_ 2, 0, .store ps (s.ctx.rq f.v.toNat))])
         ∧ (mom = true → load = true →
             s.issuesWith i 1 f.i.toNat s.probed [(at_ 1, 1, .rdQ f.v.toNat ps k (at_ 5))])))
  ∧ (∀ (s : State) (x : Item), s.landing x →
       let bad (ls : List Loc) : Prop := ∃ l ∈ ls, s.badAt l = true
       (∀ d ps land, x.eff = .rdV d ps land → bad (ps.map (·.loc)) → exec .resultLand s = .next (s.faultLater x 0x0B 0))
       ∧ (∀ n cells land, x.eff = .rdT n cells land → bad (cells.flatMap fun e => e.2.run 4) →
           exec .resultLand s = .next (s.faultLater x 0x0B 0))
       ∧ (∀ d ps k land, x.eff = .rdQ d ps k land →
           (bad (ps.map (·.loc)) → exec .resultLand s = .next (s.faultLater x 0x0B 0))
           ∧ (¬ bad (ps.map (·.loc)) → (∃ l, l < 32 ∧ k.getLsbD l = true
               ∧ negVar (pairOf (BitVec.ofNat 2048 (gather s.byteAt ps)) l).2 = true) →
               exec .resultLand s = .next (s.faultLater x 0x07 0)))
       ∧ (∀ cause addr, s.sameMemory (s.faultLater x cause addr)
           ∧ (s.faultLater x cause addr).ctx.flights
             = ((s.ctx.takeItem x).addItems x.seq [(x.t, 9, .fault cause addr)]).flights)
       ∧ ∀ cause addr p, x.eff = .fault cause addr → s.ctx.probes.find? (fun q => q.seq = x.seq) = some p →
           s.ctx.handler = false → s.ctx.frame.vec ≠ 0 → cause ≠ 0x0A → cause ≠ 0x1A → cause < 256 →
           ∃ t, exec .resultLand s = .next t ∧ s.onlyMe t ∧ s.sameMemory t ∧ t.ctx.handler = true
             ∧ t.ctx.trapcause.toNat = 2 ^ 29 + cause ∧ t.ctx.frame.addr = addr ∧ t.ctx.frame.time = p.at_
             ∧ t.ctx.frame.pcs.getD 1 0 = p.ve.pc.setWidth 21 ∧ t.ctx.frame.dues.getD 1 0 = p.ve.due
             ∧ t.ctx.v = p.v ∧ t.ctx.k = p.k ∧ t.ctx.q = p.q ∧ t.ctx.s = s.ctx.s)
  ∧ (∀ (s : State) (d : Desc) (e : Int) (dst : Nat), d.dim0 ≠ 0 → d.dim1 ≠ 0 →
       let i := d.split e
       (e = i.1 + d.dim0 * (i.2.1 + d.dim1 * i.2.2)) ∧ 0 ≤ i.1 ∧ i.1 < d.dim0 ∧ 0 ≤ i.2.1 ∧ i.2.1 < d.dim1
       ∧ (d.w ∈ [8, 16, 32, 64] → 0 ≤ d.base + i.1 * (d.w / 8 : Nat) + i.2.1 * d.s1 + i.2.2 * d.s2 →
           s.piecesOf d i dst = (List.range (d.w / 8)).map fun b =>
             { dst := dst + 8 * b, w := 8, sh := 0
               loc := s.place d.space ((d.base + i.1 * (d.w / 8 : Nat) + i.2.1 * d.s1 + i.2.2 * d.s2).toNat + b) }))

/-- FPRINT (R37, R141, R330): the up to 128 bytes of the stream from 128·off on are read at their edge, and lanes 0 and 1 of
the register take the fingerprint of what is found there at issue + 8; the check form, at the end of the stream, raises 0x09
where that differs from the value in lanes 2 and 3. -/
def Obligations.FingerprintWord : Prop :=
  ∀ (f : VM) (s : State),
    let i := Instr.fprint f
    let d := Desc.of (s.ctx.desc.get f.did.toNat)
    let off : Int := f.off.toNat + if f.be = 1#1 then (s.ctx.bcast 1 f.bc.toNat).toInt else 0
    let len := d.streamLen
    let base := 128 * off.toNat
    let idx := (List.range (min 128 (len - base))).map (base + ·)
    let ls := idx.map fun j => s.place d.space (d.streamAddr j).toNat
    let v := s.ctx.rv f.v.toNat
    let edge := s.ctx.ctime + (if d.space = 1 then 4 else 1) * s.ctx.div 1
    (s.mayIssue i 1 → s.room → d.invalid = false → d.misaligned = false → (d.space = 0 ∨ (d.space = 1 ∧ s.ctx.lentSize ≠ 0)) →
    f.v.toNat < s.ctx.vregs → (f.be = 1#1 → f.bc.toNat < s.ctx.sregs) → 0 ≤ off → 128 * off < len →
    (∀ j ∈ idx, s.ctx.outside d.space (d.streamAddr j) 1 = false) →
        s.issuesWith i 1 f.i.toNat s.probed
          [(edge, 1, .rdF f.v.toNat ls v (decide (len ≤ base + 128)) (BitVec.ofInt 64 off) (s.ctx.ctime + 8 * s.ctx.div 1))])
    ∧ ∀ (x : Item) (n : Nat) (locs : List Loc) (w : BitVec 1024) (ends : Bool) (at_ : BitVec 64) (land : Nat),
        s.landing x → x.eff = .rdF n locs w ends at_ land →
        let check := lane w 4 = 1 ∧ ends = true
        let found := fingerprint (w.extractLsb' 0 64) (s.bytesAt locs)
        ((∃ l ∈ locs, s.badAt l = true) → exec .resultLand s = .next (s.faultLater x 0x0B at_))
        ∧ ((∀ l ∈ locs, s.badAt l = false) →
          (check → found ≠ w.extractLsb' 64 64 → exec .resultLand s = .next (s.faultLater x 0x09 at_))
          ∧ ((check → found = w.extractLsb' 64 64) → ∃ t, exec .resultLand s = .next t ∧ s.sameMemory t
              ∧ t.ctx.flights = ((s.ctx.takeItem x).addItems x.seq [(land, 2, .fold n (s.bytesAt locs) w)]).prune.flights))

/-- The tile words (R45, R46, R147 to R149): a tile of another context freezes the core; the causes of the shape and the index;
and what each schedules: cells by row and column with their values. -/
def Obligations.TileWords : Prop :=
  ∀ (f : VT) (s : State),
    let n := f.tn.toNat
    let k := s.ctx.rk f.km.toNat
    let owns := s.me.owns n = true
    let rows := s.me.rows n
    let cols := s.me.cols n
    let col := f.dir = 1#1
    let cell (r c : Nat) : BitVec 32 := s.me.tiles.get (256 * n + 16 * r + c)
    let at_ (j : Nat) : Nat := s.ctx.ctime + j * s.ctx.div 1
    let ok (i : Instr) : Prop := s.mayIssue i 1 ∧ s.room ∧ owns ∧ n < s.ctx.tilesN
    let slice := rows ≠ 0 ∧ f.idx.toNat < (if col then cols else rows) ∧ f.v.toNat < s.ctx.vregs
    (∀ i ∈ [Instr.tcfg f, Instr.tcfgZ f, Instr.tset f, Instr.tget f, Instr.tzero f, Instr.trsum f], i.wf = true → ¬ owns →
      exec i s = .next (s.freezeOn 1 (.tile n)))
    ∧ (∀ p ∈ [(Instr.tcfg f, false), (Instr.tcfgZ f, true)], ok p.1 →
        let fits := f.rows.toNat ≤ 16 ∧ f.cols.toNat ≤ 16 ∧ (f.rows = 0 ↔ f.cols = 0)
        (fits → s.issuesWith p.1 1 f.i.toNat s.ctx [(at_ 1, 2, .tcfg n f.rows.toNat f.cols.toNat p.2)])
        ∧ (¬ fits → exec p.1 s = .next (s.trap 1 0x11 0 0)))
    ∧ (∀ i ∈ [Instr.tset f, Instr.tget f, Instr.tzero f, Instr.trsum f], i.wf = true → owns → rows = 0 →
        exec i s = .next (s.trap 1 0x06 0 0))
    ∧ (∀ i ∈ [Instr.tset f, Instr.tget f], i.wf = true → owns → rows ≠ 0 → ¬ slice → exec i s = .next (s.trap 1 0x02 0 0))
    ∧ (ok (.tset f) → slice → ∃ cells : List (Nat × BitVec 32),
        (∀ e, e ∈ cells ↔ ∃ l, l < (if col then rows else cols) ∧ k.getLsbD l = true
          ∧ e = (256 * n + (if col then 16 * l + f.idx.toNat else 16 * f.idx.toNat + l),
              BitVec.ofNat 32 (lane (s.ctx.rv f.v.toNat) l)))
        ∧ s.issuesWith (.tset f) 1 f.i.toNat s.ctx [(at_ 1, 2, .tset n cells)])
    ∧ (ok (.tget f) → slice → ∃ v : BitVec 1024,
        (∀ l, l < 32 → lane v l = if l < (if col then rows else cols) then
            (if col then cell l f.idx.toNat else cell f.idx.toNat l).toNat else 0)
        ∧ s.issuesWith (.tget f) 1 f.i.toNat s.ctx [(at_ 3, 2, .vreg f.v.toNat (laneMask k) v 0)])
    ∧ (ok (.tzero f) → rows ≠ 0 → ∃ cells : List (Nat × BitVec 32),
        (∀ e, e ∈ cells ↔ ∃ r c, r < rows ∧ c < cols ∧ e = (256 * n + 16 * r + c, 0))
        ∧ s.issuesWith (.tzero f) 1 f.i.toNat s.ctx [(at_ 1, 2, .tset n cells)])
    ∧ (ok (.trsum f) → rows ≠ 0 → f.v.toNat < s.ctx.vregs →
        let env := envV s.ctx 0 0
        let sum (l : Nat) : Option Nat × Flags := treeFold (elAdd .fp32 env false) 4 ((List.range 16).map fun j =>
          if j < (if col then rows else cols) then some (if col then cell j l else cell l j).toNat else none)
        let el (l : Nat) : Nat × Flags :=
          if l < (if col then cols else rows) then (canon .fp32 ((sum l).1.getD 0), (sum l).2) else (0, 0)
        ∃ v fl, (∀ l, l < 32 → k.getLsbD l = true → lane v l = (el l).1) ∧ State.flagsOf k 1 (fun l _ => el l) fl
          ∧ ((s.ctx.arithV.getLsbD 3 && fl.getLsbD 0) = false →
              s.issuesWith (.trsum f) 1 f.i.toNat s.ctx [(at_ 8, 2, .vreg f.v.toNat (laneMask k) v fl)])
          ∧ ((s.ctx.arithV.getLsbD 3 && fl.getLsbD 0) = true → exec (.trsum f) s = .next (s.trap 1 0x10 0 0)))

/-- TLD and TST (R53, R148, R149): each completes where the tile is the context's own and configured, the descriptor valid, of
FP32 and in reach, and every cell inside the tensor and its space; cell (r, c) is element (off + c, r, 0); the causes in the
order of R154; the edges of the access and, for a load, of its landing. -/
def Obligations.TileMemory : Prop :=
  ∀ (f : VM) (s : State) (i : Instr), (i = .tld f ∨ i = .tst f) → i.wf = true → s.me.owns f.v.toNat = true →
    let n := f.v.toNat
    let d := Desc.of (s.ctx.desc.get f.did.toNat)
    let rows := s.me.rows n
    let cols := s.me.cols n
    let at_ (j : Nat) : Nat := s.ctx.ctime + (j + if d.space = 1 then 3 else 0) * s.ctx.div 1
    let place (r c : Nat) : Loc := firstLoc (s.elemLocs d ((f.off.toNat + c : Nat), (r : Nat), 0))
    let fits := d.invalid = false ∧ d.fm = .fp32
    let reach := d.space = 0 ∨ (d.space = 1 ∧ s.ctx.lentSize ≠ 0)
    let inside := n < s.ctx.tilesN ∧ f.off.toNat + cols ≤ d.dim0 ∧ rows ≤ d.dim1
      ∧ ∀ r c, r < rows → c < cols → s.ctx.elemOut d ((f.off.toNat + c : Nat), (r : Nat), 0) = false
    (¬ fits → exec i s = .next (s.trap 1 0x12 0 0))
    ∧ (fits → ¬ reach → exec i s = .next (s.trap 1 0x03 0 0))
    ∧ (fits → reach → d.misaligned = true → exec i s = .next (s.trap 1 0x05 0 0))
    ∧ (fits → reach → d.misaligned = false → rows = 0 → exec i s = .next (s.trap 1 0x06 0 0))
    ∧ (fits → reach → d.misaligned = false → rows ≠ 0 → ¬ inside → exec i s = .next (s.trap 1 0x02 0 0))
    ∧ (fits → reach → d.misaligned = false → rows ≠ 0 → inside → s.mayIssue i 1 → s.room →
        (i = .tld f → ∃ cells : List (Nat × Loc),
            (∀ e, e ∈ cells ↔ ∃ r c, r < rows ∧ c < cols ∧ e = (256 * n + 16 * r + c, place r c))
            ∧ s.issuesWith (.tld f) 1 f.i.toNat s.probed [(at_ 1, 1, .rdT n cells (at_ 8))]
            ∧ ∃ t, exec (.tld f) s = .next t ∧ t.ctx.handler = s.ctx.handler)
        ∧ (i = .tst f → ∃ parts : List (List Piece × BitVec 2048),
            (∀ r c, r < rows → c < cols → ∃ p ∈ parts, ∃ j,
              (∀ q ∈ s.piecesOf d ((f.off.toNat + c : Nat), (r : Nat), 0) (32 * j), q ∈ p.1)
              ∧ p.2.toNat / 2 ^ (32 * j) % 2 ^ 32 = (s.me.tiles.get (256 * n + 16 * r + c)).toNat)
            ∧ s.issuesWith (.tst f) 1 f.i.toNat s.ctx (parts.map fun p => (at_ 2, 0, .store p.1 p.2))
            ∧ ∃ t, exec (.tst f) s = .next t ∧ t.ctx.handler = s.ctx.handler))

/-- The moment words (R19, R185 to R190): each selected lane takes its pair, rounded once where the word rounds; a negative
variance among them raises 0x07 and nothing is written.
The moment rules on exact pairs with ρ 0 (R185, R188): a sum adds means and variances, a difference subtracts means and
adds variances, and a product has the mean product and the variance (ma·sb)² + mb²·va + va·vb. -/
def Obligations.MomentWords : Prop :=
  (∀ (f : VR) (s : State),
     let k := s.ctx.rk f.km.toNat
     let env := envV s.ctx f.rq f.sat
     let rho := rhoOf s.ctx.momV
     let a (l : Nat) : Pair := pairOf (s.ctx.rq f.va.toNat) l
     let b (l : Nat) : Pair := pairOf (s.ctx.rq f.vb.toNat) l
     let c (l : Nat) : Pair := pairOf (s.ctx.rq f.vc.toNat) l
     let w : Nat := (s.ctx.bcast 1 f.bc.toNat).toNat % 2 ^ 32
     let result (i : Instr) (qs vs : List (BitVec 6)) (lat : Nat) (rounds : Bool) (el : Nat → Pair × Flags) : Prop :=
       s.mayIssue i 1 → s.room → f.vd.toNat < s.ctx.qregs → (∀ q ∈ qs, q.toNat < s.ctx.qregs) →
       (∀ v ∈ vs, v.toNat < s.ctx.vregs) → (f.be = 1#1 → f.bc.toNat < s.ctx.sregs) →
       let neg := ∃ l, l < 32 ∧ k.getLsbD l = true ∧ negVar (el l).1.2 = true
       (neg → exec i s = .next (s.trap 1 0x07 0 0))
       ∧ (¬ neg → ∃ q fl, (∀ l, l < 32 → k.getLsbD l = true → pairOf q l = (el l).1)
           ∧ State.flagsOf k 1 (fun l _ => ((el l).1.1, (el l).2)) fl
           ∧ ((rounds && s.ctx.arithV.getLsbD 3 && fl.getLsbD 0) = false → s.issuesWith i 1 f.i.toNat s.ctx
               [(s.ctx.ctime + lat * s.ctx.div 1, 2, .qreg f.vd.toNat k q fl)])
           ∧ ((rounds && s.ctx.arithV.getLsbD 3 && fl.getLsbD 0) = true → exec i s = .next (s.trap 1 0x10 0 0)))
     let column (i : Instr) (g : Pair → Nat) : Prop :=
       s.mayIssue i 1 → s.room → f.va.toNat < s.ctx.qregs → f.vd.toNat < s.ctx.vregs →
       ∃ v : BitVec 1024, (∀ l, l < 32 → k.getLsbD l = true → lane v l = g (a l)) ∧ s.issuesWith i 1 f.i.toNat s.ctx
         [(s.ctx.ctime + 6 * s.ctx.div 1, 2, .vreg f.vd.toNat (laneMask k) v 0)]
     result (.qadd f) [f.va, f.vb] [] 6 true (fun l => momRound [a l, b l] env.sat (momAdd rho false (a l) (b l)))
     ∧ result (.qsub f) [f.va, f.vb] [] 6 true (fun l => momRound [a l, b l] env.sat (momAdd rho true (a l) (b l)))
     ∧ result (.qmul f) [f.va, f.vb] [] 6 true (fun l => momRound [a l, b l] env.sat (momMul rho (a l) (b l)))
     ∧ result (.qfma f) [f.va, f.vb, f.vc] [] 6 true (fun l => momRound [a l, b l, c l] env.sat
         { mean := sumV [(momMul rho (a l) (b l)).mean, (valOf .fp32 (c l).1, 0)]
           var := sumV [(momMul rho (a l) (b l)).var, (valOf .fp32 (c l).2, 0)] })
     ∧ result (.qrelu f) [f.va] [] 12 true (fun l => momRound [a l] env.sat (momRelu (a l)))
     ∧ result (.qscl f) [f.va] [] 6 true (fun l => momRound [a l, (w, 0)] env.sat (momScale w (a l)))
     ∧ result (.qmake f) [] [f.va, f.vb] 6 false (fun l =>
         ((lane (s.ctx.rv f.va.toNat) l,
           if lane (s.ctx.rv f.vb.toNat) l = 0x80000000 then 0 else lane (s.ctx.rv f.vb.toNat) l), 0))
     ∧ column (.qcolMean f) (fun p => p.1) ∧ column (.qcolVar f) (fun p => p.2)
     ∧ column (.qcolSd f) (fun p => (roundF .fp32 (sdOf p.2) 0 false).1))
  ∧ (∀ (a b : Pair),
       let zero : Val := .zero false
       let ma := valOf .fp32 a.1
       let mb := valOf .fp32 b.1
       let va := valOf .fp32 a.2
       let vb := valOf .fp32 b.2
       let times (x y : Val) : Val := (x.mul y).1
       let plus (x y : Val) : Val := (x.add y).1
       let one : Val := .fin false 1 0 false
       let t := times ma (sdOf b.2)
       momAdd zero false a b = { mean := ma.add mb, var := va.add vb }
       ∧ momAdd zero true a b = { mean := ma.add mb.neg, var := va.add vb }
       ∧ (momMul zero a b).mean = ma.mul mb
       ∧ (momMul zero a b).var.1 = plus (plus (times t t) (times (times (times one mb) mb) va)) (times (times one va) vb))

/-- The VE's control words (R97 to R100, R150 to R153, R182): VLOOP's push, skip and causes; the edges of VCSRR and VCSRW; the
rendezvous; the idle words and hints.
A held source that its latch does not hold raises 0x15 before every other cause but an illegal word (R129, R130, R154), and
nothing is written; with VADD, VSEL and VCVT as the words of three, two and one source. -/
def Obligations.VectorControl : Prop :=
  (∀ (f : VC) (s : State),
     let p := s.ctx.ve.pc.toNat
     let stop := p + 8 * (f.imm.toNat / 4096)
     let op := s.natAt (s.spmLocs stop 8) / 2 ^ 56
     let bc := s.ctx.bcast 1 f.bc.toNat
     let save := s.ctx.ve.save.toNat
     let held := s.ctx.ve.save.getLsbD 63 = true ∧ save / 2 ^ 40 % 2 ^ 21 = p
     let count := if held then save % 2 ^ 32 else if f.be = 1#1 then bc.toNat % 2 ^ 32 else f.imm.toNat % 4096
     let x := if held then { s.ctx.ve with save := s.ctx.ve.save &&& 0x7FFFFFFFFFFFFFFF#64 } else s.ctx.ve
     let full := 4 ≤ s.ctx.ve.loops.length ∨ (∃ l ls, s.ctx.ve.loops = l :: ls ∧ l.stop < stop)
       ∨ (stop + 8 ≤ s.ctx.spmSize ∧ (op = 0xA0 ∨ op = 0xA3))
     let named := f.be = 1#1 → f.bc.toNat < s.ctx.sregs
     let inside := named ∧ stop + 8 ≤ s.ctx.spmSize
     let i := Instr.vloop f
     (i.wf = true → full → exec i s = .next (s.trap 1 0x08 0 0))
     ∧ (i.wf = true → ¬ full → ¬ inside → exec i s = .next (s.trap 1 0x02 0 0))
     ∧ (s.mayIssue i 1 → ¬ full → inside → count = 0 → exec i s = .next (s.afterIssue i 1 f.i.toNat
         { ctx := { s.ctx with ve := x }, jump := some (BitVec.ofNat 64 (stop + 8)) }))
     ∧ (s.mayIssue i 1 → ¬ full → inside → count ≠ 0 → exec i s = .next (s.afterIssue i 1 f.i.toNat
         { ctx := { s.ctx with ve := { x with
             loops := { start := p + 8, stop := stop, rem := count, opener := p } :: s.ctx.ve.loops } }
           jump := some (BitVec.ofNat 64 (p + 8)) }))
     ∧ (s.mayIssue (.vcsrr f) 1 → s.room → f.bc.toNat < s.ctx.sregs →
         (∀ n, (f.imm = 3 ∧ n < 4) ∨ (f.imm = 4 ∧ 4 ≤ n ∧ n < 8) → s.me.owns n = true) →
         ∃ v edge, s.issuesWith (.vcsrr f) 1 f.i.toNat s.ctx [(edge, 2, .sreg f.bc.toNat v)]
           ∧ (s.ctx.div 0 ≠ 0 → edge % s.ctx.div 0 = 0 ∧ s.ctx.ctime + 2 * s.ctx.div 1 ≤ edge
               ∧ edge < s.ctx.ctime + 2 * s.ctx.div 1 + s.ctx.div 0)
           ∧ (f.imm = 0 → v = s.ctx.arithV.zeroExtend 64) ∧ (f.imm = 1 → v = s.ctx.momV.zeroExtend 64)
           ∧ (f.imm = 2 → v = s.ctx.ve.save)
           ∧ (∀ n, n < 4 → f.imm = 3 → v.extractLsb' (16 * n) 16 = s.me.tshape.get n)
           ∧ (∀ n, n < 4 → f.imm = 4 → v.extractLsb' (16 * n) 16 = s.me.tshape.get (n + 4)))
     ∧ ((Instr.vcsrw f).wf = true → f.bc.toNat < s.ctx.sregs → f.imm = 1 → 0x3C00 < bc.toNat / 2 ^ 16 % 2 ^ 15 →
         exec (.vcsrw f) s = .next (s.trap 1 0x11 0 0))
     ∧ (s.mayIssue (.vcsrw f) 1 → s.room → f.bc.toNat < s.ctx.sregs → (f.imm = 1 → bc.toNat / 2 ^ 16 % 2 ^ 15 ≤ 0x3C00) →
         s.issuesWith (.vcsrw f) 1 f.i.toNat s.ctx
           [(s.ctx.ctime + s.ctx.div 1, 3, .csr false f.imm.toNat bc)])
     ∧ (s.mayIssue (.vrdv f) 1 →
         s.issuesWith (.vrdv f) 1 f.i.toNat { s.ctx with ve := { s.ctx.ve with park := .stand } } [])
     ∧ (s.mayIssue (.vrdvEnd f) 1 →
         s.issuesWith (.vrdvEnd f) 1 f.i.toNat { s.ctx with ve := { s.ctx.ve with park := .ending } } [])
     ∧ (s.mayIssue (.vidle f) 1 → named → exec (.vidle f) s = .next (s.afterIssue (.vidle f) 1 f.i.toNat
         { ctx := s.ctx, idle := if f.be = 1#1 then bc.toNat % 2 ^ 24 else f.imm.toNat }))
     ∧ ∀ (o : BitVec 3) (h : BitVec 53) (j : BitVec 3), s.mayIssue (.vnop o h j) 1 →
         s.issuesWith (.vnop o h j) 1 j.toNat s.ctx [])
  ∧ (∀ (s : State) (f : VR) (t : BitVec 3) (p : Pos), vrHeld f p = true → (p = .b → f.be = 0#1) →
       (let l := match p with
         | .a => s.ctx.la
         | .b => s.ctx.lb
         | .c => s.ctx.lc
       l.valid = false ∨ l.tag ≠ (match p with
         | .a => f.va
         | .b => f.vb
         | .c => f.vc).toNat) →
       ((Instr.vfma t f).wf = true → exec (.vfma t f) s = .next (s.trap 1 0x15 0 0))
       ∧ (p ≠ .c → (Instr.vadd t f).wf = true → exec (.vadd t f) s = .next (s.trap 1 0x15 0 0))
       ∧ (p = .a → (Instr.vcvt f).wf = true → exec (.vcvt f) s = .next (s.trap 1 0x15 0 0)))

/-! ### The matrix engine and the gather unit -/

/-- MMA and MMV (R53, R155, R157, R161 to R167, R173, R174): a full asynchronous queue freezes the core; the causes in the order
of R184; a nest without steps does nothing; a synchronous command starts its steps at T0, an asynchronous one enters the
queue.
The nest (R158, R160): the positions of a step are the start plus each level's index times its step, the indices being
those of the step's number in mixed radix, innermost fastest. -/
def Obligations.MultiplyWords : Prop :=
  (∀ w ∈ ([(Instr.mmaF8, .f8, false), (Instr.mmaBf16, .bf16, false), (Instr.mmaF32, .f32, false),
       (Instr.mmaB2e8, .b2e8, false), (Instr.mmaB2e4, .b2e4, false), (Instr.mmaMom, .mom, false), (Instr.mmv, .f8, true)] :
       List ((MX → Instr) × MForm × Bool)),
     ∀ (f : MX) (s : State),
     let i := w.1 f
     let da := Desc.of (s.ctx.desc.get f.da.toNat)
     let db := Desc.of (s.ctx.desc.get f.db.toNat)
     let form := if w.2.2 then (if da.fm = .bf16 then .bf16 else if da.fm = .fp32 then .f32 else .f8) else w.2.1
     let j := jobOf s.ctx form w.2.2 f
     let steps := (List.range j.total).map j.step
     let reach (d : Desc) : Prop := d.space = 0 ∨ (d.space = 1 ∧ s.ctx.lentSize ≠ 0)
     let formats := match form with
       | .f8 => da.fm ∈ [Fm.e4m3, Fm.e5m2] ∧ db.fm ∈ [Fm.e4m3, Fm.e5m2]
       | .bf16 => da.fm = .bf16 ∧ db.fm = .bf16
       | .f32 => da.fm = .fp32 ∧ db.fm = .fp32
       | .b2e8 => da.fm = .b2e8 ∧ db.fm = .b2e8
       | .b2e4 => da.fm = .b2e4 ∧ db.fm = .b2e4
       | .mom => da.fm = .mom ∧ db.fm ∈ [Fm.fp32, Fm.mom]
     let block := form = .b2e8 ∨ form = .b2e4
     let planes (p : MStep) : List Nat := if form = .mom then [2 * p.c.toNat, 2 * p.c.toNat + 1] else [p.c.toNat]
     let consistent := formats ∧ ((f.mov = 1#1 ∨ f.tsm = 1#1) → f.zc = 1#1) ∧ (f.ga = 1#1 → f.ta = 0#1 ∧ ¬ block)
       ∧ (block → f.ta = 1#1 ∧ f.tb = 0#1 ∧ ∀ p ∈ steps, (da.split p.pa).1 % da.blkLen = 0 ∧ (db.split p.pb).1 % db.blkLen = 0)
       ∧ (∀ p ∈ steps, 0 ≤ p.c ∧ p.c ≤ (if form = .mom then 7 else 15)
           ∧ (f.asy = 0#1 → ∀ q ∈ planes p, s.ctx.reserved q = false))
       ∧ tagSteps s j j.total ≠ none
     let inside := (f.be = 1#1 → f.bc.toNat < s.ctx.sregs) ∧ ∀ p ∈ steps, (∀ q ∈ planes p, q < s.ctx.planesN)
       ∧ 0 ≤ p.pa ∧ 0 ≤ p.pb ∧ s.ctx.opOut da (j.aElems p) = false ∧ s.ctx.opOut db (j.bElems p) = false
     let left : Ctx := { s.ctx with
       tags := (tagSteps s j j.total).getD s.ctx.tags
       window := (s.ctx.window ++ [j]).drop (s.ctx.window.length + 1 - 64), jobs := s.ctx.jobs + 1 }
     let d := s.ctx.div 2
     let t0 := max (s.ctx.ctime + d) (edgeAt s.ctx.meFree d)
     i.wf = true →
     (f.asy = 1#1 → 16 ≤ s.ctx.asyncQ.length → exec i s = .next (s.freezeOn 2 .asyncRoom))
     ∧ ((f.asy = 1#1 → s.ctx.asyncQ.length < 16) →
       ((da.invalid = true ∨ db.invalid = true) → exec i s = .next (s.trap 2 0x12 0 0))
       ∧ (da.invalid = false → db.invalid = false →
         (¬ (reach da ∧ reach db) → exec i s = .next (s.trap 2 0x03 0 0))
         ∧ (reach da → reach db →
           ((da.misaligned = true ∨ db.misaligned = true) → exec i s = .next (s.trap 2 0x05 0 0))
           ∧ (da.misaligned = false → db.misaligned = false →
             (¬ consistent → exec i s = .next (s.trap 2 0x16 0 0))
             ∧ (consistent → ¬ inside → exec i s = .next (s.trap 2 0x02 0 0))
             ∧ (consistent → inside → s.mayIssue i 2 →
               (j.total = 0 → s.issuesWith i 2 f.i.toNat left [])
               ∧ (j.total ≠ 0 → f.asy = 1#1 → s.issuesWith i 2 f.i.toNat
                   { left with asyncQ := s.ctx.asyncQ ++ [{ j with ready := s.ref + d }] } [])
               ∧ (j.total ≠ 0 → f.asy = 0#1 → s.room → s.issuesWith i 2 f.i.toNat
                   { left with meFree := t0 + j.total * d } [(t0, 1, .step j 0)])))))))
  ∧ (∀ (ns : List (BitVec 144)) (p : MStep) (k : Nat), k < nestTotal ns →
       ∃ is : List Nat, is.length = ns.length
         ∧ (∀ q ∈ is.zip ns, q.1 < q.2.toNat / 2 ^ 128)
         ∧ k = (is.zip ns).foldr (fun q a => q.1 + q.2.toNat / 2 ^ 128 * a) 0
         ∧ let along (lo : Nat) : Int := ((is.zip ns).map fun q => (q.1 : Int) * (q.2.extractLsb' lo 32).toInt).sum
           nestStep k p ns = { pa := p.pa + along 96, pb := p.pb + along 64, c := p.c + along 32, g := p.g + along 0 })

/-- A group's landing (R163, R164, R165, R172): each cell that the step names takes its accumulator after the groups of its
terms, in ascending k; every other cell of every plane stays, and the flags are those of the cells. -/
def Obligations.GroupLands : Prop :=
  ∀ (j : Job) (k : Nat) (a b : List (Option Nat)) (c : Ctx), j.form ≠ .mom → a.length = j.rowsN * j.kN →
    b.length = j.colsN * j.kN →
    let p := (j.step k).c.toNat
    let at_ (m n : Nat) : Nat := if j.mmv then m % 32 * 32 + 8 * (m / 32) + n else 32 * m + n
    let terms (f : Fm) (l : List (Option Nat)) (r : Nat) : List Val :=
      (List.range j.kN).map fun i => opVal f (l.getD (r * j.kN + i) none)
    let r (m n : Nat) : Nat × Flags :=
      groupCell j (terms (Desc.of j.da).fm a m) (terms (Desc.of j.db).fm b n) (c.a.get (1024 * p + at_ m n)).toNat
    let t := landGroup j k a b c
    (∀ m n, m < j.rowsN → n < j.colsN → t.a.get (1024 * p + at_ m n) = BitVec.ofNat 32 (r m n).1)
    ∧ (∀ q, (∀ m n, m < j.rowsN → n < j.colsN → q ≠ 1024 * p + at_ m n) → t.a.get q = c.a.get q)
    ∧ (∀ g, g < 32 → (t.arithM.getLsbD g = true ↔ c.arithM.getLsbD g = true
        ∨ ∃ m n, m < j.rowsN ∧ n < j.colsN ∧ 16 ≤ g ∧ (r m n).2.getLsbD (g - 16) = true))
    ∧ { t with a := c.a, arithM := c.arithM } = c

/-- DRAIN, DRAIN.MOM (R161, R178, R179, R184, R187, R193): the causes in order, and otherwise the rows written one tick apart
from T0 + 1 (lent: T0 + 4), 32 ticks a step, the planes zeroed and untagged under .Z, the flags at issue.
AZERO and ALOAD (R161, R179 to R181): what each step of the nest schedules, and the tags removed.  Each is retained among the
last 64 array commands (R177). -/
def Obligations.DrainWords : Prop :=
  (∀ (f : MX) (s : State) (mom : Bool),
     let i := if mom then Instr.drainMom f else Instr.drain f
     let c := s.ctx
     let d := Desc.of (c.desc.get f.da.toNat)
     let env := envM c f.rq f.sat
     let ps := nestSteps ((List.range (f.lvl.toNat + 1)).map c.lnt.get)
       { pa := (startPos c f.be f.bc).1, pb := 0, c := f.acc.toNat, g := 0 }
     let planes (p : MStep) : List Nat := if mom then [2 * p.c.toNat, 2 * p.c.toNat + 1] else [p.c.toNat]
     let cells (p : MStep) := allCells.map fun q => cellAt d p.pa (f.ta = 1#1) q.1 q.2
     let fits := d.invalid = false
       ∧ (if mom then d.fm = .mom else d.fm ∈ [Fm.fp32, .bf16, .fp16, .e4m3, .e5m2, .b2e8, .b2e4])
     let reach := d.space = 0 ∨ (d.space = 1 ∧ c.lentSize ≠ 0)
     let consistent := ∀ p ∈ ps, 0 ≤ p.c ∧ p.c ≤ (if mom then 7 else 15)
       ∧ (∀ q ∈ planes p, c.reserved q = false ∧ c.landing q = false)
       ∧ (d.fm.isBlock = true → (d.split p.pa).1 % d.blkLen = 0)
     let inside := (f.be = 1#1 → f.bc.toNat < c.sregs)
       ∧ ∀ p ∈ ps, 0 ≤ p.pa ∧ (∀ q ∈ planes p, q < c.planesN) ∧ c.opOut d (cells p) = false
     let out := drainOut c mom f d env ps
     let fl : Flags := out.foldl (fun a o => a ||| o.2.1.fl) 0
     let neg := ∃ o ∈ out, o.2.2 = true
     let n := c.div 2
     let t0 := max (c.ctime + n) (edgeAt c.meFree n)
     let kept : Job := { acc := f.acc.toNat, lvl := f.lvl.toNat, zc := f.zc = 1#1, kept := ps.flatMap planes, id := c.jobs }
     i.wf = true →
     (¬ fits → exec i s = .next (s.trap 2 0x12 0 0))
     ∧ (fits → ¬ reach → exec i s = .next (s.trap 2 0x03 0 0))
     ∧ (fits → reach → d.misaligned = true → exec i s = .next (s.trap 2 0x05 0 0))
     ∧ (fits → reach → d.misaligned = false → ¬ consistent → exec i s = .next (s.trap 2 0x16 0 0))
     ∧ (fits → reach → d.misaligned = false → consistent → ¬ inside → exec i s = .next (s.trap 2 0x02 0 0))
     ∧ (fits → reach → d.misaligned = false → consistent → inside → neg → exec i s = .next (s.trap 2 0x07 0 0))
     ∧ (fits → reach → d.misaligned = false → consistent → inside → ¬ neg →
         ((c.arithM.getLsbD 3 && fl.getLsbD 0) = true → exec i s = .next (s.trap 2 0x10 0 0))
         ∧ ((c.arithM.getLsbD 3 && fl.getLsbD 0) = false → s.mayIssue i 2 → s.room → ∃ t script,
             s.issuesWith i 2 f.i.toNat
               { c with arithM := c.arithM ||| (fl.zeroExtend 32) <<< (16 : Nat), tags := t
                        window := (c.window ++ [kept]).drop (c.window.length + 1 - 64), jobs := c.jobs + 1
                        meFree := if ps = [] then c.meFree else t0 + 32 * ps.length * n } script
             ∧ (∀ e, e ∈ script ↔
                 (∃ q m o, out[q]? = some o ∧ m < 32 ∧ ∃ st, drainRow s d o.1.pa (f.ta = 1#1) o.2.1 m = some st
                   ∧ e = (t0 + (32 * q + (if d.space = 1 then 4 else 1) + m) * n, 0, st))
                 ∨ (f.zc = 1#1 ∧ ∃ q p, ps[q]? = some p ∧ e = (t0 + 32 * q * n, 1, .pzero (planes p))))
             ∧ (f.zc = 0#1 → t = c.tags)
             ∧ (f.zc = 1#1 → ∀ x, x ∈ t ↔ x ∈ c.tags ∧ ∀ p ∈ ps, x.1 ∉ planes p))))
  ∧ (∀ (f : MX) (s : State),
       let c := s.ctx
       let d := Desc.of (c.desc.get f.da.toNat)
       let nest := (List.range (f.lvl.toNat + 1)).map c.lnt.get
       let n := c.div 2
       let t0 := max (c.ctime + n) (edgeAt c.meFree n)
       let busy (ps : List MStep) : Nat := if ps = [] then c.meFree else t0 + 32 * ps.length * n
       let left (j : Job) : Ctx :=
         { c with window := (c.window ++ [{ j with id := c.jobs }]).drop (c.window.length + 1 - 64), jobs := c.jobs + 1 }
       let kept (qs : List Nat) : Job := { acc := f.acc.toNat, lvl := f.lvl.toNat, zc := true, kept := qs }
       (let i := Instr.azero f
         let ps := nestSteps nest { pa := 0, pb := 0, c := f.acc.toNat, g := 0 }
         s.mayIssue i 2 → s.room → (∀ p ∈ ps, 0 ≤ p.c ∧ p.c ≤ 15 ∧ c.reserved p.c.toNat = false ∧ p.c.toNat < c.planesN) →
         ∃ t script, s.issuesWith i 2 f.i.toNat
             { left (kept (ps.map fun p => p.c.toNat)) with tags := t, meFree := busy ps } script
           ∧ (∀ e, e ∈ script ↔ ∃ q p, ps[q]? = some p ∧ e = (t0 + 32 * q * n, 1, .pzero [p.c.toNat]))
           ∧ ∀ x, x ∈ t ↔ x ∈ c.tags ∧ ∀ p ∈ ps, x.1 ≠ p.c.toNat)
       ∧ (let i := Instr.aload f
         let mom := decide (d.fm = .mom)
         let ps := nestSteps nest { pa := (startPos c f.be f.bc).1, pb := 0, c := f.acc.toNat, g := 0 }
         let planes (p : MStep) : List Nat := if mom then [p.c.toNat, p.c.toNat + 1] else [p.c.toNat]
         let cells (p : MStep) := allCells.map fun q => cellAt d p.pa (f.ta = 1#1) q.1 q.2
         s.mayIssue i 2 → s.room → d.invalid = false → (mom = true ∨ d.fm = .fp32) →
         (d.space = 0 ∨ (d.space = 1 ∧ c.lentSize ≠ 0)) → d.misaligned = false → (f.be = 1#1 → f.bc.toNat < c.sregs) →
         (∀ p ∈ ps, 0 ≤ p.c ∧ p.c ≤ 15 ∧ (mom = true → p.c % 2 = 0) ∧ 0 ≤ p.pa ∧ c.opOut d (cells p) = false
           ∧ (∀ q ∈ planes p, c.reserved q = false ∧ q < c.planesN)
           ∧ (mom = true → ∀ e ∈ cells p, ∀ x, e = some x →
               negVar (gather s.byteAt (s.piecesOf d x 0) / 2 ^ 32) = false)) →
         ∃ t script, s.issuesWith i 2 f.i.toNat
             { left { kept (ps.flatMap planes) with
                 load := true, da := c.desc.get f.da.toNat, ta := f.ta = 1#1, nest := nest
                 pa := (startPos c f.be f.bc).1 } with tags := t, meFree := busy ps } script
           ∧ (∀ e, e ∈ script ↔ ∃ q p m, ps[q]? = some p ∧ m < 32 ∧ e = (t0 + (32 * q + m) * n, 1,
               .rdA c.jobs (c.desc.get f.da.toNat) p.c.toNat m p.pa (f.ta = 1#1) mom (t0 + (32 * q + 32) * n)))
           ∧ ∀ x, x ∈ t ↔ x ∈ c.tags ∧ ∀ p ∈ ps, x.1 ∉ planes p))

/-- The control words of the ME and the words of the gather unit (R66, R105, R107, R153, R159, R168, R169, R171, R175, R182). -/
def Obligations.MatrixControl : Prop :=
  (∀ (f : MC) (s : State),
    let bc := s.ctx.bcast 2 f.bc.toNat
    let named := f.be = 1#1 → f.bc.toNat < s.ctx.sregs
    (s.mayIssue (.go f) 2 → s.issuesWith (.go f) 2 f.i.toNat { s.ctx with lnt := s.ctx.lnts } [])
    ∧ (let n := (if f.be = 1#1 then bc.toNat else f.imm.toNat) % 32
      named → s.mayIssue (.mwait f) 2 →
      (s.ctx.asyncQ.length ≤ n → s.issuesWith (.mwait f) 2 f.i.toNat s.ctx [])
      ∧ (n < s.ctx.asyncQ.length → exec (.mwait f) s = .next (s.freezeOn 2 (.asyncLe n))))
    ∧ (s.mayIssue (.mrdv f) 2 →
        s.issuesWith (.mrdv f) 2 f.i.toNat { s.ctx with me := { s.ctx.me with park := .stand } } [])
    ∧ (s.mayIssue (.mrdvEnd f) 2 →
        s.issuesWith (.mrdvEnd f) 2 f.i.toNat { s.ctx with me := { s.ctx.me with park := .ending } } [])
    ∧ (s.mayIssue (.mcsrr f) 2 → s.room → f.bc.toNat < s.ctx.sregs →
        ∃ v edge, s.issuesWith (.mcsrr f) 2 f.i.toNat s.ctx [(edge, 2, .sreg f.bc.toNat v)]
          ∧ (s.ctx.div 0 ≠ 0 → edge % s.ctx.div 0 = 0 ∧ s.ctx.ctime + 2 * s.ctx.div 2 ≤ edge
              ∧ edge < s.ctx.ctime + 2 * s.ctx.div 2 + s.ctx.div 0)
          ∧ (f.imm = 0 → v = s.ctx.arithM.zeroExtend 64) ∧ (f.imm = 1 → v = s.ctx.momM.zeroExtend 64)
          ∧ (f.imm = 2 → v = s.ctx.me.save))
    ∧ (s.mayIssue (.mcsrw f) 2 → s.room → f.bc.toNat < s.ctx.sregs → (f.imm = 1 → bc.toNat / 2 ^ 16 % 2 ^ 15 ≤ 0x3C00) →
        s.issuesWith (.mcsrw f) 2 f.i.toNat s.ctx [(s.ctx.ctime + s.ctx.div 2, 3, .csr true f.imm.toNat bc)])
    ∧ (s.mayIssue (.midle f) 2 → named → exec (.midle f) s = .next (s.afterIssue (.midle f) 2 f.i.toNat
        { ctx := s.ctx, idle := if f.be = 1#1 then bc.toNat % 2 ^ 24 else f.imm.toNat }))
    ∧ ∀ (o : BitVec 3) (h : BitVec 50) (j : BitVec 8), s.mayIssue (.mnop o h j) 2 →
        s.issuesWith (.mnop o h j) 2 j.toNat s.ctx [])
  ∧ ∀ (f : GW) (s : State),
    let bc := s.ctx.bcast 3 f.bc.toNat
    let named := f.be = 1#1 → f.bc.toNat < s.ctx.sregs
    let d := Desc.of (s.ctx.desc.get f.did.toNat)
    let off : Int := f.off.toNat + if f.be = 1#1 then bc.toInt else 0
    let lent := if d.space = 1 then 3 else 0
    let at_ (k : Nat) : Nat := s.ctx.ctime + k * s.ctx.div 3
    (s.mayIssue (.gidx f) 3 → s.room → named → d.invalid = false → d.fm ∈ [Fm.i32, Fm.n32] →
      (d.space = 0 ∨ (d.space = 1 ∧ s.ctx.lentSize ≠ 0)) → d.misaligned = false →
      (∀ k, k ≤ f.cnt.toNat → 0 ≤ off + k ∧ (d.split (off + k)).2.2 < d.dim2
        ∧ s.ctx.elemOut d (d.split (off + k)) = false) →
      s.issuesWith (.gidx f) 3 f.i.toNat s.ctx
        [(at_ (1 + lent), 1, .rdX ((List.range (f.cnt.toNat + 1)).map fun (k : Nat) =>
            firstLoc (s.elemLocs d (d.split (off + (k : Int))))) (at_ (6 + lent)))])
    ∧ (s.mayIssue (.gfill f) 3 → s.room → named →
        s.issuesWith (.gfill f) 3 f.i.toNat s.ctx [(at_ 1, 2, .ix ((List.range 32).map fun m =>
          if m ≤ f.cnt.toNat then BitVec.ofInt 32 (off + m) else BitVec.allOnes 32))])
    ∧ (s.mayIssue (.grdv f) 3 →
        s.issuesWith (.grdv f) 3 f.i.toNat { s.ctx with gu := { s.ctx.gu with park := .stand } } [])
    ∧ (s.mayIssue (.grdvEnd f) 3 →
        s.issuesWith (.grdvEnd f) 3 f.i.toNat { s.ctx with gu := { s.ctx.gu with park := .ending } } [])
    ∧ (s.mayIssue (.gidle f) 3 → named → exec (.gidle f) s = .next (s.afterIssue (.gidle f) 3 f.i.toNat
        { ctx := s.ctx, idle := if f.be = 1#1 then bc.toNat % 2 ^ 24 else f.did.toNat * 2 ^ 16 + f.off.toNat / 2 ^ 6 }))
    ∧ ∀ (o : BitVec 3) (h : BitVec 50) (j : BitVec 8), s.mayIssue (.gnop o h j) 3 →
        s.issuesWith (.gnop o h j) 3 j.toNat s.ctx []

/-! ### Words, steps and reset -/

/-- A few words written out bit by bit from the encoding tables, one or more of each stream, decode to what they stand for (R67
to R82, R370). -/
def Obligations.DecodeWords : Prop :=
  decodeWord .sq 0b000001_000001_000010_00000000101_011 = .ok (.addi 1 2 5 3)
  ∧ decodeWord .sq 0b010000_000101_000110_0010_10_1_0001_000 = .ok (.ld 5 6 2 2 1 1 0)
  ∧ decodeWord .sq 0b110011_000000000000000_00010001_000 = .ok (.waite 0x11 0)
  ∧ decodeWord .ve 0x0120213800020051 = .ok (.vadd 1
      { i := 1, hold := 2, rq := 0, sat := 1, be := 0, bc := 0, km := 1, mc := 0, mb := 0, vc := 0, vb := 0x0E
        ma := 1, va := 2, vd := 8 })
  ∧ decodeWord .sv (0x08 * 2 ^ 26 + 5 * 2 ^ 22 + 6 * 2 ^ 18 + 7 * 2 ^ 14) = .ok (.sieveSltu 5 6 7)
  ∧ (∃ x, decodeWord .sq 0b001101_00000000000000000000000_000 = .error x)

/-- Encoding and decoding (R64, R67): the word of a legal instruction decodes to it, every operand at every value. -/
def Obligations.DecodeEncode : Prop :=
  ∀ (i : Instr) (st : Strm) (w : Nat), i.wf = true → encode i = some (st, w) → w < 2 ^ (8 * st.bytes) ∧ decodeWord st w = .ok i

/-- Decoding and encoding (R64): a word that decodes is the word of the instruction it decodes to, so no two words stand for
one instruction, and a reserved bit that is not 0 makes no instruction. -/
def Obligations.EncodeDecode : Prop :=
  ∀ (i : Instr) (st : Strm) (w : Nat), w < 2 ^ (8 * st.bytes) → decodeWord st w = .ok i →
    i.wf = true ∧ encode i = some (st, w)

/-- A step runs the decoded word (R55, R59, R63, R64): where the next act is the issue of stream `n` of core `k`, the word is
the bytes at the stream's address, and the step is exec of what they decode to, on that core, with the step and the read of
the word counted (R390), which changes nothing where no scratchpad holds an error; a word that may meet a bank conflict is
held once first; a word that is none traps, as does a fetch that fails. -/
def Obligations.StepRunsWord : Prop :=
  ∀ (s : State) (k n : Nat),
    let r : State := { s with turn := s.turn + 1, focus := k }
    let x := r.ctx.strm n
    let len := (strmOf n).bytes
    let place : Loc := { mem := .spm, unit := k, off := r.ctx.spb + x.pc.toNat }
    let w := leNat ((place.run len).map r.byteAt)
    let ls := place.run len
    let u := r.touch ls
    let bad (v : State) (cause : Nat) (addr : BitVec 64) : Prop := step s = .next (v.trap n cause 0 addr)
    State.nextAct { s with turn := s.turn + 1 } = .word k n →
    (r.ctx.spmSize < x.pc.toNat + len → bad r 0x02 x.pc)
    ∧ (x.pc.toNat + len ≤ r.ctx.spmSize → x.pc.toNat % len ≠ 0 → bad r 0x05 x.pc)
    ∧ ((∀ e ∈ r.cores, e.2.err = []) → r.glitch = [] → u = r)
    ∧ (x.pc.toNat + len ≤ r.ctx.spmSize → x.pc.toNat % len = 0 → (∃ l ∈ ls, r.badAt l = true) → bad u 0x0B x.pc)
    ∧ (x.pc.toNat + len ≤ r.ctx.spmSize → x.pc.toNat % len = 0 → (∀ l ∈ ls, r.badAt l = false) →
      (∀ e, decodeWord (strmOf n) w = .error e → bad u 0x01 0)
      ∧ ∀ i, decodeWord (strmOf n) w = .ok i →
        ((stallOf i = 0 ∨ x.stalled = true) → r.me.tasteNow = false → step s = exec i u)
        ∧ (stallOf i ≠ 0 → x.stalled = false →
            step s = .next (u.setCtx (r.ctx.setStrm n { x with due := x.due + stallOf i * r.ctx.div n, stalled := true }))))

/-- A step performs the event that comes next, with its operands, on its core (R55), and the next word of a sieve (R365). -/
def Obligations.StepRunsEvent : Prop :=
  ∀ (s : State),
    let u : State := { s with turn := s.turn + 1 }
    (∀ i k a, u.nextAct = .ev i k a → step s = exec i { u with focus := k, arg := a })
    ∧ (∀ m i a, u.nextAct = .take m → u.pend[m]? = some (i, a) → step s = exec i { u with pend := u.pend.eraseIdx m, arg := a })
    ∧ ∀ d n r i, u.nextAct = .sword d n → (State.sv { u with sfocus := d * 64 + n }).run = some r →
        decodeWord .sv ((State.sv { u with sfocus := d * 64 + n }).imem.get
          (((State.sv { u with sfocus := d * 64 + n }).desc r.part).kbase + r.pc)).toNat = .ok i →
        step s = exec i { u with sfocus := d * 64 + n }

/-- Every step goes on, and leaves every memory in its canonical form (R256): no run ends, whatever it executes. -/
def Obligations.StepKeepsMemory : Prop := ∀ (s : State), s.memWf = true → ∃ t, step s = .next t ∧ t.memWf = true

/-- After reset (R41, R48, R298, R353, R379): every memory is in its canonical form; the power registers, the time base's and the
Hob's hold the values of their tables; a kernel finds every register file zero but the masks, and the divisors at 4. -/
def Obligations.ResetState : Prop :=
  State.reset.memWf = true
  ∧ State.reset.power.lock = false ∧ State.reset.power.floor = 280 ∧ State.reset.power.hold = true
  ∧ State.reset.power.lease = 0 ∧ State.reset.power.expiry = 0 ∧ State.reset.power.lvlth0 = 0x00F000A000500000
  ∧ State.reset.power.lvlth1 = 0x023001E001900140 ∧ State.reset.power.tcost = 0x0B0A090807060504
  ∧ State.reset.power.ramp = 16 ∧ State.reset.power.simn = 0 ∧ State.reset.power.simt = 0 ∧ State.reset.power.pdrop = 0
  ∧ State.reset.clock.ctl.extractLsb' 20 8 = 0xFC ∧ (∀ d, (State.reset.die d).hob = 4)
  ∧ (∀ k, (State.reset.core k).live = false)
  ∧ ∀ h node p ev asid gen spb map ls,
      let c := newCtx h node p ev asid gen spb map ls
      (∀ n, c.rs n = 0) ∧ (∀ n, c.h.get n = 0) ∧ (∀ n, c.v.get n = 0) ∧ (∀ n, c.rk n = 0xFFFFFFFF) ∧ (∀ n, c.q.get n = 0)
        ∧ (∀ n, c.a.get n = 0) ∧ (∀ n, c.desc.get n = 0) ∧ (∀ n, n ≤ 4 → c.div n = 4) ∧ c.ctime = 0
        ∧ c.la.valid = false ∧ c.lb.valid = false ∧ c.lc.valid = false ∧ c.arithV = 0 ∧ c.momV = 0 ∧ c.arithM = 0 ∧ c.momM = 0

/-! ### What lands -/

/-- RESULT_LAND of a register's new value (R41, R42, R62, R127, R128, R129): the register takes it, s0 and k0 discard it, a latch
of the vector register becomes invalid, flags are added; every other register and every byte of memory stays. -/
def Obligations.LandRegisters : Prop :=
  ∀ (s : State) (x : Item), s.landing x →
    let c := s.ctx
    let left := (c.takeItem x).prune.flights
    let lands (frame : Ctx → Ctx) (value : Ctx → Prop) : Prop :=
      ∃ t, exec .resultLand s = .next t ∧ s.onlyMe t ∧ s.sameMemory t ∧ { t.me with ctx := c } = s.me
        ∧ t.ctx.flights = left ∧ frame { t.ctx with flights := c.flights } = c ∧ value t.ctx
    let latch (d : Nat) (o l : Latch) : Prop := l = if o.tag = d then { o with valid := false } else o
    (∀ d v, x.eff = .sreg d v →
      lands (fun t => { t with s := c.s, bank := c.bank, hist := c.hist })
        (fun t => ∀ n, t.rs n = if n = d ∧ d ≠ 0 then v else c.rs n))
    ∧ (∀ d v, x.eff = .hreg d v →
      lands (fun t => { t with h := c.h }) (fun t => ∀ n, t.h.get n = if n = d then v else c.h.get n))
    ∧ (∀ d m v fl, x.eff = .vreg d m v fl →
      lands (fun t => { t with v := c.v, la := c.la, lb := c.lb, lc := c.lc, arithV := c.arithV })
        (fun t => (∀ n, n ≠ d → t.v.get n = c.v.get n)
          ∧ (∀ j, j < 1024 → (t.v.get d).getLsbD j = if m.getLsbD j then v.getLsbD j else (c.v.get d).getLsbD j)
          ∧ (∀ j, j < 32 → t.arithV.getLsbD j = (c.arithV.getLsbD j || (decide (16 ≤ j) && fl.getLsbD (j - 16))))
          ∧ latch d c.la t.la ∧ latch d c.lb t.lb ∧ latch d c.lc t.lc))
    ∧ (∀ d k v fl, x.eff = .qreg d k v fl →
      lands (fun t => { t with q := c.q, arithV := c.arithV })
        (fun t => (∀ n, n ≠ d → t.q.get n = c.q.get n)
          ∧ (∀ l, l < 32 → pairOf (t.q.get d) l = if k.getLsbD l then pairOf v l else pairOf (c.q.get d) l)
          ∧ ∀ j, j < 32 → t.arithV.getLsbD j = (c.arithV.getLsbD j || (decide (16 ≤ j) && fl.getLsbD (j - 16)))))
    ∧ (∀ d v, x.eff = .kreg d v →
      lands (fun t => { t with k := c.k }) (fun t => ∀ n, t.rk n = if n = d ∧ d ≠ 0 then v else c.rk n))
    ∧ (∀ d v, x.eff = .desc d v →
      lands (fun t => { t with desc := c.desc }) (fun t => ∀ n, t.desc.get n = if n = d then v else c.desc.get n))
    ∧ (∀ v, x.eff = .ix v → v.length = 32 →
      lands (fun t => { t with ix := c.ix }) (fun t => ∀ m, m < 32 → ~~~ t.ix.get m = v.getD m 0))
    ∧ (∀ ps, x.eff = .pzero ps →
      lands (fun t => { t with a := c.a })
        (fun t => ∀ q, t.a.get q = if q / 1024 ∈ ps then 0 else c.a.get q))
    ∧ (∀ p row v, x.eff = .prow p row v → v.length = 32 →
      lands (fun t => { t with a := c.a })
        (fun t => (∀ n, n < 32 → t.a.get (1024 * p + 32 * row + n) = v.getD n 0)
          ∧ ∀ q, (∀ n, n < 32 → q ≠ 1024 * p + 32 * row + n) → t.a.get q = c.a.get q))
    ∧ ∀ j k a b, x.eff = .grp j k a b →
      lands (fun t => { t with a := c.a, arithM := c.arithM })
        (fun t => t.a = (landGroup j k a b (c.takeItem x)).a ∧ t.arithM = (landGroup j k a b (c.takeItem x)).arithM)

/-- RESULT_LAND of a control register of an engine and of the tile unit (R21, R45, R47, R147, R148, R153, R182): flags cleared
where a 1 is written, reserved bits 0; a tile reshaped in place keeps the cells of both shapes, every other cell of it is +0,
and DIRTY is set when anything changed. -/
def Obligations.LandControl : Prop :=
  ∀ (s : State) (x : Item), s.landing x →
    let c := s.ctx
    let left := (c.takeItem x).prune.flights
    (∀ me reg v, x.eff = .csr me reg v → reg < 3 →
      ∃ t, exec .resultLand s = .next t ∧ s.onlyMe t ∧ s.sameMemory t ∧ t.ctx.flights = left
        ∧ { t.ctx with flights := c.flights, arithV := c.arithV, arithM := c.arithM, momV := c.momV, momM := c.momM
                       ve := c.ve, me := c.me } = c
        ∧ (let old := if me then c.arithM else c.arithV
          let new := if me then t.ctx.arithM else t.ctx.arithV
          ∀ j, j < 32 → new.getLsbD j = if reg ≠ 0 then old.getLsbD j else if j < 4 then v.getLsbD j
            else decide (16 ≤ j ∧ j < 22) && old.getLsbD j && !v.getLsbD j)
        ∧ (let old := if me then c.momM else c.momV
          let new := if me then t.ctx.momM else t.ctx.momV
          ∀ j, j < 32 → new.getLsbD j = if reg ≠ 1 then old.getLsbD j else decide (j < 2 ∨ 16 ≤ j) && v.getLsbD j)
        ∧ (if me then t.ctx.arithV = c.arithV ∧ t.ctx.momV = c.momV ∧ t.ctx.ve = c.ve
              ∧ t.ctx.me = { c.me with save := if reg = 2 then v &&& 0x800000000000001F else c.me.save }
            else t.ctx.arithM = c.arithM ∧ t.ctx.momM = c.momM ∧ t.ctx.me = c.me
              ∧ t.ctx.ve = { c.ve with save := if reg = 2 then v &&& 0x9FFFFFFFFFFFFFFF else c.ve.save }))
    ∧ ∀ n, n < 8 → (s.me.towner.find? fun o => o.1 = n) = some (n, (c.launch, c.p)) →
      let settles (value : Core → Prop) : Prop :=
        ∃ t, exec .resultLand s = .next t ∧ s.onlyMe t ∧ s.sameMemory t ∧ t.ctx.flights = left
          ∧ { t.me with tiles := s.me.tiles, tshape := s.me.tshape, ctx := { t.ctx with flights := c.flights } } = s.me
          ∧ (∀ q, q / 256 ≠ n → t.me.tiles.get q = s.me.tiles.get q) ∧ (∀ m, m ≠ n → t.me.tshape.get m = s.me.tshape.get m)
          ∧ value t.me
      (∀ r w z, x.eff = .tcfg n r w z → r ≤ 16 → w ≤ 16 → settles fun k =>
        (∀ j, j < 256 → k.tiles.get (256 * n + j) =
          if z = false ∧ j / 16 < min r (s.me.rows n) ∧ j % 16 < min w (s.me.cols n) then s.me.tiles.get (256 * n + j) else 0)
        ∧ (k.tshape.get n).toNat % 1024 = r + 32 * w
        ∧ ((s.me.tshape.get n).getLsbD 12 = true ∨ (s.me.tshape.get n).toNat % 1024 ≠ r + 32 * w
            ∨ (∃ j, j < 256 ∧ k.tiles.get (256 * n + j) ≠ s.me.tiles.get (256 * n + j)) → (k.tshape.get n).getLsbD 12 = true))
      ∧ ∀ cells, x.eff = .tset n cells → (cells.map (·.1)).Nodup → (∀ e ∈ cells, e.1 / 256 = n) → settles fun k =>
        (∀ e ∈ cells, k.tiles.get e.1 = e.2)
        ∧ (∀ q, (∀ e ∈ cells, e.1 ≠ q) → k.tiles.get q = s.me.tiles.get q)
        ∧ (k.tshape.get n).toNat % 1024 = (s.me.tshape.get n).toNat % 1024 ∧ (k.tshape.get n).getLsbD 12 = true

/-- RESULT_LAND of a lockstep access, FAR_LOAD_RETURN and OUTWARD_ACTION_PERFORM (R5, R86, R88, R92, R94, R128, R140, R191,
R263, R266, R401, R419): a store changes the bytes of its pieces alone; a load schedules what it read, the sequencer's own
pending stores forwarded, for its landing edge; a far load reads, one single-copy-atomic unit at an access, once no earlier
store of its order waits, and lands four ticks after its edge; a far store, performed, writes its bytes, an EVSET or EVCLR
its bit (R114), a CSRW its register (R119).  An access of a pair that was never assigned is a violation. -/
def Obligations.LandAccesses : Prop :=
  ∀ (s : State) (x : Item),
    let c := s.ctx
    let f := c.flightOf x.seq
    let free (ls : List Loc) : Prop := orderedBefore c x.seq (classOf f) ls = false
    let adds (t : State) (es : List (Nat × Nat × Eff)) : Prop :=
      s.sameMemory t ∧ { t.ctx with flights := c.flights } = c ∧ t.ctx.flights = ((c.takeItem x).addItems x.seq es).prune.flights
    let reads (t : State) (es : List (Nat × Nat × Eff)) : Prop :=
      s.sameMemory t ∧ { t.ctx with flights := c.flights, probes := c.probes } = c
        ∧ t.ctx.probes = c.probes.filter (fun p => p.seq != x.seq)
        ∧ t.ctx.flights = ((c.takeItem x).addItems x.seq es).prune.flights
    (s.landing x →
      (∀ ps src, x.eff = .store ps src → (f.strm ≠ 0 ∨ (free (ps.map (·.loc)) ∧ s.me.tasteBad = 0)) → (∀ p ∈ ps, p.loc.mem ≠ .phy) →
        ∃ t, exec .resultLand s = .next t ∧ { t.ctx with flights := c.flights } = c ∧ t.ctx.flights = (c.takeItem x).prune.flights
          ∧ (∀ l, l.apart (ps.map (·.loc)) → t.byteAt l = s.byteAt l)
          ∧ (Loc.distinct (ps.map (·.loc)) → ∀ p ∈ ps, ∀ j, j < 8 → 0 < p.w → p.sh + p.w ≤ 8 →
              (t.byteAt p.loc).getLsbD j = if p.sh ≤ j ∧ j < p.sh + p.w then src.getLsbD (p.dst + j - p.sh)
                else (s.byteAt p.loc).getLsbD j))
      ∧ (∀ d loc n sx land, x.eff = .rdS d loc n sx land → loc.mem ≠ .phy → (f.strm ≠ 0 ∨ free (loc.run n)) →
        let v := leNat ((loc.run n).map (s.forwarded x.seq))
        ∃ t, exec .resultLand s = .next t
          ∧ adds t [(land, 2, .sreg d (if sx then BitVec.ofInt 64 (sgn (8 * n) v) else BitVec.ofNat 64 v))])
      ∧ (∀ d loc land, x.eff = .rdH d loc land → loc.mem ≠ .phy → (f.strm ≠ 0 ∨ free (loc.run 32)) →
        ∃ t, exec .resultLand s = .next t ∧ adds t [(land, 2, .hreg d (BitVec.ofNat 256 (leNat ((loc.run 32).map (s.forwarded x.seq)))))])
      ∧ (∀ d ps land, x.eff = .rdV d ps land → (∀ p ∈ ps, s.badAt p.loc = false) → ∃ t, exec .resultLand s = .next t
          ∧ reads t [(land, 2, .vreg d (BitVec.ofNat 1024 (pieceMask ps)) (BitVec.ofNat 1024 (gather s.byteAt ps)) 0)])
      ∧ (∀ d ps k land, x.eff = .rdQ d ps k land → (∀ p ∈ ps, s.badAt p.loc = false) →
          let found := BitVec.ofNat 2048 (gather s.byteAt ps)
          (∀ l, l < 32 → k.getLsbD l = true → negVar (pairOf found l).2 = false) →
          ∃ t q, exec .resultLand s = .next t ∧ reads t [(land, 2, .qreg d k q 0)]
            ∧ ∀ l, l < 32 → pairOf q l = ((pairOf found l).1,
                if (pairOf found l).2 = 0x80000000 then 0 else (pairOf found l).2))
      ∧ (∀ n cells land, x.eff = .rdT n cells land → (∀ e ∈ cells, ∀ l ∈ e.2.run 4, s.badAt l = false) →
          ∃ t, exec .resultLand s = .next t ∧ reads t [(land, 2, .tset n (cells.map fun e => (e.1, BitVec.ofNat 32 (s.natAt (e.2.run 4)))))]))
    ∧ (∀ d loc n sx hnd got, c.nextItem = some x → x.eff = .far d loc n sx hnd got → x.t ≤ c.ctime → free (loc.run n) →
        loc.mem ≠ .phy → (s.unassigned c.asid.toNat c.gen.toNat = true →
          exec .farLoadReturn s = .next (s.post .violation { viol := .pairUnknown s.focus }))
        ∧ (s.unassigned c.asid.toNat c.gen.toNat = false → s.hbmHeld loc = false → s.inWindow loc = false →
          s.hostClear (loc.run n) = s →
          let part : Loc := { loc with off := loc.off + got.length }
          let bs := got ++ (part.run (min (n - got.length) (scaSize loc.mem))).map (s.forwarded x.seq)
          (bs.length < n → ∃ t, exec .farLoadReturn s = .next t ∧ s.sameMemory t ∧ { t.ctx with flights := c.flights } = c
            ∧ t.ctx.flights = ((c.takeItem x).addItems x.seq [(x.t, x.ph, .far d loc n sx hnd bs)]).flights)
          ∧ (n ≤ bs.length → ∃ t, exec .farLoadReturn s = .next t ∧ adds t [(x.t + 4 * c.div 0, 2,
              if hnd then .hreg d (BitVec.ofNat 256 (leNat bs))
              else .sreg d (if sx then BitVec.ofInt 64 (sgn (8 * n) (leNat bs)) else BitVec.ofNat 64 (leNat bs)))])))
    ∧ ∀ o, s.me.live = true → s.readyOut = some (x, o) → s.me.tasteBad = 0 →
      let u := s.setCtx (c.takeItem x)
      (∀ loc bs k, (o = .store loc bs k ∨ o = .piece loc bs k) → loc.mem ≠ .phy →
        (c.asid = 0 ∨ s.inTables (loc.run bs.length) = false) → s.unassigned c.asid.toNat c.gen.toNat = false →
        s.inWindow loc = false → s.hbmHeld loc = false → u.hostClear (loc.run bs.length) = u →
        ∃ t, exec .outwardActionPerform s = .next t ∧ t.ctx.flights = (c.takeItem x).prune.flights
          ∧ (∀ l, l.apart (loc.run bs.length) → t.byteAt l = s.byteAt l)
          ∧ ∀ j, j < bs.length → t.byteAt { loc with off := loc.off + j } = bs.getD j 0)
      ∧ (∀ e, (o = .evset e ∨ o = .evclr e) → e < 256 → c.launch = 0 →
        ∃ t, exec .outwardActionPerform s = .next t ∧ s.sameMemory t ∧ t.ctx.privEv.getLsbD e = decide (o = .evset e)
          ∧ ∀ j, j < 256 → j ≠ e → t.ctx.privEv.getLsbD j = c.privEv.getLsbD j)
      ∧ (∀ r v, o = .csrw r v → ∃ t, exec .outwardActionPerform s = .next t ∧ s.sameMemory t
          ∧ { t.ctx with flights := c.flights, frame := c.frame, saveh := c.saveh, sq := { t.ctx.sq with save := c.sq.save } } = c
          ∧ (r = 0x03 → t.ctx.sq.save = v &&& 0x9FFFFFFFFFFFFFFF#64) ∧ (r = 0x05 → t.ctx.saveh = v &&& 0xFFFFFFFF#64)
          ∧ (∀ n, n ≤ 4 → r = 0x10 + n → n < c.frame.pcs.length → t.ctx.frame.pcs.getD n 0 = v.setWidth 21)
          ∧ (r = 0x18 → t.ctx.frame.rqsel = v.setWidth 10) ∧ (r = 0x1A → t.ctx.frame.vec = v.setWidth 21)
          ∧ (r = 0x1B → t.ctx.frame.step = v.setWidth 1) ∧ (r = 0x1C → t.ctx.frame.bsel = v.setWidth 7)
          ∧ (r = 0x1F → t.ctx.frame.scr = v))

/-- OUTWARD_ACTION_PERFORM and TASTER_RETRY (R397, R398): an action that the Taster does not confirm is withheld and freezes the
core; the second execution that agrees performs the action whose turn has come and counts, one that disagrees stops the
context with cause 0x0A, and its core is out of service.  TASTER_RETRY completes in every state in which the core stands
frozen on the Taster, and elsewhere does nothing. -/
def Obligations.TasterHolds : Prop :=
  ∀ (s : State),
    (∀ x o, s.me.live = true → s.readyOut = some (x, o) → (∀ l bs k, o ≠ .piece l bs k) → s.me.tasteBad ≠ 0 → s.ctx.freeze = [] →
      ∃ t, exec .outwardActionPerform s = .next t ∧ s.onlyMe t ∧ s.sameMemory t ∧ t.ctx.freeze = [(0, .taster)]
        ∧ t.ctx.flights = s.ctx.flights ∧ t.me.tasteBad = s.me.tasteBad - 1)
    ∧ ((∀ f ∈ s.ctx.freeze, f.2 ≠ .taster) → exec .tasterRetry s = .next s)
    ∧ ((∃ f ∈ s.ctx.freeze, f.2 = .taster) →
      let rest := s.ctx.freeze.filter fun f => f.2 != .taster
      let u := s.setMe { s.me with mism := s.me.mism + 1, retried := false, ctx := { s.ctx with freeze := rest } }
      (s.me.tasteBad = 0 → ∃ t, exec .tasterRetry s = .next t
        ∧ (u.readyOut = none → t = u) ∧ (∀ x o, u.readyOut = some (x, o) → t = u.performOut x o)
        ∧ u.ctx.freeze = rest ∧ u.me.mism = s.me.mism + 1 ∧ s.onlyMe u ∧ s.sameMemory u)
      ∧ (s.me.tasteBad ≠ 0 → ∃ t, exec .tasterRetry s = .next t ∧ t.ctx.mode = .faulted ∧ t.me.svc = 2
          ∧ t.ctx.freeze = [] ∧ t.ctx.s = s.ctx.s ∧ t.me.mism = s.me.mism ∧ (Instr.evict, { n := s.focus }) ∈ t.pend
          ∧ (s.ctx.launch ≠ 0 → s.ctx.handler = false → s.boot.phase ≠ phSafe → (∀ l, s.launchOf s.ctx.launch = some l →
              State.hbmLoc (s.ctx.launch + 112) ∉ (State.hbmLoc (l.parent + 56)).run 8) → t.nodeField s.ctx.launch 14 7 0 = 0x0A)))

/-! ### The Ladle -/

/-- The Ladle's command words (R53, R64, R194 to R197, R203 to R214): the faults of R197 in the order of its table, the bound on a
barrier before its membership; the freezes; and the command that enters its queue, with its ring claim, its rounds, its
locked pages and its arrival.  What each word brings: its format rule and its elements in step order. -/
def Obligations.LadleWords : Prop :=
  (∀ (f : LW) (ty : BitVec 3) (s : State),
     let same (dd ds : Desc) : Bool := dd.fm != ds.fm
     let typed (dd ds : Desc) : Bool := dd.fm != .ofAcc ty || ds.fm != .ofAcc ty
     let conv (dd ds : Desc) : Bool :=
       let ok : List Fm := [.fp32, .bf16, .fp16, .e4m3, .e5m2, .i8, .i16, .i32, .n8, .n16, .n32, .rq32]
       !ok.contains dd.fm || !ok.contains ds.fm
     let acc : LKind := .acc (.ofAcc ty) f.aop.toNat
     ∀ w ∈ ([(.copy1d f, moveSpec f 1 .copy false same s, false), (.copy2d f, moveSpec f 2 .copy false same s, false),
         (.copy3d f, moveSpec f 3 .copy false same s, false), (.scan f, scanSpec f s, false),
         (.copyx f, moveSpec f 1 (.cvt (s.ctx.descOf f.ds.toNat).fm (s.ctx.descOf f.dd.toNat).fm) false conv s, false),
         (.copy1dAcc ty f, moveSpec f 1 acc true typed s, false), (.copy2dAcc ty f, moveSpec f 2 acc true typed s, false),
         (.copy3dAcc ty f, moveSpec f 3 acc true typed s, false), (.xchg f, xchgSpec f 1 .xchg s, false),
         (.cmpx f, xchgSpec f 2 .cmpx s, false), (.enq f, ringSpec f true s, false), (.deq f, ringSpec f false s, false),
         (.qfence f, { kind := .qfence f.cnt.toNat, ds := [], qmask := f.cnt.toNat, noQueue := f.cnt = 0 }, true),
         (.cwrite f, { kind := .cwrite, ds := [] }, false), (.barrive f, { kind := .barrive, ds := [] }, true)] :
         List (Instr × LSpec × Bool)),
     let i := w.1
     let x := w.2.1
     let late := w.2.2 = true
     let c := s.ctx
     let counts := f.cw = 1#1
     let dc := c.descOf f.dc.toNat
     let word : LOp := LOp.els dc [dc.lsplit f.offc.toNat] true true
     let ds := x.ds ++ (if f.cw = 1#1 then [dc] else [])
     let ops := x.ops ++ (if f.cw = 1#1 then [word] else [])
     let b := f.bid.toNat
     let die := decide (f.bdie = 1#1)
     let bar := s.bar s.focus die b
     let me := c.agent die true
     let arrives := f.ba = 1#1
     let declared := b < (if die then c.dbarsN else c.barsN)
     let far (o : LOp) (a : Int) : Prop := o ∈ ops ∧ o.space = 3 ∧ a ∈ o.addrs ∧ c.outside 3 a o.w = false
     let pages := s.pagesOf (vaUses c ops)
     let rounds := if f.ord = 1#1 then assignRounds c.rounds x.elems else (c.rounds, x.elems)
     let suits := (∀ d ∈ ds, d.invalid = false) ∧ (∀ d ∈ x.ringDs, ringBad d = false) ∧ x.bad = false ∧ (counts → dc.fm = .n32)
     let spaces := (∀ o ∈ ops, o.space = 1 → c.lentSize ≠ 0 ∧ f.mov = 0#1) ∧ (∀ d ∈ x.ringDs, c.ringSpaceBad d = false)
     let reach := spaces ∧ (arrives → declared ∧ me ∈ bar.members)
     let cached := ∀ o a, far o a → s.ladXl a ≠ .miss
     let may := ∀ o a e, far o a → s.ladXl a = .page e → (o.rd = true → e.rd = true) ∧ (o.wr = true → e.rd = true ∨ e.wr = true)
     let aligned := ∀ d ∈ ds ++ x.ringDs, d.misaligned = false
     let inside := (∀ o ∈ ops, o.past = false ∧ ∀ a ∈ o.addrs, c.outside o.space a o.w = false) ∧ x.exceeds = false
       ∧ (arrives → x.payload < 2 ^ 28) ∧ s.pageCount (vaUses c ops) ≤ 1024 ∧ (f.ord = 1#1 → rounds.1.length ≤ 1024)
     let present := ∀ o a, far o a → s.ladXl a ≠ .absent
       ∧ ∀ e, s.ladXl a = .page e → o.wr = true → e.wr = true ∨ e.rd = false
     let locks := c.locksUsed + pages.length ≤ 1024
     let arrived := me ∈ bar.arrived ∨ (die, b) ∈ c.defer
     let turned := arrives ∧ ¬ late ∧ bar.broken = false
     let enters (q : Nat) : Prop := x.noQueue = false ∧ if x.qmask = 0 then q = f.qn.toNat else x.qmask.testBit q = true
     let full := ∃ q, q < 4 ∧ enters q ∧ 32 ≤ c.queueLen q
     let owed := if f.sco = 0#4 then 0 else x.payload
     let cmd : LCmd :=
       { id := c.lseq, kind := x.kind, qn := f.qn.toNat, cls := f.oc.toNat, sco := f.sco.toNat, ord := decide (f.ord = 1#1)
         mov := decide (f.mov = 1#1), cw := if f.cw = 1#1 then some (s.ladLocs word (word.addrs.headD 0)) else none
         bar := if f.ba = 1#1 ∧ (w.2.2 = true ∨ bar.broken = false) then some (die, b) else none
         elems := rounds.2, seqAt := c.seq, base := (x.claim.map (·.2.2)).getD 0
         pages := pages.map fun e => (e.base, e.size)
         payload := if f.ba = 1#1 ∧ w.2.2 = false ∧ bar.broken = false then owed else 0
         acc := if x.carry = [] then some [] else none }
     let claimed : Ctx := match x.claim, x.kind with
       | some (g, n, _), .enq .. => c.setRing g 0 (c.ring g 0 + BitVec.ofNat 32 n)
       | some (g, n, _), _ => c.setRing g 2 (c.ring g 2 + BitVec.ofNat 32 n)
       | none, _ => c
     let queued : Ctx := { claimed with
       cmds := c.cmds ++ [cmd], lseq := c.lseq + 1, rounds := rounds.1, lwin := (c.lwin ++ [cmd]).drop (c.lwin.length + 1 - 64) }
     let idle := f.i.toNat
     let traps (cause : Nat) : Prop := ∃ a, exec i s = .next (s.trap 4 cause 0 a)
     i.wf = true →
     (¬ suits → traps 0x12)
     ∧ (suits → ¬ spaces → traps 0x03)
     ∧ (suits → spaces → arrives → ¬ declared → traps 0x02)
     ∧ (suits → spaces → arrives → declared → me ∉ bar.members → traps 0x03)
     ∧ (suits → reach → ¬ cached → ∃ a o, far o a ∧ s.ladXl a = .miss
         ∧ exec i s = .next (s.freezeOn 4 (.xlat c.asid.toNat a.toNat)))
     ∧ (suits → reach → cached → ¬ may → traps 0x03)
     ∧ (suits → reach → cached → may → ¬ aligned → traps 0x05)
     ∧ (suits → reach → cached → may → aligned → ¬ inside → traps 0x02)
     ∧ (suits → reach → cached → may → aligned → inside → ¬ present → traps 0x04)
     ∧ (suits → reach → cached → may → aligned → inside → present →
       (¬ locks → exec i s = .next (s.freezeOn 4 (.locks pages.length)))
       ∧ (locks → (∀ z, x.wait = some z → exec i s = .next (s.freezeOn 4 z))
         ∧ (x.wait = none → turned → arrived → exec i s = .next (s.freezeOn 4 (.bara die b bar.phase)))
         ∧ (x.wait = none → turned → ¬ arrived → 2 ^ 28 ≤ bar.pend + x.payload →
             exec i s = .next (s.freezeOn 4 (.pend die b x.payload)))
         ∧ (x.wait = none → (turned → ¬ arrived ∧ bar.pend + x.payload < 2 ^ 28) →
           (full → ∃ m, exec i s = .next (s.freezeOn 4 (.ladleQ m)))
           ∧ (¬ full → x.noQueue = false → ¬ turned → s.issuesWith i 4 idle queued [])
           ∧ (¬ full → x.noQueue = false → turned → ∃ (g : Go) (t : State), exec i s = .next t
               ∧ g.ctx = queued ∧ g.script = [] ∧ g.jump = none ∧ g.idle = 0 ∧ g.post = []
               ∧ t = (s.afterIssue i 4 idle g).arrive s.focus die b true owed
               ∧ t.bar s.focus die b = { bar with arrived := me :: bar.arrived, pend := bar.pend + owed })
           ∧ (¬ full → x.noQueue = true → ∃ (g : Go) (t : State), exec i s = .next t
               ∧ g.ctx = c ∧ g.script = [] ∧ g.jump = none ∧ g.idle = 0 ∧ g.post = []
               ∧ (let u := s.afterIssue i 4 idle g
                 let ls := s.ladLocs word (word.addrs.headD 0)
                 let v := if f.cw = 0#1 then u else if s.anyBad ls = true then u.touch ls
                   else (u.touch ls).writeAt ls (leBytes 4 (s.natAt ls + 1))
                 t = if f.ba = 0#1 ∨ bar.broken = true then v
                   else if bar.arrived.contains me then v.setCtx { v.ctx with defer := v.ctx.defer ++ [(die, b)] }
                   else v.arrive s.focus die b true 0))))))
  ∧ (∀ (f : LW) (s : State),
       let c := s.ctx
       let dd := c.descOf f.dd.toNat
       let ds := c.descOf f.ds.toNat
       let n := f.cnt.toNat
       let size (d : Desc) : Nat := if d.w < 8 then 1 else d.w / 8
       let wide (d : Desc) : Nat := if d.w < 8 then d.dim0 / 2 else d.dim0
       let at_ (d : Desc) (l : Nat) : Int × Int × Int :=
         (((l % wide d : Nat) : Int), ((l / wide d % d.dim1 : Nat) : Int), ((l / (wide d * d.dim1) : Nat) : Int))
       let plus (i j : Int × Int × Int) : Int × Int × Int := (i.1 + j.1, i.2.1 + j.2.1, i.2.2 + j.2.2)
       let addr (d : Desc) (i : Int × Int × Int) : Int := d.base + i.1 * (size d : Int) + i.2.1 * d.s1 + i.2.2 * d.s2
       let bytes (space w : Nat) (a : Int) : List Loc :=
         if space = 3 then
           match s.ladXl a with
           | .page e => (e.place a.toNat).run w
           | _ => []
         else (List.range w).map fun k => s.place space (a.toNat + k)
       let el (d : Desc) (i : Int × Int × Int) : List Loc := bytes d.space (size d) (addr d i)
       let pair (x y : List Loc) : LElem := { src := x, dst := y }
       (dd.invalid = false → ds.invalid = false →
       (∀ kind rmw bad,
         let x := moveSpec f 1 kind rmw bad s
         x.kind = kind ∧ x.bad = bad dd ds ∧ x.ds = [dd, ds] ∧ x.payload = n * size dd ∧ x.claim = none ∧ x.wait = none
           ∧ x.elems = (List.range n).map fun k => pair (el ds (at_ ds (f.offs.toNat + k))) (el dd (at_ dd (f.offd.toNat + k))))
       ∧ (∀ kind rmw bad, ∀ p ∈ [(2, false), (3, true)],
         let x := moveSpec f p.1 kind rmw bad s
         let o := at_ ds f.offs.toNat
         let q := at_ dd f.offd.toNat
         let n0 := wide ds - o.1.toNat
         let n1 := ds.dim1 - o.2.1.toNat
         let n2 := if p.2 then ds.dim2 - o.2.2.toNat else 1
         x.kind = kind ∧ x.bad = bad dd ds ∧ x.ds = [dd, ds] ∧ x.payload = n0 * n1 * n2 * size dd ∧ x.claim = none
           ∧ x.wait = none ∧ x.elems.length = n0 * n1 * n2
           ∧ ∀ j0 j1 j2 : Nat, j0 < n0 → j1 < n1 → j2 < n2 →
               x.elems[j0 + n0 * (j1 + n1 * j2)]? = some (pair (el ds (plus o ((j0 : Int), (j1 : Int), (j2 : Int))))
                 (el dd (plus q ((j0 : Int), (j1 : Int), (j2 : Int))))))
       ∧ (let x := scanSpec f s
         let before := if f.offd = 0#20 then [] else el dd (at_ dd (f.offd.toNat - 1))
         x.kind = .scan dd.fm before ∧ x.carry = before ∧ x.claim = none ∧ x.wait = none ∧ x.payload = n * size dd
           ∧ (x.bad = false ↔ dd.fm = ds.fm ∧ dd.fm ∈ [Fm.fp32, .bf16, .fp16, .i32, .i64, .n32, .n64, .rq32])
           ∧ x.elems = (List.range n).map fun k => pair (el ds (at_ ds (f.offs.toNat + k))) (el dd (at_ dd (f.offd.toNat + k))))
       ∧ (∀ m kind, m = 1 ∨ m = 2 →
         let x := xchgSpec f m kind s
         x.kind = kind ∧ x.claim = none ∧ x.wait = none ∧ x.payload = 2 * n * size dd
           ∧ (x.bad = false ↔ dd.fm = ds.fm ∧ dd.fm ∈ [Fm.fp32, .i32, .n32, .rq32, .i64, .n64])
           ∧ x.elems = (List.range n).map fun k =>
               pair ((List.range m).flatMap fun j => el ds (at_ ds (f.offs.toNat + (m * k + j))))
                 (el dd (at_ dd (f.offd.toNat + k)))))
       ∧ ∀ enq : Bool,
         let x := ringSpec f enq s
         let g := f.dc.toNat
         let rd := c.ringDesc g
         let d := if enq then ds else dd
         let entry := rd.dim0 * rd.w / 8
         let per := entry / size d
         let first := c.ring g (if enq then 0 else 2)
         let slot (t : Nat) : List Loc :=
           bytes rd.space (size d) (rd.base + (((first.toNat + t / per) % 2 ^ 32 % rd.dim1 : Nat) : Int) * rd.s1 + ((t % per * size d : Nat) : Int))
         let mine (t : Nat) : List Loc := el d (at_ d ((if enq then f.offs.toNat else f.offd.toNat) + t))
         d.invalid = false → ringBad rd = false → per ≠ 0 →
         x.kind = (if enq then .enq g n else .deq g n) ∧ x.claim = some (g, n, first.toNat) ∧ x.payload = n * entry
           ∧ x.bad = decide (entry % size d ≠ 0) ∧ x.exceeds = decide (c.ringsN ≤ g ∨ rd.dim1 < n)
           ∧ x.wait = (if enq then
               (if rd.dim1 - (c.ring g 0 - c.ring g 3).toNat < n then some (.ringFree g n rd.dim1) else none)
             else if (c.ring g 1 - c.ring g 2).toNat < n then some (.ringFill g n) else none)
           ∧ x.elems = (List.range (n * per)).map fun t => if enq then pair (mine t) (slot t) else pair (slot t) (mine t))
  ∧ (∀ (t : List (Loc × Nat)) (es : List LElem),
       let count (t : List (Loc × Nat)) (l : Loc) : Nat := ((t.find? fun x => x.1 = l).map (·.2)).getD 0
       let r := assignRounds t es
       r.2.length = es.length
         ∧ (∀ k e, es[k]? = some e →
           let m := count t (firstLoc e.dst) + ((es.take k).filter fun y => firstLoc y.dst = firstLoc e.dst).length
           r.2[k]? = some { e with round := m })
         ∧ ∀ l, count r.1 l = count t l + (es.filter fun y => firstLoc y.dst = l).length)
  ∧ (∀ (f : LW) (s : State),
       (s.mayIssue (.lrdv f) 4 → s.issuesWith (.lrdv f) 4 f.i.toNat { s.ctx with ld := { s.ctx.ld with park := .stand } } [])
       ∧ (s.mayIssue (.lrdvEnd f) 4 →
           s.issuesWith (.lrdvEnd f) 4 f.i.toNat { s.ctx with ld := { s.ctx.ld with park := .ending } } [])
       ∧ (s.mayIssue (.lidle f) 4 → exec (.lidle f) s = .next (s.afterIssue (.lidle f) 4 f.i.toNat
           { ctx := s.ctx, idle := f.offd.toNat * 16 + f.offs.toNat % 16 }))
       ∧ ∀ (o : BitVec 4) (h : BitVec 112) (j : BitVec 8), s.mayIssue (.lnop o h j) 4 →
           s.issuesWith (.lnop o h j) 4 j.toNat s.ctx [])

/-- PORT_ACTION, ORD_CONTRIBUTION_APPLY, LADLE_COMMAND_RETIRE, LADLE_REPERFORM and MOVABLE_TAKE (R206 to R208, R211 to R214, R217,
R277, R300, R401, R404): what one port action does to memory, to the order state and to its command, into host memory in two
halves; what retirement performs, or a failed command leaves; the second performance; and which command a sibling takes. -/
def Obligations.LadleEvents : Prop :=
  (∀ (s : State) (x : LCmd),
     let h := homeOf s.arg
     let c := s.ctxAt h
     c.cmds.find? (fun z => z.id = s.arg.m) = some x → (c.cmds.map (·.id)).Nodup →
     let e := s.arg.k
     let y := x.elems.getD e { src := [], dst := [] }
     let v := y.val.getD []
     let dst := y.dst
     let n := dst.length
     let loc := firstLoc dst
     let key := s.ordKey h
     let o := s.ordSt key loc
     let due := s.ordDue o
     let plain := s.anyBad dst = false ∧ Loc.distinct dst
       ∧ (∀ l ∈ dst, l.mem ≠ .phy ∧ s.inWindow l = false ∧ s.hbmHeld l = false)
     let half := loc.mem = .host ∧ y.old = none
     let found := y.old.getD (s.bytesAt dst)
     let marked (g : LElem → LElem) (lv : Bool) (t : State) : Prop :=
       { t.ctxAt h with cmds := c.cmds, bars := c.bars } = c
         ∧ (t.ctxAt h).cmds = c.cmds.map fun z => if z.id = x.id then
             { z with elems := z.elems.modify e g
                      left := z.left || (lv && (z.elems.modify e g).all fun q => q.done || q.ret) } else z
     let paid (t : State) : Prop := ∀ die b, x.bar = some (die, b) →
       t.barAt h die b = if x.payload = 0 ∨ (s.barAt h die b).broken = true then s.barAt h die b
         else { s.barAt h die b with pend := (s.barAt h die b).pend - n }
     let stores (bs : List Byte) (t : State) : Prop := (∀ l, l.apart dst → t.byteAt l = s.byteAt l) ∧ t.bytesAt dst = bs
     State.LAct.port e ∈ s.ladActs h x →
     (s.noteStart h x.id).hostDone (s.actLocs h x.id (.port e)) (h, x.id, e) = s.noteStart h x.id →
     (s.ladViolates c dst = true → ∃ t, exec .portAction s = .next t ∧ s.sameMemory t ∧ x.qn ∈ (t.ctxAt h).vq
       ∧ (∀ k, h = .run k → (Instr.violation, ({ viol := .tableWrite k x.qn true } : EvArg)) ∈ t.pend))
     ∧ (s.ladViolates c dst = false →
       (∀ f op, x.kind = .acc f op → plain → n = f.bits / 8 → v.length = n →
         let a := leNat found
         let b := leNat v
         let fl (z : Nat) : Val := valOf f z
         let less : Bool :=
           if f.isFloat then decide ((fl a).cmp (fl b) < 0)
             || (decide ((fl a).cmp (fl b) = 0) && ((fl a).sign == (fl b).sign || (fl a).sign))
           else decide (intVal f a < intVal f b)
         let more : Bool :=
           if f.isFloat then decide (0 < (fl a).cmp (fl b))
             || (decide ((fl a).cmp (fl b) = 0) && ((fl a).sign == (fl b).sign || !(fl a).sign))
           else decide (intVal f b ≤ intVal f a)
         let nan := f.isFloat && ((fl a).isNan || (fl b).isNan)
         let r : Nat := match op with
           | 0 => if f.isFloat then (roundF f ((fl a).add (fl b)).1 0 false).1
               else ((intVal f a + intVal f b) % (2 : Int) ^ f.bits).toNat
           | 1 => if nan then f.nanBits else if less then a else b
           | 2 => if nan then f.nanBits else if more then a else b
           | 3 => a &&& b
           | 4 => a ||| b
           | _ => a ^^^ b
         (half → (x.ord = true → due = (y.round, c.p)) → ∃ t, exec .portAction s = .next t ∧ s.sameMemory t
           ∧ marked (fun q => { q with old := some (s.bytesAt dst) }) x.ord t)
         ∧ (x.ord = false → ¬ half → ∃ t, exec .portAction s = .next t ∧ stores (leBytes n r) t
           ∧ marked (fun q => { q with done := true }) false t ∧ paid t)
         ∧ (x.ord = true → ¬ half → due = (y.round, c.p) → ∃ t, exec .portAction s = .next t ∧ stores (leBytes n r) t
           ∧ marked (fun q => { q with done := true }) true t ∧ paid t
           ∧ t.ordSt key loc = { o with
               round := if due.2 + 1 < o.n then due.1 else due.1 + 1, prod := if due.2 + 1 < o.n then due.2 + 1 else 0 }))
       ∧ (∀ f op, x.kind = .acc f op → x.ord = true → due ≠ (y.round, c.p) → ∃ t, exec .portAction s = .next t
           ∧ s.sameMemory t ∧ marked (fun q => { q with ret := true }) true t
           ∧ t.ordSt key loc = { o with
               waits := o.waits ++ [{ round := y.round, prod := c.p, cmd := x.id, elem := e, bytes := v, fm := f, op := op }] })
       ∧ (x.kind = .xchg ∨ x.kind = .cmpx → x.ord = false → plain → v.length = (if x.kind = .cmpx then 2 * n else n) →
           let old := s.bytesAt dst
           ∃ t, exec .portAction s = .next t ∧ marked (fun q => { q with val := some old, ret := true }) false t ∧ paid t
             ∧ stores (if x.kind = .xchg then v else if old = v.take n then v.drop n else old) t)))
  ∧ (∀ (s : State) (o : OrdSt) (w : OrdWait) (h : Home) (x : LCmd),
       let due := s.ordDue o
       let y := x.elems.getD w.elem { src := [], dst := [] }
       let dst := y.dst
       let half := (firstLoc dst).mem = .host ∧ y.old = none
       (s.die s.arg.n).ords[s.arg.k]? = some o → o.waits.find? (fun z => (z.round, z.prod) = due) = some w →
       s.producerHome o.launch w.prod = some h → (s.ctxAt h).cmds.find? (fun z => z.id = w.cmd) = some x →
       s.anyBad dst = false → Loc.distinct dst →
       (∀ l ∈ dst, l.mem ≠ .phy ∧ s.inWindow l = false ∧ s.hbmHeld l = false) → dst.length = w.fm.bits / 8 →
       s.hostDone (s.actLocs h w.cmd (.port w.elem)) (h, w.cmd, w.elem) = s →
       (half → ∃ t, exec .ordContributionApply s = .next t ∧ s.sameMemory t
         ∧ (t.ctxAt h).cmds = (s.ctxAt h).cmds.map fun z => if z.id = w.cmd then
             { z with elems := z.elems.modify w.elem fun q => { q with old := some (s.bytesAt dst) } } else z)
       ∧ (¬ half → ∃ t, exec .ordContributionApply s = .next t
         ∧ (∀ l, l.apart dst → t.byteAt l = s.byteAt l)
         ∧ t.bytesAt dst = accBytes w.fm w.op (y.old.getD (s.bytesAt dst)) w.bytes
         ∧ t.ordSt o.launch o.loc = { o with
             round := if due.2 + 1 < o.n then due.1 else due.1 + 1, prod := if due.2 + 1 < o.n then due.2 + 1 else 0
             waits := o.waits.filter (· != w) }
         ∧ (t.ctxAt h).cmds = (s.ctxAt h).cmds.map fun z => if z.id = w.cmd then
             { z with elems := z.elems.modify w.elem fun q => { q with done := true } } else z))
  ∧ (∀ (s : State) (x : LCmd),
       let h := homeOf s.arg
       let c := s.ctxAt h
       c.cmds.find? (fun z => z.id = s.arg.m) = some x →
       let rest := c.cmds.filter fun z => z.id != x.id
       let foul := ∃ ls, x.cw = some ls ∧ x.cdone = false ∧ s.anyBad ls = true
       let broke := x.failed = true ∨ x.qn ∈ c.vq ∨ (foul ∧ 0 < x.tries)
       let gone (l : Loc) : Prop := l.mem = .hbm ∧ l.off / 2 ^ 36 ∈ (s.die l.unit).gone
       let lost := x.qn ∈ c.vq ∨ (∃ y ∈ x.elems, y.bad = true ∧ ∃ l ∈ y.src ++ y.dst, gone l)
         ∨ ∃ ls, x.cw = some ls ∧ ∃ l ∈ ls, gone l
       (State.mayRetire c x = true →
         (broke → ∃ t, exec .ladleCommandRetire s = .next t ∧ s.sameMemory t ∧ (t.ctxAt h).cmds = rest
           ∧ (∀ die b, x.bar = some (die, b) → t.barAt h die b = { s.barAt h die b with broken := true })
           ∧ ∃ first cause, (lost → cause = 0x03) ∧ (¬ lost → cause = 0x0B)
             ∧ (t.ctxAt h).causes = c.causes ++ [(BitVec.ofNat 32 (2 ^ 28 + x.qn % 256 * 2 ^ 16 + cause),
               BitVec.ofNat 64 first, BitVec.ofNat 64 (x.qn + x.id % 64 * 256))])
         ∧ (¬ broke → foul → ∃ t, exec .ladleCommandRetire s = .next t ∧ s.sameMemory t
           ∧ { t.ctxAt h with cmds := c.cmds } = c
           ∧ (t.ctxAt h).cmds = c.cmds.map fun z => if z.id = x.id then { z with tries := 1, failed := z.failed } else z)
         ∧ (¬ broke → ¬ foul → ∃ t, exec .ladleCommandRetire s = .next t ∧ (t.ctxAt h).cmds = rest ∧ (t.ctxAt h).causes = c.causes
           ∧ (x.cw = none ∨ x.cdone = true → s.sameMemory t)
           ∧ (∀ ls, x.cw = some ls → x.cdone = false → Loc.distinct ls → ls.length = 4 →
               (∀ l ∈ ls, l.mem ≠ .phy ∧ s.inWindow l = false ∧ s.hbmHeld l = false) →
               t.natAt ls = (s.natAt ls + 1) % 2 ^ 32 ∧ ∀ l, l.apart ls → t.byteAt l = s.byteAt l)
           ∧ (∀ die b, x.bar = some (die, b) →
               let r := s.barAt h die b
               let me := c.agent die true
               ((x.kind = .barrive ∨ ∃ m, x.kind = .qfence m) → r.broken = false →
                 (me ∉ r.arrived → t.barAt h die b = { r with arrived := me :: r.arrived } ∧ (t.ctxAt h).defer = c.defer)
                 ∧ (me ∈ r.arrived → t.barAt h die b = r ∧ (t.ctxAt h).defer = c.defer ++ [(die, b)]))
               ∧ (x.kind ≠ .barrive → (∀ m, x.kind ≠ .qfence m) → t.barAt h die b = r ∧ (t.ctxAt h).defer = c.defer))))
       ∧ (x.qn ∉ c.vq →
         (∀ m, x.kind = .qfence m → (State.mayRetire c x = true ↔ ∀ z ∈ c.cmds, z.id < x.id →
           (∀ m', z.kind = .qfence m' → m &&& m' = 0 ∧ m'.testBit x.qn = false) ∧ ((∀ m', z.kind ≠ .qfence m') → m.testBit z.qn = false)))
         ∧ (x.kind = .cwrite ∨ x.kind = .barrive → (State.mayRetire c x = true ↔ ∀ z ∈ c.cmds, z.id < x.id →
           (∀ m', z.kind = .qfence m' → m'.testBit x.qn = false) ∧ ((∀ m', z.kind ≠ .qfence m') → z.qn ≠ x.qn)))
         ∧ (x.kind = .copy → x.failed = false → (State.mayRetire c x = true ↔ (∀ y ∈ x.elems, y.done = true) ∧
             (x.cw = none ∨ x.cdone = true)
             ∧ ∀ z ∈ c.cmds, z.id < x.id → ∀ m', z.kind = .qfence m' → m'.testBit x.qn = false))))
  ∧ (∀ (s : State) (x : LCmd),
       let h := homeOf s.arg
       let c := s.ctxAt h
       c.cmds.find? (fun z => z.id = s.arg.m) = some x → x.tries = 0 → x.failed = false → (∃ y ∈ x.elems, y.bad = true) →
       (∀ (k : Nat) (y : LElem), x.elems[k]? = some y → y.done = true ∨ y.bad = true
         ∨ ((∃ f ls, x.kind = .scan f ls) ∧ ∃ (m : Nat) (z : LElem), m ≤ k ∧ x.elems[m]? = some z ∧ z.bad = true)) →
       ∃ t, exec .ladleReperform s = .next t ∧ s.sameMemory t ∧ { t.ctxAt h with cmds := c.cmds } = c
         ∧ (t.ctxAt h).cmds.length = c.cmds.length
         ∧ ∃ z ∈ (t.ctxAt h).cmds, z.tries = 1 ∧ z.elems = (x.elems.map fun y => { y with bad := false })
             ∧ { z with tries := x.tries, elems := x.elems, acc := x.acc } = x)
  ∧ ∀ (s : State),
       let t := s.arg.n
       let k := s.arg.m
       let c := (s.core k).ctx
       let y := s.core t
       (s.mayTake t k s.arg.b = true ↔ t ≠ k ∧ t < 1536 ∧ dieOf t = dieOf k ∧ quadOf t = quadOf k ∧ y.lendTo = none ∧ y.svc = 0
         ∧ (y.live = false → s.arg.b = true → y.held = none) ∧ (y.live = true → s.arg.b = false ∧ ∃ f ∈ y.ctx.freeze, abandons f.2 = true)
         ∧ (s.arg.b = false → y.ladleAt + 64 * (if y.live then y.ctx.div 4 else 4) ≤ s.ref))
       ∧ (s.nextServed t = some k → s.mayTake t k s.arg.b = true →
         (∀ j, s.arg.b = true → c.asyncQ.find? (fun j => j.mov && j.next = 0 && j.taker.isNone && !j.lent) = some j →
           ∃ u, exec .movableTake s = .next u ∧ s.sameMemory u
             ∧ (u.core k).ctx = { c with asyncQ := c.asyncQ.map fun i => if i.id = j.id then { i with taker := some t } else i }
             ∧ (u.core t).taking = y.taking + 1 ∧ (u.core t).served = k % 4)
         ∧ (∀ x, s.arg.b = false → s.movCmd k = some x →
           ∃ u, exec .movableTake s = .next u ∧ s.sameMemory u
             ∧ (u.core k).ctx = { c with cmds := c.cmds.map fun z => if z.id = x.id then { z with taker := some t } else z }
             ∧ (u.core t).taking = y.taking + 1 ∧ (u.core t).served = k % 4))

/-! ### The sieves -/

/-- The sieve's words (R365, R366, R368, R370, R371, R373, R401): the registers each writes, what follows it, its cycles, the ends
of a packet, the packet that SEND makes, and the traps with their record; past 512 cycles of a packet, and for a packet sent under
a pair that was never assigned, the violation. -/
def Obligations.SieveWords : Prop :=
  ∀ (s : State) (r : SRun), s.sv.run = some r →
    let i := s.sfIod
    let n := s.sfNum
    let x := s.sv
    let dp := x.desc r.part
    let pc := r.pc
    let follows (p : Nat) (ls : List Loop) : Prop := ∃ done rest, r.loops = done ++ rest
      ∧ (∀ l ∈ done, l.stop = pc ∧ l.rem ≤ 1)
      ∧ ((rest = [] ∧ p = pc + 1 ∧ ls = []) ∨ ∃ l t, rest = l :: t
        ∧ ((l.stop ≠ pc ∧ p = pc + 1 ∧ ls = rest) ∨ (l.stop = pc ∧ 1 < l.rem ∧ p = l.start ∧ ls = { l with rem := l.rem - 1 } :: t)))
    let turned (w : Instr) : Prop := ∃ t, exec w s = .next t ∧ s.sameMemory t
      ∧ (Instr.violation, ({ viol := .sieveCycles i n, n := r.part } : EvArg)) ∈ t.pend ∧ ((t.sieve i n).desc r.part).v = false
    let late (w : Instr) (c : Nat) : Prop := w.wf = true → 512 < r.cycles + c → turned w
    let ready (w : Instr) (c : Nat) : Prop := w.wf = true ∧ r.cycles + c ≤ 512
    let goes (w : Instr) (c : Nat) (q : SRun) : Prop := late w c ∧ (ready w c → ∃ p ls, follows p ls
      ∧ exec w s = .next (s.setSieve i n { x with run := some { q with cycles := r.cycles + c, pc := p, loops := ls } }))
    let writes (w : Instr) (c : Nat) (d : BitVec 4) (v : BitVec 32) : Prop :=
      goes w c { r with y := if d = 0#4 then r.y else r.y.set d.toNat v }
    let z (m : BitVec 4) (l : Nat) : Nat := elemAt 32 (r.rz m.toNat).toNat l
    let lanes (w : Instr) (c : Nat) (d : BitVec 4) (ok : (Nat → Nat) → Prop) : Prop :=
      ∃ v : BitVec 512, ok (fun l => elemAt 32 v.toNat l) ∧ goes w c { r with z := r.z.set d.toNat v }
    let stops (w : Instr) (c code info : Nat) : Prop :=
      let k := (x.tcnt.get r.part).toNat % 2 ^ 31
      let spot := s.ioLocs dp.asid true 3 (dp.tring + 32 * (k % 64)) 32
      let ev : Loc := State.hbmLoc (dp.node + 0x40 + dp.evb / 8)
      let lost := ∀ ls, spot = some ls → (dp.asid ≠ 0 ∧ s.inTables ls = true) ∨ ∃ l ∈ ls, s.hbmHeld l = true
      ready w c → ∃ t, exec w s = .next t
      ∧ (lost → ((t.sieve i n).tcnt.get r.part).toNat = 2 ^ 31 + (k + 1) % 2 ^ 31)
      ∧ ((∀ ls, spot = some ls → s.hostClear ls = s) →
        (x.queue = [] → (t.sieve i n).run = none)
        ∧ (nodeBad dp.node = false → s.badAt ev = false → t.evBit dp.node dp.evb = true)
        ∧ ∀ ls, spot = some ls → (dp.asid = 0 ∨ s.inTables ls = false) → Loc.distinct ls →
            (∀ l ∈ ls, l.mem ≠ .phy ∧ s.inWindow l = false ∧ s.hbmHeld l = false ∧ l ≠ ev) →
            (t.sieve i n).tcnt.get r.part = BitVec.ofNat 32 ((x.tcnt.get r.part).toNat / 2 ^ 31 * 2 ^ 31 + (k + 1) % 2 ^ 31)
              ∧ t.bytesAt ls = leBytes 32 (code * 2 ^ 248 + info * 2 ^ 240 + n * 2 ^ 234 + r.part * 2 ^ 228 + pc % 4096 * 2 ^ 216
                  + r.pkt.flow % 4096 * 2 ^ 204 + r.pkt.smod * 2 ^ 192 + s.clock.ns % 2 ^ 64 * 2 ^ 128
                  + r.pkt.head.toNat % 2 ^ 128)
              ∧ ∀ l, l.apart ls → l ≠ ev → t.byteAt l = s.byteAt l)
    (∀ (d a b : BitVec 4),
      let ya := r.ry a.toNat
      let yb := r.ry b.toNat
      let sh := (yb &&& 31#32).toNat
      (∀ o ∈ ([(Instr.sieveAdd, ya + yb), (Instr.sieveSub, ya - yb), (Instr.sieveAnd, ya &&& yb), (Instr.sieveOr, ya ||| yb),
          (Instr.sieveXor, ya ^^^ yb), (Instr.sieveShl, ya <<< sh), (Instr.sieveShr, ya >>> sh),
          (Instr.sieveSar, BitVec.ofInt 32 (ya.toInt / 2 ^ sh)), (Instr.sieveSltu, if ya.toNat < yb.toNat then 1 else 0)] :
          List ((BitVec 4 → BitVec 4 → BitVec 4 → Instr) × BitVec 32)), writes (o.1 d a b) 1 d o.2)
      ∧ (∀ m : BitVec 18, writes (.sieveAddi d a m) 1 d (BitVec.ofInt 32 (ya.toInt + m.toInt))
          ∧ writes (.sieveMovi d m) 1 d (BitVec.ofInt 32 m.toInt))
      ∧ (∀ m : BitVec 14, ∃ v : BitVec 32, (∀ j, j < 32 → v.getLsbD j = if 18 ≤ j then m.getLsbD (j - 18) else (r.ry d.toNat).getLsbD j)
          ∧ writes (.sieveMovhi d m) 1 d v)
      ∧ (∀ (t : BitVec 3) (m : BitVec 2), t ≠ 7#3 →
        let fm := Fm.ofSieve t
        let w := fm.bits
        let msk := r.rm m.toNat
        let el (q : BitVec 4) (l j : Nat) : Nat := elemAt w (z q l) j
        let num (e : Nat) : Int := if t = 6#3 then (e : Int) else sgn w e
        let sum (g : Val → Val → Val) (h : Int → Int → Int) (e e' : Nat) : Nat :=
          if fm.isFloat then (roundF fm (g (valOf fm e) (valOf fm e')) 0 false).1 else (h (num e) (num e') % (2 : Int) ^ w).toNat
        let isFm (e e' : Nat) : Bool := fm.isFloat && ((valOf fm e).isNan || (valOf fm e').isNan)
        let cmp (e e' : Nat) : Int := if fm.isFloat then (valOf fm e).cmp (valOf fm e') else num e - num e'
        let neg (e : Nat) : Bool := (valOf fm e).sign
        let least (e e' : Nat) : Nat := if isFm e e' then fm.nanBits
          else if cmp e e' < 0 then e else if 0 < cmp e e' then e'
          else if fm.isFloat = true ∧ (neg e = neg e' ∨ neg e = true) then e else e'
        let most (e e' : Nat) : Nat := if isFm e e' then fm.nanBits
          else if cmp e e' < 0 then e' else if 0 < cmp e e' then e
          else if fm.isFloat = true ∧ neg e = true ∧ neg e' = false then e' else e
        (∀ o ∈ ([(Instr.sieveVadd, sum (fun p q => (p.add q).1) (fun p q => p + q)),
            (Instr.sieveVsub, sum (fun p q => (p.add q.neg).1) (fun p q => p - q)),
            (Instr.sieveVmul, sum (fun p q => (p.mul q).1) (fun p q => p * q)),
            (Instr.sieveVmin, least), (Instr.sieveVmax, most)] :
            List ((BitVec 4 → BitVec 4 → BitVec 4 → BitVec 3 → BitVec 2 → Instr) × (Nat → Nat → Nat))),
          lanes (o.1 d a b t m) 1 d fun v => ∀ l, l < 16 →
            (msk.getLsbD l = false → v l = z d l)
            ∧ (msk.getLsbD l = true → ∀ j, j < 32 / w → elemAt w (v l) j = o.2 (el a l j) (el b l j)))
        ∧ (∃ run : Nat → Nat, (∀ e, e < 512 / w →
            let prev := if e = 0 then yb.toNat % 2 ^ w else run (e - 1)
            run e = if msk.getLsbD (e * w / 32) then sum (fun p q => (p.add q).1) (fun p q => p + q) prev (el a (e * w / 32) (e % (32 / w)))
              else prev)
          ∧ lanes (.vscn d a b t m) 4 d fun v => ∀ l, l < 16 → (msk.getLsbD l = false → v l = z d l)
            ∧ (msk.getLsbD l = true → ∀ j, j < 32 / w → elemAt w (v l) j = canon fm (run (l * (32 / w) + j))))
        ∧ ∀ (k : BitVec 2) (c : BitVec 3), ∃ v : BitVec 16,
            (∀ l, l < 16 → (v.getLsbD l = true ↔ msk.getLsbD l = true ∧ ∀ j, j < 32 / w →
              let p := el a l j
              let q := el b l j
              if isFm p q then c = 1 ∨ c = 6 else (c = 0 ∧ cmp p q = 0) ∨ (c = 1 ∧ cmp p q ≠ 0) ∨ (c = 2 ∧ cmp p q < 0)
                ∨ (c = 3 ∧ cmp p q ≤ 0) ∨ (c = 4 ∧ 0 < cmp p q) ∨ (c = 5 ∧ 0 ≤ cmp p q)))
            ∧ goes (.sieveVcmp k a b t m c) 1 { r with m := if k = 0#2 then r.m else r.m.set k.toNat v })
      ∧ (∀ m : BitVec 2,
        let msk := r.rm m.toNat
        (lanes (.vsplat d a m) 1 d fun v => ∀ l, l < 16 → v l = if msk.getLsbD l then ya.toNat else z d l)
        ∧ lanes (.sieveVsel d a b m) 1 d fun v => ∀ l, l < 16 → v l = if msk.getLsbD l then z a l else z b l)
      ∧ writes (.vext d a b) 1 d (BitVec.ofNat 32 (z a b.toNat))
      ∧ (lanes (.vins d a b) 1 d fun v => ∀ l, l < 16 → v l = if l = b.toNat then ya.toNat else z d l)
      ∧ (∀ f : BitVec 6,
        let k := ya.toNat + f.toNat
        (k < r.pkt.len → goes (.pld d a f) 2 { r with z := r.z.set d.toNat (r.pkt.body.getD k 0) }
          ∧ goes (.pst d a f) 2 { r with pkt := { r.pkt with body := r.pkt.body.set k (r.rz d.toNat) } })
        ∧ (r.pkt.len ≤ k → stops (.pld d a f) 2 1 0 ∧ stops (.pst d a f) 2 1 0))
      ∧ (∀ w : BitVec 2,
        let at_ := dp.fbase + r.flow
        writes (.fld d w) 1 d ((x.flow.get at_).extractLsb' (32 * w.toNat) 32)
        ∧ (ready (.fst a w) 1 → ∃ p ls v, follows p ls
            ∧ (∀ j, j < 128 → v.getLsbD j = if j / 32 = w.toNat then ya.getLsbD (j % 32) else (x.flow.get at_).getLsbD j)
            ∧ exec (.fst a w) s = .next (s.setSieve i n { x with
                run := some { r with cycles := r.cycles + 1, pc := p, loops := ls }, flow := x.flow.set at_ v })))
      ∧ (∀ f ∈ [(0#3, r.pkt.len), (1#3, r.pkt.smod), (2#3, r.pkt.flow % 4096), (3#3, r.pkt.head.toNat % 4),
          (4#3, r.pkt.addr % 2 ^ 32), (5#3, r.pkt.addr / 2 ^ 32), (6#3, r.pkt.cnt)],
          writes (.hdr d f.1) 1 d (BitVec.ofNat 32 f.2))
      ∧ (∀ o : BitVec 18,
        let t := pc + o.toNat
        ∀ e ∈ ([(Instr.sieveBeq, decide (ya = yb)), (Instr.sieveBne, decide (ya ≠ yb)),
            (Instr.sieveBltu, decide (ya.toNat < yb.toNat))] :
            List ((BitVec 4 → BitVec 4 → BitVec 18 → Instr) × Bool)),
          (e.2 = false → goes (e.1 a b o) 1 r)
          ∧ (e.2 = true → ready (e.1 a b o) 1 → exec (e.1 a b o) s = .next (s.setSieve i n { x with run := some { r with
              cycles := r.cycles + 1, pc := t
              loops := r.loops.dropWhile fun l => !(decide (l.start ≤ t) && decide (t ≤ l.stop)) } })))
      ∧ (let v := yb.toNat
        let tgt := (x.target.get (dp.tbase + v % 64)).toNat
        let bad := v / 2 ^ 6 % 2 ^ 10 ≠ 0 ∨ dp.tcount ≤ v % 64 ∨ tgt / 2 ^ 127 = 0
        let pkt : Packet :=
          { head := BitVec.ofNat 512 (header 0 0 (tgt / 2 ^ 115 % 2 ^ 12) dp.asid dp.gen (tgt / 2 ^ 103 % 2 ^ 12)
              ((tgt % 2 ^ 52 + 64 * (v / 2 ^ 16)) % 2 ^ 52) 1)
            body := [r.rz a.toNat] }
        let never := s.unassigned dp.asid dp.gen = true
        late (.send a b) 4 ∧ (bad → stops (.send a b) 4 2 0) ∧ (¬ bad → ready (.send a b) 4 → never → turned (.send a b))
        ∧ (¬ bad → ready (.send a b) 4 → ¬ never → ∃ p ls, follows p ls ∧ exec (.send a b) s = .next (State.sendPacket
            (s.setSieve i n { x with run := some { r with cycles := r.cycles + 4, pc := p, loops := ls } }) i pkt))))
    ∧ (∀ (k : BitVec 8) (e : BitVec 10), e ≠ 0 → ready (.sieveLoop k e) 1 →
        exec (.sieveLoop k e) s = .next (s.setSieve i n { x with run := some { r with
          cycles := r.cycles + 1, pc := pc + 1
          loops := { start := pc + 1, stop := pc + e.toNat, rem := k.toNat, opener := pc } :: r.loops } }))
    ∧ (ready .drop 1 → ∃ t, exec .drop s = .next t ∧ s.sameMemory t ∧ t.pend = s.pend ∧ (x.queue = [] → (t.sieve i n).run = none))
    ∧ (ready .sieveDone 1 → ∃ t, exec .sieveDone s = .next t ∧ s.sameMemory t
        ∧ t.pend = s.pend ++ [(r.pkt.event, { n := i, pkt := r.pkt, b := r.own, k := 1 })] ∧ (x.queue = [] → (t.sieve i n).run = none))
    ∧ (∀ m : BitVec 8, stops (.traps m) 1 3 m.toNat)
    ∧ ∀ (o : BitVec 3) (m : BitVec 26), goes (.snop o m) 1 r

/-! ### The fabric -/

/-- Arriving packets and the sieves' packets (R263, R321, R343, R344, R346 to R351, R366, R367, R372, R410): what is dropped and
counted, sent on or made to wait; WRITE, READ, READRSP, CADD; the sieve's queue, its first registers, the loader's verdict and
the end of a partition; ports and their log records, the notify table and the host's aperture, one aligned 8-byte piece at a
time. -/
def Obligations.FabricEvents : Prop :=
  (∀ (s : State),
     let a := s.arg
     let p := a.pkt
     let i := a.n
     let bad := p.bad = true
     let ours := p.dmod = Config.moduleId
     let imp := ((s.iod i).import_.get p.smod).toNat
     let pair : Option (Nat × Nat) := if a.b then some (p.sasid, p.gen)
       else if imp / 2 ^ 63 = 1 ∧ imp / 2 ^ 32 % 2 ^ 16 = p.sasid then some (imp / 2 ^ 16 % 2 ^ 16, imp % 2 ^ 16) else none
     let drops (w : Instr) : Prop :=
       exec w s = .next (s.onIod i fun d => { d with portDrops := tput a.m (tget 0 d.portDrops a.m + 1) d.portDrops })
     (p.bad = true ↔ p.cls = 3 ∨ 8 ≤ p.kind ∨ 64 < p.len ∨ p.head.toNat / 2 ^ 288 ≠ 0)
     ∧ ((s.iod i).removed = false →
     (∀ w ∈ [Instr.write, .read, .cadd, .wreduce, .sievePacket],
       (bad → drops w)
       ∧ (¬ bad → ¬ ours → exec w s = .next (s.sendPacket i p))
       ∧ (¬ bad → ours → pair = none → drops w)
       ∧ (∀ q, ¬ bad → ours → pair = some q → q ∈ s.retired → exec w s = .next s))
     ∧ (∀ x g, ¬ bad → ours → pair = some (x, g) → (x, g) ∉ s.retired →
       (∀ w ∈ [Instr.write, .read, .cadd, .wreduce], p.sv = true → a.k = 0 → exec w s = .next (s.post .sievePacket a))
       ∧ ((p.sv = false ∨ a.k ≠ 0) →
         let word : List Loc := if p.cnt = 0xFFF then []
           else (Loc.run { mem := .pantry, unit := p.cnt / 512, off := 0x3FFF800 + 4 * (p.cnt % 512) } 4)
         let bumped (t : State) (n : Nat) : Prop :=
           p.cnt ≠ 0xFFF → s.anyBad word = false → t.counter p.cnt = (s.counter p.cnt + n) % 2 ^ 32
         (∃ t, exec .cadd s = .next t ∧ bumped t p.arg ∧ ∀ l, l ∉ word → t.byteAt l = s.byteAt l)
         ∧ (s.anyBad word = true → exec .cadd s = .next s)
         ∧ (s.invalidating x p.addr = true → exec .write s = .next (s.repost .write a) ∧ exec .read s = .next (s.repost .read a))
         ∧ (s.invalidating x p.addr = false →
           (∀ ls, s.ioLocs x true (State.ioFuel p.size) p.addr p.size = some ls → x ≠ 0 → s.inTables ls = true →
             exec .write s = .next s)
           ∧ (∀ ls, s.ioLocs x true (State.ioFuel p.size) p.addr p.size = some ls → (x = 0 ∨ s.inTables ls = false) →
             Loc.distinct ls → s.hostClear ls = s →
             (∀ l ∈ ls, l.mem ≠ .phy ∧ s.inWindow l = false ∧ s.hbmHeld l = false ∧ l ∉ word) → ls.length = p.size →
             p.size ≤ p.bytes.length → ∃ t, exec .write s = .next t ∧ t.bytesAt ls = p.bytes.take p.size ∧ bumped t p.size
               ∧ ∀ l, l.apart ls → l ∉ word → t.byteAt l = s.byteAt l)
           ∧ (s.ioLocs x true (State.ioFuel p.size) p.addr p.size = none → ∃ t, exec .write s = .next t ∧ s.sameMemory t
               ∧ tget 0 (t.iod i).importFaults p.smod = tget 0 (s.iod i).importFaults p.smod + 1)
           ∧ (let n := 64 * p.len
             let found := s.ioLocs x false (State.ioFuel n) p.addr n
             let answer (t : State) (fail : Bool) (bs : List Byte) : State := t.sendPacket i
               { head := BitVec.ofNat 512 (header 1 3 p.smod p.sasid p.gen 0xFFF 0 p.len
                   + (p.arg % 2 ^ 31 + if fail then 2 ^ 31 else 0) * 2 ^ 256)
                 body := flitsOf 65 bs }
             (∀ ls, found = some ls → s.anyBad ls = false →
               exec .read s = .next (answer (s.touch ls) false (s.heard ls))
               ∧ ((∀ l ∈ ls, s.inWindow l = false ∧ s.hbmHeld l = false) → s.heard ls = s.bytesAt ls))
             ∧ (∀ ls, found = some ls → s.anyBad ls = true →
               exec .read s = .next (answer (s.touch ls) true (List.replicate n 0)))
             ∧ (found = none → exec .read s = .next (answer (s.countFault i p) true (List.replicate n 0))))))
       ∧ (let n := p.flow / 2 ^ 12 % 2 ^ 6
         let y := s.sieve i n
         let e := p.flow % 2 ^ 12
         let fits (k : Nat) : Prop := (y.desc k).v = true ∧ (y.desc k).fbase ≤ e ∧ e < (y.desc k).fbase + (y.desc k).fcount
           ∧ (y.desc k).asid = x ∧ (y.desc k).gen = g
         ((∀ k, k < 64 → ¬ fits k) → exec .sievePacket s = .next (s.setSieve i n { y with drops := y.drops + 1 }))
         ∧ ((∃ k, k < 64 ∧ fits k) →
           (64 ≤ y.queue.length → exec .sievePacket s = .next (s.repost .sievePacket a))
           ∧ (y.queue.length < 64 → (∀ q, y.run = some q →
               exec .sievePacket s = .next (s.setSieve i n { y with queue := y.queue ++ [(a.b, p)] })))
           ∧ (y.queue = [] → y.run = none → ∃ t r, exec .sievePacket s = .next t ∧ s.sameMemory t
               ∧ t.sieve i n = { y with run := some r } ∧ fits r.part ∧ r.pkt = p ∧ r.own = a.b ∧ r.pc = 0 ∧ r.cycles = 0
               ∧ r.loops = [] ∧ r.asid = BitVec.ofNat 16 x ∧ r.gen = BitVec.ofNat 16 g ∧ r.flow = e - (y.desc r.part).fbase
               ∧ (∀ m, r.ry m = if m = 1 then BitVec.ofNat 32 p.len else if m = 2 then BitVec.ofNat 32 r.flow
                   else if m = 3 then BitVec.ofNat 32 p.smod else 0)
               ∧ (∀ m, r.rz m = 0) ∧ ∀ m, r.rm m = if m = 0 then 0xFFFF else 0))))))
  ∧ (∀ (s : State),
       let a := s.arg
       let d := s.iod a.n
       (¬ a.pkt.bad = true → a.pkt.dmod = Config.moduleId → exec .readrsp s = .next s)
       ∧ (a.pkt.bad = true → ∃ t, exec .packetDrop s = .next t ∧ s.sameMemory t
           ∧ tget 0 (t.iod a.n).portDrops a.m = tget 0 d.portDrops a.m + 1)
       ∧ (∃ t, exec .loadgo s = .next t ∧ s.sameMemory t
           ∧ t.iod a.n = { d with loading := d.loading ++ [(a.v.toNat % 64, a.v.toNat / 64 % 64)], loadst := 0 })
       ∧ (∀ n k rest, d.loading = (n, k) :: rest →
         let x := s.sieve a.n n
         let y := x.desc k
         let word (w : Nat) : Except Reject Instr := decodeWord .sv (x.imem.get (y.kbase + w)).toNat
         let cut (b c b' c' : Nat) : Prop := ∃ m, b ≤ m ∧ m < b + c ∧ b' ≤ m ∧ m < b' + c'
         let out := y.fcount = 0 ∨ y.klen = 0 ∨ 4096 < y.fcount ∨ 64 < y.tcount ∨ 4096 < y.fbase + y.fcount
           ∨ 4096 < y.kbase + y.klen ∨ 256 < y.tbase + y.tcount
           ∨ ∃ j, j < 64 ∧ j ≠ k ∧ (x.desc j).v = true
               ∧ (cut y.fbase y.fcount (x.desc j).fbase (x.desc j).fcount ∨ cut y.kbase y.klen (x.desc j).kbase (x.desc j).klen
                 ∨ cut y.tbase y.tcount (x.desc j).tbase (x.desc j).tcount)
         let none_ := y.reserved = true ∨ ∃ w e, w < y.klen ∧ word w = .error e
         ∃ t code, exec .loadCheckDone s = .next t ∧ s.sameMemory t ∧ code ≤ 5
           ∧ (t.iod a.n).loading = rest
           ∧ (rest = [] → (t.iod a.n).loadst = if code = 0 then 0x100 else BitVec.ofNat 64 code)
           ∧ (code = 5 ↔ out) ∧ (code = 1 ↔ ¬ out ∧ none_)
           ∧ (code = 0 → ((t.sieve a.n n).desc k).v = true)
           ∧ (code ≠ 0 → t.sieve a.n n = x)
           ∧ (code = 0 → ∀ w j, w < y.klen → word w = .ok j → ∀ o, branchOff j = some o → o ≠ 0 ∧ w + o < y.klen))
       ∧ (let x := s.sieve a.n a.m
         ((∀ r, x.run = some r → r.part ≠ a.k) → ∃ t, exec .partitionUnload s = .next t ∧ s.sameMemory t
           ∧ ((t.sieve a.n a.m).desc a.k).v = false)
         ∧ (∀ r, x.run = some r → r.part = a.k →
             exec .partitionUnload s = .next (s.setSieve a.n a.m { x with unload := a.k :: x.unload })))
       ∧ (∀ r, s.sv.run = some r → r.part ∈ s.sv.unload → r.cycles + 1 ≤ 512 → Instr.drop.wf = true → s.sv.queue = [] →
           ∃ t, exec .drop s = .next t ∧ ((t.sieve s.sfIod s.sfNum).desc r.part).v = false)
       ∧ (a.m < Config.portsPerIod →
         (a.m ∉ d.portDown → ∃ t, exec .portRemoved s = .next t ∧ a.m ∈ (t.iod a.n).portDown
           ∧ t.boot.logNext = s.boot.logNext + 2
           ∧ (∀ l : Loc, ¬ (l.mem = .spm ∧ l.unit = 1536) → t.byteAt l = s.byteAt l)
           ∧ (let v := leNat (t.logRecord s.boot.logNext)
             v / 2 ^ 56 % 2 ^ 8 = 4 ∧ v / 2 ^ 80 % 2 ^ 8 = a.m % 2 ^ 8 ∧ v / 2 ^ 88 % 2 ^ 8 = (8 + a.n) % 2 ^ 8
             ∧ v / 2 ^ 96 % 2 ^ 32 = ((List.range 4096).filter fun k => (d.route.get k).toNat = a.m).length)
           ∧ leNat (t.logRecord (s.boot.logNext + 1)) / 2 ^ 56 % 2 ^ 8 = 7)
         ∧ ∃ t, exec .portRetrain s = .next t ∧ s.sameMemory t ∧ a.m ∉ (t.iod a.n).portDown
             ∧ ∀ q, q ≠ a.m → (q ∈ (t.iod a.n).portDown ↔ q ∈ d.portDown)))
  ∧ (∀ (s : State),
       let a := s.arg
       let armed := (s.notify.get a.n).getLsbD 63 = true
       (¬ armed → exec .notifyMessage s = .next s)
       ∧ (armed → a.n < 62 → ∃ t, exec .notifyMessage s = .next t ∧ s.sameMemory t
           ∧ ∀ n, n < 2 →
             let l := s.link n
             let up := l.removed = false ∧ l.up = true
             let masked := (l.msix.get (a.n + 2)).getLsbD 96 = false
             ((Sent.msix n (a.n + 2) ∈ t.sent) ↔ (Sent.msix n (a.n + 2) ∈ s.sent ∨ (up ∧ ¬ masked)))
             ∧ (up → masked → (t.link n).pba.getLsbD (a.n + 2) = true)))
  ∧ ∀ (s : State),
       let a := s.arg
       let l := s.link a.n
       let n := if a.b then a.bytes.length else a.k
       let reply (t : State) (st : Nat) (bs : List Byte) : State := { t with sent := t.sent ++ [.completion a.n st bs] }
       let at_ (addr : Nat) : Option Loc :=
         let w := (l.apwin.get (addr / 2 ^ 30)).toNat
         let die := w / 2 ^ 57 % 8
         let base := w / 2 ^ 30 % 2 ^ 22
         let off := addr % 2 ^ 30
         if 2 ^ 36 ≤ addr ∨ w / 2 ^ 63 = 0 ∨ (s.die die).removed = true then none
         else match w / 2 ^ 60 % 8 with
           | 0 => if 256 ≤ base ∨ s.boot.phase = phSafe then none else some { mem := .hbm, unit := die, off := base * 2 ^ 30 + off }
           | 1 => if base ≠ 0 ∨ 2 ^ 26 ≤ off then none else some { mem := .pantry, unit := die, off := off }
           | 2 => if base ≠ 0 ∨ 384 * 2 ^ 20 ≤ off then none
               else
                 let r := off / 2 ^ 21 / 16
                 let c := off / 2 ^ 21 % 16
                 some { mem := .spm, unit := die * 192 + (r / 2 * 8 + c / 2) * 4 + (r % 2 * 2 + c % 2), off := off % 2 ^ 21 }
           | _ => none
       let whole (ls : List Loc) : Prop := ls.length = n ∧ ∀ k, k < n → at_ (a.m + k) = ls[k]?
       l.removed = false → l.up = true →
       (l.frozen = true → exec .hostApertureAccess s = .next (reply s 4 []))
       ∧ (l.frozen = false →
         (a.b = true → a.j ≠ 0 → exec .hostApertureAccess s = .next (s.post .violation { viol := .hostPoison a.n }))
         ∧ ((a.b = false ∨ a.j = 0) →
           ((∃ k, k < n ∧ at_ (a.m + k) = none) → exec .hostApertureAccess s = .next (reply s 1 []))
           ∧ (∀ ls, whole ls →
             let x := min n (8 - a.m % 8)
             let ps := ls.take x
             (a.b = true → Loc.distinct ps → ∃ t, exec .hostApertureAccess s = .next t ∧ t.bytesAt ps = a.bytes.take x
               ∧ (∀ l, l.apart ps → t.byteAt l = s.byteAt l)
               ∧ (x < n → t.pend.head? = some (.hostApertureAccess, { a with m := a.m + x, bytes := a.bytes.drop x })))
             ∧ (a.b = false →
               let bad := s.anyBad ps = true ∨ a.j ≠ 0
               let got := a.bytes ++ s.bytesAt ps
               (x = n → ¬ bad → exec .hostApertureAccess s = .next (reply (s.touch ps) 0 got))
               ∧ (x = n → bad → exec .hostApertureAccess s = .next (reply (s.touch ps) 0x10 got))
               ∧ (x < n → ∃ j, (j ≠ 0 ↔ bad) ∧ exec .hostApertureAccess s = .next ((s.touch ps).repost .hostApertureAccess
                   { a with m := a.m + x, k := n - x, bytes := got, j := j }))))))

/-! ### The events of a core -/

/-- RENDEZVOUS_RELEASE, DIVISOR_SWITCH, VARIANT_SWITCH, CORE_RESUME, TRANSLATION_WALK, TILE_SWAP, BARRIER_PHASE_COMPLETE,
ASYNC_COMMAND_RUN, MATRIX_REPLAY, ASYNC_TRAP_DELIVERY and KERNEL_EXIT_REPORT (R48, R107, R122, R173, R174, R212, R249, R254,
R308, R310, R319, R400): when each happens and what it leaves. -/
def Obligations.CoreEvents : Prop :=
  (∀ (s : State),
     let c := s.ctx
     let named (n : Nat) : Prop := 1 ≤ n ∧ n ≤ 4 ∧ c.rdv.getLsbD (n - 1) = true
     let t0 := if c.forked = none then 0 else c.ctime
     s.me.live = true → c.sq.park = .stand → c.sq.on = true → c.freeze = [] → c.handler = false → c.mode = .running →
     (∀ n, named n → (c.strm n).park ≠ .no ∧ c.ctime % c.div n = 0) → c.ctime % c.div 0 = 0 →
     (c.forked = none ∨ c.segs = 0 ∨ c.flights = []) →
     (c.req = some .loop → c.toDrain = [] → exec .rendezvousRelease s = .next s)
     ∧ ((c.req ≠ some .loop ∨ c.toDrain ≠ []) → ∃ t, exec .rendezvousRelease s = .next t ∧ s.onlyMe t ∧ s.sameMemory t ∧ t.ctx.ctime = c.ctime - t0
       ∧ (c.forked = none → t.ctx.opened = c.opened ∧ t.ctx.segs = c.segs)
       ∧ (c.forked ≠ none → t.ctx.opened = true ∧ t.ctx.segs = c.segs + 1) ∧ t.ctx.forked = none
       ∧ t.ctx.sq = { c.sq with park := .no, due := c.ctime - t0 }
       ∧ (∀ n, named n → t.ctx.strm n = if (c.strm n).park = .ending then { c.strm n with on := false, park := .no, due := (c.strm n).due - t0 }
           else { c.strm n with park := .no, due := c.ctime - t0 })
       ∧ (∀ n, 1 ≤ n → n ≤ 4 → ¬ named n → t.ctx.strm n = { c.strm n with due := (c.strm n).due - t0 })
       ∧ t.ctx.meFree = c.meFree - t0 ∧ t.ctx.flights.map Flight.seq = c.flights.map Flight.seq
       ∧ t.ctx.s = c.s ∧ t.ctx.h = c.h ∧ t.ctx.desc = c.desc ∧ t.ctx.v = c.v ∧ t.ctx.k = c.k ∧ t.ctx.q = c.q ∧ t.ctx.a = c.a
       ∧ t.ctx.asyncQ = c.asyncQ ∧ t.ctx.cmds = c.cmds))
  ∧ (∀ (s : State) (k : Nat) (v : BitVec 32),
       let c := s.ctx
       c.freeze.find? (fun f => isClk f.2) = some (k, .clk v) → c.flights = [] → (∀ f ∈ c.freeze, f.2 ≠ .taster) →
       s.me.tasteBad = 0 → (∀ n, n ≤ 4 → c.div n ≠ 0 ∧ Ctx.div { c with clkdiv := v } n ≠ 0) →
       ∃ t, exec .divisorSwitch s = .next t ∧ s.onlyMe t ∧ s.sameMemory t ∧ t.ctx.clkdiv = v
         ∧ t.ctx.freeze = c.freeze.filter (fun f => !isClk f.2) ∧ t.ctx.evSeen = latchClk :: c.evSeen ∧ t.ctx.sq = c.sq
         ∧ { t.ctx with
             clkdiv := c.clkdiv, freeze := c.freeze, evSeen := c.evSeen, ve := c.ve, me := c.me, gu := c.gu, ld := c.ld
             meFree := c.meFree, asyncQ := c.asyncQ } = c
         ∧ (let o := c.div 2
           let d := Ctx.div { c with clkdiv := v } 2
           (c.meFree ≤ c.ctime → t.ctx.meFree = c.meFree)
           ∧ (c.ctime < c.meFree → ∃ r, t.ctx.meFree = (c.ctime / d + r) * d ∧ (r - 1) * o < c.meFree - c.ctime ∧ c.meFree - c.ctime ≤ r * o)
           ∧ t.ctx.asyncQ.length = c.asyncQ.length
           ∧ ∀ (m : Nat) (j : Job), c.asyncQ[m]? = some j → ∃ i : Job, t.ctx.asyncQ[m]? = some i ∧ { i with ready := j.ready } = j
               ∧ (j.ready ≤ s.ref → i.ready = j.ready)
               ∧ (s.ref < j.ready → ∃ r, i.ready = s.ref + r * d ∧ (r - 1) * o < j.ready - s.ref ∧ j.ready - s.ref ≤ r * o))
         ∧ ∀ n, 1 ≤ n → n ≤ 4 →
             let x := c.strm n
             let d := Ctx.div { c with clkdiv := v } n
             let due := (t.ctx.strm n).due
             { t.ctx.strm n with due := x.due } = x ∧ due % d = 0
               ∧ (x.due ≤ c.ctime → c.ctime ≤ due ∧ due < c.ctime + d)
               ∧ (c.ctime < x.due → ∃ r, due = (c.ctime / d + r) * d ∧ (r - 1) * c.div n < x.due - c.ctime ∧ x.due - c.ctime ≤ r * c.div n))
  ∧ (∀ (s : State) (k n : Nat),
       let c := s.ctx
       let c1 : Ctx := { c with freeze := c.freeze.filter (fun f => !isSwpt f.2) }
       let entry (v m : Nat) : Nat := c.swmap.getD (15 * n + 5 * v + m) 0
       let off := ∃ m, 1 ≤ m ∧ m ≤ 4 ∧ (c.strm m).on = true ∧ (c.strm m).park ≠ .ending
         ∧ ((c.strm m).park = .stand ∨ (c.strm m).pc.toNat ≠ entry c.variant m)
       let l := s.levelOf c
       let w := c.hdr.toNat / 2 ^ (112 + 2 * l) % 4
       let stays := w = c.variant ∨ c.sq.loops ≠ [] ∨ c.ve.loops ≠ []
       c.freeze.find? (fun f => isSwpt f.2) = some (k, .swpt n) → c.flights = [] → (∀ f ∈ c.freeze, f.2 ≠ .taster) →
       s.me.tasteBad = 0 →
       (off → exec .variantSwitch s = .next ((s.setMe { s.me with mark := none, ctx := c1 }).trap 0 0x13 0 0))
       ∧ (¬ off → stays → exec .variantSwitch s = .next (s.setCtx { c1 with evSeen := latchSwpt :: c.evSeen }))
       ∧ (¬ off → ¬ stays → ∃ t, exec .variantSwitch s = .next t ∧ s.onlyMe t ∧ s.sameMemory t ∧ t.ctx.variant = w
           ∧ t.ctx.evSeen = latchMoved :: c.evSeen
           ∧ { t.ctx with variant := c.variant, evSeen := c.evSeen, ve := c.ve, me := c.me, gu := c.gu, ld := c.ld } = c1
           ∧ ∀ m, 1 ≤ m → m ≤ 4 → t.ctx.strm m =
               if (c.strm m).on = true ∧ (c.strm m).park ≠ .ending then { c.strm m with pc := BitVec.ofNat 64 (entry w m) }
               else c.strm m))
  ∧ (∀ (s : State),
       let c := s.ctx
       s.me.live = true → c.freeze ≠ [] → (∀ f ∈ c.freeze, s.clears f.2 = true) →
       let stepped := c.frame.step = 1#1 ∧ c.handler = false ∧ ∃ f ∈ c.freeze, f.2 = .launch
       (¬ stepped → ∃ t, exec .coreResume s = .next t ∧ s.onlyMe t ∧ s.sameMemory t ∧ t.ctx.freeze = []
         ∧ { t.ctx with freeze := c.freeze, evSeen := c.evSeen } = c
         ∧ ∀ e, e ∈ t.ctx.evSeen ↔ e ∈ c.evSeen ∨ ∃ f ∈ c.freeze, f.2 = .event e ∨ ∃ die b ph, f.2 = .barw die b ph ∧ e = latchBar die b)
       ∧ (stepped → c.frame.vec ≠ 0 → ∃ t, exec .coreResume s = .next t ∧ s.onlyMe t ∧ s.sameMemory t ∧ s.inHandler t 0 0x0E 0
         ∧ t.ctx.frame.pcs.getD 0 0 = c.sq.pc.setWidth 21 ∧ t.ctx.frame.replay = c.flights ∧ t.ctx.freeze = []))
  ∧ (∀ (s : State) (k a v : Nat),
       let isX (f : Nat × Freeze) : Bool := match f.2 with
         | .xlat .. => true
         | _ => false
       s.ctx.freeze.find? isX = some (k, .xlat a v) → s.invalidating a v = false →
       let hit := (s.die (dieOf s.focus)).tlb.find? fun e => e.holds a v
       ∃ t, exec .translationWalk s = .next t ∧ s.sameMemory t ∧ t.ctx = s.ctx
         ∧ (∀ e, hit = some e → t.me.lookup a v = .page e)
         ∧ (hit = none → ∀ e, s.walk a v = some e → t.me.lookup a v = .page e ∧ e ∈ t.me.tlb ∧ e ∈ (t.die (dieOf s.focus)).tlb)
         ∧ (hit = none → s.walk a v = none → t.me.lookup a v = .absent ∧ t.me.tlb = s.me.tlb))
  ∧ (∀ (s : State) (k n : Nat),
       let isT (f : Nat × Freeze) : Bool := match f.2 with
         | .tile _ => true
         | _ => false
       let c := s.ctx
       let owner := (s.me.towner.find? fun o => o.1 = n).map (·.2)
       let lives (o : Nat × Nat) : Prop := o.1 ≠ 0 ∧ ∃ h ∈ s.homes, (s.ctxAt h).launch = o.1 ∧ (s.ctxAt h).p = o.2 ∧ (s.ctxAt h).mode ≠ .exiting
       -- a save area: bytes of HBM, or of the files of the context's first lender (R246, R307)
       let area (o : Nat × Nat) (off w : Nat) : List Loc :=
         (List.range w).map fun i => State.hbmLoc (s.saveBase o.1 + o.2 * 0x820000 + (off + i))
       let val (u : State) (o : Nat × Nat) (off w : Nat) : Nat :=
         match s.spillOf o.1 o.2 with
         | some j => leNat (getBytes (u.core j).spill off w)
         | none => u.natAt (area o off w)
       let dirty := (s.me.tshape.get n).getLsbD 12 = true
       let saves (x : Nat) : List Loc := (State.hbmLoc (x + 96)).run 8
       c.freeze.find? isT = some (k, .tile n) → n < 8 → owner ≠ some (c.launch, c.p) →
       (∀ o, owner = some o → ∀ l ∈ area o 0x1DB0 0x4000, l ∉ saves o.1 ∧ l ∉ saves c.launch) →
       ∃ t, exec .tileSwap s = .next t ∧ t.ctx = c ∧ t.me.owns n = true
         ∧ (∀ m, m ≠ n → t.me.tshape.get m = s.me.tshape.get m) ∧ (∀ q, q / 256 ≠ n → t.me.tiles.get q = s.me.tiles.get q)
         ∧ ((∀ o, owner = some o → ¬ lives o ∨ ¬ dirty ∨ s.spillOf o.1 o.2 ≠ none) → s.sameMemory t)
         ∧ (∀ o, owner = some o → lives o → dirty → (s.spillOf o.1 o.2 = none → s.boot.phase ≠ phSafe) →
             (∀ i, i < 256 → val t o (0x2000 + 1024 * n + 4 * i) 4 =
               if i / 16 < s.me.rows n ∧ i % 16 < s.me.cols n then (s.me.tiles.get (256 * n + i)).toNat else 0)
             ∧ val t o (0x1DB0 + 2 * n) 2 = (s.me.tshape.get n).toNat % 1024)
         ∧ (∀ o, owner = some o → ∀ l, l ∉ area o (0x2000 + 1024 * n) 1024 → l ∉ area o (0x1DB0 + 2 * n) 2 → t.byteAt l = s.byteAt l)
         ∧ (c.launch = 0 → t.me.tshape.get n = 0 ∧ ∀ i, i < 256 → t.me.tiles.get (256 * n + i) = 0)
         ∧ (c.launch ≠ 0 →
             let sh := val t (c.launch, c.p) (0x1DB0 + 2 * n) 2 % 1024
             (t.me.tshape.get n).toNat = sh
             ∧ ∀ i, i < 256 → (t.me.tiles.get (256 * n + i)).toNat =
                 if sh % 32 = 0 then 0 else val t (c.launch, c.p) (0x2000 + 1024 * n + 4 * i) 4))
  ∧ (∀ (s : State),
       let a := s.arg
       let k := a.k
       let ends (x : Bar) : Prop := x.broken = false ∧ x.members ≠ [] ∧ x.pend = 0 ∧ ∀ m ∈ x.members, m ∈ x.arrived
       (a.v = 0 →
         let h := homeOf a
         let x := s.barAt h false k
         let c := s.ctxAt h
         ends x → h ∈ s.homes → ∃ t, exec .barrierPhaseComplete s = .next t ∧ s.sameMemory t
           ∧ t.barAt h false k = { x with
               phase := x.phase + 1, arrived := if (false, k) ∈ c.defer then [c.agent false true] else [] }
           ∧ (t.ctxAt h).defer = c.defer.erase (false, k)
           ∧ ∀ m, m ≠ k → t.barAt h false m = s.barAt h false m)
       ∧ (a.v ≠ 0 →
         let x := pget {} (s.die a.n).bars (a.u.toNat, k)
         ends x → ∃ t, exec .barrierPhaseComplete s = .next t ∧ s.sameMemory t
           ∧ (let y := pget {} (t.die a.n).bars (a.u.toNat, k)
             y.phase = x.phase + 1 ∧ y.members = x.members ∧ y.broken = false
             ∧ ∀ g, g ∈ y.arrived ↔ ∃ h ∈ s.homes, (s.ctxAt h).launch = a.u.toNat ∧ s.homeDie h = a.n ∧ (true, k) ∈ (s.ctxAt h).defer
                 ∧ g = (s.ctxAt h).agent true true)))
  ∧ (∀ (s : State) (j : Job),
       let k := s.arg.k
       let c := s.ctx
       c.asyncQ[k]? = some j → s.mayRunJob k = true →
       j.ready ≤ s.ref
       ∧ (∀ m i, m < k → c.asyncQ[m]? = some i → (j.taker = none → i.taker ≠ none) ∧ ∀ p ∈ i.allPlanes, p ∉ j.allPlanes)
       ∧ (j.taker = none → (c.mode = .running ∨ c.mode = .yielding ∨ c.mode = .exiting) ∧ (c.freeze ≠ [] ∨ c.meFree ≤ c.ctime))
       ∧ (∀ f ∈ c.freeze, isReplay f.2 = false)
       ∧ (j.total ≤ j.next → ∃ t, exec .asyncCommandRun s = .next t ∧ s.sameMemory t
           ∧ t.ctx = { c with asyncQ := c.asyncQ.filter fun i => i.id != j.id }
           ∧ ∀ w, j.taker = some w → (t.core w).taking = (s.core w).taking - 1)
       ∧ (j.next < j.total →
           let ab := s.stepRead j j.next
           let fresh := j.zc = true ∧ j.firstAt j.next = true
           (s.anyBad (s.stepLocs j j.next) = true → ∃ t, exec .asyncCommandRun s = .next t ∧ s.sameMemory t
               ∧ t.ctx = c.addFreeze 2 (.replay (some j.id)))
           ∧ (s.anyBad (s.stepLocs j j.next) = false → ∃ t, exec .asyncCommandRun s = .next t ∧ s.sameMemory t
               ∧ (let c1 := c.staged j j.next ab
                 let wait := if j.next + 1 < j.total then 1 else if j.lent then 9 else 6
                 let q := c.asyncQ.map fun i =>
                   if i.id = j.id then { i with next := i.next + 1, ready := s.ref + wait * c.div 2 } else i
                 (c.pendingOn (j.planes j.next) = none → ∃ z, (∀ q, z.get q = if fresh ∧ q / 1024 ∈ j.planes j.next then 0 else c.a.get q)
                   ∧ t.ctx = { landGroup j j.next ab.1 ab.2 { c1 with a := z } with asyncQ := q })
                 ∧ ∀ u ph w, c.pendingOn (j.planes j.next) = some (u, ph, w) → ∃ zs : List (Nat × Nat × Eff),
                   (fresh → zs = [(u, 3, .pzero (j.planes j.next))]) ∧ (¬ fresh → zs = [])
                   ∧ t.ctx = { c1 with asyncQ := q, flights := c.flights.map fun f => if f.seq = w then
                       { f with script := f.script ++ (zs ++ [(u, 3, .grp j j.next ab.1 ab.2)]) } else f }))))
  ∧ (∀ (s : State),
       let c := s.ctx
       let c1 : Ctx := { c with freeze := c.freeze.filter (fun f => !isReplay f.2) }
       (∀ id ps chain, c.chainOf id ps = some chain → (∀ i ∈ chain, i ∈ c.window ∧ i.id ≤ id ∧ ∃ p ∈ ps, p ∈ i.named)
         ∧ ∀ p ∈ ps, ∃ i ∈ chain, i.zc = true ∧ p ∈ i.named)
       ∧ ∀ n job, c.freeze.find? (fun f => isReplay f.2) = some (n, .replay job) →
         (c.failing job = none → exec .matrixReplay s = .next (s.setCtx c1))
         ∧ ∀ f, c.failing job = some f →
           let good := (∀ x, f.item = some x → s.badRead x.eff = false)
             ∧ ∀ id, f.id = some id → ∃ chain, c.chainOf id f.named = some chain ∧ s.anyBad (s.chainLocs chain id f.step) = false
           (∀ id, job = some id → ∃ j ∈ c.asyncQ, j.id = id ∧ f.item = none ∧ f.id = some id ∧ f.step = j.next
             ∧ f.planes = j.planes j.next ∧ f.named = j.allPlanes)
           ∧ (good → exec .matrixReplay s = .next (s.setCtx c1))
           ∧ (¬ good → ∃ t, exec .matrixReplay s = .next t ∧ s.sameMemory t ∧ t.ctx.freeze = c1.freeze
             ∧ (∀ i, i ∈ t.ctx.asyncQ ↔ i ∈ c.asyncQ ∧ (f.item = none → some i.id ≠ f.id))
             ∧ (∀ g, g ∈ t.ctx.flights ↔ g ∈ c.flights ∧ ∀ x, f.item = some x → g.seq ≠ x.seq)
             ∧ (∀ p i, i < 1024 → t.ctx.a.get (1024 * p + i) = if p ∈ f.named then 0x7FC00000 else c.a.get (1024 * p + i))
             ∧ (∀ x, x ∈ t.ctx.tags ↔ x ∈ c.tags ∧ x.1 ∉ f.named)
             ∧ ∃ addr info, t.ctx.causes = c.causes ++ [(0x5000000B#32, addr, info)]
               ∧ ∀ id, f.id = some id → addr = BitVec.ofNat 64 (f.planes.headD 0) ∧ info = BitVec.ofNat 64 (id % 64 * 256)))
  ∧ (∀ (s : State) (w : BitVec 32) (addr info : BitVec 64) (rest : List (BitVec 32 × BitVec 64 × BitVec 64)),
       let c := s.ctx
       let cause := w.toNat % 256
       c.causes = (w, addr, info) :: rest → mayDeliver s.me = true → c.frame.vec ≠ 0 → cause ≠ 0x0A → cause ≠ 0x1A →
       ∃ t, exec .asyncTrapDelivery s = .next t ∧ s.onlyMe t ∧ s.sameMemory t ∧ t.ctx.handler = true ∧ t.ctx.causes = rest
         ∧ t.ctx.sq.pc = c.frame.vec.zeroExtend 64 ∧ t.ctx.sq.loops = [] ∧ t.ctx.frame.addr = addr ∧ t.ctx.frame.info = info
         ∧ t.ctx.frame.pcs.getD 0 0 = c.sq.pc.setWidth 21 ∧ t.ctx.frame.time = c.ctime ∧ t.ctx.frame.replay = c.flights
         ∧ t.ctx.flights = []
         ∧ t.ctx.trapcause = BitVec.ofNat 32 (w.toNat / 2 ^ 29 % 8 * 2 ^ 29 + 2 ^ 28 + w.toNat / 2 ^ 16 % 256 * 2 ^ 16 + cause))
  ∧ ∀ (s : State),
       let c := s.ctx
       s.me.live = true → c.mode = .exiting → c.handler = false → c.freeze = [] → c.cmds = [] → c.asyncQ = [] →
       (∀ x ∈ c.items, x.eff.isExit = true ∧ x.t ≤ c.ctime) → s.me.tasteBad = 0 →
       ∃ t, exec .kernelExitReport s = .next t ∧ s.sameMemory t ∧ t.me.live = false ∧ t.ctx = {}
         ∧ (∀ b g, g = c.agent true false ∨ g = c.agent true true →
             g ∉ (pget {} (t.die (dieOf s.focus)).bars (c.launch, b)).members
             ∧ g ∉ (pget {} (t.die (dieOf s.focus)).bars (c.launch, b)).arrived)
         ∧ (c.launch = 0 → ∀ d, ∀ o ∈ (t.die d).ords, o.launch ≠ 1 + dieOf s.focus)
         ∧ (∀ l, c.launch ≠ 0 → s.launchOf c.launch = some l →
             t.launchOf c.launch = some { l with exited := l.exited ++ [c.p] }
             ∧ (l.n ≤ l.exited.length + 1 → (Instr.launchFinish, ({ n := c.launch } : EvArg)) ∈ t.pend))

/-! ### Pre-emption, resumption and the kill -/

/-- PREEMPT_REQUEST, the escalations, LOOP_DRAIN_STOP, TRAP_GRADE_STOP, EVICT, CONTEXT_RESUME, RESUME_REQUEST, KILL and
KILL_QUIESCE_DONE (R152, R301 to R307, R312, R315, R321): whom a request reaches, what each grade records, the save block,
what runs on, and what a kill ends. -/
def Obligations.StopEvents : Prop :=
  (∀ (s : State),
     let n := s.arg.n
     -- a loop drain drains the loops that are active at the request (R152)
     let active (c : Ctx) : List Nat := [0, 1].filter fun n => (c.strm n).on && decide ((c.strm n).loops ≠ [])
     let asks (g : Grade) (c : Ctx) : Ctx :=
       { c with
         req := some (if c.handler then .trap else g), reqAt := s.ref
         toDrain := if c.handler = false ∧ g = .loop then active c else [] }
     let ask (g : Grade) (c : Ctx) : Ctx :=
       if c.req = none ∧ (c.mode = .running ∨ c.mode = .yielding) then asks g c else c
     let grade (m : Nat) : Grade := match (s.dword m).toNat / 2 ^ 8 % 4 with
       | 0 => .node
       | 1 => .loop
       | _ => .trap
     let kind := (s.dword n).toNat / 2 ^ 10 % 8
     let asked (m : Nat) : Prop := if kind = 3 then m = n ∧ ∃ l, s.launchOf n = some l ∧ l.killed = false
       else ∃ l ∈ s.launches, l.node = m ∧ l.killed = false ∧ n ∈ s.lineage 9 m
     ((∀ k, (s.core k).ctx.mode ≠ .faulted) →
       ∃ t, exec .preemptRequest s = .next t ∧ s.sameMemory t
         ∧ (∀ k, (s.core k).live = true → asked (s.core k).ctx.launch →
             (t.core k).ctx = ask (grade (s.core k).ctx.launch) (s.core k).ctx)
         ∧ (∀ k, (∀ x, (k, x) ∈ s.cores → ¬ (x.live = true ∧ asked x.ctx.launch)) → t.core k = s.core k)
         ∧ (∀ l, kind = 3 → s.launchOf n = some l → l.killed = false → s.runs l = true →
             t.launchOf n = some { l with byOwner := l.byOwner || s.arg.b, wanted := false }))
     ∧ (let x := s.core n
       let c := x.ctx
       let times := (s.dword (c.launch + 40)).toNat
       let to_ (g : Grade) : State := s.onCore n fun y => { y with ctx := asks g c }
       x.live = true →
       (c.req = some .node → c.reqAt + times / 2 ^ 16 % 2 ^ 16 * 3760 ≤ s.ref → exec .escalateToLoopDrain s = .next (to_ .loop))
       ∧ (c.req = some .loop → c.reqAt + times / 2 ^ 32 % 2 ^ 16 * 3760 ≤ s.ref → exec .escalateToTrap s = .next (to_ .trap))))
  ∧ (∀ (s : State),
       let c := s.ctx
       (s.me.live = true → c.mayRelease = true → c.req = some .loop → c.toDrain = [] → (∀ f ∈ c.flights, f.strm ≠ 2) →
         (c.ld.on = false ∨ c.ld.park ≠ .no) → ∃ t, exec .loopDrainStop s = .next t ∧ s.onlyMe t ∧ s.sameMemory t ∧ t.ctx.mode = .stoppedLoop ∧ t.ctx.req = none
           ∧ { t.ctx with mode := c.mode, req := c.req, sq := c.sq, ve := c.ve, me := c.me, gu := c.gu, ld := c.ld } = c
           ∧ ∀ n, n ≤ 4 →
               let x := c.strm n
               let y := t.ctx.strm n
               (x.park = .ending → y.on = false ∧ y.park = .no ∧ y.pc = x.pc)
               ∧ (x.park ≠ .ending → y.on = x.on ∧ y.park = .no ∧ y.due = c.ctime
                   ∧ (2 ≤ n → y.pc = x.pc)
                   ∧ (n ≤ 1 → y.loops = (if x.save.getLsbD 63 then [] else x.loops) ∧ y.save = x.save ∧ y.pc = if x.save.getLsbD 63 then
                       BitVec.ofInt 64 ((x.save.toNat / 2 ^ 40 % 2 ^ 21 : Nat) - (if n = 0 then 4 else 8) * (x.save.toNat / 2 ^ 32 % 2 ^ 8 : Nat))
                     else x.pc))
               ∧ (n = 2 → y.save = if c.asyncQ = [] then 0 else BitVec.ofNat 64 (2 ^ 63 + c.asyncQ.length)))
       ∧ (State.mayStopTrap s.me = true →
           let waits := ∃ f ∈ c.freeze, c.standing f = false
           (¬ waits → ∃ t, exec .trapGradeStop s = .next t ∧ s.onlyMe t ∧ s.sameMemory t ∧ t.ctx.mode = .stoppedTrap
             ∧ t.ctx.trapcause = 0x18 ∧ t.ctx.flights = [] ∧ t.ctx.freeze = [] ∧ t.ctx.frame.time = c.ctime
             ∧ t.ctx.frame.replay = c.flights ∧ t.ctx.frame.loops = c.sq.loops
             ∧ (∀ n, n ≤ 4 → t.ctx.frame.pcs.getD n 0 = (c.strm n).pc.setWidth 21 ∧ t.ctx.frame.dues.getD n 0 = (c.strm n).due)
             ∧ t.ctx.s = c.s ∧ t.ctx.v = c.v ∧ t.ctx.a = c.a ∧ t.ctx.cmds = c.cmds ∧ t.ctx.asyncQ = c.asyncQ)
           ∧ (waits → ∃ t, exec .trapGradeStop s = .next t ∧ s.onlyMe t ∧ s.sameMemory t
             ∧ { t.ctx with waitOn := c.waitOn } = { c with freeze := [], ctime := c.nextEdge, req := some .trap }
             ∧ ∀ n die b ph, c.freeze = [(n, .barw die b ph)] → t.ctx.waitOn = some (barKey die b, ph)))
       ∧ (∀ w ∈ [(Instr.loopDrainStop, CtxMode.stoppedLoop), (Instr.trapGradeStop, CtxMode.stoppedTrap)],
           s.me.live = true → c.mode = w.2 → (∀ x ∈ c.cmds, x.left = true) → (∀ j ∈ c.asyncQ, j.taker = none) → s.me.taking = 0 →
           s.me.held = none →
           ∃ t, exec w.1 s = .next t ∧ t.me.live = false ∧ t.me.held = some c
             ∧ (∀ l, l ∉ (State.hbmLoc c.launch).run 8 → t.byteAt l = s.byteAt l)
             ∧ (s.boot.phase ≠ phSafe → c.launch ≠ 0 → t.allSaved c.launch = true → s.nodeState c.launch ≠ 4 → t.nodeState c.launch = 3)))
  ∧ (∀ (s : State) (c : Ctx),
       let k := s.arg.n
       let x := s.core k
       let b := s.saveBase c.launch + c.p * 0x820000
       let v := s.saveBlock k c
       let at_ (o i n : Nat) : List Loc := (List.range n).map fun j => State.hbmLoc (b + o + i + j)
       let read (o n : Nat) : Nat := s.natAt (at_ o 0 n)
       x.held = some c → (x.live = true → x.ctx.mode ≠ .faulted) → c.launch ≠ 0 → c.spmSize ≤ 2 ^ 21 → c.lentSize ≤ 3 * 2 ^ 21 →
       s.saveBase c.launch < 2 ^ 41 → b + 0x820000 < 2 ^ 41 →
       (∃ (u : State) (ms : List Nat), exec .evict s = .next (u.redraw ms) ∧ (u.core k).held = none ∧ (u.core k).ctx = x.ctx
         ∧ (∀ l, s.launchOf c.launch = some l → u.launchOf c.launch = some { l with saved := tput c.p c l.saved })
         ∧ (s.boot.phase ≠ phSafe → u.allSaved c.launch = true → u.nodeState c.launch = 3 ∨ u.nodeState c.launch = 4)
         ∧ ∀ l, l ∉ (State.hbmLoc c.launch).run 8 → u.byteAt l = v.byteAt l)
       ∧ (∀ i, i < 64 → v.natAt (at_ 0 (8 * i) 8) = (c.s.get i).toNat)
       ∧ (∀ i, i < 16 → v.natAt (at_ 0x200 (32 * i) 32) = (c.h.get i).toNat)
       ∧ (∀ i, i < 48 → v.natAt (at_ 0x400 (128 * i) 128) = (c.v.get i).toNat)
       ∧ (∀ i, i < 8 → v.natAt (at_ 0x1D80 (4 * i) 4) = (c.rk i).toNat)
       ∧ (∀ y ∈ [(0x1C00, c.la), (0x1C80, c.lb), (0x1D00, c.lc)], v.natAt (at_ y.1 0 128) = y.2.v.toNat)
       ∧ (∀ y ∈ [(0x1DA0, c.arithV), (0x1DA4, c.arithM), (0x1DA8, c.momV), (0x1DAC, c.momM), (0x1DC0, c.clkdiv)],
           v.natAt (at_ y.1 0 4) = y.2.toNat)
       ∧ v.natAt (at_ 0x1DC8 0 8) = c.ctime % 2 ^ 64
       ∧ (∀ i, i < 16 → v.natAt (at_ 0x4000 (256 * i) 256) = (c.q.get i).toNat)
       ∧ (∀ i, i < 256 → v.natAt (at_ 0x5000 (32 * i) 32) = (c.desc.get i).toNat)
       ∧ (∀ i, i < 16384 → v.natAt (at_ 0x10000 (4 * i) 4) = (c.a.get i).toNat)
       ∧ (∀ i, i < c.spmSize → v.natAt (at_ 0x20000 i 1) = (s.byteAt { mem := .spm, unit := k, off := c.spb + i }).toNat)
       ∧ (let r := s.loadRegs c
         (∀ i, i < 64 → r.s.get i = BitVec.ofNat 64 (read (8 * i) 8)) ∧ (∀ i, i < 16 → r.h.get i = BitVec.ofNat 256 (read (0x200 + 32 * i) 32))
         ∧ (∀ i, i < 48 → r.v.get i = BitVec.ofNat 1024 (read (0x400 + 128 * i) 128))
         ∧ (∀ i, 1 ≤ i → i < 8 → r.rk i = BitVec.ofNat 32 (read (0x1D80 + 4 * i) 4))
         ∧ r.la.v = BitVec.ofNat 1024 (read 0x1C00 128) ∧ r.arithV = BitVec.ofNat 32 (read 0x1DA0 4)
         ∧ r.clkdiv = BitVec.ofNat 32 (read 0x1DC0 4) ∧ r.ctime = read 0x1DC8 8
         ∧ (∀ i, i < 16 → r.q.get i = BitVec.ofNat 2048 (read (0x4000 + 256 * i) 256))
         ∧ (∀ i, i < 256 → r.desc.get i = BitVec.ofNat 256 (read (0x5000 + 32 * i) 32))
         ∧ ∀ i, i < 16384 → r.a.get i = BitVec.ofNat 32 (read (0x10000 + 4 * i) 4)))
  ∧ (∀ (s : State) (l : Launch) (k : Nat) (c : Ctx),
       let mine (c : Ctx) : Bool := decide (c.launch = l.node) && decide (c.p = s.arg.m)
       let none_ := s.cores.find? (fun e => e.2.live && mine e.2.ctx && decide (e.2.ctx.mode = .faulted)) = none
       let blk (o w : Nat) : Nat :=
         s.natAt ((List.range w).map fun i => State.hbmLoc (s.saveBase c.launch + c.p * 0x820000 + (o + i)))
       s.launchOf s.arg.n = some l → s.mayResume l = true → none_ → s.boot.phase ≠ phSafe →
       (∀ x, s.cores.find? (fun e => e.2.held.any mine) = some (k, x) → x.held = some c → x.live = false → x.lendTo = none →
         x.taking = 0 → x.svc ≠ 2 → c.badResume = none →
         ∃ (u : State), exec .contextResume s = .next (u.redraw []) ∧ (u.core k).live = true ∧ (u.core k).held = none ∧ u.nodeState l.node = 2
           ∧ (∀ j, j ≠ (State.hbmLoc l.node).unit → (u.die j).hbm = (s.die j).hbm)
           ∧ (c.mode = .stoppedLoop → (u.core k).ctx = { c with mode := .running, req := none, evSeen := [] })
           ∧ (c.mode = .stoppedTrap →
               let y := (u.core k).ctx
               y.mode = .running ∧ y.req = none ∧ y.handler = false ∧ y.ctime = c.frame.time ∧ y.flights = c.frame.replay
                 ∧ y.sq.loops = c.frame.loops ∧ y.s = c.s ∧ y.v = c.v ∧ y.a = c.a ∧ y.cmds = c.cmds
                 ∧ ∀ n, n ≤ 4 → (y.strm n).pc = (c.frame.pcs.getD n 0).zeroExtend 64 ∧ (y.strm n).due = c.frame.dues.getD n 0
                   ∧ (y.strm n).on = c.frame.ons.getD n false))
       ∧ (∀ q spb, s.cores.find? (fun e => e.2.held.any mine) = none → l.saved.find? (fun e => e.1 = s.arg.m) = some (q, c) →
         s.resumeCore l s.arg.m = some k → s.makeRoom k l.hdr = (spb, s) →
         (c.mode = .stoppedNode → ∃ (u : State), exec .contextResume s = .next (u.redraw []) ∧ (u.core k).live = true ∧ u.nodeState l.node = 2
           ∧ (let y := (u.core k).ctx
             (∀ i, 56 ≤ i → i < 64 → y.s.get i = BitVec.ofNat 64 (blk (0x1C0 + 8 * (i - 56)) 8)) ∧ (∀ i, i < 56 → y.s.get i = c.s.get i)
               ∧ y.sq.pc = c.sq.pc ∧ y.ctime = blk 0x1DC8 8 ∧ y.clkdiv = BitVec.ofNat 32 (blk 0x1DC0 4) ∧ y.variant = blk 0x1DD0 8
               ∧ y.bars = c.bars ∧ y.rounds.map (·.2) = c.rounds.map (·.2) ∧ y.sq.loops = [] ∧ (∀ n, y.v.get n = 0) ∧ (∀ n, y.h.get n = 0) ∧ (∀ n, y.rk n = 0xFFFFFFFF)
               ∧ (∀ n, y.desc.get n = 0) ∧ (∀ n, y.rings.get n = 0) ∧ y.la.valid = false ∧ y.ve.on = false ∧ y.me.on = false
               ∧ y.gu.on = false ∧ y.ld.on = false))
         ∧ (c.mode = .stoppedLoop → c.badResume = none → ∃ (u : State), exec .contextResume s = .next (u.redraw []) ∧ (u.core k).live = true
           ∧ u.nodeState l.node = 2
           ∧ (let y := (u.core k).ctx
             y.mode = .running ∧ y.req = none ∧ y.ctime = blk 0x1DC8 8 ∧ y.clkdiv = BitVec.ofNat 32 (blk 0x1DC0 4) ∧ y.variant = blk 0x1DD0 8
               ∧ y.bars = c.bars ∧ y.rings = c.rings ∧ y.sq = { c.sq with save := BitVec.ofNat 64 (blk 0x1DD8 8) }
               ∧ y.ve = { c.ve with save := BitVec.ofNat 64 (blk 0x1DE0 8) } ∧ y.me = { c.me with save := BitVec.ofNat 64 (blk 0x1DE8 8) }
               ∧ y.gu = c.gu ∧ y.ld = c.ld ∧ (∀ i, 1 ≤ i → i < 8 → y.rk i = BitVec.ofNat 32 (blk (0x1D80 + 4 * i) 4))
               ∧ (∀ i, i < 64 → y.s.get i = BitVec.ofNat 64 (blk (8 * i) 8)) ∧ (∀ i, i < 48 → y.v.get i = BitVec.ofNat 1024 (blk (0x400 + 128 * i) 128))
               ∧ y.arithV = BitVec.ofNat 32 (blk 0x1DA0 4) ∧ y.asyncQ = c.asyncQ ∧ y.cmds.map LCmd.id = c.cmds.map LCmd.id))))
  ∧ (∀ (s : State) (l : Launch),
       let n := s.arg.n
       (s.dword n).toNat / 2 ^ 10 % 8 = 3 → s.launchOf n = some l →
       (s.nodeState n = 3 → l.byOwner = true → ∃ t, exec .resumeRequest s = .next t ∧ s.sameMemory t
         ∧ t.launchOf n = some { l with byOwner := false })
       ∧ (s.nodeState n ≠ 4 → (s.nodeState n ≠ 3 ∨ l.byOwner = false) → exec .resumeRequest s = .next s)
       ∧ (s.nodeState n = 4 → (∀ h ∈ s.homes, (s.ctxAt h).launch = n → (s.ctxAt h).mode ≠ .faulted) → exec .resumeRequest s = .next s)
       ∧ (s.nodeState n = 4 → (∃ h ∈ s.homes, (s.ctxAt h).launch = n ∧ (s.ctxAt h).mode = .faulted) → s.boot.phase ≠ phSafe →
         ∃ t, exec .resumeRequest s = .next t ∧ t.nodeState n = 2 ∧ t.launchOf n = some { l with wanted := true, byOwner := false }))
  ∧ (∀ (s : State),
       let n := s.arg.n
       -- the launches beneath the node, and how many of them the lists of retired pairs have room for
       let ls := (s.launches.filter fun l => (s.lineage 9 l.node).contains n).filter fun l => !l.killed
       let room := 64 - s.retired.length
       (∃ (u : State) (ms : List Nat),
         exec .kill s = .next (if room < ls.length then (u.redraw ms).post .kill { n := n } else u.redraw ms)
         ∧ ∀ l ∈ ls.take room,
           (l.asid.toNat, l.gen.toNat) ∈ u.retired ∧ (l.node, l.asid.toNat, l.gen.toNat) ∈ u.kills
           ∧ (∀ k, (u.core k).live = true → (u.core k).ctx.launch ≠ l.node)
           ∧ (∀ k c, (u.core k).held = some c → c.launch ≠ l.node)
           ∧ (∀ m ∈ u.launches, m.node = l.node → m.killed = true ∧ m.saved = [])
           ∧ (∀ d b, (l.node, b) ∈ ((s.die d).bars.map (·.1)) → (pget {} (u.die d).bars (l.node, b)).broken = true)))
  ∧ ∀ (s : State) (k : Nat × Nat × Nat),
       let n := s.arg.n
       s.kills.find? (fun k => k.1 = n) = some k → s.quiet k = true → k.2.1 ≠ 65536 → s.boot.phase ≠ phSafe →
       (s.launchOf n = none → ∃ t, exec .killQuiesceDone s = .next t ∧ t.nodeState n = 5 ∧ t.kills = s.kills.erase k
         ∧ t.retired = s.retired.erase (k.2.1, k.2.2))
       ∧ (∀ l, s.launchOf n = some l → (∀ x ∈ (State.hbmLoc (l.parent + 56)).run 8, x ∉ (State.hbmLoc n).run 8) →
         ∃ (u : State) (ms : List Nat), exec .killQuiesceDone s = .next (u.redraw ms) ∧ u.nodeState n = 5 ∧ u.kills = s.kills.erase k
           ∧ u.retired = s.retired.erase (k.2.1, k.2.2) ∧ u.launchOf n = none
           ∧ ∀ j, (u.core j).live = true → (u.core j).ctx.launch ≠ n)

/-! ### Launches, tables and the partition selector -/

/-- HOST_ENTRY_SUBMIT, LAUNCH_START, LAUNCH_FINISH, FIRMWARE_KERNEL_START, TT_FIRE, HOB_ROTATE, HOBCFG_WRITE, PLAN_SELECT,
INVGO and INVALIDATION_COMPLETE (R290 to R293, R295, R296, R298, R299, R320, R342, R402, R404, R415, R420): what an accepted
entry writes, when an entry starts, fails or waits, what the end of a launch sets, and where accesses in flight go after an
invalidation. -/
def Obligations.LaunchEvents : Prop :=
  (∀ (s : State),
     let n := s.arg.n
     let q := s.seqOf n + 1
     let m := s.launchNode n q
     let no_ := nodeBad n = true ∨ 7 ≤ s.depthOf n ∨ s.ringOk n = false ∨ s.ringFull n = true
     let slot2 : List Loc := (State.hbmLoc (s.slotOf n q + 16)).run 8
     ((nodeBad n = true ∨ 7 ≤ s.depthOf n ∨ (s.ringOk n = true ∧ s.ringFull n = true)) → exec .hostEntrySubmit s = .next s)
     ∧ (nodeBad n = false → s.depthOf n < 7 → s.ringOk n = false → s.boot.phase ≠ phSafe → ∃ t, exec .hostEntrySubmit s = .next t
         ∧ t.nodeField n 14 7 0 = 3 ∧ t.cores = s.cores ∧ t.nodes = s.nodes)
     ∧ (¬ no_ → s.boot.phase ≠ phSafe → ∃ t, exec .hostEntrySubmit s = .next t ∧ t.dword (n + 48) = BitVec.ofNat 64 q ∧ n ∈ t.nodes ∧ t.cores = s.cores
         ∧ t.launches = s.launches
         ∧ ((∀ o ∈ [0, 32, 40], ∀ x ∈ (State.hbmLoc (n + o)).run 8, x ∉ slot2) →
             (∀ x ∈ (State.hbmLoc (n + 48)).run 8, x ∉ (State.hbmLoc m).run 16) →
             t.nodeState m = 1 ∧ t.nodeKind m = 3 ∧ t.depthOf m = s.depthOf n + 1 ∧ t.parentOf m = n
             ∧ t.nodeField m 0 28 25 = 0 ∧ t.nodeField m 0 31 30 = 0
             ∧ t.nodeField m 0 29 29 = s.nodeField (s.slotOf n q) 2 28 28
             ∧ t.nodeField m 0 23 20 = s.nodeField (s.slotOf n q) 2 27 24)
         ∧ ((∀ o ∈ [0, 32, 40], ∀ x ∈ (State.hbmLoc (n + o)).run 8, x ∉ slot2) →
           ∀ l, l ∉ (State.hbmLoc (n + 48)).run 8 → l ∉ slot2 → l.mem ≠ .pantry →
             (∀ o ∈ [0, 8, 48, 56, 64, 72, 80, 88, 104, 112, 120, 128, 136, 144, 152], l ∉ (State.hbmLoc (m + o)).run 8) →
             t.byteAt l = s.byteAt l)))
  ∧ (∀ (s : State),
       let n := s.arg.n
       let q := s.started n + 1
       let m := s.launchNode n q
       let cores := s.entryDword n q 2 % 2 ^ 16
       let dies := s.entryDword n q 2 / 2 ^ 16 % 2 ^ 8
       let prec := s.entryDword n q 2 / 2 ^ 32
       let img := s.entryDword n q 1 % 2 ^ 52
       s.boot.phase = 4 → q ≤ s.seqOf n →
       (s.nodeState m = 5 → exec .launchStart s = .next (s.setStarted n q))
       ∧ (s.nodeState m ≠ 5 → s.launchOf m ≠ none → exec .launchStart s = .next s)
       ∧ (s.nodeState m ≠ 5 → s.launchOf m = none →
       (s.parentBad n = true → ∃ t, exec .launchStart s = .next t ∧ t.started n = q
         ∧ (State.hbmLoc (m + 112) ∉ (State.hbmLoc (n + 56)).run 8 → t.nodeField m 14 7 0 = 3))
       ∧ (s.parentBad n = false →
       (cores = 0 ∨ 1536 < cores → ∃ t, exec .launchStart s = .next t ∧ t.started n = q
         ∧ (State.hbmLoc (m + 112) ∉ (State.hbmLoc (n + 56)).run 8 → t.nodeField m 14 7 0 = 0x13)
         ∧ ((∀ a ∈ (s.setNodeState m 4).lineage 9 m, State.hbmLoc (a + 112) ≠ State.hbmLoc m) →
             State.hbmLoc m ∉ (State.hbmLoc (n + 56)).run 8 → t.nodeState m = 4))
       ∧ (1 ≤ cores → cores ≤ 1536 → ¬ (s.evOf n &&& s.entryMask n q 9 = s.entryMask n q 9) → exec .launchStart s = .next s)
       ∧ ∀ (im : Image) (ks : List Nat), 1 ≤ cores → cores ≤ 1536 →
           s.evOf n &&& s.entryMask n q 9 = s.entryMask n q 9 →
           img < 2 ^ 41 → s.saveBase m + cores * 0x820000 < 2 ^ 41 → s.imageAt img = some im → headerBad im.hdr = false →
           (prec = 0xFFFFFFFF ∨ (prec % 64 = 0 ∧ prec + 64 ≤ im.spm.2)) →
           s.fits n cores (hdrHeat im.hdr) (im.hdr.toNat / 2 ^ 64 % 2 ^ 16) img = true →
           s.placement cores (hdrHeat im.hdr) dies = some ks →
           (∀ k ∈ ks, (s.die (dieOf k)).bars.length + im.hdr.toNat / 2 ^ 37 % 2 ^ 7 ≤ 64 + Config.moreBarriers) →
           (∀ h ∈ s.homes, (s.ctxAt h).launch ≠ m) →
           ∃ t, exec .launchStart s = .next t ∧ t.started n = q
             ∧ (∃ l ∈ t.launches, l.node = m ∧ l.parent = n ∧ l.seq = q ∧ l.n = cores ∧ l.cores = ks ∧ l.hdr = im.hdr ∧ l.image = img
                 ∧ l.set = s.entryMask n q 13 ∧ l.asid.toNat = s.effAsid m % 2 ^ 16 ∧ l.gen = s.genNext ∧ l.prio = s.effPrio m
                 ∧ l.exited = [] ∧ l.killed = false)
             ∧ ∀ p k, ks[p]? = some k → k ∉ ks.drop (p + 1) →
                 (t.core k).live = true
                 ∧ (∃ spb, (t.core k).ctx = newCtx im.hdr m p n (BitVec.ofNat 16 (s.effAsid m)) s.genNext spb (s.swmapOf im)
                      (State.lendersOf k (hdrHeat im.hdr))
                    ∧ (prec ≠ 0xFFFFFFFF → hdrLent im.hdr = 0 → ∀ i, i < 6 →
                        t.natAt (Loc.run { mem := .spm, unit := k, off := spb + prec + 16 + 8 * i } 8) = s.entryDword n q (3 + i))))))
  ∧ (∀ (s : State) (l : Launch),
       let n := s.arg.n
       -- the entry has ended failed already (R404)
       let ended := l.seq ≤ s.doneOf l.parent ∨ (l.parent, l.seq) ∈ s.ended
       s.launchOf n = some l →
       (l.exited.length < l.n ∨ l.killed = true → exec .launchFinish s = .next s)
       ∧ (l.n ≤ l.exited.length → l.killed = false → ∃ (u : State) (ms : List Nat), exec .launchFinish s = .next (u.redraw ms)
         ∧ u.launchOf n = none ∧ (∀ k, (u.core k).live = true → (u.core k).ctx.launch ≠ n)
         ∧ (¬ ended → ∀ e, e < 256 → l.set.getLsbD e = true → s.badAt (State.hbmLoc (l.parent + 64 + e / 8)) = false →
             u.evBit l.parent e = true)
         ∧ (ended → ∀ e, e < 256 → State.hbmLoc (l.parent + 64 + e / 8) ∉ (State.hbmLoc n).run 8 → u.evBit l.parent e = s.evBit l.parent e)
         ∧ (s.boot.phase ≠ phSafe → (∀ o, o < 160 → State.hbmLoc (l.parent + o) ≠ State.hbmLoc n) →
             (¬ ended → u.nodeState n = 6) ∧ (ended → u.nodeState n = 4))))
  ∧ (∀ (s : State),
       let a := s.arg
       let k := 1536 + a.n
       let size := a.w.toNat / 2 ^ 64 % 2 ^ 16 * 64
       let log := Config.logSlot.toNat * 32768
       s.boot.power = true → s.boot.phase ≠ phRom → (s.boot.phase = phSafe → a.n = 0) → (s.die a.n).routine = none →
       (a.n = 0 → a.m + size ≤ log ∨ log + 32768 ≤ a.m) →
       a.n < 8 → ¬ ((s.core k).live = true ∧ (s.core k).ctx.awake = true) → headerBad a.w = false → a.m % 65536 = 0 →
       a.m + size ≤ 2 ^ 21 → a.bytes.length ≤ size → a.k + 32 ≤ size → a.w.toNat / 2 ^ 80 % 2 ^ 17 = 0 →
       ∃ t, exec .firmwareKernelStart s = .next t ∧ (t.core k).live = true ∧ (t.core k).ctx = newCtx a.w 0 0 0 0 0 a.m [] []
         ∧ (∀ j, j ≠ k → t.core j = s.core j)
         ∧ ((t.die a.n).routine = if a.b = true ∧ s.boot.phase = phTrain then some (a.v.toNat % 4, a.u.toNat, a.m + a.j + 24) else none)
         ∧ t.natAt (Loc.run { mem := .spm, unit := k, off := a.m + a.k + 16 } 8) = a.v.toNat
         ∧ t.natAt (Loc.run { mem := .spm, unit := k, off := a.m + a.k + 24 } 8) = a.u.toNat
         ∧ (∀ o, o < size → (o < a.k + 16 ∨ a.k + 32 ≤ o) →
             t.byteAt { mem := .spm, unit := k, off := a.m + o } = a.bytes.getD o 0)
         ∧ ∀ l : Loc, ¬ (l.mem = .spm ∧ l.unit = k ∧ a.m ≤ l.off ∧ l.off < a.m + size) → t.byteAt l = s.byteAt l)
  ∧ (∀ (s : State),
       let d := s.arg.n
       let k := s.arg.k
       let e := (s.die d).tt.get k
       let time := e.toNat / 2 ^ 192
       let period := e.toNat / 2 ^ 128 % 2 ^ 64
       let now := s.clock.ns
       let tmpl := e.toNat / 2 ^ 64 % 2 ^ 52
       let node := leNat ((s.bytesAt ((State.hbmLoc tmpl).run 160)).take 8) % 2 ^ 52
       s.boot.phase = 4 → e.getLsbD 116 = true → time ≤ now → now + period < 2 ^ 64 →
       ∃ t, exec .ttFire s = .next t
         ∧ (let f := (t.die d).tt.get k
           f.setWidth 116 = e.setWidth 116
           ∧ (period = 0 → f.getLsbD 116 = false ∧ f.toNat / 2 ^ 117 = e.toNat / 2 ^ 117)
           ∧ (period ≠ 0 → f.setWidth 192 = e.setWidth 192
               ∧ ∃ j, f.toNat / 2 ^ 192 = time + j * period ∧ now < f.toNat / 2 ^ 192 ∧ f.toNat / 2 ^ 192 ≤ now + period))
         ∧ ((2 ^ 41 ≤ tmpl ∨ nodeBad node = true) → t.nodeField Config.rootNode 14 7 0 = 3)
         ∧ (tmpl < 2 ^ 41 → nodeBad node = false → s.depthOf node < 7 → s.ringOk node = false → t.nodeField node 14 7 0 = 3)
         ∧ (tmpl < 2 ^ 41 → nodeBad node = false → s.depthOf node < 7 → s.ringOk node = true →
             (s.ringFull node = true → t.nodeField node 14 7 0 = 2)
             ∧ (s.ringFull node = false →
                 (∀ o, o < 160 → State.hbmLoc (node + o) ∉ (State.hbmLoc (s.slotOf node (s.seqOf node + 1))).run 160) →
                 t.dword (node + 48) = BitVec.ofNat 64 (s.seqOf node + 1))))
  ∧ (∀ (s : State),
       let n := s.arg.n
       let d := s.die n
       (d.rotAt + d.hob.toNat * 3760000 ≤ s.ref → ∃ t, exec .hobRotate s = .next t
         ∧ t.die n = { d with rot := d.rot + 1, rotAt := d.rotAt + d.hob.toNat * 3760000 } ∧ { t with diesT := s.diesT } = s
         ∧ (∀ j, j ≠ n → t.die j = s.die j)
         ∧ ∀ l, l < 48 → (t.quadsOf n)[l]? = some ((l + 7 * (d.rot + 1)) % 48))
       ∧ (let r := s.arg.v.toNat % 32
         ((1 ≤ r ∧ r ≤ 16) → ∃ t, exec .hobcfgWrite s = .next t ∧ t.die n = { d with hob := BitVec.ofNat 5 r }
           ∧ { t with diesT := s.diesT } = s ∧ ∀ j, j ≠ n → t.die j = s.die j)
         ∧ (¬ (1 ≤ r ∧ r ≤ 16) → exec .hobcfgWrite s = .next s)))
  ∧ (∀ (s : State),
       let n := s.arg.n
       let k := s.nodeField n 13 55 52
       let arr := s.nodeField n 13 51 0
       let ms (i : Nat) : Nat := (s.dword (n + 128 + 8 * i)).toNat
       let plan (i : Nat) : Nat := (s.dword (arr + 8 * i)).toNat % 2 ^ 52
       let count (i : Nat) : Nat := s.natAt ((State.hbmLoc (plan i)).run 4)
       (s.nodeKind n ≠ 2 → exec .planSelect s = .next s)
       ∧ (s.arg.b = false → tget 0 s.planAt (n + 3) = 0 → s.doneOf n ≠ s.seqOf n → exec .planSelect s = .next s)
       ∧ (s.boot.phase ≠ phSafe → (∀ i, i < s.ringSlots n → nodeBad (s.launchNode n (s.seqOf n + 1 + i)) = false) → nodeBad n = false → s.nodeKind n = 2 → 1 ≤ k → k ≤ 4 → tget 0 s.planAt (n + 3) = 0 → s.doneOf n = s.seqOf n →
           s.depthOf n < 7 → s.ringOk n = true → arr < 2 ^ 41 → (∀ i, i < k → plan i < 2 ^ 41 ∧ s.seqOf n + count i < 2 ^ 64) →
           (∀ o i, o < 160 → i < 512 * s.ringSlots n → State.hbmLoc (n + o) ≠ State.hbmLoc (s.ringBase n + i)) →
           ∃ t j, exec .planSelect s = .next t ∧ j < k ∧ (∀ i, i < k → ms j ≤ ms i) ∧ (∀ i, i < j → ms j < ms i)
             ∧ t.nodeField n 13 57 56 = j ∧ t.seqOf n = s.seqOf n + min (count j) (s.ringSlots n)
             ∧ tget 0 t.planAt (n + 3) = count j - s.ringSlots n))
  ∧ ∀ (s : State),
      (s.arg.v.getLsbD 0 = true → exec .invgo s = .next { s with invGo := true })
      ∧ (s.arg.v.getLsbD 0 = false → exec .invgo s = .next s)
      ∧ (s.invGo = false ∨ s.rangeLocked = true → exec .invalidationComplete s = .next s)
      ∧ (s.invGo = true → s.rangeLocked = false → ∃ t, exec .invalidationComplete s = .next t ∧ t.invGo = false ∧ s.sameMemory t
          ∧ (∀ k, (t.core k).tlb = (s.core k).tlb.filter (fun e => !s.inRange e) ∧ (t.core k).xres = []
              ∧ (t.core k).held = (s.core k).held.map (s.reaim k)
              ∧ (let old := ((s.core k).tlb ++ (s.die (dieOf k)).tlb).filter s.inRange
                let c := (s.core k).ctx
                let y := (t.core k).ctx
                (c.asid ≠ s.invAsid → y = c)
                ∧ (c.asid = s.invAsid → { y with flights := c.flights, frame := c.frame, freeze := c.freeze } = c
                  ∧ y.flights = c.flights.map (fun f => if f.translated then f.mapLoc (s.newPlace old) else f)
                  ∧ ∀ f, f ∈ y.freeze ↔ f ∈ c.freeze ∧ ∀ l x b, f.2 ≠ .addr l x b)
                ∧ (∀ l, (∀ e ∈ old, ∀ va, e.base ≤ va → va < e.base + e.size → e.place va ≠ l) → s.newPlace old l = l)
                ∧ ∀ e va x, old = [e] → e.base ≤ va → va < e.base + e.size → s.walk s.invAsid.toNat va = some x →
                    s.newPlace old (e.place va) = x.place va))
          ∧ ∀ d, (t.die d).tlb = (s.die d).tlb.filter fun e => !s.inRange e)

/-! ### Collective plans and queue pairs -/

/-- PLANREQ, PLANREL, the SETUP packets and their time-out, contributions and results (WREDUCE), TRIGGER_WRITE, QP_POST and
WORK_ENTRY_FIRE (R36, R354, R356, R358 to R364, R404): who is told what, what a plan's part holds, which iteration starts, how
a node combines, what a rank receives, and what a fired entry sends. -/
def Obligations.PlanEvents : Prop :=
  -- a set-up packet of operation `sop` goes to module `m`: performed here where the module is this one, else sent by its route
  let sends (s t : State) (i m sop h : Nat) (w : Instr) (ok : Nat → Prop) : Prop := (0, 0) ∉ s.retired → m < 4096 →
    (m = Config.moduleId → ∃ a : EvArg, (w, a) ∈ t.pend ∧ a.n = i ∧ a.b = true ∧ a.pkt.plan = h ∧ a.pkt.kind = 5
      ∧ a.pkt.first % 16 = sop ∧ ok a.pkt.first)
    ∧ (m ≠ Config.moduleId → ((s.iod i).route.get m).toNat ∉ (s.iod i).portDown → ∃ x : Packet,
        Sent.packet i ((s.iod i).route.get m).toNat x ∈ t.sent ∧ x.dmod = m ∧ x.plan = h ∧ x.kind = 5 ∧ x.first % 16 = sop ∧ ok x.first)
  let told (s t : State) (i m sop h : Nat) (w : Instr) : Prop := sends s t i m sop h w fun _ => True
  -- the record has the plan's own ASID and ELEMS
  let asked (hd r : Nat) : Prop := r / 2 ^ 144 % 2 ^ 16 = hd / 2 ^ 64 % 2 ^ 16 ∧ r / 2 ^ 160 % 2 ^ 32 = hd / 2 ^ 32 % 2 ^ 32
  (∀ (s : State),
     let i := s.arg.n
     let a := s.arg.v.toNat
     let h := s.natAt ((State.hbmLoc a).run 64)
     let nr := h % 2 ^ 16
     let entry (r : Nat) : Nat := s.natAt ((State.hbmLoc (a + 64 + 32 * r)).run 32)
     let entryBad (e : Nat) : Prop := e / 2 ^ 24 % 2 ^ 40 ≠ 0 ∨ e / 2 ^ 116 % 2 ^ 12 ≠ 0 ∨ e / 2 ^ 180 % 2 ^ 12 ≠ 0 ∨ e / 2 ^ 244 % 2 ^ 12 ≠ 0
     let malformed := 2 ^ 41 ≤ a ∨ nr < 1 ∨ 4096 < nr ∨ 8 < h / 2 ^ 16 % 2 ^ 4 ∨ 2 < h / 2 ^ 20 % 2 ^ 3 ∨ h / 2 ^ 23 % 2 ≠ 0
       ∨ 1 < h / 2 ^ 24 % 2 ^ 2 ∨ h / 2 ^ 26 % 2 ^ 6 < 10 ∨ 16 < h / 2 ^ 26 % 2 ^ 6 ∨ h / 2 ^ 80 ≠ 0 ∨ ∃ r, r < nr ∧ entryBad (entry r)
     ((s.iod i).setup.isSome = true → exec .planreq s = .next s)
     ∧ ((s.iod i).setup = none → malformed → ∃ t, exec .planreq s = .next t ∧ s.sameMemory t ∧ t.pend = s.pend ∧ t.sent = s.sent
         ∧ t.iod i = { s.iod i with planres := BitVec.ofNat 64 (2 ^ 62 + 3) })
     ∧ ((s.iod i).setup = none → ¬ malformed → i < 2 → ∃ t su, exec .planreq s = .next t ∧ s.sameMemory t ∧ (t.iod i).planres = 0
         ∧ (t.iod i).setup = some su ∧ su.req = a ∧ su.deadline = s.clock.ns + 1000000 ∧ su.tries = []
         ∧ su.handle / 2 ^ 24 = ((s.iod i).serial + 1).toNat ∧ su.handle / 2 ^ 23 % 2 = i ∧ su.handle / 2 ^ 11 % 2 ^ 12 = Config.moduleId
         ∧ ((∃ k, k < 2048 ∧ ∀ p ∈ s.plans, p.ranks ≠ [] → p.slot ≠ k) → ∀ p ∈ s.plans, p.ranks ≠ [] → p.slot ≠ su.handle % 2048)
         ∧ (∀ n, n + 1 < nr → ∃ f, f < nr ∧ (entry f % 4096, n, f) ∈ su.wait)
         ∧ (entry 0 % 4096, 0xFFF, 0) ∈ su.wait ∧ ∀ x ∈ su.wait, x.1 ∈ su.sent))
  ∧ (∀ (s : State) (hd : Nat) (ms : List Nat),
       let i := s.arg.n
       let h := s.arg.v.toNat % 2 ^ 32
       (s.iod i).made.find? (fun e => e.1 = h) = some (h, hd, ms) → ∃ t, exec .planrel s = .next t ∧ s.sameMemory t
         ∧ (∀ x, x ∈ (t.iod i).made ↔ x ∈ (s.iod i).made ∧ x.1 ≠ h)
         ∧ ∀ m ∈ ms, sends s t i m 4 h .setupRelease (asked hd))
  ∧ (∀ (s : State),
       let a := s.arg
       let p := a.pkt
       let r := p.first
       let imp := ((s.iod a.n).import_.get p.smod).toNat
       let accepted := a.b = true ∨ (imp / 2 ^ 63 = 1 ∧ imp / 2 ^ 32 % 2 ^ 16 = r / 2 ^ 144 % 2 ^ 16)
       let node := r / 2 ^ 48 % 2 ^ 12
       let first := r / 2 ^ 96 % 2 ^ 12
       let last := r / 2 ^ 108 % 2 ^ 12
       -- chunk buffers: two of the escape size for each of a node's two children (R360)
       let buf (x : PlanPart) : Nat := 4 * (x.csize / x.esize false * x.esize true)
       (s.iod a.n).removed = false → p.bad = false → p.dmod = Config.moduleId →
       (∀ w ∈ [Instr.setupReserve, .setupGrant, .setupRefuse, .setupCommit, .setupRelease],
         ((p.ctlBad = true ∧ p.kind ≠ 6) ∨ (p.ctlBad = false ∧ recordBad r = true)) → ∃ t, exec w s = .next t ∧ s.sameMemory t
           ∧ tget 0 (t.iod a.n).portDrops a.m = tget 0 (s.iod a.n).portDrops a.m + 1)
       ∧ (p.ctlBad = false → recordBad r = false → ¬ accepted → ∀ w ∈ [Instr.setupGrant, .setupRefuse], exec w s = .next s)
       ∧ (p.ctlBad = false → recordBad r = false → ¬ accepted → ∀ w ∈ [Instr.setupReserve, .setupCommit, .setupRelease],
           ∃ t, exec w s = .next t ∧ s.sameMemory t ∧ t.plans = s.plans ∧ told s t a.n p.smod 2 p.plan .setupRefuse)
       ∧ (p.ctlBad = false → recordBad r = false → accepted →
           let there := s.plans.filter fun x => x.node != 0xFFF && x.niod = r / 2 ^ 60 % 2
           let own : PlanPart := { handle := p.plan, record := r % 2 ^ 192, ranks := [], live := false, right := Config.moduleId }
           let fits := there.length < Config.planNodes ∧ (there.map buf).sum + buf own ≤ 96 * 2 ^ 20
           let taken := ∃ x ∈ s.plans, x.ranks ≠ [] ∧ x.slot = p.plan % 2048 ∧ x.handle ≠ p.plan
           ((node ≠ 0xFFF ∧ ¬ fits) ∨ (node = 0xFFF ∧ taken) → ∃ t, exec .setupReserve s = .next t ∧ s.sameMemory t
             ∧ t.plans = s.plans ∧ told s t a.n p.smod 2 p.plan .setupRefuse)
           ∧ ((node ≠ 0xFFF ∧ fits) ∨ (node = 0xFFF ∧ ¬ taken) → ∃ t q, exec .setupReserve s = .next t
             ∧ s.sameMemory t ∧ t.plans = s.plans ++ [q] ∧ q.handle = p.plan ∧ q.live = false ∧ q.record = r % 2 ^ 192
             ∧ (node ≠ 0xFFF → q.ranks = [])
             ∧ (node = 0xFFF → ∀ k, first + k ≤ last → q.ranks[k]? =
                 some (first + k, ((p.body.getD (1 + k / 2) 0) >>> (256 * (k % 2))).setWidth 256))
             ∧ told s t a.n p.smod 1 p.plan .setupGrant)
           ∧ exec .setupCommit s = .next { s with
               plans := s.plans.map fun x => if x.handle = p.plan then { x with live := true } else x }
           ∧ (∃ t, exec .setupRelease s = .next t ∧ s.sameMemory t ∧ (∀ x, x ∈ t.plans ↔ x ∈ s.plans ∧ x.handle ≠ p.plan)
             ∧ (∀ x, x ∈ t.chunks ↔ x ∈ s.chunks ∧ x.plan ≠ p.plan) ∧ ∀ x, x ∈ t.trigs ↔ x ∈ s.trigs ∧ x.1 ≠ p.plan))
       ∧ ∀ (su : Setup),
           let i := r / 2 ^ 16 % 2
           let x := (p.smod, node, first)
           let status := r / 2 ^ 136 % 2 ^ 8
           p.ctlBad = false → recordBad r = false → accepted → (s.iod i).setup = some su → su.handle = p.plan → x ∈ su.wait →
           (su.deadline < s.clock.ns → exec .setupGrant s = .next s)
           ∧ (s.clock.ns ≤ su.deadline → su.wait.erase x ≠ [] → ∃ t, exec .setupGrant s = .next t ∧ s.sameMemory t
               ∧ t.iod i = { s.iod i with setup := some { su with wait := su.wait.erase x } })
           ∧ (s.clock.ns ≤ su.deadline → su.wait.erase x = [] → ∃ t, exec .setupGrant s = .next t ∧ s.sameMemory t
               ∧ (t.iod i).setup = none ∧ (t.iod i).planres = BitVec.ofNat 64 (2 ^ 63 + su.handle)
               ∧ (su.handle, s.natAt ((State.hbmLoc su.req).run 64), su.sent) ∈ (t.iod i).made ∧ ∀ m ∈ su.sent, told s t i m 3 p.plan .setupCommit)
           ∧ (¬ (status = 2 ∧ su.tries.length < 16) → ∃ t, exec .setupRefuse s = .next t ∧ s.sameMemory t ∧ (t.iod i).setup = none
               ∧ (t.iod i).planres = BitVec.ofNat 64 (2 ^ 62 + if status = 1 ∨ status = 2 then 1 else 2)
               ∧ ∀ m ∈ su.sent, told s t i m 4 p.plan .setupRelease)
           ∧ (status = 2 → su.tries.length < 16 → ∃ t su', exec .setupRefuse s = .next t ∧ s.sameMemory t
               ∧ (t.iod i).setup = some su' ∧ (t.iod i).planres = 0 ∧ su'.req = su.req ∧ su'.tries = su.handle % 2048 :: su.tries
               ∧ su'.deadline = s.clock.ns + 1000000 ∧ ∀ m ∈ su.sent, told s t i m 4 p.plan .setupRelease))
  ∧ (∀ (s : State) (su : Setup),
       let i := s.arg.n
       (s.iod i).setup = some su →
       (s.clock.ns ≤ su.deadline → exec .setupTimeout s = .next s)
       ∧ (su.deadline < s.clock.ns → su.handle < 2 ^ 32 → ∃ t, exec .setupTimeout s = .next t ∧ s.sameMemory t ∧ (t.iod i).setup = none
           ∧ (t.iod i).planres = BitVec.ofNat 64 (2 ^ 62 + 2) ∧ ∀ m ∈ su.sent, told s t i m 4 su.handle .setupRelease))
  ∧ (∀ (s : State) (x g : Nat) (q : PlanPart),
       let a := s.arg
       let p := a.pkt
       let lost := p.addr / 2 ^ 13 % 2 = 1
       (s.iod a.n).removed = false → p.bad = false → p.dmod = Config.moduleId → s.pairFor a.n p a.b = some (x, g) →
       (x, g) ∉ s.retired → (p.sv = false ∨ a.k ≠ 0) →
       -- a contribution at its combining node
       (∀ l j, p.addr % 2 = 0 → a.j ≠ 0 → s.plans.find? (fun r => r.handle = p.plan && some r.node = some (a.j - 1) && r.live && r.asid = x) = some q →
         (s.iod q.niod).removed = false → nodePlace q.nr (planLevels q.nr) q.node = some (l, j) →
         let c : Chunk :=
           { plan := p.plan, node := q.node, rank := p.rank, iter := p.iter, chunk := p.chunk, esc := p.esc
             bad := decide lost, off := p.addr / 2 ^ 16, bytes := p.bytes.take p.size }
         let u : State := { s with
           chunks := s.chunks ++ [c]
           plans := if p.rank = q.first then s.plans
             else s.plans.map fun r => if r.handle = q.handle && r.node = q.node then { r with right := p.smod } else r }
         let left := u.wholeChunk q q.node q.first p.iter p.chunk
         let right := u.wholeChunk q q.node (q.first + 2 ^ (l - 1)) p.iter p.chunk
         (left = none ∨ right = none → exec .wreduce s = .next u)
         ∧ ∀ e1 b1 s1 e2 b2 s2, left = some (e1, b1, s1) → right = some (e2, b2, s2) →
             ∃ (v : State) (r : PlanPart) (e : Bool) (bs : List Byte),
               exec .wreduce s = .next (v.rise a.n r l j p.iter p.chunk g e (b1 || b2) bs)
               ∧ r ∈ u.plans ∧ r.handle = q.handle ∧ r.node = q.node
               ∧ { v with chunks := u.chunks } = u ∧ (∀ y ∈ v.chunks, y ∈ u.chunks ∧
                   ¬ (y.plan = p.plan ∧ y.node = q.node ∧ y.rank = q.first ∧ y.iter = p.iter ∧ y.chunk = p.chunk))
               ∧ (let ys := ((q.escElems p.chunk e1 s1).zip (q.escElems p.chunk e2 s2)).map fun y => combineEsc q.fm q.op y.1 y.2
                 (e = false ↔ (e1 = false ∧ e2 = false ∧ ∀ y ∈ ys, wireToEsc q.fm (escToWire q.fm y).1 = y))
                 ∧ bs = ys.flatMap fun y => leBytes (q.esize e) (if e then y else (escToWire q.fm y).1)))
       -- a result at its rank
       ∧ (∀ (w : Nat) (ls : List Loc), p.addr % 2 = 1 → p.addr / 2 % 4096 = 0xFFF → s.rankPart p.plan p.rank = some q → q.rank p.rank = some w →
         ¬ lost → p.esc = false → (∀ y ∈ s.chunks, y.plan ≠ p.plan) → (p.bytes.take p.size).length = q.count p.chunk * q.esize false →
         let n := q.count p.chunk * q.esize false
         let cnt := w / 2 ^ 12 % 2 ^ 12
         let word : List Loc := if cnt = 0xFFF then []
           else (Loc.run { mem := .pantry, unit := cnt / 512, off := 0x3FFF800 + 4 * (cnt % 512) } 4)
         0 < n → s.ioLocs q.asid true (State.ioFuel n) (w / 2 ^ 128 % 2 ^ 52 + p.chunk * q.csize) n = some ls → Loc.distinct ls → ls.length = n →
         (q.asid = 0 ∨ s.inTables ls = false) →
         (∀ l ∈ ls, l.mem ≠ .phy ∧ s.inWindow l = false ∧ s.hbmHeld l = false ∧ l ∉ word) →
         -- no accumulate into the host's memory stands on them (R206)
         (∀ l ∈ ls, l.mem = .host → ∀ h ∈ s.homes, ∀ x ∈ (s.ctxAt h).cmds, ∀ y ∈ x.elems, y.old = none ∨ y.done = true ∨ l ∉ y.dst) →
         ∃ t, exec .wreduce s = .next t ∧ t.bytesAt ls = p.bytes.take p.size
           ∧ (cnt ≠ 0xFFF → s.anyBad word = false → t.counter cnt = (s.counter cnt + n) % 2 ^ 32)
           ∧ (∀ l, l.apart ls → l ∉ word → t.byteAt l = s.byteAt l))
       ∧ (∀ w : Nat, p.addr % 2 = 1 → p.addr / 2 % 4096 = 0xFFF → s.rankPart p.plan p.rank = some q → q.rank p.rank = some w →
         ¬ lost → p.esc = false → (∀ y ∈ s.chunks, y.plan ≠ p.plan) → (p.bytes.take p.size).length = q.count p.chunk * q.esize false →
         let n := q.count p.chunk * q.esize false
         0 < n → s.ioLocs q.asid true (State.ioFuel n) (w / 2 ^ 128 % 2 ^ 52 + p.chunk * q.csize) n = none →
         ∃ t, exec .wreduce s = .next t ∧ s.sameMemory t ∧ tget 0 (t.iod a.n).importFaults p.smod
           = tget 0 (s.iod a.n).importFaults p.smod + if a.b then 0 else 1))
  ∧ (∀ (s : State),
       let v := s.arg.v.toNat
       let h := v % 2 ^ 32
       let r := v / 2 ^ 32 % 2 ^ 12
       let i := v / 2 ^ 44
       (h % 2048 ≠ (s.arg.n * 256 + s.arg.m) % 2048 → exec .triggerWrite s = .next s)
       ∧ (s.rankPart h r = none → exec .triggerWrite s = .next s)
       ∧ ∀ p, h % 2048 = (s.arg.n * 256 + s.arg.m) % 2048 → s.rankPart h r = some p → (h, r, i) ∉ s.trigs →
           let now := s.nextIter h r
           let ahead := (i + 2 ^ 20 - now) % 2 ^ 20
           (2 ^ 19 ≤ ahead → exec .triggerWrite s = .next s)
           ∧ (0 < ahead → ahead < 2 ^ 19 → (h, r, now) ∉ s.trigs →
               exec .triggerWrite s = .next { s with trigs := s.trigs ++ [(h, r, i)] })
           ∧ (ahead = 0 → now < 2 ^ 20 → (h, r, (now + 1) % 2 ^ 20) ∉ s.trigs →
               let u : State := { s with iters := ((h, r), (now + 1) % 2 ^ 20) :: s.iters.filter fun e => e.1 != (h, r) }
               let n := p.elems * p.esize false
               let found := u.ioLocs p.asid false (State.ioFuel n) (((p.rank r).getD 0) / 2 ^ 64 % 2 ^ 52) n
               let die := h / 2 ^ 23 % 2
               let from_ := if (s.iod die).removed then 1 - die else die
               (∀ ls, found = some ls → exec .triggerWrite s = .next
                 ((u.touch ls).contribute from_ p r now 0 (u.anyBad ls) (u.heard ls)))
               ∧ (found = none → exec .triggerWrite s = .next (u.contribute from_ p r now 0 true []))))
  ∧ (∀ (s : State),
       let i := s.arg.n
       let q := s.arg.m
       let tail := s.arg.v.toNat % 2 ^ 32
       let c := ((s.iod i).qp.get q).toNat
       let u := s.onIod i fun d => { d with
         qp := d.qp.set q (BitVec.ofNat 256 (c - c / 2 ^ 32 % 2 ^ 32 * 2 ^ 32 + tail * 2 ^ 32)) }
       let seen := tget 0 (s.iod i).qseen q
       (seen = tail → exec .qpPost s = .next u)
       ∧ ∀ ls, tail = (seen + 1) % 2 ^ 32 → seen < 2 ^ 32 → c / 2 ^ 255 = 1 → c / 2 ^ 80 % 2 ^ 16 ≠ 0 → (s.iod i).removed = false →
           ((s.iod i).armed.filter fun a => a.1 = q).length < 64 → u.slotLocs i q seen false = some ls → s.anyBad ls = false →
           State.workBad (s.natAt ls) = false →
           exec .qpPost s = .next (u.onIod i fun d => { d with
             qseen := tput q tail d.qseen
             armed := d.armed ++ [(q, { slot := seen, entry := BitVec.ofNat 512 (s.natAt ls), fired := 0 })] }))
  ∧ ∀ (s : State) (w : Armed) (ls : List Loc),
      let i := s.arg.n
      let q := s.arg.m
      let c := ((s.iod i).qp.get q).toNat
      let asid := c / 2 ^ 216 % 2 ^ 16
      let gen := c / 2 ^ 200 % 2 ^ 16
      let dmod := c / 2 ^ 232 % 2 ^ 12
      let e := w.entry.toNat
      let d (k : Nat) : Nat := e / 2 ^ (64 * k) % 2 ^ 64
      let trig := d 0 % 2 ^ 12
      let lcnt := d 0 / 2 ^ 12 % 2 ^ 12
      let len := d 4 % 2 ^ 32
      let src := d 2 % 2 ^ 52
      let port := ((s.iod i).route.get dmod).toNat
      (s.iod i).armed.find? (fun a => a.1 = q && a.2.slot = s.arg.k) = some (q, w) →
      (trig = 0xFFF ∨ 2 ^ 31 ≤ (s.counter trig + 2 ^ 32 - d 1 % 2 ^ 32) % 2 ^ 32 → exec .workEntryFire s = .next s)
      ∧ (trig ≠ 0xFFF → (s.counter trig + 2 ^ 32 - d 1 % 2 ^ 32) % 2 ^ 32 < 2 ^ 31 →
          ((asid, gen) ≠ (0, 0) → (asid, gen) ∉ s.pairs → (asid, gen) ∉ s.retired →
            exec .workEntryFire s = .next (s.post .violation { viol := .pairQueue i q }))
          ∧ (((asid, gen) = (0, 0) ∨ (asid, gen) ∈ s.pairs ∨ (asid, gen) ∈ s.retired) → s.invalidating asid src = false →
              (s.ioLocs asid false (State.ioFuel len) src len = none →
                exec .workEntryFire s = .next ((s.failEntryQ i q w.slot 0x04).armSlots i q 64))
              ∧ (s.ioLocs asid false (State.ioFuel len) src len = some ls → s.anyBad ls = false → d 0 / 2 ^ 60 = 0 → len ≤ 4096 → 1 ≤ len →
                  (asid, gen) ∉ s.retired → (∀ l ∈ ls, s.inWindow l = false ∧ s.hbmHeld l = false) → tget 0 (s.iod i).qseen q = c / 2 ^ 32 % 2 ^ 32 →
                  ∃ t, exec .workEntryFire s = .next t
                    ∧ (∃ x : Packet, x.kind = 0 ∧ x.cls = 0 ∧ x.dmod = dmod ∧ x.sasid = asid ∧ x.gen = gen ∧ x.addr = d 3 % 2 ^ 52
                        ∧ x.cnt = d 3 / 2 ^ 52 ∧ x.size = len ∧ x.bytes.take len = s.bytesAt ls ∧ x.bad = false
                        ∧ (dmod = Config.moduleId → (Instr.write, ({ n := i, pkt := x, b := true } : EvArg)) ∈ t.pend)
                        ∧ (dmod ≠ Config.moduleId → port ∉ (s.iod i).portDown → Sent.packet i port x ∈ t.sent))
                    ∧ (lcnt ≠ 0xFFF → s.anyBad ((State.counterLoc lcnt).run 4) = false → t.counter lcnt = (s.counter lcnt + 1) % 2 ^ 32)
                    ∧ (∀ l : Loc, ¬ (l.mem = .pantry ∧ lcnt ≠ 0xFFF ∧ l.unit = lcnt / 512 ∧ 0x3FFF800 + 4 * (lcnt % 512) ≤ l.off
                        ∧ l.off < 0x3FFF800 + 4 * (lcnt % 512) + 4) → t.byteAt l = s.byteAt l)
                    ∧ (let last := d 0 / 2 ^ 59 % 2 = 0 ∨ (d 4 / 2 ^ 32 ≠ 0 ∧ w.fired + 1 = d 4 / 2 ^ 32)
                      (last → ∀ y ∈ (t.iod i).armed, ¬ (y.1 = q ∧ y.2.slot = w.slot))
                      ∧ (¬ last → ∃ y, (q, y) ∈ (t.iod i).armed ∧ y.slot = w.slot ∧ y.fired = w.fired + 1
                          ∧ y.entry.toNat / 2 ^ 64 % 2 ^ 32 = (d 1 % 2 ^ 32 + d 1 / 2 ^ 32) % 2 ^ 32
                          ∧ ((y.entry.toNat / 2 ^ 128 % 2 ^ 52 : Nat) : Int)
                              = ((src : Int) + (BitVec.ofNat 32 (d 5)).toInt) % 2 ^ 52
                          ∧ ((y.entry.toNat / 2 ^ 192 % 2 ^ 52 : Nat) : Int)
                              = ((d 3 % 2 ^ 52 : Nat) + (BitVec.ofNat 32 (d 5 / 2 ^ 32)).toInt) % 2 ^ 52)))))

/-! ### The time base and power -/

/-- The PTP messages, SYNC_TIMEOUT, the token packets, LEASE_EXPIRY, PTRADE, PLOCK, PLVLTH_WRITE, PRAMP_WRITE,
POWER_OVERDRAW and SIMMER_TICK (R302, R352, R353, R379 to R387): offset, lock, step and slew; what a grant, an offer, an
acceptance and a commit change; the budget they give; the ramp of the load.  The layout of a PTP message and the slew's
law are the model's choice (log entry 25). -/
def Obligations.ClockAndPower : Prop :=
  let seen (c c' : Clock) (off : Int) : Prop :=
    let good := if off.natAbs ≤ 50 then c.good + 1 else 0
    c'.offset = BitVec.ofInt 32 (max (-2147483648) (min 2147483647 off)) ∧ c'.good = good
      ∧ (c'.lock = true ↔ (c.lock = true ∨ 8 ≤ good) ∧ off.natAbs ≤ 1000)
      ∧ (c.lock = false → 8 ≤ good → c.stepped = false → c'.stepped = true ∧ c'.ns = ((c.ns : Int) - off).toNat % 2 ^ 64)
      ∧ (¬ (c.lock = false ∧ 8 ≤ good ∧ c.stepped = false) → c'.stepped = c.stepped ∧ c'.ns = c.ns
          ∧ c'.slew = if c'.lock then off else 0)
  -- the clock alone changes, and with its one step the time of the last ramp step (R387)
  let clocked (s t : State) (off : Int) : Prop :=
    { t with clock := s.clock, power := s.power } = s ∧ { t.power with simAt := s.power.simAt } = s.power
      ∧ t.power.simAt = if s.clock.stepped = false ∧ t.clock.stepped = true then ((s.power.simAt : Int) - off).toNat % 2 ^ 64 else s.power.simAt
  let held (t : State) : Prop := t.power.lease ≠ 0 ∧ t.clock.ns < t.power.expiry.toNat
  let left (t : State) (l : List (Nat × Nat)) : Nat := ((l.filter fun x => decide (t.clock.ns < x.2)).map (·.1)).sum
  let base (t : State) (b : Nat) : Prop := (held t → b = t.power.tokens.toNat)
    ∧ (¬ held t → t.power.lease ≠ 0 → b = min t.power.tokens.toNat t.power.floor.toNat)
    ∧ (t.power.lease = 0 → b = t.power.floor.toNat)
  let budgeted (t : State) : Prop := (t.power.hold = false ↔ held t)
    ∧ ∃ b, base t b ∧ t.power.budget = b + left t t.power.inn - left t t.power.out
  let levelled (p : Power) : Prop := p.level < 8 ∧ (∀ i, i < 8 → State.threshold p i ≤ p.budget → i ≤ p.level)
    ∧ (p.level ≠ 0 → State.threshold p p.level ≤ p.budget)
  let arrives (s : State) : Prop :=
    (s.iod s.arg.n).removed = false ∧ s.arg.pkt.bad = false ∧ s.arg.pkt.dmod = Config.moduleId ∧ s.arg.pkt.ctlBad = false
  (∀ (s : State),
     let a := s.arg
     let n := tget 0 (s.iod a.n).portDrops a.m
     (s.iod a.n).removed = false → a.pkt.bad = false → a.pkt.dmod = Config.moduleId → a.pkt.ctlBad = true →
     (a.pkt.kind = 6 → ∀ w ∈ [Instr.tokenGrant, .tokenOffer, .tokenAccept, .tokenCommit],
       exec w s = .next { s with power := { s.power with pdrop := s.power.pdrop + 1 } })
     ∧ (a.pkt.kind ≠ 6 → ∀ w ∈ [Instr.syncMessage, .followUpMessage, .delayRespMessage, .announceMessage],
       exec w s = .next (s.onIod a.n fun d => { d with portDrops := tput a.m (n + 1) d.portDrops })))
  ∧ (∀ (s : State),
     let p := s.arg.pkt
     let c := s.clock
     let ours := p.smod = c.ctl.toNat % 2 ^ 12 ∧ ptpField p 4 1 = c.ctl.toNat / 2 ^ 12 % 2 ^ 8
     arrives s →
     (¬ ours → ∀ w ∈ [Instr.syncMessage, .followUpMessage, .delayRespMessage], exec w s = .next s)
     ∧ exec .announceMessage s = .next s
     ∧ (ours → ptpTwoStep p = true → exec .syncMessage s = .next { s with clock := { c with
         lastSync := c.ns, sync := some (s.stamp, ptpCorrection p, ptpSeq p) } })
     ∧ (ours → ptpTwoStep p = false → ∃ t, exec .syncMessage s = .next t
         ∧ clocked s t ((s.stamp : Int) - (ptpTime p 34 + ptpCorrection p) - c.delayNs)
         ∧ seen c t.clock ((s.stamp : Int) - (ptpTime p 34 + ptpCorrection p) - c.delayNs))
     ∧ (∀ t2 f q, c.sync = some (t2, f, q) → ours →
         (q ≠ ptpSeq p → exec .followUpMessage s = .next s)
         ∧ (q = ptpSeq p → ∃ t, exec .followUpMessage s = .next t ∧ t.clock.sync = none
             ∧ clocked s t ((t2 : Int) - (ptpTime p 34 + f + ptpCorrection p) - c.delayNs)
             ∧ seen c t.clock ((t2 : Int) - (ptpTime p 34 + f + ptpCorrection p) - c.delayNs)))
     ∧ (∀ t1 t2 t3 q, c.delayT3 = some (t3, q) → c.last = some (t1, t2) → ours → q = ptpSeq p →
         exec .delayRespMessage s = .next { s with clock := { c with
           delayT3 := none
           delayNs := (((t2 : Int) - t3) + ((ptpTime p 34 : Int) - ptpCorrection p - t1)) / 2 } }))
  ∧ (∀ (s : State),
       let c := s.clock
       let q := (c.seqNo + 1) % 65536
       ∃ p : Packet, exec .delayReq s = .next (({ s with clock := { c with
           seqNo := q, delayT3 := some (s.stamp, q) } } : State).sendPacket 0 p)
         ∧ p.kind = 7 ∧ p.cls = 2 ∧ p.bad = false ∧ p.len = 1 ∧ p.dmod = c.ctl.toNat % 2 ^ 12 ∧ ptpField p 0 1 = 1
         ∧ ptpField p 4 1 = c.ctl.toNat / 2 ^ 12 % 2 ^ 8 ∧ ptpSeq p = q)
  ∧ (∀ (s : State),
       let late := s.clock.lastSync + 8 * s.syncInterval < s.clock.ns
       (s.clock.lock = true → late → exec .syncTimeout s = .next { s with clock := { s.clock with lock := false, good := 0, slew := 0 } })
       ∧ (¬ (s.clock.lock = true ∧ late) → exec .syncTimeout s = .next s))
  ∧ (∀ (s : State),
       let p := s.arg.pkt
       let r := p.first
       let op := r / 2 ^ 144 % 2 ^ 4
       let lease := r % 2 ^ 64
       let expiry := r / 2 ^ 64 % 2 ^ 64
       let tokens := r / 2 ^ 128 % 2 ^ 16
       let origin := r / 2 ^ 148 % 2 ^ 12
       let trade := r / 2 ^ 160 % 2 ^ 32
       let near (m : Nat) : Prop := ∃ j, j < 4 ∧ s.power.nbr.getLsbD (48 + j) = true ∧ m = s.power.nbr.toNat / 2 ^ (12 * j) % 2 ^ 12
       let dropped := r / 2 ^ 192 ≠ 0 ∨ 3 < op ∨ s.clock.lock = false ∨ (op = 0 ∧ p.smod ≠ s.power.coord.toNat)
         ∨ (op ≠ 0 ∧ ¬ near p.smod)
       let now := s.clock.ns
       let all := [Instr.tokenGrant, .tokenOffer, .tokenAccept, .tokenCommit]
       arrives s →
       (dropped → ∀ w ∈ all, exec w s = .next { s with power := { s.power with pdrop := s.power.pdrop + 1 } })
       ∧ (¬ dropped → s.boot.phase ≠ 4 → ∀ w ∈ all, exec w s = .next s)
       ∧ (¬ dropped → s.boot.phase = 4 →
         (lease ≤ s.power.lease.toNat ∨ expiry ≤ now → exec .tokenGrant s = .next s)
         ∧ (s.power.lease.toNat < lease → now < expiry → ∃ t, exec .tokenGrant s = .next t ∧ t.power.lease = BitVec.ofNat 64 lease
             ∧ t.power.expiry = BitVec.ofNat 64 expiry ∧ t.power.tokens = BitVec.ofNat 16 tokens ∧ t.power.out = s.power.out
             ∧ t.power.inn = s.power.inn ∧ t.clock = s.clock ∧ budgeted t
             ∧ (t.power.budget ≠ s.power.budget → levelled t.power))
         ∧ (expiry ≤ now + 1000000 → exec .tokenOffer s = .next s)
         ∧ (now + 1000000 < expiry → ∃ (u : State) (x : Packet), exec .tokenOffer s = .next (u.sendPacket s.arg.n x)
             ∧ x.kind = 6 ∧ x.dmod = p.smod ∧ x.bad = false ∧ x.first % 2 ^ 144 = r % 2 ^ 144 ∧ x.first / 2 ^ 144 % 2 ^ 4 = 2
             ∧ x.first / 2 ^ 148 = r / 2 ^ 148 ∧ { u with power := s.power } = s ∧ { u.power with accepted := s.power.accepted } = s.power
             ∧ ∃ w ∈ u.power.accepted, w.who = origin ∧ w.trade = trade)
         ∧ (∀ w, s.power.offers.find? (fun w => w.who = p.smod && w.trade = trade && origin = Config.moduleId && w.lease = lease
               && w.expiry = expiry) = some w →
             let good := now ≤ w.at_ + 1000000 ∧ now < w.expiry ∧ ∃ b, base s b ∧ w.k ≤ b - left s s.power.out
             (¬ good → exec .tokenAccept s = .next { s with power := { s.power with offers := s.power.offers.filter (· != w) } })
             ∧ (good → ∃ (v : State) (x : Packet), exec .tokenAccept s = .next (v.sendPacket s.arg.n x)
                 ∧ x.kind = 6 ∧ x.dmod = p.smod ∧ x.bad = false ∧ x.first % 2 ^ 64 = w.lease % 2 ^ 64
                 ∧ x.first / 2 ^ 64 % 2 ^ 64 = w.expiry % 2 ^ 64 ∧ x.first / 2 ^ 128 % 2 ^ 16 = w.k % 2 ^ 16
                 ∧ x.first / 2 ^ 144 % 2 ^ 4 = 3 ∧ x.first / 2 ^ 160 % 2 ^ 32 = w.trade % 2 ^ 32
                 ∧ v.power.out = s.power.out ++ [(w.k, w.expiry)] ∧ v.power.offers = s.power.offers.filter (· != w)
                 ∧ v.clock = s.clock ∧ budgeted v))
         ∧ ((∀ w ∈ s.power.accepted, w.who = origin → w.trade = trade → w.applied = true) → exec .tokenCommit s = .next s)
         ∧ (∀ w ∈ s.power.accepted, w.who = origin → w.trade = trade → w.applied = false →
             (expiry ≤ now → exec .tokenCommit s = .next s)
             ∧ (now < expiry → ∃ t, exec .tokenCommit s = .next t ∧ t.power.inn = s.power.inn ++ [(tokens, expiry)]
                 ∧ (∀ y ∈ t.power.accepted, y.who = origin → y.trade = trade → y.applied = true) ∧ t.clock = s.clock ∧ budgeted t))))
  ∧ (∀ (s : State), ∃ t, exec .leaseExpiry s = .next t ∧ budgeted t ∧ t.clock = s.clock
       ∧ { t.power with budget := s.power.budget, hold := s.power.hold, level := s.power.level } = s.power
       ∧ (t.power.budget ≠ s.power.budget → levelled t.power))
  ∧ (∀ (s : State),
       let k := s.arg.v.toNat / 2 ^ 48
       let j := s.arg.v.toNat / 2 ^ 46 % 2 ^ 2
       let p := s.power
       let mayOffer := p.nbr.getLsbD (48 + j) = true ∧ 1 ≤ k ∧ held s ∧ ∃ b, base s b ∧ k ≤ b - left s p.out
       (¬ mayOffer → exec .ptrade s = .next s)
       ∧ (mayOffer → ∃ (x : Packet) (w : Trade), exec .ptrade s = .next (({ s with power := { p with
             trade := p.trade + 1, offers := p.offers ++ [w] } } : State).sendPacket 0 x)
           ∧ x.kind = 6 ∧ x.dmod = p.nbr.toNat / 2 ^ (12 * j) % 2 ^ 12 ∧ x.bad = false ∧ x.first % 2 ^ 64 = p.lease.toNat
           ∧ x.first / 2 ^ 64 % 2 ^ 64 = p.expiry.toNat ∧ x.first / 2 ^ 128 % 2 ^ 16 = k ∧ x.first / 2 ^ 144 % 2 ^ 4 = 1
           ∧ x.first / 2 ^ 148 % 2 ^ 12 = Config.moduleId ∧ x.first / 2 ^ 160 = (p.trade + 1) % 2 ^ 32
           ∧ w.who = x.dmod ∧ w.trade = (p.trade + 1) % 2 ^ 32 ∧ w.k = k ∧ w.expiry = p.expiry.toNat ∧ w.lease = p.lease.toNat
           ∧ w.at_ = s.clock.ns))
  ∧ (∀ (s : State),
       let p := s.power
       let v := s.arg.v
       let q := if s.arg.n = 1 then { p with lvlth1 := v } else { p with lvlth0 := v }
       let rising := ∀ i, i < 7 → State.threshold q i < State.threshold q (i + 1)
       exec .plock s = .next { s with power := { p with lock := true } }
       ∧ (p.lock = true ∨ ¬ rising → exec .plvlthWrite s = .next s)
       ∧ (p.lock = false → rising → ∃ t, exec .plvlthWrite s = .next t ∧ { t.power with level := p.level } = { q with level := p.level }
           ∧ { t with power := p } = s ∧ levelled t.power)
       ∧ (p.lock = true ∨ v.setWidth 16 = 0#16 → exec .prampWrite s = .next s)
       ∧ (p.lock = false → v.setWidth 16 ≠ 0#16 → exec .prampWrite s = .next { s with power := { p with ramp := v.setWidth 16 } }))
  ∧ (∀ (s : State),
       let may (l : Launch) : Prop := l ∈ s.launches ∧ s.runs l = true ∧ l.killed = false
         ∧ ∀ e ∈ s.cores, ¬ (e.2.live = true ∧ e.2.ctx.launch = l.node ∧ e.2.ctx.req ≠ none)
       (s.arg.k ≤ s.power.budget ∨ (∀ l, ¬ may l) → exec .powerOverdraw s = .next s)
       ∧ (s.power.budget < s.arg.k → (∃ l, may l) → ∃ l, may l ∧ exec .powerOverdraw s = .next (s.post .preemptRequest { n := l.node })
           ∧ ∀ m, may m → l.prio < m.prio ∨ (l.prio = m.prio ∧ m.started ≤ l.started)))
  ∧ ∀ (s : State),
      let p := s.power
      let d := if s.arg.b then s.arg.k else p.seen
      (s.clock.ns < p.simAt + 1000 → exec .simmerTick s = .next { s with power := { p with seen := d } })
      ∧ (p.simAt + 1000 ≤ s.clock.ns → ∃ t, exec .simmerTick s = .next t ∧ { t with power := p } = s
        ∧ t.power.draw = d ∧ t.power.seen = d ∧ t.power.simAt = s.clock.ns
        ∧ t.power.fall = max (1000 * t.power.draw) (p.fall - p.ramp.toNat)
        ∧ t.power.simt.toNat = (t.power.fall - 1000 * t.power.draw) / 1000 % 2 ^ 16
        ∧ t.power.simn = (if t.power.fall ≠ 1000 * t.power.draw ∧ p.fall ≤ 1000 * p.draw then p.simn + 1 else p.simn)
        ∧ t.power.budget = p.budget ∧ t.power.level = p.level ∧ t.power.lease = p.lease)

/-! ### Errors, violations and removed parts -/

/-- CORRECTED_WRITEBACK, BANK_FAILURE, REBUILD_WALK, SCRUB_READ, SCRUB_WRITEBACK, VIOLATION and PART_REMOVAL (R390, R392,
R395, R396, R401, R403): none of the first five changes a byte outside the log; what a failed bank, a watched row, a frozen
master and a removed part leave. -/
def Obligations.ReliabilityEvents : Prop :=
  (∀ (s : State),
     let k := s.arg.n
     let m := s.arg.m
     let x := s.core k
     let standing (b : Nat) : Prop := b < 36 ∧ (x.err.get m).getLsbD b = true ∧ x.stuckBits.getLsbD b = true ∧ b ∉ x.failed
     (m ∉ x.wb → exec .correctedWriteback s = .next s)
     ∧ (m ∈ x.wb → ∃ t, exec .correctedWriteback s = .next t ∧ s.sameMemory t ∧ (t.core k).wb = x.wb.erase m
         ∧ (t.core k).err.get m = (x.err.get m &&& x.stuckBits) ∧ (∀ r, r ≠ m → (t.core k).err.get r = x.err.get r)
         ∧ (t.core k).ctx = x.ctx ∧ (∀ j, j ≠ k → t.core j = s.core j)
         ∧ ((∀ b, ¬ standing b) → t.pend = s.pend)
         ∧ ((∃ b, standing b) → ∃ b, standing b ∧ t.pend = s.pend ++ [(Instr.bankFailure, ({ n := k, m := b, b := true } : EvArg))])))
  ∧ (∀ (s : State),
       let k := s.arg.n
       let b := s.arg.m
       let x := s.core k
       let fails := b < 36 ∧ b ∉ x.failed ∧ (s.arg.b = true ∨ 16 ≤ s.recentHits k b)
       (¬ fails → exec .bankFailure s = .next s)
       ∧ (fails → ∃ t, exec .bankFailure s = .next t ∧ s.sameButLog t ∧ (t.core k).failed = x.failed ++ [b]
           ∧ (x.failed.length < 2 → (t.core k).ctx = x.ctx
               ∧ (b < 32 → (t.core k).walking = true ∧ (t.core k).walk = 0 ∧ (t.core k).svc = 1)
               ∧ (32 ≤ b → (t.core k).walking = x.walking ∧ (t.core k).svc = x.svc))
           ∧ (2 ≤ x.failed.length → (t.core k).svc = 2 ∧ (t.core k).walking = false
               ∧ (x.live = true → x.ctx.launch ≠ 0 → x.ctx.mode = .running → (t.core k).ctx = { x.ctx with req := some .trap, reqAt := s.ref }))))
  ∧ (∀ (s : State),
       let k := s.arg.n
       let x := s.core k
       let r := x.walk
       (x.walking = false → exec .rebuildWalk s = .next s)
       ∧ (x.walking = true → ∃ t, exec .rebuildWalk s = .next t ∧ s.sameMemory t ∧ (t.core k).walk = r + 1 ∧ (t.core k).ctx = x.ctx
           ∧ ((t.core k).walking = true ↔ r + 1 < 65536) ∧ (∀ j, j ≠ k → t.core j = s.core j)
           ∧ (65536 ≤ r + 1 → x.svc = 1 → (t.core k).svc = 0)
           ∧ (x.failed.length + 2 * liveErrs x.failed (x.err.get r) 36 ≤ 4 → (t.core k).err.get r = (x.err.get r &&& x.stuckBits))
           ∧ ∀ q, q ≠ r → (t.core k).err.get q = x.err.get q))
  ∧ (∀ (s : State),
       let d := s.arg.n
       let m := s.arg.m
       let x := s.die d
       let j := s.arg.j
       let y := x.scrub m j
       let u := if m = 0 then 256 * y.pos + j else (m - 1) * 2 ^ 31 + y.pos
       let n := popCount ((x.errs m).get u) 36
       m ≤ x.hbmScrub.length → (m = 0 → j < 256) →
       (s.arg.b = false → ∃ t, exec .scrubRead s = .next t ∧ s.sameButLog t
         ∧ ((t.die d).scrub m j).pos = (y.pos + 1) % (if m = 0 then 2 ^ 13 else 2 ^ 31)
         ∧ (n = 0 → (t.die d).errs m = x.errs m ∧ ((t.die d).scrub m j).due = y.due ∧ (t.die d).watch = x.watch)
         ∧ (1 ≤ n → n ≤ 2 → (t.die d).errs m = x.errs m ∧ (u, false) ∈ ((t.die d).scrub m j).due
             ∧ (m, u / 32, 0) ∈ (t.die d).watch)
         ∧ (3 ≤ n → ((t.die d).errs m).get u = BitVec.allOnes 36 ∧ ∀ w, w ≠ u → ((t.die d).errs m).get w = (x.errs m).get w))
       ∧ (s.arg.b = true →
           let k := s.arg.k
           let clean := ∀ i, i < 32 → (x.errs m).get (32 * k + i) = 0
           ∃ t, exec .scrubRead s = .next t ∧ s.sameButLog t
             ∧ (clean → (t.die d).errs m = x.errs m
                 ∧ (∀ c, (m, k, c) ∈ x.watch → c + 1 < 16 → (m, k, c + 1) ∈ (t.die d).watch)
                 ∧ (∀ c, (m, k, c) ∈ (t.die d).watch → 0 < c ∧ c < 16 ∧ (m, k, c - 1) ∈ x.watch)
                 ∧ ∀ w, (w.1 ≠ m ∨ w.2.1 ≠ k) → (w ∈ (t.die d).watch ↔ w ∈ x.watch))
             ∧ (¬ clean → ∀ c, (m, k, c) ∈ (t.die d).watch → c = 0))
       ∧ (∀ z, (x.scrub m s.arg.k).due.find? (fun z => z.1 = s.arg.k) = some z →
           ∃ t, exec .scrubWriteback s = .next t ∧ s.sameMemory t
             ∧ ((t.die d).scrub m s.arg.k).due = (x.scrub m s.arg.k).due.erase z
             ∧ (z.2 = true ∨ 3 ≤ popCount ((x.errs m).get z.1) 36 → (t.die d).errs m = x.errs m)
             ∧ (z.2 = false → popCount ((x.errs m).get z.1) 36 ≤ 2 → ((t.die d).errs m).get z.1 = 0
                 ∧ ∀ w, w ≠ z.1 → ((t.die d).errs m).get w = (x.errs m).get w))
       ∧ (((x.scrub m s.arg.k).due.find? fun z => z.1 = s.arg.k) = none → exec .scrubWriteback s = .next s))
  ∧ (∀ (s : State),
       let purged (t : State) (k a : Nat) : Prop := (t.core k).tlb = ((s.core k).tlb.filter fun e => e.asid != a)
         ∧ (t.core k).xres = [] ∧ (t.die (dieOf k)).tlb = ((s.die (dieOf k)).tlb.filter fun e => e.asid != a)
       let frozen (k : Nat) : Prop := let c := (s.core k).ctx
         ((s.core k).live = false → exec .violation s = .next s)
         ∧ ((s.core k).live = true → ∃ t, exec .violation s = .next t ∧ s.liveStops t k
           ∧ purged t k c.asid.toNat ∧ (∀ j, j ≠ k → j ≠ 1536 → t.core j = s.core j) ∧ (Instr.evict, ({ n := k } : EvArg)) ∈ t.pend
           ∧ (c.launch ≠ 0 → s.boot.phase ≠ phSafe → (∀ l, s.launchOf c.launch = some l →
               State.hbmLoc (c.launch + 112) ∉ (State.hbmLoc (l.parent + 56)).run 8) → t.nodeField c.launch 14 7 0 = 3))
       match s.arg.viol with
       | .pairUnknown k => frozen k
       | .tableWrite k q ladle => let c := (s.core k).ctx
           (ladle = false → frozen k)
           ∧ (ladle = true → (s.core k).live = true → ∃ t, exec .violation s = .next t ∧ q ∈ (t.core k).ctx.vq
               ∧ { (t.core k).ctx with vq := c.vq } = c ∧ purged t k c.asid.toNat
               ∧ (c.launch ≠ 0 → s.boot.phase ≠ phSafe → t.nodeField c.launch 14 7 0 = 3))
           ∧ (ladle = true → (s.core k).live = false → ∀ h, (s.core k).held = some h → ∃ t, exec .violation s = .next t
               ∧ (∃ h', (t.core k).held = some h' ∧ q ∈ h'.vq ∧ { h' with vq := h.vq } = h) ∧ purged t k h.asid.toNat)
           ∧ (ladle = true → (s.core k).live = false → (s.core k).held = none → exec .violation s = .next s)
       | .pairQueue i q => ∃ t, exec .violation s = .next t ∧ ((t.iod i).qp.get q).toNat / 2 ^ 255 = 0
           ∧ ∀ a ∈ (t.iod i).armed, a.1 ≠ q
       | .sieveCycles i n => let p := s.arg.n
           ∃ t, exec .violation s = .next t ∧ ((t.sieve i n).desc p).v = false
             ∧ (∀ j, j ≠ p → (t.sieve i n).part.get j = (s.sieve i n).part.get j)
             ∧ (s.boot.phase ≠ phSafe → t.nodeField ((s.sieve i n).desc p).node 14 7 0 = 3)
       | .hostPoison n => ∃ t, exec .violation s = .next t ∧ s.sameButLog t ∧ (t.link n).frozen = true)
  ∧ ∀ (s : State),
      let m := s.arg.m
      let b := s.arg.b
      (s.arg.n = 0 → ∃ t, exec .partRemoval s = .next t ∧ (t.die m).removed = !b
        ∧ (∀ k, dieOf k = m → (t.core k).live = false ∧ (t.core k).held = none)
        ∧ (∀ l ∈ s.launches, (∃ k ∈ l.cores, dieOf k = m) → ∀ l' ∈ t.launches, l'.node ≠ l.node))
      ∧ (s.arg.n = 1 → ∃ t, exec .partRemoval s = .next t ∧ t.iod m = { route := (s.iod m).route, removed := !b }
          ∧ (b = false → (t.link m).removed = true))
      ∧ (s.arg.n = 2 → ∃ t, exec .partRemoval s = .next t ∧ s.sameButLog t ∧ (b = false → (t.link m).removed = true)
          ∧ t.boot.mailq = s.boot.mailq.filter (· != m)
          ∧ (b = true → (t.link m).removed = false ∧ (t.link m).frozen = false ∧ (t.link m).up = (s.link m).up))
      ∧ (s.arg.n = 3 → ∃ t, exec .partRemoval s = .next t ∧ s.sameButLog t
          ∧ (b = false → m % 16 ∈ (t.iod (m / 16)).portDown) ∧ (b = true → t.iods = s.iods))
      ∧ (s.arg.n = 4 → ∃ t, exec .partRemoval s = .next t ∧ s.sameButLog t ∧ (b = false → m % 4 ∈ (t.die (m / 4)).gone)
          ∧ (b = true → t.diesT = s.diesT))

/-! ### Bring-up -/

/-- POWER_GOOD, ROM_VERIFY, SELFTEST, HBMTRAIN, LINKS, READY, MODULE_RESET, PATTERN_TEST_GO, PATTERN_TEST_DONE and
PHY_SETTING_WRITE (R41, R405 to R408, R412, R413, R415): each phase and what ends it, SAFE, the copy that boots, the choice of a
delay, and the PHY registers.  What the self tests, the link steps and the pattern tests find, and what firmware writes in
phase LINKS, is free (log entries 3 and 5). -/
def Obligations.BootEvents : Prop :=
  let safe (s t : State) : Prop := t.boot.phase = 0x80 ∧ t.boot.fail = s.boot.phase ∧ (t.link 1).up = false
    ∧ (∀ k, k ≠ 1536 → (t.core k).live = false) ∧ (t.core 1536).live = (s.core 1536).live
    ∧ (t.core 1536).ctx = (s.core 1536).ctx ∧ s.sameButLog t ∧ t.boot.logNext = s.boot.logNext + 1
  (∀ (s : State),
     let r := if 1 ≤ s.arg.k ∧ s.arg.k ≤ 7 then s.arg.k else 1
     (s.boot.power = true → exec .powerGood s = .next s)
     ∧ (s.boot.power = false → ∃ t, exec .powerGood s = .next t ∧ t.boot = { s.boot with power := true, phase := 0, fail := 0xFF }
         ∧ t.link 0 = { s.link 0 with up := true, width := 0, rate := r } ∧ (∀ j, j ≠ 0 → t.link j = s.link j)
         ∧ { t with boot := s.boot, links := s.links } = s))
  ∧ (∀ (bs : List Byte) (n : Nat), State.verifyCopy bs n = 0 ↔
       772 ≤ bs.length ∧ ofOctets (sha256 (bs.take 384)) = Config.vendorKeyHash.toNat
         ∧ rsaOk (leNat (bs.take 384)) (sha256 (bs.take (bs.length - 384))) (bs.drop (bs.length - 384)) = true
         ∧ n ≤ leNat ((bs.drop 384).take 4))
  ∧ (∀ (s : State),
       let b := s.boot
       let copy (x : Bool) : List Byte := if x then b.flashB else b.flashA
       let good (x : Bool) : Bool := State.verifyCopy (copy x) b.rollback.toNat = 0
       let boots (x : Bool) (t : State) : Prop := s.sameButLog t ∧ t.boot.booted = some x ∧ t.boot.phase = 1
         ∧ t.boot.m1 = sha256 (copy x) ∧ t.boot.sv.toNat = leNat (((copy x).drop 384).take 4)
       b.power = true → b.phase = 0 → b.booted = none → ∃ t, exec .romVerify s = .next t ∧ t.boot.first = false
         ∧ if good b.first then boots b.first t ∧ t.boot.logNext = b.logNext
           else if good (!b.first) then boots (!b.first) t ∧ t.boot.logNext = b.logNext + 1
           else t.boot.booted = none ∧ safe { s with boot := { b with logNext := b.logNext + 2 } } t)
  ∧ (∀ (s : State),
       let passes := Config.stepPasses s.free
       let stuck := ∃ e ∈ s.cores, 3 ≤ popCount e.2.stuckBits 36
       (s.boot.phase = 1 → ∃ t, exec .selftest s = .next t ∧ (stuck ∨ passes = false → safe s t)
         ∧ (¬ stuck → passes = true → t.boot.phase = 2
           ∧ (∀ l : Loc, t.byteAt l = if l.mem = .spm ∧ inLog l.unit l.off = false ∨ l.mem = .pantry then 0 else s.byteAt l)
           ∧ (∀ k, (t.core k).err = []) ∧ (∀ d, (t.die d).panErr = [])
           ∧ ∀ i n, (t.sieve i n).imem = [] ∧ (t.sieve i n).flow = []))
       ∧ (s.boot.phase ≠ 1 → exec .selftest s = .next s)
       ∧ (s.boot.phase = 2 → s.arg.b = true →
           let d := s.arg.n
           let k := s.core (1536 + d)
           match (s.die d).routine with
           | none => exec .hbmtrain s = .next s
           | some (st, p, o) =>
             let report := Loc.run { mem := .spm, unit := 1536 + d, off := o } 8
             let trained := k.live = false ∧ s.anyBad report = false ∧ s.natAt report = 0
             (s.serviceRuns d = true → exec .hbmtrain s = .next s)
             ∧ (s.serviceRuns d = false → ∃ t, exec .hbmtrain s = .next t ∧ (t.die d).routine = none
                 ∧ (trained → t.boot = s.boot ∧ s.sameMemory t ∧ (t.die d).trained = (st, p) :: (s.die d).trained)
                 ∧ (¬ trained → safe s t ∧ (t.die d).trained = (s.die d).trained)))
       ∧ (s.boot.phase = 2 → s.arg.b = false →
           let r := s.trainAll State.channels
           let busy := ∃ d, d < 8 ∧ (s.serviceRuns d = true ∨ (s.die d).routine ≠ none)
           (busy → exec .hbmtrain s = .next s)
           ∧ ((∀ x ∈ State.channels, (x.2.1, x.2.2) ∈ (s.die x.1).trained) → r = (none, s))
           ∧ (¬ busy → ∃ u, exec .hbmtrain s = .next u ∧ if r.1 = none then
               u = { r.2 with boot := { r.2.boot with phase := 3, m2 := r.2.measureM2 }, clock := { r.2.clock with ctl := Config.bootTmctl } }
             else safe r.2 u))
       ∧ (s.boot.phase ≠ 2 → exec .hbmtrain s = .next s)
       ∧ (s.boot.phase = 3 → s.clock.lock = true → ∃ t, exec .links s = .next t ∧ if passes then
           let u := ({ s with free := s.free + 1 } : State).linksWritten
           t = { u with power := { u.power with lock := true }, boot := { u.boot with phase := 4 } }
             ∧ ∀ i k, i < 2 → k < 4096 → (t.iod i).route.get k = Config.bootRoute i k
         else safe s t)
       ∧ (s.boot.phase ≠ 3 ∨ s.clock.lock = false → exec .links s = .next s)
       ∧ (s.boot.phase ≠ 4 → exec .ready s = .next s)
       ∧ (s.boot.phase = 4 → ∃ t, exec .ready s = .next t ∧ s.sameMemory t ∧ t.boot.phase = 4
           ∧ t.boot.rollback.toNat = max s.boot.rollback.toNat s.boot.sv.toNat ∧ t.boot.full = true
           ∧ ∀ j, j < 2 → (s.link j).removed = false → (t.link j).up = true
               ∧ (t.link j).width = (if s.arg.b then min s.arg.m 4 else 4)
               ∧ (t.link j).rate = if s.arg.b then max 1 (min s.arg.k 7) else 7))
  ∧ (∀ (l : List Bool) (n last : Nat), longestRun l 0 0 0 0 = (n, last) →
       (0 < n → last < l.length ∧ n ≤ last + 1 ∧ ∀ i, i < n → l[last - i]? = some true)
       ∧ (∀ a m, (∀ i, i < m → l[a + i]? = some true) → m ≤ n ∧ (m = n → 0 < m → last ≤ a + m - 1))
       ∧ (0 < n → runMid (n, last) = ((last + 1 - n) + last) / 2))
  ∧ (∀ (s : State), ∃ t, exec .moduleReset s = .next t ∧ s.sameMemory t ∧ t.launches = [] ∧ t.nodes = [] ∧ t.clock = {} ∧ t.power = {}
       ∧ t.plans = [] ∧ t.notify = [] ∧ t.boot.phase = 0 ∧ t.boot.power = false ∧ t.boot.booted = none ∧ t.boot.logNext = 0
       ∧ t.boot.first = s.boot.first ∧ t.boot.rollback = s.boot.rollback ∧ t.boot.flashA = s.boot.flashA ∧ t.boot.flashB = s.boot.flashB
       ∧ (∀ k, t.core k = { spm := (s.core k).spm, err := (s.core k).err, stuck := (s.core k).stuck })
       ∧ t.pend = if s.boot.power then [(Instr.powerGood, {})] else [])
  ∧ ∀ (s : State),
      let n := s.arg.n
      let m := s.arg.m
      let v := s.arg.v
      let d := s.die n
      let o := m / 0x800 * 0x800
      let idle := (d.phyGet (o + 0x20)).getLsbD 63 = true
      let gets (t : State) (x : Nat) : BitVec 64 := (t.die n).phyGet x
      (∃ t, exec .patternTestGo s = .next t ∧ s.sameMemory t
        ∧ (¬ idle → gets t (o + 0x18) = (v &&& 2 ||| 1) ∧ ∀ x, x / 8 ≠ (o + 0x18) / 8 → gets t x = d.phyGet x)
        ∧ (idle → v.getLsbD 0 = false ∨ s.boot.phase = phSafe → gets t (o + 0x18) = (v &&& 2) ∧ ∀ x, x / 8 ≠ (o + 0x18) / 8 → gets t x = d.phyGet x)
        ∧ (idle → v.getLsbD 0 = true → s.boot.phase ≠ phSafe → gets t (o + 0x18) = (v &&& 3) ∧ gets t (o + 0x20) = 0
            ∧ ∀ x, x / 8 ≠ (o + 0x18) / 8 → x / 8 ≠ (o + 0x20) / 8 → gets t x = d.phyGet x))
      ∧ (idle → exec .patternTestDone s = .next s)
      ∧ (¬ idle → (∀ h ∈ d.phyHeld, h.1 % 0x800 = 0 ∨ h.1 % 0x800 = 8 ∨ h.1 % 0x800 = 0x10) →
          let ws := if s.boot.phase = phSafe then [] else Config.testWrites (o / 2 ^ 20 % 4) (o / 0x800 % 512)
          let place (w : Nat × Byte) : Loc := { mem := .hbm, unit := n, off := w.1 % 2 ^ 38 }
          ∃ t, exec .patternTestDone s = .next t ∧ t.boot.tests = s.boot.tests + 1
            ∧ (∀ l, (∀ w ∈ ws, place w ≠ l) → t.byteAt l = s.byteAt l)
            ∧ (∀ w ∈ ws, ∃ w' ∈ ws, place w' = place w ∧ t.byteAt (place w) = w'.2)
            ∧ gets t (o + 0x20) = BitVec.ofNat 64 (2 ^ 63 + (Config.patternTest s.boot.tests).toNat)
            ∧ gets t (o + 0x18) = (d.phyGet (o + 0x18) &&& 2)
            ∧ (∀ h, h ∈ (t.die n).phyHeld ↔ h ∈ d.phyHeld ∧ h.1 / 0x800 ≠ m / 0x800)
            ∧ (∀ h ∈ d.phyHeld, h.1 / 0x800 = m / 0x800 → (∀ h' ∈ d.phyHeld, h'.1 = h.1 → h' = h) → gets t h.1 = h.2))
      ∧ (∀ mask, (m % 0x800 = 0 ∨ m % 0x800 = 8) ∧ mask = 0x7F7F7F7F7F7F7F7F#64 ∨ m % 0x800 = 0x10 ∧ mask = 0x17#64 →
          ∃ t, exec .phySettingWrite s = .next t ∧ s.sameMemory t
            ∧ (idle → gets t m = (v &&& mask) ∧ ∀ x, x / 8 ≠ m / 8 → gets t x = d.phyGet x)
            ∧ (¬ idle → t.die n = { d with phyHeld := d.phyHeld ++ [(m, v &&& mask)] }))

/-! ### The mailbox and the registers -/

/-- STATUS, LOGREAD, HEALTH, ATTEST, PREGRD, PREGWR, FNRESET, FWSTAGE, MAILBOX_UNKNOWN_OP (R393, R406 to R411) and
REGISTER_WRITE (R341 to R344, R349, R353, R391, R401, R409): turn, phase, response and return code of a command; registers
that the host writes, and what its reads find.  The packing of the arguments, and reads given as REGISTER_WRITE with `b`, are
the model's choice (log entries 26 and 69). -/
def Obligations.MailboxAndRegisters : Prop :=
  let done (s t : State) (n rc : Nat) (resp : List Byte) : Prop :=
    let a := (s.link n).mail
    let b := (t.link n).mail
    b.go = false ∧ b.doneTag = a.tag ∧ b.rc = BitVec.ofNat 8 rc ∧ b.rlen = BitVec.ofNat 12 (min resp.length 0xE00)
      ∧ getBytes b.resp 0 (min resp.length 0xE00) = resp.take 0xE00 ∧ t.boot.mailq = s.boot.mailq.erase n
      ∧ ((s.link n).removed = false → (s.link n).up = true →
          ((s.link n).msix.get 0).getLsbD 96 = true → Sent.msix n 0 ∈ t.sent)
      ∧ ((s.link n).removed = false → (s.link n).up = true →
          ((s.link n).msix.get 0).getLsbD 96 = false → (t.link n).pba.getLsbD 0 = true)
  (∀ (s : State),
     let n := s.arg.n
     let x := (s.link n).mail
     let b := s.boot
     let turn (op : Nat) : Prop := s.boot.mailq.head? = some n ∧ x.go = true ∧ x.op.toNat = op
     let arg (o k : Nat) : Nat := leNat (getBytes x.args o k)
     let answers (w : Instr) (rc : Nat) (resp : List Byte) : Prop := ∃ t, exec w s = .next t ∧ s.sameMemory t ∧ done s t n rc resp
     (∀ w ∈ [(Instr.status, 1), (.logread, 2), (.health, 3), (.attest, 4), (.pregrd, 5), (.pregwr, 6), (.fnreset, 7), (.fwstage, 8)],
       (¬ turn w.2 → exec w.1 s = .next s)
       ∧ (turn w.2 → 4 ≤ w.2 → b.phase ≠ 4 → ¬ (w.2 = 8 ∧ b.phase = 0x80) → answers w.1 3 []))
     ∧ (turn 1 → ∃ r : BitVec 256, answers .status 0 (leBytes 32 r.toNat)
         ∧ r.extractLsb' 0 8 = b.phase ∧ r.extractLsb' 8 8 = b.fail ∧ r.extractLsb' 16 16 = 0#16 ∧ r.extractLsb' 32 32 = b.sv
         ∧ (∀ j, j < 2 → let l := s.link j
             (l.up = true → l.removed = false → r.toNat / 2 ^ (64 + 4 * j) % 2 ^ 4 = l.width % 16 ∧ r.toNat / 2 ^ (72 + 4 * j) % 2 ^ 4 = l.rate % 16)
             ∧ (l.up = false ∨ l.removed = true → r.toNat / 2 ^ (64 + 4 * j) % 2 ^ 4 = 0xF ∧ r.toNat / 2 ^ (72 + 4 * j) % 2 ^ 4 = 0))
         ∧ r.extractLsb' 96 32 = BitVec.ofNat 32 b.logNext ∧ r.extractLsb' 128 32 = BitVec.ofNat 32 (b.logNext - 1024)
         ∧ r.extractLsb' 160 96 = 0#96 ∧ r.extractLsb' 80 16 = 0#16)
     ∧ (turn 2 →
         let first := max (arg 0 4) (b.logNext - 1024)
         let record (m : Nat) : Loc := { mem := .spm, unit := 1536, off := Config.logSlot.toNat * 32768 + 32 * (m % 1024) }
         answers .logread 0 ((List.range (min 96 (b.logNext - first))).flatMap fun m =>
           ((record (first + m)).run 32).map s.byteAt))
     ∧ (turn 3 → (7 < arg 0 1 ∨ 11 < arg 1 1 ∨ 15 < arg 2 1 → answers .health 4 [])
         ∧ (arg 0 1 ≤ 7 → arg 1 1 ≤ 11 → arg 2 1 ≤ 15 →
             let r := arg 1 1
             let c := arg 2 1
             let k := s.core (192 * arg 0 1 + 4 * (8 * (r / 2) + c / 2) + 2 * (r % 2) + c % 2)
             k.svc < 4 → k.walk < 2 ^ 17 → (∀ f ∈ k.failed, f < 2 ^ 8) → ∃ w : BitVec 128, answers .health 0 (leBytes 16 w.toNat)
               ∧ w.extractLsb' 96 32 = k.corr ∧ w.extractLsb' 64 32 = k.mism ∧ w.extractLsb' 48 16 = k.unc
               ∧ w.toNat / 2 ^ 40 % 2 ^ 8 = k.failed.getD 0 0xFF ∧ w.toNat / 2 ^ 32 % 2 ^ 8 = k.failed.getD 1 0xFF
               ∧ w.toNat / 2 ^ 15 % 2 ^ 17 = k.walk ∧ w.toNat % 4 = k.svc))
     ∧ (turn 4 → b.phase = 4 →
         let ms := octets 32 Config.romDigest.toNat ++ b.m1 ++ b.m2
         let sv := leBytes 4 b.sv.toNat
         answers .attest 0 (ms ++ sv ++ rsaSign Config.identityModulus.toNat Config.identityExponent.toNat
           (sha256 (getBytes x.args 0 32 ++ ms ++ sv)) (octets 32 (Config.salt s.free).toNat) ++ Config.certificate))
     ∧ (turn 5 → b.phase = 4 → (arg 0 2 % 8 ≠ 0 ∨ 0x60 < arg 0 2 → answers .pregrd 4 [] )
         ∧ (arg 0 2 % 8 = 0 → arg 0 2 ≤ 0x60 → answers .pregrd 0 (leBytes 8 (s.powerRead (arg 0 2)))))
     ∧ (turn 6 → b.phase = 4 → (arg 0 2 % 8 ≠ 0 ∨ 0x60 < arg 0 2 → answers .pregwr 4 [])
         ∧ (arg 0 2 = 0x40 → s.power.lock = false → answers .pregwr 0 (leBytes 8 (arg 2 8 % 2 ^ 12))
             ∧ ∃ t, exec .pregwr s = .next t ∧ t.power = { s.power with coord := BitVec.ofNat 12 (arg 2 8) })
         ∧ (arg 0 2 = 0x40 → s.power.lock = true → answers .pregwr 0 (leBytes 8 s.power.coord.toNat)))
     ∧ (turn 7 → b.phase = 4 → answers .fnreset 0 [] ∧ ∃ t, exec .fnreset s = .next t ∧ (t.link n).frozen = false)
     ∧ (turn 8 → b.phase = 4 ∨ b.phase = 0x80 →
         let c := arg 0 4
         let second := b.booted = some false
         (2 ^ 25 < (c + 1) * 192 → answers .fwstage 4 [])
         ∧ ((c + 1) * 192 ≤ 2 ^ 25 → answers .fwstage 0 [] ∧ ∃ t, exec .fwstage s = .next t
             ∧ (t.boot.first = true ↔ second)
             ∧ (let old := if second then b.flashB else b.flashA
               let new := if second then t.boot.flashB else t.boot.flashA
               (¬ second → t.boot.flashB = b.flashB) ∧ (second → t.boot.flashA = b.flashA)
               ∧ (∀ i, i < 192 → new[192 * c + i]? = some (x.args.get (4 + i)))
               ∧ (0 < c → ∀ i, i < 192 * c → new[i]? = some (old.getD i 0)))))
     ∧ (∀ op, (op = 0 ∨ 8 < op) → turn op → answers .mailboxUnknownOp (if b.phase = 0x80 then 3 else 2) []))
  ∧ ∀ (s : State),
      let a := s.arg
      let n := a.n
      let l := s.link n
      let o := a.k
      let v := leNat a.bytes
      (a.m = 15 → ∃ t, exec .registerWrite s = .next t ∧ s.sameMemory t ∧ (t.iod n).route.get (o % 4096) = BitVec.ofNat 16 v)
      ∧ (a.m ≠ 15 → l.removed = true ∨ l.up = false → exec .registerWrite s = .next s)
      ∧ (a.m ≠ 15 → l.removed = false → l.up = true → l.frozen = true → ¬ (a.m = 0 ∧ o < 0x1000) →
          exec .registerWrite s = .next { s with sent := s.sent ++ [.completion n 4 []] })
      ∧ (a.b = true → a.m ≠ 15 → l.removed = false → l.up = true → l.frozen = false →
          let x := min a.u.toNat (8 - o % 8)
          let r := s.regRead n a.m (o / 8 * 8)
          let got := a.bytes ++ (List.range x).map fun i => BitVec.ofNat 8 (r.toNat / 2 ^ (8 * (o % 8 + i)))
          let bad := a.j ≠ 0 ∨ a.m = 2 ∧ o < 0x20000000 ∧ s.anyBad ((State.hbmLoc (Config.poolBase + o)).run x) = true
          (a.u.toNat ≤ x → exec .registerWrite s =
              .next { s with sent := s.sent ++ [.completion n (if bad then cplPoisoned else cplOk) got] })
          ∧ (x < a.u.toNat → exec .registerWrite s = .next (s.repost .registerWrite
              { a with k := o + x, u := BitVec.ofNat 64 (a.u.toNat - x), bytes := got, j := if bad then 1 else 0 })))
      -- what the registers read as
      ∧ (let r (x : Nat) : BitVec 64 := s.regRead n 0 x
         let w (x : Nat) : BitVec 64 := s.regRead n 2 x
         r 0 = ((if l.mail.go then 1#33 else 0#33) ++ 0#7 ++ l.mail.tag ++ 0#8 ++ l.mail.op).zeroExtend 64
         ∧ r 8 = 0#24 ++ s.boot.phase ++ 0#8 ++ l.mail.doneTag ++ 0#4 ++ l.mail.rlen ∧ r 0x10 = l.mail.rc.zeroExtend 64
         ∧ (∀ i, i < 32 → ∀ j, j < 8 → (r (0x100 + 8 * i)).extractLsb' (8 * j) 8 = l.mail.args.get (8 * i + j))
         ∧ (∀ i, i < 448 → ∀ j, j < 8 → (r (0x200 + 8 * i)).extractLsb' (8 * j) 8 = l.mail.resp.get (8 * i + j))
         ∧ r 0x38000 = s.clock.ctl.zeroExtend 64
         ∧ (∀ x, x < 0x20000000 → x % 8 = 0 → s.boot.phase ≠ phSafe → s.liveNode ((Config.poolBase + x) / 256 * 256) = false →
              w x = s.dword (Config.poolBase + x))
         ∧ (∀ x, x < 0x20000000 → x % 256 = 0 → s.boot.phase ≠ phSafe → s.liveNode (Config.poolBase + x) = true →
              w x = (s.dword (Config.poolBase + x) &&& ~~~ 0x010F000F#64) ∧ ∀ i, 20 ≤ i → i < 32 → w (x + 8 * i) = 0)
         ∧ (∀ k, k < 62 → w (0x24000000 + 8 * k) = s.notify.get k)
         ∧ (∀ x, 0x20800000 ≤ x → x < 0x21000000 ∨ 0x21000020 ≤ x ∧ x < 0x22000000 ∨ 0x240001F0 ≤ x → w x = 0))
      ∧ (a.b = false → a.m = 2 → l.removed = false → l.up = true → l.frozen = false → a.j ≠ 0 → o < 0x20000000 →
          exec .registerWrite s = .next (s.post .violation { viol := .hostPoison n }))
      ∧ (a.b = false → l.removed = false → l.up = true → l.frozen = false → a.j = 0 → a.bytes.length = 8 → o % 8 = 0 →
          let w := BitVec.ofNat 64 v
          -- the mailbox's control register
          (a.m = 0 → o = 0 → l.mail.go = false → ∃ t, exec .registerWrite s = .next t ∧ s.sameMemory t ∧ (t.link n).mail.go = w.getLsbD 31
            ∧ (t.link n).mail.tag = BitVec.ofNat 8 (v / 2 ^ 16) ∧ (t.link n).mail.op = BitVec.ofNat 8 v
            ∧ t.boot.mailq = s.boot.mailq ++ if w.getLsbD 31 then [n] else [])
          ∧ (a.m = 0 → o = 0 → l.mail.go = true → exec .registerWrite s = .next s)
          ∧ (a.m = 0 → 0x100 ≤ o → o < 0x200 → ∃ t, exec .registerWrite s = .next t ∧ s.sameMemory t ∧ t.boot = s.boot
              ∧ ∀ i, (t.link n).mail.args.get i =
                  if 0x100 + i < o ∨ o + 8 ≤ 0x100 + i then l.mail.args.get i else a.bytes.getD (0x100 + i - o) 0)
          -- an aperture window, the time control register
          ∧ (a.m = 0 → 0x10000 ≤ o → o < 0x10200 → ∃ t, exec .registerWrite s = .next t ∧ s.sameMemory t
              ∧ (t.link n).apwin.get ((o - 0x10000) / 8) = (w &&& 0xFE0FFFFFC0000000#64))
          ∧ (a.m = 0 → o = 0x38000 → s.power.lock = false →
              exec .registerWrite s = .next { s with clock := { s.clock with ctl := w.setWidth 28 } })
          ∧ (a.m = 0 → o = 0x38000 → s.power.lock = true → exec .registerWrite s = .next s)
          -- a block of the pool that no live node holds is plain memory; a live node keeps its read-only fields
          ∧ (a.m = 2 → o < 0x20000000 → s.boot.phase = phSafe → exec .registerWrite s = .next s)
          ∧ (a.m = 2 → o < 0x20000000 → s.boot.phase ≠ phSafe →
              let at_ := Config.poolBase + o
              let node := at_ / 256 * 256
              let k := at_ / 8 % 32
              (s.liveNode node = false → ∃ t, exec .registerWrite s = .next t ∧ t.dword at_ = w
                ∧ ∀ x, x ∉ (State.hbmLoc at_).run 8 → t.byteAt x = s.byteAt x)
              ∧ (s.liveNode node = true → at_ = node →
                  ∃ t, exec .registerWrite s = .next t ∧ t.dword at_ = ((s.dword at_ &&& 0x010FE0FF#64) ||| (w &&& ~~~ 0x010FE0FF#64))
                    ∧ (v / 2 ^ 4 % 2 ^ 4 = 3 → (Instr.preemptRequest, ({ n := node, b := true } : EvArg)) ∈ t.pend)
                    ∧ (v / 2 ^ 4 % 2 ^ 4 = 5 → (Instr.kill, ({ n := node, b := true } : EvArg)) ∈ t.pend)
                    ∧ (v / 2 ^ 4 % 2 ^ 4 = 2 → (Instr.resumeRequest, ({ n := node, b := true } : EvArg)) ∈ t.pend))
              ∧ (s.liveNode node = true → 8 ≤ k → k < 12 → s.anyBad ((State.hbmLoc at_).run 8) = false →
                  ∃ t, exec .registerWrite s = .next t ∧ t.dword at_ = w ∧ ∀ x, x ∉ (State.hbmLoc at_).run 8 → t.byteAt x = s.byteAt x)
              ∧ (s.liveNode node = true → k = 6 ∨ k = 7 ∨ 14 ≤ k →
                  ∃ t, exec .registerWrite s = .next t ∧ s.sameMemory t))
          -- the time-triggered table before READY, the import table, the notify table
          ∧ (a.m = 2 → 0x20000000 ≤ o → o < 0x20800000 → o % 0x100000 < 0x8000 → s.boot.phase ≠ phReady →
              exec .registerWrite s = .next s)
          ∧ (a.m = 2 → ∀ i k, i < 2 → k < 4096 → o = 0x22000000 + 0x1000000 * i + 0x100000 + 8 * k → (s.iod i).removed = false →
              ∃ t, exec .registerWrite s = .next t ∧ s.sameMemory t ∧ (t.iod i).import_.get k = (w &&& 0x8000FFFFFFFFFFFF#64))
          ∧ (a.m = 2 → ∀ k, k < 62 → o = 0x24000000 + 8 * k →
              let e := w &&& 0x8FFFFFFFFFFFFFFF#64
              let node := e.toNat % 2 ^ 52
              let arms := e.getLsbD 63 = true ∧ e ≠ s.notify.get k
              ∃ t, exec .registerWrite s = .next t ∧ t.notify.get k = e ∧ (∀ i, i ≠ k → t.notify.get i = s.notify.get i)
                ∧ (¬ arms → s.sameMemory t ∧ t.pend = s.pend)
                ∧ (arms → nodeBad node = true → s.boot.phase ≠ phSafe → t.nodeField Config.rootNode 14 7 0 = 3)
                ∧ (arms → nodeBad node = false → s.sameMemory t ∧ t.pend = s.pend ++
                    if s.evBit node (e.toNat / 2 ^ 52 % 2 ^ 8) then [(Instr.notifyMessage, ({ n := k } : EvArg))] else [])))
end

