-- ==== Sys2Proof/Laws/Table.lean ====
section
/-!
SUPPORT. The laws of tables and sparse arrays: what a read finds after a write, in every table, and that every operation on
a memory keeps its canonical form.
-/

namespace Sys2Proof.Machine

variable {α : Type}

/-! ### Reading after writing, whatever the order of the keys -/

@[simp] theorem tget_tput_same (d v : α) (k : Nat) (l : List (Nat × α)) : tget d (tput k v l) k = v := by
  induction l with
  | nil => simp [tput, tget]
  | cons e l ih => obtain ⟨k', v'⟩ := e; simp only [tput]; split <;> (try split) <;> simp_all [tget]

theorem tget_tput_ne (d v : α) {k n : Nat} (h : n ≠ k) (l : List (Nat × α)) : tget d (tput k v l) n = tget d l n := by
  induction l with
  | nil => simp [tput, tget, h]
  | cons e l ih => obtain ⟨k', v'⟩ := e; simp only [tput]; split <;> (try split) <;> simp_all [tget]

theorem tget_tput (d v : α) (k n : Nat) (l : List (Nat × α)) :
    tget d (tput k v l) n = if n = k then v else tget d l n := by
  by_cases h : n = k
  · subst h; simp
  · simp [tget_tput_ne d v h, h]

theorem tget_tdel (d : α) (k n : Nat) (l : List (Nat × α)) : tget d (tdel k l) n = if n = k then d else tget d l n := by
  induction l with
  | nil => simp [tdel, tget]
  | cons e l ih =>
    obtain ⟨k', v'⟩ := e
    simp only [tdel]
    by_cases h : k = k'
    · subst h; simp only [if_true, ih, tget]; split <;> rfl
    · simp only [h, if_false, tget, ih]
      by_cases h' : n = k'
      · subst h'; simp [Ne.symm h]
      · simp [h']

theorem tget_tset [DecidableEq α] (d v : α) (k n : Nat) (l : List (Nat × α)) :
    tget d (tset d k v l) n = if n = k then v else tget d l n := by
  unfold tset; split
  · next h => subst h; exact tget_tdel ..
  · exact tget_tput ..

/-- Two writes of one key are the later one. -/
theorem tput_tput (k : Nat) (v w : α) (l : List (Nat × α)) : tput k w (tput k v l) = tput k w l := by
  induction l with
  | nil => simp [tput]
  | cons e l ih =>
    obtain ⟨k', v'⟩ := e; simp only [tput]; split <;> (try split) <;> simp_all [tput]

/-! ### The canonical form -/

/-- The canonical form by heads: values that are no default, the keys of the rest above the head's. -/
theorem twf_cons [DecidableEq α] (d : α) (e : Nat × α) (l : List (Nat × α)) :
    twf d (e :: l) = true ↔ e.2 ≠ d ∧ (∀ x ∈ l, e.1 < x.1) ∧ twf d l = true := by
  induction l generalizing e with
  | nil => obtain ⟨k, v⟩ := e; simp [twf]
  | cons x l ih =>
    obtain ⟨k, v⟩ := e; obtain ⟨k', v'⟩ := x
    have := ih (k', v')
    simp only [twf, Bool.and_eq_true, decide_eq_true_eq, bne_iff_ne, this]
    constructor
    · rintro ⟨⟨h1, h2⟩, h3, h4, h5⟩
      refine ⟨h1, ?_, h3, h4, h5⟩
      intro x hx
      rcases List.mem_cons.1 hx with rfl | hx
      · exact h2
      · have := h4 x hx; omega
    · rintro ⟨h1, h2, h3, h4, h5⟩
      exact ⟨⟨h1, h2 (k', v') (by simp)⟩, h3, h4, h5⟩

theorem mem_tput {k : Nat} {v : α} {l : List (Nat × α)} {x : Nat × α} (h : x ∈ tput k v l) : x = (k, v) ∨ x ∈ l := by
  induction l with
  | nil => simpa [tput] using h
  | cons e l ih =>
    obtain ⟨k', v'⟩ := e
    simp only [tput] at h
    split at h
    · simpa using h
    · split at h
      · rcases List.mem_cons.1 h with h | h
        · exact .inl h
        · exact .inr (List.mem_cons_of_mem _ h)
      · rcases List.mem_cons.1 h with h | h
        · exact .inr (by simp [h])
        · rcases ih h with h | h
          · exact .inl h
          · exact .inr (List.mem_cons_of_mem _ h)

theorem twf_tput [DecidableEq α] {d v : α} (hv : v ≠ d) (k : Nat) {l : List (Nat × α)} (h : twf d l = true) :
    twf d (tput k v l) = true := by
  induction l with
  | nil => simp [tput, twf, hv]
  | cons e l ih =>
    obtain ⟨k', v'⟩ := e
    have ⟨h1, h2, h3⟩ := (twf_cons d (k', v') l).1 h
    simp only [tput]
    split
    · next hk =>
      rw [twf_cons]
      refine ⟨hv, ?_, h⟩
      intro x hx
      rcases List.mem_cons.1 hx with rfl | hx
      · exact hk
      · have := h2 x hx; omega
    · split
      · next hk => subst hk; rw [twf_cons]; exact ⟨hv, h2, h3⟩
      · rw [twf_cons]
        refine ⟨h1, ?_, ih h3⟩
        intro x hx
        rcases mem_tput hx with rfl | hx
        · simp only; omega
        · exact h2 x hx

/-- Taking entries out keeps the form. -/
theorem twf_filter [DecidableEq α] {d : α} (p : Nat × α → Bool) {l : List (Nat × α)} (h : twf d l = true) :
    twf d (l.filter p) = true := by
  induction l with
  | nil => simp [twf]
  | cons e l ih =>
    have ⟨h1, h2, h3⟩ := (twf_cons d e l).1 h
    by_cases hp : p e = true
    · rw [List.filter_cons_of_pos hp, twf_cons]
      exact ⟨h1, fun x hx => h2 x (List.mem_filter.1 hx).1, ih h3⟩
    · rw [List.filter_cons_of_neg hp]; exact ih h3

theorem tdel_eq_filter (k : Nat) (l : List (Nat × α)) : tdel k l = l.filter fun e => decide (e.1 ≠ k) := by
  induction l with
  | nil => rfl
  | cons e l ih =>
    obtain ⟨k', v'⟩ := e
    simp only [tdel, List.filter_cons]
    by_cases h : k = k'
    · subst h; simp [ih]
    · simp [h, Ne.symm h, ih]

theorem twf_tset [DecidableEq α] {d : α} (k : Nat) (v : α) {l : List (Nat × α)} (h : twf d l = true) :
    twf d (tset d k v l) = true := by
  unfold tset; split
  · rw [tdel_eq_filter]; exact twf_filter _ h
  · next hv => exact twf_tput hv k h

/-! ### Memories -/

theorem Memory.wf_nil : Memory.wf [] = true := rfl

theorem Memory.wf_set {m : Store 8} (h : Memory.wf m = true) (k : Nat) (b : Byte) : Memory.wf (Store.set m k b) = true :=
  twf_tset k b h

theorem Memory.wf_setBytes (bs : List Byte) {m : Store 8} (h : Memory.wf m = true) (off : Nat) :
    Memory.wf (setBytes m off bs) = true := by
  induction bs generalizing m off with
  | nil => exact h
  | cons b bs ih => exact ih (wf_set h off b) _

theorem Memory.wf_filter (p : Nat × BitVec 8 → Bool) {m : Store 8} (h : Memory.wf m = true) :
    Memory.wf (m.filter p) = true := twf_filter p h

theorem Memory.wf_clearRange {m : Store 8} (h : Memory.wf m = true) (off n : Nat) : Memory.wf (clearRange m off n) = true :=
  wf_filter _ h

/-- Writing the entries of a list one by one keeps the form. -/
theorem Memory.wf_foldr_set (f : Nat → Nat) (l : List (Nat × BitVec 8)) {m : Store 8} (h : Memory.wf m = true) :
    Memory.wf (l.foldr (fun e m => Store.set m (f e.1) e.2) m) = true := by
  induction l with
  | nil => exact h
  | cons e l ih => exact wf_set ih _ _

theorem Memory.wf_copyRange (src : Store 8) (so n : Nat) {dst : Store 8} (h : Memory.wf dst = true) (d : Nat) :
    Memory.wf (copyRange src so n dst d) = true := wf_foldr_set (fun k => k - so + d) _ (wf_clearRange h d n)

theorem Store.get_set {w : Nat} (m : Store w) (k n : Nat) (v : BitVec w) :
    Store.get (Store.set m k v) n = if n = k then v else Store.get m n := tget_tset 0 v k n m

end Sys2Proof.Machine
end

