-- ==== Sys2Proof/Laws/Memory.lean ====
section
/-!
SUPPORT. Bytes and memories of the module: numbers as bytes, what a byte reads as after a write, and that writes leave every
memory in its canonical form.
-/

namespace Sys2Proof.Machine

/-! ### Numbers as bytes (R5) -/

theorem leBytes_length (n v : Nat) : (leBytes n v).length = n := by
  induction n generalizing v with
  | zero => rfl
  | succ n ih => simp [leBytes, ih]

/-- A number of `n` bytes is the number of its bytes. -/
theorem leNat_leBytes (n v : Nat) : leNat (leBytes n v) = v % 256 ^ n := by
  induction n generalizing v with
  | zero => simp [leBytes, leNat, Nat.mod_one]
  | succ n ih =>
    simp only [leBytes, leNat, ih, BitVec.toNat_ofNat, Nat.reducePow]
    rw [Nat.pow_succ', Nat.mod_mul]

theorem leNat_lt (bs : List Byte) : leNat bs < 256 ^ bs.length := by
  induction bs with
  | nil => simp [leNat]
  | cons b bs ih =>
    have := b.isLt
    simp only [leNat, List.length_cons, Nat.pow_succ']
    omega

/-! ### Tables of cores and dies -/

theorem all_tput {α : Type} {p : Nat × α → Bool} {k : Nat} {v : α} {l : List (Nat × α)} (h : l.all p = true)
    (hv : p (k, v) = true) : (tput k v l).all p = true := by
  rw [List.all_eq_true] at *
  intro x hx
  rcases mem_tput hx with rfl | hx
  · exact hv
  · exact h x hx

theorem tget_mem {α : Type} (d : α) (l : List (Nat × α)) (k : Nat) : tget d l k = d ∨ ∃ x ∈ l, x.2 = tget d l k := by
  induction l with
  | nil => exact .inl rfl
  | cons e l ih =>
    obtain ⟨k', v⟩ := e
    simp only [tget]
    split
    · exact .inr ⟨(k', v), by simp, rfl⟩
    · rcases ih with h | ⟨x, hx, h⟩
      · exact .inl h
      · exact .inr ⟨x, List.mem_cons_of_mem _ hx, h⟩

namespace State

@[simp] theorem core_setCore (s : State) (n m : Nat) (c : Core) :
    (s.setCore n c).core m = if m = n then c else s.core m := tget_tput ..

@[simp] theorem die_setDie (s : State) (n m : Nat) (d : Die) : (s.setDie n d).die m = if m = n then d else s.die m :=
  tget_tput ..

@[simp] theorem iod_setIod (s : State) (n m : Nat) (d : Iod) : (s.setIod n d).iod m = if m = n then d else s.iod m :=
  tget_tput ..

@[simp] theorem link_setLink (s : State) (n m : Nat) (l : Link) : (s.setLink n l).link m = if m = n then l else s.link m :=
  tget_tput ..

@[simp] theorem core_setDie (s : State) (n m : Nat) (d : Die) : (s.setDie n d).core m = s.core m := rfl
@[simp] theorem die_setCore (s : State) (n m : Nat) (c : Core) : (s.setCore n c).die m = s.die m := rfl
@[simp] theorem me_setMe (s : State) (k : Core) : (s.setMe k).me = k := by simp [setMe, me, setCore, core]
@[simp] theorem ctx_setCtx (s : State) (c : Ctx) : (s.setCtx c).ctx = c := by simp [setCtx, ctx]

/-! ### The canonical form of the module's memories (R256) -/

theorem memWf_iff (s : State) : s.memWf = true ↔ Memory.wf s.host = true ∧ Memory.wf s.cxl = true
    ∧ (s.cores.all fun e => e.2.memWf) = true ∧ (s.diesT.all fun e => e.2.memWf) = true := by
  simp [memWf, and_assoc]

theorem core_memWf {s : State} (h : s.memWf = true) (n : Nat) : Memory.wf (s.core n).spm = true := by
  rcases tget_mem {} s.cores n with e | ⟨x, hx, e⟩
  · rw [core, e]; rfl
  · have := List.all_eq_true.1 ((memWf_iff s).1 h).2.2.1 x hx
    rw [core, ← e]; exact this

theorem die_memWf {s : State} (h : s.memWf = true) (n : Nat) :
    Memory.wf (s.die n).pan = true ∧ Memory.wf (s.die n).hbm = true := by
  rcases tget_mem {} s.diesT n with e | ⟨x, hx, e⟩
  · rw [die, e]; exact ⟨rfl, rfl⟩
  · have := List.all_eq_true.1 ((memWf_iff s).1 h).2.2.2 x hx
    rw [die, ← e]; simpa [Die.memWf] using this

theorem memWf_setCore {s : State} (h : s.memWf = true) (n : Nat) {c : Core} (hc : Memory.wf c.spm = true) :
    (s.setCore n c).memWf = true := by
  rw [memWf_iff] at *
  exact ⟨h.1, h.2.1, all_tput h.2.2.1 hc, h.2.2.2⟩

theorem memWf_setDie {s : State} (h : s.memWf = true) (n : Nat) {d : Die} (hp : Memory.wf d.pan = true)
    (hh : Memory.wf d.hbm = true) : (s.setDie n d).memWf = true := by
  rw [memWf_iff] at *
  exact ⟨h.1, h.2.1, h.2.2.1, all_tput h.2.2.2 (by simp [Die.memWf, hp, hh])⟩

theorem memWf_setMemory {s : State} (h : s.memWf = true) (m : Mem) (u : Nat) {v : Store 8} (hv : Memory.wf v = true) :
    (s.setMemory m u v).memWf = true := by
  cases m with
  | spm => exact memWf_setCore h u hv
  | pantry => exact memWf_setDie h u hv (die_memWf h u).2
  | hbm => exact memWf_setDie h u (die_memWf h u).1 hv
  | host => rw [memWf_iff] at *; exact ⟨hv, h.2⟩
  | cxl => rw [memWf_iff] at *; exact ⟨h.1, hv, h.2.2⟩
  | phy => exact h

theorem memory_wf {s : State} (h : s.memWf = true) (m : Mem) (u : Nat) : Memory.wf (s.memory m u) = true := by
  cases m with
  | spm => exact core_memWf h u
  | pantry => exact (die_memWf h u).1
  | hbm => exact (die_memWf h u).2
  | host => exact ((memWf_iff s).1 h).1
  | cxl => exact ((memWf_iff s).1 h).2.1
  | phy => rfl

/-- The write of a byte keeps the form. -/
theorem memWf_setByte {s : State} (h : s.memWf = true) (l : Loc) (b : Byte) : (s.setByte l b).memWf = true := by
  have h1 := memWf_setMemory h l.mem l.unit (Memory.wf_set (memory_wf h l.mem l.unit) l.off b)
  unfold setByte
  generalize s.setMemory l.mem l.unit (Store.set (s.memory l.mem l.unit) l.off b) = t at h1
  cases hm : l.mem with
  | spm =>
    dsimp only
    split
    · exact h1
    · exact memWf_setCore h1 _ (core_memWf h1 _)
  | pantry =>
    dsimp only
    split
    · exact h1
    · exact memWf_setDie h1 _ (die_memWf h1 _).1 (die_memWf h1 _).2
  | hbm =>
    dsimp only
    split
    · exact h1
    · exact memWf_setDie h1 _ (die_memWf h1 _).1 (die_memWf h1 _).2
  | host => exact h1
  | cxl =>
    dsimp only
    split
    · exact h1
    · rw [memWf_iff] at *; exact h1
  | phy => exact h1

theorem memWf_putBytes {s : State} (h : s.memWf = true) (ls : List Loc) (bs : List Byte) :
    (s.putBytes ls bs).memWf = true := by
  induction ls generalizing s bs with
  | nil => cases bs <;> exact h
  | cons l ls ih =>
    cases bs with
    | nil => exact h
    | cons b bs => exact ih (memWf_setByte h l b) bs

/-- The end of the errors of a unit keeps the form. -/
theorem memWf_freshUnit {s : State} (h : s.memWf = true) (l : Loc) : (s.freshUnit l).memWf = true := by
  unfold freshUnit
  cases l.mem with
  | spm => exact memWf_setCore h _ (core_memWf h _)
  | pantry => exact memWf_setDie h _ (die_memWf h _).1 (die_memWf h _).2
  | hbm => exact memWf_setDie h _ (die_memWf h _).1 (die_memWf h _).2
  | host => exact h
  | cxl => exact h
  | phy => exact h

theorem memWf_fresh {s : State} (h : s.memWf = true) (ls : List Loc) : (s.fresh ls).memWf = true := by
  unfold fresh
  split
  · exact h
  · next hs =>
    clear hs
    generalize (ls.filter fun l => l.off % 32 = 0 && (l.run 32).all ls.contains) = us
    induction us generalizing s with
    | nil => exact h
    | cons u us ih =>
      rw [List.foldl_cons]
      refine ih ?_
      have := memWf_freshUnit h u
      rw [memWf_iff] at this ⊢
      exact this

theorem memWf_post {s : State} (h : s.memWf = true) (i : Instr) (a : EvArg) : (s.post i a).memWf = true := h

/-- The write of bytes keeps the form. -/
theorem memWf_writeAt {s : State} (h : s.memWf = true) (ls : List Loc) (bs : List Byte) : (s.writeAt ls bs).memWf = true := by
  cases ls with
  | nil => exact h
  | cons l ls =>
    have fold (ws : List (Nat × Nat)) (f : State → Nat × Nat → EvArg) : ∀ t : State, t.memWf = true →
        (ws.foldl (fun t w => t.post .triggerWrite (f t w)) t).memWf = true := by
      induction ws with
      | nil => intro t ht; exact ht
      | cons w ws ih => intro t ht; exact ih _ (memWf_post ht _ _)
    simp only [writeAt]
    split
    · exact h
    · split
      · exact memWf_post h _ _
      · exact fold _ _ _ (memWf_putBytes (memWf_fresh h _) _ _)

theorem memWf_setDword {s : State} (h : s.memWf = true) (a : Nat) (v : BitVec 64) : (s.setDword a v).memWf = true :=
  memWf_writeAt h _ _

theorem memWf_setField {s : State} (h : s.memWf = true) (a hi lo v : Nat) : (s.setField a hi lo v).memWf = true :=
  memWf_setDword h _ _

/-- The form at reset. -/
theorem memWf_reset : State.reset.memWf = true := by decide

end State

end Sys2Proof.Machine
end

