-- ==== Sys2Proof/Laws/Bytes.lean ====
section
/-!
SUPPORT. What a byte reads as after a write: the value written at its place, what it was at every other place (R5, R256,
R266); the laws of `setMemory`, `setByte`, `putBytes`, `writeAt` and `setDword`.
-/

namespace Sys2Proof

theorem Loc.same_refl (l : Loc) : l.same l := ⟨rfl, rfl, .inl rfl⟩

theorem Loc.same_symm {k l : Loc} (h : k.same l) : l.same k :=
  ⟨h.1.symm, h.2.1.symm, h.2.2.imp Eq.symm fun x => x.imp (h.1 ▸ ·) (h.1 ▸ ·)⟩

theorem Loc.apart_cons {l k : Loc} {ls : List Loc} : l.apart (k :: ls) ↔ ¬ k.same l ∧ l.apart ls := by simp [Loc.apart]

theorem Loc.distinct_cons {k : Loc} {ls : List Loc} : Loc.distinct (k :: ls) ↔ (∀ l ∈ ls, ¬ k.same l) ∧ Loc.distinct ls := by
  simp [Loc.distinct]

theorem Loc.run_length (l : Loc) (n : Nat) : (l.run n).length = n := by
  induction n generalizing l with
  | zero => rfl
  | succ n ih => simp [Loc.run, ih]

theorem Loc.mem_run {k l : Loc} {n : Nat} : k ∈ l.run n ↔ k.mem = l.mem ∧ k.unit = l.unit ∧ l.off ≤ k.off ∧ k.off < l.off + n := by
  induction n generalizing l with
  | zero => simp [Loc.run]
  | succ n ih =>
    simp only [Loc.run, List.mem_cons, ih]
    constructor
    · rintro (rfl | ⟨a, b, c, d⟩)
      · exact ⟨rfl, rfl, by omega, by omega⟩
      · exact ⟨a, b, by omega, by omega⟩
    · rintro ⟨a, b, c, d⟩
      by_cases h : k.off = l.off
      · left; cases k; cases l; simp_all
      · right; exact ⟨a, b, by omega, by omega⟩

/-- Consecutive places are distinct. -/
theorem Loc.distinct_run (l : Loc) (n : Nat) : Loc.distinct (l.run n) := by
  induction n generalizing l with
  | zero => simp [Loc.run, Loc.distinct]
  | succ n ih =>
    refine Loc.distinct_cons.2 ⟨fun k hk h => ?_, ih _⟩
    have := (Loc.mem_run.1 hk).2.2.1
    have := h.2.1
    simp at *; omega

end Sys2Proof

namespace Sys2Proof.Machine

namespace State

theorem byteAt_setMemory (s : State) (m : Mem) (u : Nat) (v : Store 8) (l : Loc) : (s.setMemory m u v).byteAt l =
    if m ≠ .phy ∧ l.mem = m ∧ (u = l.unit ∨ m = .host ∨ m = .cxl) then Store.get v l.off else s.byteAt l := by
  obtain ⟨lm, lu, lo⟩ := l
  cases m <;> cases lm <;>
    simp [byteAt, memory, setMemory, onCore, onDie, core_setCore, die_setDie, eq_comm] <;>
    first | rfl | (split <;> simp_all) | skip

/-- A write of check symbols, marks and counters changes no memory. -/
theorem byteAt_setByte (s : State) (l : Loc) (b : Byte) (k : Loc) :
    (s.setByte l b).byteAt k = (s.setMemory l.mem l.unit (Store.set (s.memory l.mem l.unit) l.off b)).byteAt k := by
  unfold setByte
  generalize s.setMemory l.mem l.unit (Store.set (s.memory l.mem l.unit) l.off b) = t
  obtain ⟨km, ku, ko⟩ := k
  cases l.mem <;> dsimp only <;> (repeat' split) <;>
    cases km <;> simp [byteAt, memory, core_setCore, die_setDie] <;> first | rfl | (split <;> simp_all)

theorem byteAt_setByte_same (s : State) {l k : Loc} (b : Byte) (h : l.same k) (hp : l.mem ≠ .phy) :
    (s.setByte l b).byteAt k = b := by
  rw [byteAt_setByte, byteAt_setMemory, if_pos ⟨hp, h.1.symm, h.2.2⟩, Store.get_set, if_pos h.2.1.symm]

theorem byteAt_setByte_ne (s : State) {l k : Loc} (b : Byte) (h : ¬ l.same k) : (s.setByte l b).byteAt k = s.byteAt k := by
  rw [byteAt_setByte, byteAt_setMemory]
  split
  · next hc =>
    rw [Store.get_set, if_neg fun e => h ⟨hc.2.1.symm, e.symm, hc.2.2⟩, byteAt, hc.2.1]
    rcases hc.2.2 with e | e | e
    · rw [e]
    · simp [e, memory]
    · simp [e, memory]
  · rfl

theorem byteAt_putBytes_apart (s : State) {k : Loc} (ls : List Loc) (bs : List Byte) (h : k.apart ls) :
    (s.putBytes ls bs).byteAt k = s.byteAt k := by
  induction ls generalizing s bs with
  | nil => cases bs <;> rfl
  | cons l ls ih =>
    cases bs with
    | nil => rfl
    | cons b bs => rw [putBytes, ih _ _ (Loc.apart_cons.1 h).2, byteAt_setByte_ne _ _ (Loc.apart_cons.1 h).1]

theorem bytesAt_putBytes (s : State) (ls : List Loc) (bs : List Byte) (h : Loc.distinct ls) (hp : ∀ l ∈ ls, l.mem ≠ .phy)
    (hn : ls.length = bs.length) : (s.putBytes ls bs).bytesAt ls = bs := by
  induction ls generalizing s bs with
  | nil => cases bs <;> simp_all [bytesAt]
  | cons l ls ih =>
    cases bs with
    | nil => simp at hn
    | cons b bs =>
      have hd := Loc.distinct_cons.1 h
      have hl : l.apart ls := fun k hk e => hd.1 k hk (Loc.same_symm e)
      have := ih (s.setByte l b) bs hd.2 (fun k hk => hp k (by simp [hk])) (by simpa using hn)
      simp only [bytesAt, putBytes, List.map_cons] at *
      rw [this, byteAt_putBytes_apart _ _ _ hl, byteAt_setByte_same _ _ (Loc.same_refl l) (hp l (by simp))]

@[simp] theorem byteAt_post (s : State) (i : Instr) (a : EvArg) (l : Loc) : (s.post i a).byteAt l = s.byteAt l := rfl

@[simp] theorem byteAt_repost (s : State) (i : Instr) (a : EvArg) (l : Loc) : (s.repost i a).byteAt l = s.byteAt l := rfl

theorem byteAt_foldl_post {α : Type} (ws : List α) (i : Instr) (f : State → α → EvArg) (s : State) (l : Loc) :
    (ws.foldl (fun t w => t.post i (f t w)) s).byteAt l = s.byteAt l := by
  induction ws generalizing s with
  | nil => rfl
  | cons w ws ih => exact ih _

theorem byteAt_freshUnit (s : State) (l k : Loc) : (s.freshUnit l).byteAt k = s.byteAt k := by
  obtain ⟨km, ku, ko⟩ := k
  unfold freshUnit
  cases l.mem <;> dsimp only <;> cases km <;>
    simp [byteAt, memory, onCore, onDie, core_setCore, die_setDie] <;> first | rfl | (split <;> simp_all)

/-- The end of a unit's errors changes no byte. -/
theorem byteAt_fresh (s : State) (ls : List Loc) (k : Loc) : (s.fresh ls).byteAt k = s.byteAt k := by
  unfold fresh
  split
  · rfl
  · next hs =>
    clear hs
    generalize (ls.filter fun l => l.off % 32 = 0 && (l.run 32).all ls.contains) = us
    induction us generalizing s with
    | nil => rfl
    | cons u us ih =>
      rw [List.foldl_cons, ih]
      exact byteAt_freshUnit s u k

/-- What each byte of a written list reads as does not depend on the marks of the units. -/
theorem byteAt_putBytes_congr {s t : State} (h : ∀ k, s.byteAt k = t.byteAt k) (ls : List Loc) (bs : List Byte) (k : Loc) :
    (s.putBytes ls bs).byteAt k = (t.putBytes ls bs).byteAt k := by
  induction ls generalizing s t bs with
  | nil => cases bs <;> exact h k
  | cons l ls ih =>
    cases bs with
    | nil => exact h k
    | cons b bs =>
      refine ih (fun j => ?_) bs
      by_cases hj : l.same j
      · by_cases hp : l.mem = .phy
        · rw [byteAt_setByte, byteAt_setByte, byteAt_setMemory, byteAt_setMemory]
          simp only [hp, ne_eq, not_true, false_and, if_false]
          exact h j
        · rw [byteAt_setByte_same _ _ hj hp, byteAt_setByte_same _ _ hj hp]
      · rw [byteAt_setByte_ne _ _ hj, byteAt_setByte_ne _ _ hj, h]

/-- A write outside a region-node window, and outside HBM while the module is in SAFE, writes its bytes; what it causes waits
among the events. -/
theorem byteAt_writeAt (s : State) (l k : Loc) (ls : List Loc) (bs : List Byte)
    (h : s.inWindow l = false ∧ s.hbmHeld l = false) :
    (s.writeAt (l :: ls) bs).byteAt k = (s.putBytes (l :: ls) bs).byteAt k := by
  simp only [writeAt, h, Bool.false_eq_true, if_false]
  exact (byteAt_foldl_post _ _ _ _ _).trans (byteAt_putBytes_congr (byteAt_fresh s _) _ _ _)

/-- A write leaves every byte apart from its places as it was. -/
theorem byteAt_writeAt_apart (s : State) {k : Loc} (ls : List Loc) (bs : List Byte) (h : k.apart ls) :
    (s.writeAt ls bs).byteAt k = s.byteAt k := by
  cases ls with
  | nil => rfl
  | cons l ls =>
    cases hh : s.hbmHeld l with
    | true => simp [writeAt, hh]
    | false =>
      cases hw : s.inWindow l with
      | true => simp [writeAt, hw, hh]
      | false => rw [byteAt_writeAt _ _ _ _ _ ⟨hw, hh⟩, byteAt_putBytes_apart _ _ _ h]

/-- A write outside a region-node window, and outside HBM while the module is in SAFE, is read back. -/
theorem bytesAt_writeAt (s : State) (ls : List Loc) (bs : List Byte) (h : Loc.distinct ls)
    (hp : ∀ l ∈ ls, l.mem ≠ .phy ∧ s.inWindow l = false ∧ s.hbmHeld l = false) (hn : ls.length = bs.length) : (s.writeAt ls bs).bytesAt ls = bs := by
  cases ls with
  | nil => cases bs <;> simp_all [bytesAt]
  | cons l ls =>
    rw [bytesAt, List.map_congr_left fun k _ => byteAt_writeAt s l k ls bs (hp l (by simp)).2]
    exact bytesAt_putBytes _ _ _ h (fun k hk => (hp k hk).1) hn

theorem natAt_setDword (s : State) (a : Nat) (v : BitVec 64) (hs : s.boot.phase ≠ 0x80) : (s.setDword a v).natAt ((hbmLoc a).run 8) = v.toNat := by
  have hp : s.boot.phase ≠ 128#8 := hs
  have h := bytesAt_writeAt s ((hbmLoc a).run 8) (leBytes 8 v.toNat) (Loc.distinct_run _ _)
    (fun l hl => by
      have := (Loc.mem_run.1 hl).1
      simp [hbmLoc] at this
      simp [this, inWindow, hbmHeld, hp])
    (by rw [Loc.run_length, leBytes_length])
  rw [natAt, setDword, h, leNat_leBytes]
  exact Nat.mod_eq_of_lt (by simpa using v.isLt)

/-- A dword of HBM reads as it was written. -/
theorem dword_setDword (s : State) (a : Nat) (v : BitVec 64) (hs : s.boot.phase ≠ 0x80) : (s.setDword a v).dword a = v := by
  rw [dword, natAt_setDword _ _ _ hs]; simp

/-! ### What a read leaves behind (R390, R391) -/

/-- A read of nothing leaves the state as it was. -/
@[simp] theorem touch_nil (s : State) : s.touch [] = s := by
  unfold touch
  split
  · rfl
  · have : s.glitch.filter (fun _ => true) = s.glitch := List.filter_eq_self.2 fun _ _ => rfl
    simp [rowsOf, this]

/-- Where no row is in error and no read fails once, a read leaves nothing behind. -/
theorem touch_sound {s : State} (h : (s.cores.all fun p => p.2.err.isEmpty) = true ∧ s.glitch = []) (ls : List Loc) :
    s.touch ls = s := by
  simp only [touch, h.1, h.2, List.isEmpty_nil, Bool.and_self, if_true]

/-- A read changes no byte and no context: what it counts stands in the cores' records. -/
theorem touchRow_keeps (s : State) (u r : Nat) :
    (∀ k, (s.touchRow u r).byteAt k = s.byteAt k) ∧ (∀ n, ((s.touchRow u r).core n).ctx = (s.core n).ctx)
      ∧ (s.touchRow u r).focus = s.focus := by
  have key : ∀ x : Core, x.spm = (s.core u).spm → x.ctx = (s.core u).ctx →
      (∀ k, (s.setCore u x).byteAt k = s.byteAt k) ∧ (∀ n, ((s.setCore u x).core n).ctx = (s.core n).ctx)
        ∧ (s.setCore u x).focus = s.focus := by
    intro x h1 h2
    refine ⟨fun k => ?_, fun n => ?_, rfl⟩
    · obtain ⟨m, v, o⟩ := k
      cases m <;> simp only [byteAt, memory, core_setCore] <;> try rfl
      split
      · next e => subst e; rw [h1]
      · rfl
    · rw [core_setCore]; split
      · next e => subst e; rw [h2]
      · rfl
  unfold touchRow
  dsimp only
  split
  · exact ⟨fun _ => rfl, fun _ => rfl, rfl⟩
  · split <;> exact key _ rfl rfl

theorem touch_keeps (s : State) (ls : List Loc) :
    (∀ k, (s.touch ls).byteAt k = s.byteAt k) ∧ (∀ n, ((s.touch ls).core n).ctx = (s.core n).ctx)
      ∧ (s.touch ls).focus = s.focus := by
  have fold : ∀ (us : List (Nat × Nat)) (t : State),
      (∀ k, (us.foldl (fun s p => s.touchRow p.1 p.2) t).byteAt k = t.byteAt k)
        ∧ (∀ n, ((us.foldl (fun s p => s.touchRow p.1 p.2) t).core n).ctx = (t.core n).ctx)
        ∧ (us.foldl (fun s p => s.touchRow p.1 p.2) t).focus = t.focus := by
    intro us
    induction us with
    | nil => exact fun t => ⟨fun _ => rfl, fun _ => rfl, rfl⟩
    | cons u us ih =>
      intro t
      have h := touchRow_keeps t u.1 u.2
      have g := ih (t.touchRow u.1 u.2)
      exact ⟨fun k => (g.1 k).trans (h.1 k), fun n => (g.2.1 n).trans (h.2.1 n), g.2.2.trans h.2.2⟩
  unfold touch
  split
  · exact ⟨fun _ => rfl, fun _ => rfl, rfl⟩
  · exact fold (rowsOf ls) s

@[simp] theorem byteAt_touch (s : State) (ls : List Loc) (k : Loc) : (s.touch ls).byteAt k = s.byteAt k :=
  (touch_keeps s ls).1 k

@[simp] theorem focus_touch (s : State) (ls : List Loc) : (s.touch ls).focus = s.focus := (touch_keeps s ls).2.2

@[simp] theorem ctx_touch (s : State) (ls : List Loc) : (s.touch ls).ctx = s.ctx := by
  rw [ctx, me, focus_touch]; exact (touch_keeps s ls).2.1 _

end State

end Sys2Proof.Machine
end

