-- ==== Sys2Proof/Laws/State.lean ====
section
/-!
SUPPORT. The fields of the state after each of its updates: every field but the one that the update is about stays.
-/

namespace Sys2Proof.Machine.State

/-! ### `setCore` -/

@[simp] theorem setCore_ref (s : State) (n : Nat) (c : Core) : (s.setCore n c).ref = s.ref := rfl
@[simp] theorem setCore_turn (s : State) (n : Nat) (c : Core) : (s.setCore n c).turn = s.turn := rfl
@[simp] theorem setCore_free (s : State) (n : Nat) (c : Core) : (s.setCore n c).free = s.free := rfl
@[simp] theorem setCore_focus (s : State) (n : Nat) (c : Core) : (s.setCore n c).focus = s.focus := rfl
@[simp] theorem setCore_sfocus (s : State) (n : Nat) (c : Core) : (s.setCore n c).sfocus = s.sfocus := rfl
@[simp] theorem setCore_arg (s : State) (n : Nat) (c : Core) : (s.setCore n c).arg = s.arg := rfl
@[simp] theorem setCore_diesT (s : State) (n : Nat) (c : Core) : (s.setCore n c).diesT = s.diesT := rfl
@[simp] theorem setCore_iods (s : State) (n : Nat) (c : Core) : (s.setCore n c).iods = s.iods := rfl
@[simp] theorem setCore_links (s : State) (n : Nat) (c : Core) : (s.setCore n c).links = s.links := rfl
@[simp] theorem setCore_host (s : State) (n : Nat) (c : Core) : (s.setCore n c).host = s.host := rfl
@[simp] theorem setCore_cxl (s : State) (n : Nat) (c : Core) : (s.setCore n c).cxl = s.cxl := rfl
@[simp] theorem setCore_cxlBad (s : State) (n : Nat) (c : Core) : (s.setCore n c).cxlBad = s.cxlBad := rfl
@[simp] theorem setCore_glitch (s : State) (n : Nat) (c : Core) : (s.setCore n c).glitch = s.glitch := rfl
@[simp] theorem setCore_launches (s : State) (n : Nat) (c : Core) : (s.setCore n c).launches = s.launches := rfl
@[simp] theorem setCore_nodes (s : State) (n : Nat) (c : Core) : (s.setCore n c).nodes = s.nodes := rfl
@[simp] theorem setCore_startedSeq (s : State) (n : Nat) (c : Core) : (s.setCore n c).startedSeq = s.startedSeq := rfl
@[simp] theorem setCore_ended (s : State) (n : Nat) (c : Core) : (s.setCore n c).ended = s.ended := rfl
@[simp] theorem setCore_planAt (s : State) (n : Nat) (c : Core) : (s.setCore n c).planAt = s.planAt := rfl
@[simp] theorem setCore_genNext (s : State) (n : Nat) (c : Core) : (s.setCore n c).genNext = s.genNext := rfl
@[simp] theorem setCore_pairs (s : State) (n : Nat) (c : Core) : (s.setCore n c).pairs = s.pairs := rfl
@[simp] theorem setCore_retired (s : State) (n : Nat) (c : Core) : (s.setCore n c).retired = s.retired := rfl
@[simp] theorem setCore_kills (s : State) (n : Nat) (c : Core) : (s.setCore n c).kills = s.kills := rfl
@[simp] theorem setCore_invBase (s : State) (n : Nat) (c : Core) : (s.setCore n c).invBase = s.invBase := rfl
@[simp] theorem setCore_invLen (s : State) (n : Nat) (c : Core) : (s.setCore n c).invLen = s.invLen := rfl
@[simp] theorem setCore_invAsid (s : State) (n : Nat) (c : Core) : (s.setCore n c).invAsid = s.invAsid := rfl
@[simp] theorem setCore_invGo (s : State) (n : Nat) (c : Core) : (s.setCore n c).invGo = s.invGo := rfl
@[simp] theorem setCore_notify (s : State) (n : Nat) (c : Core) : (s.setCore n c).notify = s.notify := rfl
@[simp] theorem setCore_plans (s : State) (n : Nat) (c : Core) : (s.setCore n c).plans = s.plans := rfl
@[simp] theorem setCore_trigs (s : State) (n : Nat) (c : Core) : (s.setCore n c).trigs = s.trigs := rfl
@[simp] theorem setCore_iters (s : State) (n : Nat) (c : Core) : (s.setCore n c).iters = s.iters := rfl
@[simp] theorem setCore_chunks (s : State) (n : Nat) (c : Core) : (s.setCore n c).chunks = s.chunks := rfl
@[simp] theorem setCore_clock (s : State) (n : Nat) (c : Core) : (s.setCore n c).clock = s.clock := rfl
@[simp] theorem setCore_power (s : State) (n : Nat) (c : Core) : (s.setCore n c).power = s.power := rfl
@[simp] theorem setCore_boot (s : State) (n : Nat) (c : Core) : (s.setCore n c).boot = s.boot := rfl
@[simp] theorem setCore_inputs (s : State) (n : Nat) (c : Core) : (s.setCore n c).inputs = s.inputs := rfl
@[simp] theorem setCore_pend (s : State) (n : Nat) (c : Core) : (s.setCore n c).pend = s.pend := rfl
@[simp] theorem setCore_sent (s : State) (n : Nat) (c : Core) : (s.setCore n c).sent = s.sent := rfl

/-! ### `setDie` -/

@[simp] theorem setDie_ref (s : State) (n : Nat) (d : Die) : (s.setDie n d).ref = s.ref := rfl
@[simp] theorem setDie_turn (s : State) (n : Nat) (d : Die) : (s.setDie n d).turn = s.turn := rfl
@[simp] theorem setDie_free (s : State) (n : Nat) (d : Die) : (s.setDie n d).free = s.free := rfl
@[simp] theorem setDie_focus (s : State) (n : Nat) (d : Die) : (s.setDie n d).focus = s.focus := rfl
@[simp] theorem setDie_sfocus (s : State) (n : Nat) (d : Die) : (s.setDie n d).sfocus = s.sfocus := rfl
@[simp] theorem setDie_arg (s : State) (n : Nat) (d : Die) : (s.setDie n d).arg = s.arg := rfl
@[simp] theorem setDie_cores (s : State) (n : Nat) (d : Die) : (s.setDie n d).cores = s.cores := rfl
@[simp] theorem setDie_iods (s : State) (n : Nat) (d : Die) : (s.setDie n d).iods = s.iods := rfl
@[simp] theorem setDie_links (s : State) (n : Nat) (d : Die) : (s.setDie n d).links = s.links := rfl
@[simp] theorem setDie_host (s : State) (n : Nat) (d : Die) : (s.setDie n d).host = s.host := rfl
@[simp] theorem setDie_cxl (s : State) (n : Nat) (d : Die) : (s.setDie n d).cxl = s.cxl := rfl
@[simp] theorem setDie_cxlBad (s : State) (n : Nat) (d : Die) : (s.setDie n d).cxlBad = s.cxlBad := rfl
@[simp] theorem setDie_glitch (s : State) (n : Nat) (d : Die) : (s.setDie n d).glitch = s.glitch := rfl
@[simp] theorem setDie_launches (s : State) (n : Nat) (d : Die) : (s.setDie n d).launches = s.launches := rfl
@[simp] theorem setDie_nodes (s : State) (n : Nat) (d : Die) : (s.setDie n d).nodes = s.nodes := rfl
@[simp] theorem setDie_startedSeq (s : State) (n : Nat) (d : Die) : (s.setDie n d).startedSeq = s.startedSeq := rfl
@[simp] theorem setDie_ended (s : State) (n : Nat) (d : Die) : (s.setDie n d).ended = s.ended := rfl
@[simp] theorem setDie_planAt (s : State) (n : Nat) (d : Die) : (s.setDie n d).planAt = s.planAt := rfl
@[simp] theorem setDie_genNext (s : State) (n : Nat) (d : Die) : (s.setDie n d).genNext = s.genNext := rfl
@[simp] theorem setDie_pairs (s : State) (n : Nat) (d : Die) : (s.setDie n d).pairs = s.pairs := rfl
@[simp] theorem setDie_retired (s : State) (n : Nat) (d : Die) : (s.setDie n d).retired = s.retired := rfl
@[simp] theorem setDie_kills (s : State) (n : Nat) (d : Die) : (s.setDie n d).kills = s.kills := rfl
@[simp] theorem setDie_invBase (s : State) (n : Nat) (d : Die) : (s.setDie n d).invBase = s.invBase := rfl
@[simp] theorem setDie_invLen (s : State) (n : Nat) (d : Die) : (s.setDie n d).invLen = s.invLen := rfl
@[simp] theorem setDie_invAsid (s : State) (n : Nat) (d : Die) : (s.setDie n d).invAsid = s.invAsid := rfl
@[simp] theorem setDie_invGo (s : State) (n : Nat) (d : Die) : (s.setDie n d).invGo = s.invGo := rfl
@[simp] theorem setDie_notify (s : State) (n : Nat) (d : Die) : (s.setDie n d).notify = s.notify := rfl
@[simp] theorem setDie_plans (s : State) (n : Nat) (d : Die) : (s.setDie n d).plans = s.plans := rfl
@[simp] theorem setDie_trigs (s : State) (n : Nat) (d : Die) : (s.setDie n d).trigs = s.trigs := rfl
@[simp] theorem setDie_iters (s : State) (n : Nat) (d : Die) : (s.setDie n d).iters = s.iters := rfl
@[simp] theorem setDie_chunks (s : State) (n : Nat) (d : Die) : (s.setDie n d).chunks = s.chunks := rfl
@[simp] theorem setDie_clock (s : State) (n : Nat) (d : Die) : (s.setDie n d).clock = s.clock := rfl
@[simp] theorem setDie_power (s : State) (n : Nat) (d : Die) : (s.setDie n d).power = s.power := rfl
@[simp] theorem setDie_boot (s : State) (n : Nat) (d : Die) : (s.setDie n d).boot = s.boot := rfl
@[simp] theorem setDie_inputs (s : State) (n : Nat) (d : Die) : (s.setDie n d).inputs = s.inputs := rfl
@[simp] theorem setDie_pend (s : State) (n : Nat) (d : Die) : (s.setDie n d).pend = s.pend := rfl
@[simp] theorem setDie_sent (s : State) (n : Nat) (d : Die) : (s.setDie n d).sent = s.sent := rfl

/-! ### `setIod` -/

@[simp] theorem setIod_ref (s : State) (n : Nat) (d : Iod) : (s.setIod n d).ref = s.ref := rfl
@[simp] theorem setIod_turn (s : State) (n : Nat) (d : Iod) : (s.setIod n d).turn = s.turn := rfl
@[simp] theorem setIod_free (s : State) (n : Nat) (d : Iod) : (s.setIod n d).free = s.free := rfl
@[simp] theorem setIod_focus (s : State) (n : Nat) (d : Iod) : (s.setIod n d).focus = s.focus := rfl
@[simp] theorem setIod_sfocus (s : State) (n : Nat) (d : Iod) : (s.setIod n d).sfocus = s.sfocus := rfl
@[simp] theorem setIod_arg (s : State) (n : Nat) (d : Iod) : (s.setIod n d).arg = s.arg := rfl
@[simp] theorem setIod_cores (s : State) (n : Nat) (d : Iod) : (s.setIod n d).cores = s.cores := rfl
@[simp] theorem setIod_diesT (s : State) (n : Nat) (d : Iod) : (s.setIod n d).diesT = s.diesT := rfl
@[simp] theorem setIod_links (s : State) (n : Nat) (d : Iod) : (s.setIod n d).links = s.links := rfl
@[simp] theorem setIod_host (s : State) (n : Nat) (d : Iod) : (s.setIod n d).host = s.host := rfl
@[simp] theorem setIod_cxl (s : State) (n : Nat) (d : Iod) : (s.setIod n d).cxl = s.cxl := rfl
@[simp] theorem setIod_cxlBad (s : State) (n : Nat) (d : Iod) : (s.setIod n d).cxlBad = s.cxlBad := rfl
@[simp] theorem setIod_glitch (s : State) (n : Nat) (d : Iod) : (s.setIod n d).glitch = s.glitch := rfl
@[simp] theorem setIod_launches (s : State) (n : Nat) (d : Iod) : (s.setIod n d).launches = s.launches := rfl
@[simp] theorem setIod_nodes (s : State) (n : Nat) (d : Iod) : (s.setIod n d).nodes = s.nodes := rfl
@[simp] theorem setIod_startedSeq (s : State) (n : Nat) (d : Iod) : (s.setIod n d).startedSeq = s.startedSeq := rfl
@[simp] theorem setIod_ended (s : State) (n : Nat) (d : Iod) : (s.setIod n d).ended = s.ended := rfl
@[simp] theorem setIod_planAt (s : State) (n : Nat) (d : Iod) : (s.setIod n d).planAt = s.planAt := rfl
@[simp] theorem setIod_genNext (s : State) (n : Nat) (d : Iod) : (s.setIod n d).genNext = s.genNext := rfl
@[simp] theorem setIod_pairs (s : State) (n : Nat) (d : Iod) : (s.setIod n d).pairs = s.pairs := rfl
@[simp] theorem setIod_retired (s : State) (n : Nat) (d : Iod) : (s.setIod n d).retired = s.retired := rfl
@[simp] theorem setIod_kills (s : State) (n : Nat) (d : Iod) : (s.setIod n d).kills = s.kills := rfl
@[simp] theorem setIod_invBase (s : State) (n : Nat) (d : Iod) : (s.setIod n d).invBase = s.invBase := rfl
@[simp] theorem setIod_invLen (s : State) (n : Nat) (d : Iod) : (s.setIod n d).invLen = s.invLen := rfl
@[simp] theorem setIod_invAsid (s : State) (n : Nat) (d : Iod) : (s.setIod n d).invAsid = s.invAsid := rfl
@[simp] theorem setIod_invGo (s : State) (n : Nat) (d : Iod) : (s.setIod n d).invGo = s.invGo := rfl
@[simp] theorem setIod_notify (s : State) (n : Nat) (d : Iod) : (s.setIod n d).notify = s.notify := rfl
@[simp] theorem setIod_plans (s : State) (n : Nat) (d : Iod) : (s.setIod n d).plans = s.plans := rfl
@[simp] theorem setIod_trigs (s : State) (n : Nat) (d : Iod) : (s.setIod n d).trigs = s.trigs := rfl
@[simp] theorem setIod_iters (s : State) (n : Nat) (d : Iod) : (s.setIod n d).iters = s.iters := rfl
@[simp] theorem setIod_chunks (s : State) (n : Nat) (d : Iod) : (s.setIod n d).chunks = s.chunks := rfl
@[simp] theorem setIod_clock (s : State) (n : Nat) (d : Iod) : (s.setIod n d).clock = s.clock := rfl
@[simp] theorem setIod_power (s : State) (n : Nat) (d : Iod) : (s.setIod n d).power = s.power := rfl
@[simp] theorem setIod_boot (s : State) (n : Nat) (d : Iod) : (s.setIod n d).boot = s.boot := rfl
@[simp] theorem setIod_inputs (s : State) (n : Nat) (d : Iod) : (s.setIod n d).inputs = s.inputs := rfl
@[simp] theorem setIod_pend (s : State) (n : Nat) (d : Iod) : (s.setIod n d).pend = s.pend := rfl
@[simp] theorem setIod_sent (s : State) (n : Nat) (d : Iod) : (s.setIod n d).sent = s.sent := rfl

/-! ### `setLink` -/

@[simp] theorem setLink_ref (s : State) (n : Nat) (l : Link) : (s.setLink n l).ref = s.ref := rfl
@[simp] theorem setLink_turn (s : State) (n : Nat) (l : Link) : (s.setLink n l).turn = s.turn := rfl
@[simp] theorem setLink_free (s : State) (n : Nat) (l : Link) : (s.setLink n l).free = s.free := rfl
@[simp] theorem setLink_focus (s : State) (n : Nat) (l : Link) : (s.setLink n l).focus = s.focus := rfl
@[simp] theorem setLink_sfocus (s : State) (n : Nat) (l : Link) : (s.setLink n l).sfocus = s.sfocus := rfl
@[simp] theorem setLink_arg (s : State) (n : Nat) (l : Link) : (s.setLink n l).arg = s.arg := rfl
@[simp] theorem setLink_cores (s : State) (n : Nat) (l : Link) : (s.setLink n l).cores = s.cores := rfl
@[simp] theorem setLink_diesT (s : State) (n : Nat) (l : Link) : (s.setLink n l).diesT = s.diesT := rfl
@[simp] theorem setLink_iods (s : State) (n : Nat) (l : Link) : (s.setLink n l).iods = s.iods := rfl
@[simp] theorem setLink_host (s : State) (n : Nat) (l : Link) : (s.setLink n l).host = s.host := rfl
@[simp] theorem setLink_cxl (s : State) (n : Nat) (l : Link) : (s.setLink n l).cxl = s.cxl := rfl
@[simp] theorem setLink_cxlBad (s : State) (n : Nat) (l : Link) : (s.setLink n l).cxlBad = s.cxlBad := rfl
@[simp] theorem setLink_glitch (s : State) (n : Nat) (l : Link) : (s.setLink n l).glitch = s.glitch := rfl
@[simp] theorem setLink_launches (s : State) (n : Nat) (l : Link) : (s.setLink n l).launches = s.launches := rfl
@[simp] theorem setLink_nodes (s : State) (n : Nat) (l : Link) : (s.setLink n l).nodes = s.nodes := rfl
@[simp] theorem setLink_startedSeq (s : State) (n : Nat) (l : Link) : (s.setLink n l).startedSeq = s.startedSeq := rfl
@[simp] theorem setLink_ended (s : State) (n : Nat) (l : Link) : (s.setLink n l).ended = s.ended := rfl
@[simp] theorem setLink_planAt (s : State) (n : Nat) (l : Link) : (s.setLink n l).planAt = s.planAt := rfl
@[simp] theorem setLink_genNext (s : State) (n : Nat) (l : Link) : (s.setLink n l).genNext = s.genNext := rfl
@[simp] theorem setLink_pairs (s : State) (n : Nat) (l : Link) : (s.setLink n l).pairs = s.pairs := rfl
@[simp] theorem setLink_retired (s : State) (n : Nat) (l : Link) : (s.setLink n l).retired = s.retired := rfl
@[simp] theorem setLink_kills (s : State) (n : Nat) (l : Link) : (s.setLink n l).kills = s.kills := rfl
@[simp] theorem setLink_invBase (s : State) (n : Nat) (l : Link) : (s.setLink n l).invBase = s.invBase := rfl
@[simp] theorem setLink_invLen (s : State) (n : Nat) (l : Link) : (s.setLink n l).invLen = s.invLen := rfl
@[simp] theorem setLink_invAsid (s : State) (n : Nat) (l : Link) : (s.setLink n l).invAsid = s.invAsid := rfl
@[simp] theorem setLink_invGo (s : State) (n : Nat) (l : Link) : (s.setLink n l).invGo = s.invGo := rfl
@[simp] theorem setLink_notify (s : State) (n : Nat) (l : Link) : (s.setLink n l).notify = s.notify := rfl
@[simp] theorem setLink_plans (s : State) (n : Nat) (l : Link) : (s.setLink n l).plans = s.plans := rfl
@[simp] theorem setLink_trigs (s : State) (n : Nat) (l : Link) : (s.setLink n l).trigs = s.trigs := rfl
@[simp] theorem setLink_iters (s : State) (n : Nat) (l : Link) : (s.setLink n l).iters = s.iters := rfl
@[simp] theorem setLink_chunks (s : State) (n : Nat) (l : Link) : (s.setLink n l).chunks = s.chunks := rfl
@[simp] theorem setLink_clock (s : State) (n : Nat) (l : Link) : (s.setLink n l).clock = s.clock := rfl
@[simp] theorem setLink_power (s : State) (n : Nat) (l : Link) : (s.setLink n l).power = s.power := rfl
@[simp] theorem setLink_boot (s : State) (n : Nat) (l : Link) : (s.setLink n l).boot = s.boot := rfl
@[simp] theorem setLink_inputs (s : State) (n : Nat) (l : Link) : (s.setLink n l).inputs = s.inputs := rfl
@[simp] theorem setLink_pend (s : State) (n : Nat) (l : Link) : (s.setLink n l).pend = s.pend := rfl
@[simp] theorem setLink_sent (s : State) (n : Nat) (l : Link) : (s.setLink n l).sent = s.sent := rfl

/-! ### `setMe` -/

@[simp] theorem setMe_ref (s : State) (k : Core) : (s.setMe k).ref = s.ref := rfl
@[simp] theorem setMe_turn (s : State) (k : Core) : (s.setMe k).turn = s.turn := rfl
@[simp] theorem setMe_free (s : State) (k : Core) : (s.setMe k).free = s.free := rfl
@[simp] theorem setMe_focus (s : State) (k : Core) : (s.setMe k).focus = s.focus := rfl
@[simp] theorem setMe_sfocus (s : State) (k : Core) : (s.setMe k).sfocus = s.sfocus := rfl
@[simp] theorem setMe_arg (s : State) (k : Core) : (s.setMe k).arg = s.arg := rfl
@[simp] theorem setMe_diesT (s : State) (k : Core) : (s.setMe k).diesT = s.diesT := rfl
@[simp] theorem setMe_iods (s : State) (k : Core) : (s.setMe k).iods = s.iods := rfl
@[simp] theorem setMe_links (s : State) (k : Core) : (s.setMe k).links = s.links := rfl
@[simp] theorem setMe_host (s : State) (k : Core) : (s.setMe k).host = s.host := rfl
@[simp] theorem setMe_cxl (s : State) (k : Core) : (s.setMe k).cxl = s.cxl := rfl
@[simp] theorem setMe_cxlBad (s : State) (k : Core) : (s.setMe k).cxlBad = s.cxlBad := rfl
@[simp] theorem setMe_glitch (s : State) (k : Core) : (s.setMe k).glitch = s.glitch := rfl
@[simp] theorem setMe_launches (s : State) (k : Core) : (s.setMe k).launches = s.launches := rfl
@[simp] theorem setMe_nodes (s : State) (k : Core) : (s.setMe k).nodes = s.nodes := rfl
@[simp] theorem setMe_startedSeq (s : State) (k : Core) : (s.setMe k).startedSeq = s.startedSeq := rfl
@[simp] theorem setMe_ended (s : State) (k : Core) : (s.setMe k).ended = s.ended := rfl
@[simp] theorem setMe_planAt (s : State) (k : Core) : (s.setMe k).planAt = s.planAt := rfl
@[simp] theorem setMe_genNext (s : State) (k : Core) : (s.setMe k).genNext = s.genNext := rfl
@[simp] theorem setMe_pairs (s : State) (k : Core) : (s.setMe k).pairs = s.pairs := rfl
@[simp] theorem setMe_retired (s : State) (k : Core) : (s.setMe k).retired = s.retired := rfl
@[simp] theorem setMe_kills (s : State) (k : Core) : (s.setMe k).kills = s.kills := rfl
@[simp] theorem setMe_invBase (s : State) (k : Core) : (s.setMe k).invBase = s.invBase := rfl
@[simp] theorem setMe_invLen (s : State) (k : Core) : (s.setMe k).invLen = s.invLen := rfl
@[simp] theorem setMe_invAsid (s : State) (k : Core) : (s.setMe k).invAsid = s.invAsid := rfl
@[simp] theorem setMe_invGo (s : State) (k : Core) : (s.setMe k).invGo = s.invGo := rfl
@[simp] theorem setMe_notify (s : State) (k : Core) : (s.setMe k).notify = s.notify := rfl
@[simp] theorem setMe_plans (s : State) (k : Core) : (s.setMe k).plans = s.plans := rfl
@[simp] theorem setMe_trigs (s : State) (k : Core) : (s.setMe k).trigs = s.trigs := rfl
@[simp] theorem setMe_iters (s : State) (k : Core) : (s.setMe k).iters = s.iters := rfl
@[simp] theorem setMe_chunks (s : State) (k : Core) : (s.setMe k).chunks = s.chunks := rfl
@[simp] theorem setMe_clock (s : State) (k : Core) : (s.setMe k).clock = s.clock := rfl
@[simp] theorem setMe_power (s : State) (k : Core) : (s.setMe k).power = s.power := rfl
@[simp] theorem setMe_boot (s : State) (k : Core) : (s.setMe k).boot = s.boot := rfl
@[simp] theorem setMe_inputs (s : State) (k : Core) : (s.setMe k).inputs = s.inputs := rfl
@[simp] theorem setMe_pend (s : State) (k : Core) : (s.setMe k).pend = s.pend := rfl
@[simp] theorem setMe_sent (s : State) (k : Core) : (s.setMe k).sent = s.sent := rfl

/-! ### `setCtx` -/

@[simp] theorem setCtx_ref (s : State) (c : Ctx) : (s.setCtx c).ref = s.ref := rfl
@[simp] theorem setCtx_turn (s : State) (c : Ctx) : (s.setCtx c).turn = s.turn := rfl
@[simp] theorem setCtx_free (s : State) (c : Ctx) : (s.setCtx c).free = s.free := rfl
@[simp] theorem setCtx_focus (s : State) (c : Ctx) : (s.setCtx c).focus = s.focus := rfl
@[simp] theorem setCtx_sfocus (s : State) (c : Ctx) : (s.setCtx c).sfocus = s.sfocus := rfl
@[simp] theorem setCtx_arg (s : State) (c : Ctx) : (s.setCtx c).arg = s.arg := rfl
@[simp] theorem setCtx_diesT (s : State) (c : Ctx) : (s.setCtx c).diesT = s.diesT := rfl
@[simp] theorem setCtx_iods (s : State) (c : Ctx) : (s.setCtx c).iods = s.iods := rfl
@[simp] theorem setCtx_links (s : State) (c : Ctx) : (s.setCtx c).links = s.links := rfl
@[simp] theorem setCtx_host (s : State) (c : Ctx) : (s.setCtx c).host = s.host := rfl
@[simp] theorem setCtx_cxl (s : State) (c : Ctx) : (s.setCtx c).cxl = s.cxl := rfl
@[simp] theorem setCtx_cxlBad (s : State) (c : Ctx) : (s.setCtx c).cxlBad = s.cxlBad := rfl
@[simp] theorem setCtx_glitch (s : State) (c : Ctx) : (s.setCtx c).glitch = s.glitch := rfl
@[simp] theorem setCtx_launches (s : State) (c : Ctx) : (s.setCtx c).launches = s.launches := rfl
@[simp] theorem setCtx_nodes (s : State) (c : Ctx) : (s.setCtx c).nodes = s.nodes := rfl
@[simp] theorem setCtx_startedSeq (s : State) (c : Ctx) : (s.setCtx c).startedSeq = s.startedSeq := rfl
@[simp] theorem setCtx_ended (s : State) (c : Ctx) : (s.setCtx c).ended = s.ended := rfl
@[simp] theorem setCtx_planAt (s : State) (c : Ctx) : (s.setCtx c).planAt = s.planAt := rfl
@[simp] theorem setCtx_genNext (s : State) (c : Ctx) : (s.setCtx c).genNext = s.genNext := rfl
@[simp] theorem setCtx_pairs (s : State) (c : Ctx) : (s.setCtx c).pairs = s.pairs := rfl
@[simp] theorem setCtx_retired (s : State) (c : Ctx) : (s.setCtx c).retired = s.retired := rfl
@[simp] theorem setCtx_kills (s : State) (c : Ctx) : (s.setCtx c).kills = s.kills := rfl
@[simp] theorem setCtx_invBase (s : State) (c : Ctx) : (s.setCtx c).invBase = s.invBase := rfl
@[simp] theorem setCtx_invLen (s : State) (c : Ctx) : (s.setCtx c).invLen = s.invLen := rfl
@[simp] theorem setCtx_invAsid (s : State) (c : Ctx) : (s.setCtx c).invAsid = s.invAsid := rfl
@[simp] theorem setCtx_invGo (s : State) (c : Ctx) : (s.setCtx c).invGo = s.invGo := rfl
@[simp] theorem setCtx_notify (s : State) (c : Ctx) : (s.setCtx c).notify = s.notify := rfl
@[simp] theorem setCtx_plans (s : State) (c : Ctx) : (s.setCtx c).plans = s.plans := rfl
@[simp] theorem setCtx_trigs (s : State) (c : Ctx) : (s.setCtx c).trigs = s.trigs := rfl
@[simp] theorem setCtx_iters (s : State) (c : Ctx) : (s.setCtx c).iters = s.iters := rfl
@[simp] theorem setCtx_chunks (s : State) (c : Ctx) : (s.setCtx c).chunks = s.chunks := rfl
@[simp] theorem setCtx_clock (s : State) (c : Ctx) : (s.setCtx c).clock = s.clock := rfl
@[simp] theorem setCtx_power (s : State) (c : Ctx) : (s.setCtx c).power = s.power := rfl
@[simp] theorem setCtx_boot (s : State) (c : Ctx) : (s.setCtx c).boot = s.boot := rfl
@[simp] theorem setCtx_inputs (s : State) (c : Ctx) : (s.setCtx c).inputs = s.inputs := rfl
@[simp] theorem setCtx_pend (s : State) (c : Ctx) : (s.setCtx c).pend = s.pend := rfl
@[simp] theorem setCtx_sent (s : State) (c : Ctx) : (s.setCtx c).sent = s.sent := rfl

/-! ### `post` -/

@[simp] theorem post_ref (s : State) (i : Instr) (a : EvArg) : (s.post i a).ref = s.ref := rfl
@[simp] theorem post_turn (s : State) (i : Instr) (a : EvArg) : (s.post i a).turn = s.turn := rfl
@[simp] theorem post_free (s : State) (i : Instr) (a : EvArg) : (s.post i a).free = s.free := rfl
@[simp] theorem post_focus (s : State) (i : Instr) (a : EvArg) : (s.post i a).focus = s.focus := rfl
@[simp] theorem post_sfocus (s : State) (i : Instr) (a : EvArg) : (s.post i a).sfocus = s.sfocus := rfl
@[simp] theorem post_arg (s : State) (i : Instr) (a : EvArg) : (s.post i a).arg = s.arg := rfl
@[simp] theorem post_cores (s : State) (i : Instr) (a : EvArg) : (s.post i a).cores = s.cores := rfl
@[simp] theorem post_diesT (s : State) (i : Instr) (a : EvArg) : (s.post i a).diesT = s.diesT := rfl
@[simp] theorem post_iods (s : State) (i : Instr) (a : EvArg) : (s.post i a).iods = s.iods := rfl
@[simp] theorem post_links (s : State) (i : Instr) (a : EvArg) : (s.post i a).links = s.links := rfl
@[simp] theorem post_host (s : State) (i : Instr) (a : EvArg) : (s.post i a).host = s.host := rfl
@[simp] theorem post_cxl (s : State) (i : Instr) (a : EvArg) : (s.post i a).cxl = s.cxl := rfl
@[simp] theorem post_cxlBad (s : State) (i : Instr) (a : EvArg) : (s.post i a).cxlBad = s.cxlBad := rfl
@[simp] theorem post_glitch (s : State) (i : Instr) (a : EvArg) : (s.post i a).glitch = s.glitch := rfl
@[simp] theorem post_launches (s : State) (i : Instr) (a : EvArg) : (s.post i a).launches = s.launches := rfl
@[simp] theorem post_nodes (s : State) (i : Instr) (a : EvArg) : (s.post i a).nodes = s.nodes := rfl
@[simp] theorem post_startedSeq (s : State) (i : Instr) (a : EvArg) : (s.post i a).startedSeq = s.startedSeq := rfl
@[simp] theorem post_ended (s : State) (i : Instr) (a : EvArg) : (s.post i a).ended = s.ended := rfl
@[simp] theorem post_planAt (s : State) (i : Instr) (a : EvArg) : (s.post i a).planAt = s.planAt := rfl
@[simp] theorem post_genNext (s : State) (i : Instr) (a : EvArg) : (s.post i a).genNext = s.genNext := rfl
@[simp] theorem post_pairs (s : State) (i : Instr) (a : EvArg) : (s.post i a).pairs = s.pairs := rfl
@[simp] theorem post_retired (s : State) (i : Instr) (a : EvArg) : (s.post i a).retired = s.retired := rfl
@[simp] theorem post_kills (s : State) (i : Instr) (a : EvArg) : (s.post i a).kills = s.kills := rfl
@[simp] theorem post_invBase (s : State) (i : Instr) (a : EvArg) : (s.post i a).invBase = s.invBase := rfl
@[simp] theorem post_invLen (s : State) (i : Instr) (a : EvArg) : (s.post i a).invLen = s.invLen := rfl
@[simp] theorem post_invAsid (s : State) (i : Instr) (a : EvArg) : (s.post i a).invAsid = s.invAsid := rfl
@[simp] theorem post_invGo (s : State) (i : Instr) (a : EvArg) : (s.post i a).invGo = s.invGo := rfl
@[simp] theorem post_notify (s : State) (i : Instr) (a : EvArg) : (s.post i a).notify = s.notify := rfl
@[simp] theorem post_plans (s : State) (i : Instr) (a : EvArg) : (s.post i a).plans = s.plans := rfl
@[simp] theorem post_trigs (s : State) (i : Instr) (a : EvArg) : (s.post i a).trigs = s.trigs := rfl
@[simp] theorem post_iters (s : State) (i : Instr) (a : EvArg) : (s.post i a).iters = s.iters := rfl
@[simp] theorem post_chunks (s : State) (i : Instr) (a : EvArg) : (s.post i a).chunks = s.chunks := rfl
@[simp] theorem post_clock (s : State) (i : Instr) (a : EvArg) : (s.post i a).clock = s.clock := rfl
@[simp] theorem post_power (s : State) (i : Instr) (a : EvArg) : (s.post i a).power = s.power := rfl
@[simp] theorem post_boot (s : State) (i : Instr) (a : EvArg) : (s.post i a).boot = s.boot := rfl
@[simp] theorem post_inputs (s : State) (i : Instr) (a : EvArg) : (s.post i a).inputs = s.inputs := rfl
@[simp] theorem post_sent (s : State) (i : Instr) (a : EvArg) : (s.post i a).sent = s.sent := rfl

end Sys2Proof.Machine.State

namespace Sys2Proof.Machine.Ctx

/-! ### Streams -/

@[simp] theorem setStrm_launch (c : Ctx) (n : Nat) (x : Stream) : (c.setStrm n x).launch = c.launch := by unfold setStrm; split <;> rfl
@[simp] theorem setStrm_p (c : Ctx) (n : Nat) (x : Stream) : (c.setStrm n x).p = c.p := by unfold setStrm; split <;> rfl
@[simp] theorem setStrm_evNode (c : Ctx) (n : Nat) (x : Stream) : (c.setStrm n x).evNode = c.evNode := by unfold setStrm; split <;> rfl
@[simp] theorem setStrm_asid (c : Ctx) (n : Nat) (x : Stream) : (c.setStrm n x).asid = c.asid := by unfold setStrm; split <;> rfl
@[simp] theorem setStrm_gen (c : Ctx) (n : Nat) (x : Stream) : (c.setStrm n x).gen = c.gen := by unfold setStrm; split <;> rfl
@[simp] theorem setStrm_spb (c : Ctx) (n : Nat) (x : Stream) : (c.setStrm n x).spb = c.spb := by unfold setStrm; split <;> rfl
@[simp] theorem setStrm_hdr (c : Ctx) (n : Nat) (x : Stream) : (c.setStrm n x).hdr = c.hdr := by unfold setStrm; split <;> rfl
@[simp] theorem setStrm_swmap (c : Ctx) (n : Nat) (x : Stream) : (c.setStrm n x).swmap = c.swmap := by unfold setStrm; split <;> rfl
@[simp] theorem setStrm_lenders (c : Ctx) (n : Nat) (x : Stream) : (c.setStrm n x).lenders = c.lenders := by unfold setStrm; split <;> rfl
@[simp] theorem setStrm_mode (c : Ctx) (n : Nat) (x : Stream) : (c.setStrm n x).mode = c.mode := by unfold setStrm; split <;> rfl
@[simp] theorem setStrm_s (c : Ctx) (n : Nat) (x : Stream) : (c.setStrm n x).s = c.s := by unfold setStrm; split <;> rfl
@[simp] theorem setStrm_bank (c : Ctx) (n : Nat) (x : Stream) : (c.setStrm n x).bank = c.bank := by unfold setStrm; split <;> rfl
@[simp] theorem setStrm_h (c : Ctx) (n : Nat) (x : Stream) : (c.setStrm n x).h = c.h := by unfold setStrm; split <;> rfl
@[simp] theorem setStrm_desc (c : Ctx) (n : Nat) (x : Stream) : (c.setStrm n x).desc = c.desc := by unfold setStrm; split <;> rfl
@[simp] theorem setStrm_saveh (c : Ctx) (n : Nat) (x : Stream) : (c.setStrm n x).saveh = c.saveh := by unfold setStrm; split <;> rfl
@[simp] theorem setStrm_trapcause (c : Ctx) (n : Nat) (x : Stream) : (c.setStrm n x).trapcause = c.trapcause := by unfold setStrm; split <;> rfl
@[simp] theorem setStrm_v (c : Ctx) (n : Nat) (x : Stream) : (c.setStrm n x).v = c.v := by unfold setStrm; split <;> rfl
@[simp] theorem setStrm_k (c : Ctx) (n : Nat) (x : Stream) : (c.setStrm n x).k = c.k := by unfold setStrm; split <;> rfl
@[simp] theorem setStrm_q (c : Ctx) (n : Nat) (x : Stream) : (c.setStrm n x).q = c.q := by unfold setStrm; split <;> rfl
@[simp] theorem setStrm_la (c : Ctx) (n : Nat) (x : Stream) : (c.setStrm n x).la = c.la := by unfold setStrm; split <;> rfl
@[simp] theorem setStrm_lb (c : Ctx) (n : Nat) (x : Stream) : (c.setStrm n x).lb = c.lb := by unfold setStrm; split <;> rfl
@[simp] theorem setStrm_lc (c : Ctx) (n : Nat) (x : Stream) : (c.setStrm n x).lc = c.lc := by unfold setStrm; split <;> rfl
@[simp] theorem setStrm_arithV (c : Ctx) (n : Nat) (x : Stream) : (c.setStrm n x).arithV = c.arithV := by unfold setStrm; split <;> rfl
@[simp] theorem setStrm_momV (c : Ctx) (n : Nat) (x : Stream) : (c.setStrm n x).momV = c.momV := by unfold setStrm; split <;> rfl
@[simp] theorem setStrm_a (c : Ctx) (n : Nat) (x : Stream) : (c.setStrm n x).a = c.a := by unfold setStrm; split <;> rfl
@[simp] theorem setStrm_tags (c : Ctx) (n : Nat) (x : Stream) : (c.setStrm n x).tags = c.tags := by unfold setStrm; split <;> rfl
@[simp] theorem setStrm_lnt (c : Ctx) (n : Nat) (x : Stream) : (c.setStrm n x).lnt = c.lnt := by unfold setStrm; split <;> rfl
@[simp] theorem setStrm_lnts (c : Ctx) (n : Nat) (x : Stream) : (c.setStrm n x).lnts = c.lnts := by unfold setStrm; split <;> rfl
@[simp] theorem setStrm_ix (c : Ctx) (n : Nat) (x : Stream) : (c.setStrm n x).ix = c.ix := by unfold setStrm; split <;> rfl
@[simp] theorem setStrm_asyncQ (c : Ctx) (n : Nat) (x : Stream) : (c.setStrm n x).asyncQ = c.asyncQ := by unfold setStrm; split <;> rfl
@[simp] theorem setStrm_window (c : Ctx) (n : Nat) (x : Stream) : (c.setStrm n x).window = c.window := by unfold setStrm; split <;> rfl
@[simp] theorem setStrm_stage (c : Ctx) (n : Nat) (x : Stream) : (c.setStrm n x).stage = c.stage := by unfold setStrm; split <;> rfl
@[simp] theorem setStrm_meFree (c : Ctx) (n : Nat) (x : Stream) : (c.setStrm n x).meFree = c.meFree := by unfold setStrm; split <;> rfl
@[simp] theorem setStrm_arithM (c : Ctx) (n : Nat) (x : Stream) : (c.setStrm n x).arithM = c.arithM := by unfold setStrm; split <;> rfl
@[simp] theorem setStrm_momM (c : Ctx) (n : Nat) (x : Stream) : (c.setStrm n x).momM = c.momM := by unfold setStrm; split <;> rfl
@[simp] theorem setStrm_jobs (c : Ctx) (n : Nat) (x : Stream) : (c.setStrm n x).jobs = c.jobs := by unfold setStrm; split <;> rfl
@[simp] theorem setStrm_clkdiv (c : Ctx) (n : Nat) (x : Stream) : (c.setStrm n x).clkdiv = c.clkdiv := by unfold setStrm; split <;> rfl
@[simp] theorem setStrm_ctime (c : Ctx) (n : Nat) (x : Stream) : (c.setStrm n x).ctime = c.ctime := by unfold setStrm; split <;> rfl
@[simp] theorem setStrm_opened (c : Ctx) (n : Nat) (x : Stream) : (c.setStrm n x).opened = c.opened := by unfold setStrm; split <;> rfl
@[simp] theorem setStrm_segs (c : Ctx) (n : Nat) (x : Stream) : (c.setStrm n x).segs = c.segs := by unfold setStrm; split <;> rfl
@[simp] theorem setStrm_forked (c : Ctx) (n : Nat) (x : Stream) : (c.setStrm n x).forked = c.forked := by unfold setStrm; split <;> rfl
@[simp] theorem setStrm_rdv (c : Ctx) (n : Nat) (x : Stream) : (c.setStrm n x).rdv = c.rdv := by unfold setStrm; split <;> rfl
@[simp] theorem setStrm_variant (c : Ctx) (n : Nat) (x : Stream) : (c.setStrm n x).variant = c.variant := by unfold setStrm; split <;> rfl
@[simp] theorem setStrm_flights (c : Ctx) (n : Nat) (x : Stream) : (c.setStrm n x).flights = c.flights := by unfold setStrm; split <;> rfl
@[simp] theorem setStrm_seq (c : Ctx) (n : Nat) (x : Stream) : (c.setStrm n x).seq = c.seq := by unfold setStrm; split <;> rfl
@[simp] theorem setStrm_hist (c : Ctx) (n : Nat) (x : Stream) : (c.setStrm n x).hist = c.hist := by unfold setStrm; split <;> rfl
@[simp] theorem setStrm_freeze (c : Ctx) (n : Nat) (x : Stream) : (c.setStrm n x).freeze = c.freeze := by unfold setStrm; split <;> rfl
@[simp] theorem setStrm_evSeen (c : Ctx) (n : Nat) (x : Stream) : (c.setStrm n x).evSeen = c.evSeen := by unfold setStrm; split <;> rfl
@[simp] theorem setStrm_waitOn (c : Ctx) (n : Nat) (x : Stream) : (c.setStrm n x).waitOn = c.waitOn := by unfold setStrm; split <;> rfl
@[simp] theorem setStrm_rings (c : Ctx) (n : Nat) (x : Stream) : (c.setStrm n x).rings = c.rings := by unfold setStrm; split <;> rfl
@[simp] theorem setStrm_bars (c : Ctx) (n : Nat) (x : Stream) : (c.setStrm n x).bars = c.bars := by unfold setStrm; split <;> rfl
@[simp] theorem setStrm_lastArr (c : Ctx) (n : Nat) (x : Stream) : (c.setStrm n x).lastArr = c.lastArr := by unfold setStrm; split <;> rfl
@[simp] theorem setStrm_cmds (c : Ctx) (n : Nat) (x : Stream) : (c.setStrm n x).cmds = c.cmds := by unfold setStrm; split <;> rfl
@[simp] theorem setStrm_lseq (c : Ctx) (n : Nat) (x : Stream) : (c.setStrm n x).lseq = c.lseq := by unfold setStrm; split <;> rfl
@[simp] theorem setStrm_lwin (c : Ctx) (n : Nat) (x : Stream) : (c.setStrm n x).lwin = c.lwin := by unfold setStrm; split <;> rfl
@[simp] theorem setStrm_rounds (c : Ctx) (n : Nat) (x : Stream) : (c.setStrm n x).rounds = c.rounds := by unfold setStrm; split <;> rfl
@[simp] theorem setStrm_defer (c : Ctx) (n : Nat) (x : Stream) : (c.setStrm n x).defer = c.defer := by unfold setStrm; split <;> rfl
@[simp] theorem setStrm_vq (c : Ctx) (n : Nat) (x : Stream) : (c.setStrm n x).vq = c.vq := by unfold setStrm; split <;> rfl
@[simp] theorem setStrm_probes (c : Ctx) (n : Nat) (x : Stream) : (c.setStrm n x).probes = c.probes := by unfold setStrm; split <;> rfl
@[simp] theorem setStrm_privEv (c : Ctx) (n : Nat) (x : Stream) : (c.setStrm n x).privEv = c.privEv := by unfold setStrm; split <;> rfl
@[simp] theorem setStrm_handler (c : Ctx) (n : Nat) (x : Stream) : (c.setStrm n x).handler = c.handler := by unfold setStrm; split <;> rfl
@[simp] theorem setStrm_frame (c : Ctx) (n : Nat) (x : Stream) : (c.setStrm n x).frame = c.frame := by unfold setStrm; split <;> rfl
@[simp] theorem setStrm_causes (c : Ctx) (n : Nat) (x : Stream) : (c.setStrm n x).causes = c.causes := by unfold setStrm; split <;> rfl
@[simp] theorem setStrm_req (c : Ctx) (n : Nat) (x : Stream) : (c.setStrm n x).req = c.req := by unfold setStrm; split <;> rfl
@[simp] theorem setStrm_reqAt (c : Ctx) (n : Nat) (x : Stream) : (c.setStrm n x).reqAt = c.reqAt := by unfold setStrm; split <;> rfl
@[simp] theorem setStrm_toDrain (c : Ctx) (n : Nat) (x : Stream) : (c.setStrm n x).toDrain = c.toDrain := by unfold setStrm; split <;> rfl

end Sys2Proof.Machine.Ctx
end

