-- ==== Sys2Proof/Laws/Issue.lean ====
section
/-!
SUPPORT. The issue of one word, the freeze of a wait, and a trap: everything that each can do to the state
(02_core_state R64, 03_encodings R127, 14_contexts R310, R312).
-/

namespace Sys2Proof.Machine

/-! ### The checks of a word -/

@[simp] theorem raise_nil (a : BitVec 64) (p : Plan) : raise a [] p = p := rfl

theorem raise_cons (a : BitVec 64) (b : Bool) (k : Nat) (l : List (Bool × Nat)) (p : Plan) :
    raise a ((b, k) :: l) p = if b then .trap k 0 a else raise a l p := rfl

/-- No condition holds: the plan stands. -/
theorem raise_none {a : BitVec 64} {l : List (Bool × Nat)} (p : Plan) (h : ∀ x ∈ l, x.1 = false) : raise a l p = p := by
  induction l with
  | nil => rfl
  | cons x l ih =>
    obtain ⟨b, k⟩ := x
    have : b = false := h (b, k) (by simp)
    rw [raise_cons, this, if_neg (by simp)]
    exact ih fun y hy => h y (by simp [hy])

/-- Either a condition holds, and the first that does raises its cause, or the plan stands. -/
theorem raise_cases (a : BitVec 64) (l : List (Bool × Nat)) (p : Plan) :
    (raise a l p = p ∧ ∀ x ∈ l, x.1 = false) ∨ ∃ pre k post, l = pre ++ (true, k) :: post ∧ (∀ x ∈ pre, x.1 = false)
      ∧ raise a l p = .trap k 0 a := by
  induction l with
  | nil => exact .inl ⟨rfl, by simp⟩
  | cons x l ih =>
    obtain ⟨b, k⟩ := x
    cases b with
    | true => exact .inr ⟨[], k, l, rfl, by simp, rfl⟩
    | false =>
      rcases ih with ⟨h, hl⟩ | ⟨pre, j, post, rfl, hp, h⟩
      · exact .inl ⟨h, by simpa using hl⟩
      · exact .inr ⟨(false, k) :: pre, j, post, rfl, by simpa using hp, h⟩

/-! ### Contexts -/

@[simp] theorem ctx_setMe (s : State) (k : Core) : (s.setMe k).ctx = k.ctx := by rw [State.ctx, State.me_setMe]

@[simp] theorem setMe_setMe (s : State) (k j : Core) : (s.setMe k).setMe j = s.setMe j := by
  simp only [State.setMe, State.setCore, tput_tput]

@[simp] theorem setCtx_setCtx (s : State) (c d : Ctx) : (s.setCtx c).setCtx d = s.setCtx d := by
  simp only [State.setCtx, State.me_setMe, setMe_setMe]

namespace State

/-! ### The issue of a word -/

/-- Everything that the issue of a word can do: it traps and nothing else of it happens, at once, with the Taster drained, or
for data that it has read; it freezes the core; it issues; or it issues and a trap follows. -/
theorem issue_cases (i : Instr) (n idle : Nat) (plan : State → Plan) (s : State) :
    (∃ k, s.issue i n idle plan = s.trap n k 0 0 ∧ (i.wf = false ∧ k = 0x01 ∨ k = 0x19))
    ∨ (∃ k info a, i.wf = true ∧ plan s = .trap k info a ∧ s.issue i n idle plan = s.trapDrained n k info a)
    ∨ (∃ ls a, i.wf = true ∧ plan s = .bad ls a ∧ s.issue i n idle plan = (s.touch ls).trap n 0x0B 0 a)
    ∨ (∃ f, i.wf = true ∧ plan s = .wait f ∧ s.issue i n idle plan = s.freezeOn n f)
    ∨ (∃ g, i.wf = true ∧ plan s = .go g ∧ s.issue i n idle plan = s.afterIssue i n idle g)
    ∨ ∃ g k info ls, i.wf = true ∧ plan s = .go g
        ∧ (g.after = some (k, info) ∧ ls = [] ∨ n = 0 ∧ k = 0x0E ∧ info = 0 ∧ ls = g.seen)
        ∧ s.issue i n idle plan
          = ((s.setMe { s.me with mark := none }).trapInto (leaving i n idle g) n false k info 0 0).touch ls := by
  unfold issue
  split
  · next h => exact .inl ⟨_, rfl, .inl ⟨by simpa using h, rfl⟩⟩
  · next h =>
    have hw : i.wf = true := by simpa using h
    split
    · next k info a hp => exact .inr (.inl ⟨k, info, a, hw, hp, rfl⟩)
    · next ls a hp => exact .inr (.inr (.inl ⟨ls, a, hw, hp, rfl⟩))
    · next f hp => exact .inr (.inr (.inr (.inl ⟨f, hw, hp, rfl⟩)))
    · next g hp =>
      split
      · exact .inl ⟨_, rfl, .inr rfl⟩
      · split
        · next k info ha =>
          exact .inr (.inr (.inr (.inr (.inr ⟨g, k, info, [], hw, hp, .inl ⟨ha, rfl⟩, by rw [touch_nil]⟩))))
        · next ha =>
          split
          · next h2 =>
            simp only [Bool.and_eq_true, decide_eq_true_eq] at h2
            exact .inr (.inr (.inr (.inr (.inr ⟨g, _, _, g.seen, hw, hp, .inr ⟨h2.1.1.1, rfl, rfl, rfl⟩, rfl⟩))))
          · exact .inr (.inr (.inr (.inr (.inl ⟨g, hw, hp, rfl⟩))))

/-- An illegal word raises 0x01 (R64). -/
theorem issue_illegal (i : Instr) (n idle : Nat) (plan : State → Plan) (s : State) (h : i.wf = false) :
    s.issue i n idle plan = s.trap n 0x01 0 0 := by simp [issue, h]

/-- A legal word whose checks raise a cause traps (R64); a page fault of the sequencer waits for what the Taster withholds
(R399). -/
theorem issue_trap {i : Instr} {n idle : Nat} {plan : State → Plan} {s : State} {k info : Nat} {a : BitVec 64}
    (h : i.wf = true) (hp : plan s = .trap k info a) (hk : n ≠ 0 ∨ k ≠ 0x04 ∨ untasted s.ctx = false) :
    s.issue i n idle plan = s.trap n k info a := by
  simp only [issue, h, hp, Bool.not_true, Bool.false_eq_true, if_false]
  refine if_neg ?_
  rcases hk with hk | hk | hk <;> simp [hk]

/-- A legal word that waits freezes the core (R56). -/
theorem issue_wait {i : Instr} {n idle : Nat} {plan : State → Plan} {s : State} {f : Freeze}
    (h : i.wf = true) (hp : plan s = .wait f) : s.issue i n idle plan = s.freezeOn n f := by simp [issue, h, hp]

/-- A legal word issues where its checks pass, there is room for what it schedules, and no trap follows it (R55, R127). -/
theorem issue_go {i : Instr} {n idle : Nat} {plan : State → Plan} {s : State} {g : Go} (hp : plan s = .go g)
    (hi : s.mayIssue i n) (hr : g.script = [] ∨ s.room) (ha : g.after = none) (hs : g.ctx.frame.step = s.ctx.frame.step)
    (hh : g.ctx.handler = s.ctx.handler) : s.issue i n idle plan = s.afterIssue i n idle g := by
  have h1 : (!g.script.isEmpty && decide (12 ≤ s.ctx.outstanding)) = false := by
    rcases hr with hr | hr
    · simp [hr]
    · have : ¬ 12 ≤ s.ctx.outstanding := Nat.not_le.2 hr
      simp [this]
  have h2 : ¬ (decide (n = 0) && decide (g.ctx.frame.step = 1) && !g.ctx.handler && !g.late) = true := by
    rw [hs, hh]
    have := hi.2
    simp only [Bool.and_eq_true, decide_eq_true_eq, Bool.not_eq_true', not_and, Bool.not_eq_false]
    intro h0
    have := this h0.1.1 h0.1.2
    simp_all
  simp only [issue, hi.1, hp, ha, h1, Bool.not_true, Bool.false_eq_true, if_false]
  exact if_neg h2

/-- Where a thirteenth instruction would be outstanding, the word raises 0x19 (R127). -/
theorem issue_full {i : Instr} {n idle : Nat} {plan : State → Plan} {s : State} {g : Go} (h : i.wf = true)
    (hp : plan s = .go g) (hg : g.script ≠ []) (hr : 12 ≤ s.ctx.outstanding) : s.issue i n idle plan = s.trap n 0x19 0 0 := by
  simp [issue, h, hp, hg, hr]

/-! ### What an issue, a freeze and a trap leave as it was -/

@[simp] theorem byteAt_setMe {s : State} {k : Core} (h : k.spm = s.me.spm) (l : Loc) : (s.setMe k).byteAt l = s.byteAt l := by
  obtain ⟨m, u, o⟩ := l
  cases m <;> simp only [byteAt, memory, setMe, core_setCore] <;> try rfl
  split
  · next e => subst e; rw [h]; rfl
  · rfl

@[simp] theorem byteAt_setCtx (s : State) (c : Ctx) (l : Loc) : (s.setCtx c).byteAt l = s.byteAt l := by
  exact byteAt_setMe (k := { s.me with ctx := c }) rfl l

/-- No memory changes where a word issues. -/
theorem afterIssue_sameMemory (s : State) (i : Instr) (n idle : Nat) (g : Go) : s.sameMemory (s.afterIssue i n idle g) := by
  intro l
  unfold afterIssue
  rw [byteAt_touch]
  refine byteAt_setMe ?_ l
  dsimp only
  split
  · rfl
  · unfold markEdge; split <;> (try split) <;> rfl

theorem freezeOn_sameMemory (s : State) (n : Nat) (f : Freeze) : s.sameMemory (s.freezeOn n f) := fun l => byteAt_setCtx s _ l

theorem onlyMe_setMe (s : State) (k : Core) : s.onlyMe (s.setMe k) :=
  ⟨rfl, fun _ h => by rw [setMe, core_setCore, if_neg h]⟩

theorem onlyMe_setCtx (s : State) (c : Ctx) : s.onlyMe (s.setCtx c) := onlyMe_setMe s _

/-- Only the core that executes changes where a word issues that has read nothing at issue. -/
theorem afterIssue_onlyMe (s : State) (i : Instr) (n idle : Nat) {g : Go} (h : g.seen = []) :
    s.onlyMe (s.afterIssue i n idle g) := by
  unfold afterIssue
  rw [h, touch_nil]
  exact onlyMe_setMe s _

theorem freezeOn_onlyMe (s : State) (n : Nat) (f : Freeze) : s.onlyMe (s.freezeOn n f) := onlyMe_setCtx s _

@[simp] theorem freezeOn_ctx (s : State) (n : Nat) (f : Freeze) :
    (s.freezeOn n f).ctx = { s.ctx with freeze := s.ctx.freeze ++ [(n, f)] } := ctx_setCtx s _

@[simp] theorem afterIssue_ctx (s : State) (i : Instr) (n idle : Nat) (g : Go) :
    (s.afterIssue i n idle g).ctx = leaving i n idle g := by simp [afterIssue]

/-! ### Taking a trap (R310, R312, R313) -/

/-- In handler mode the context stops with cause 0x1A. -/
theorem trapInto_nested {s : State} {c : Ctx} (h : c.handler = true) (n : Nat) (a : Bool) (k info : Nat) (x y : BitVec 64) :
    s.trapInto c n a k info x y = (s.setCtx c).stopFaulted 0x1A := by simp [trapInto, h]

/-- Outside handler mode, with a vector, a cause of the kernel's own enters the handler: the frame and TRAPCAUSE say what
happened, nothing stays scheduled, and the sequencer continues at TFVEC one of its ticks later. -/
theorem trapInto_handler {s : State} {c : Ctx} (h : c.handler = false) (hv : c.frame.vec ≠ 0) (n : Nat) (a : Bool) {k : Nat}
    (hk : k ≠ 0x0A ∧ k ≠ 0x1A) (info : Nat) (x y : BitVec 64) :
    s.trapInto c n a k info x y = s.setCtx
      { c with
        handler := true
        frame := { frameOf c with addr := x, info := y }
        trapcause := trapWord n a info k
        flights := []
        freeze := []
        sq := { c.sq with pc := c.frame.vec.zeroExtend 64, due := c.ctime + c.div 0, loops := [], park := .no } } := by
  have hn : ¬ (decide ((frameOf c).vec = 0) || decide (k = 0x0A) || decide (k = 0x1A)) = true := by
    have e : (frameOf c).vec = c.frame.vec := rfl
    rw [e, decide_eq_false hv, decide_eq_false hk.1, decide_eq_false hk.2]
    decide
  unfold trapInto
  rw [if_neg (by simp [h])]
  exact if_neg hn

/-- A trap into the handler changes no memory and no other core. -/
theorem trapInto_handler_frame {s : State} {c : Ctx} (h : c.handler = false) (hv : c.frame.vec ≠ 0) (n : Nat) (a : Bool)
    {k : Nat} (hk : k ≠ 0x0A ∧ k ≠ 0x1A) (info : Nat) (x y : BitVec 64) :
    s.sameMemory (s.trapInto c n a k info x y) ∧ s.onlyMe (s.trapInto c n a k info x y) := by
  rw [trapInto_handler h hv n a hk]
  exact ⟨fun l => byteAt_setCtx s _ l, onlyMe_setCtx s _⟩

end State

end Sys2Proof.Machine
end

