-- ==== Sys2Proof/Tests/Slice0.lean ====
section
/-!
SUPPORT. The model's own tests: words written out from the encoding tables and the worked examples of the spec, words that the
well-formedness check refuses, and, for the statements, concrete states that meet their premises.
-/

namespace Sys2Proof.Tests

open Sys2Proof.Machine

set_option Elab.async false

theorem test_reset_memWf : State.reset.memWf = true := by decide

/-! ### Words of the sequencer (R67 to R71): the fields of each format from the top -/

/-- OP, D, A, B, FN, IDLE. -/
def sr (op d a b fn i : Nat) : Nat := op * 2 ^ 26 + d * 2 ^ 20 + a * 2 ^ 14 + b * 2 ^ 8 + fn * 2 ^ 3 + i

/-- OP, D, A, an eleven-bit field, IDLE. -/
def si (op d a m i : Nat) : Nat := op * 2 ^ 26 + d * 2 ^ 20 + a * 2 ^ 14 + m * 2 ^ 3 + i

theorem test_decode_alu : (List.range 19).map (fun fn => decodeWord .sq (sr 0 1 2 3 fn 4)) =
    ([.add, .sub, .band, .bor, .bxor, .sll, .srl, .sra, .mul, .mulh, .mulhu, .div, .divu, .rem, .remu, .slt, .sltu, .min, .max] :
      List (BitVec 6 → BitVec 6 → BitVec 6 → BitVec 3 → Instr)).map fun f => .ok (f 1 2 3 4) := rfl

theorem test_decode_immediate : (List.range 5).map (fun n => decodeWord .sq (si (1 + n) 1 2 0x7FF 4)) =
    ([.addi, .andi, .ori, .xori, .slti] : List (BitVec 6 → BitVec 6 → BitVec 11 → BitVec 3 → Instr)).map fun f =>
      .ok (f 1 2 0x7FF 4) := rfl

theorem test_decode_shift : (List.range 3).map (fun n => decodeWord .sq (si (6 + n) 1 2 63 4)) =
    ([.slli, .srli, .srai] : List (BitVec 6 → BitVec 6 → BitVec 6 → BitVec 3 → Instr)).map fun f => .ok (f 1 2 63 4) := rfl

theorem test_decode_insert : (List.range 4).map (fun n => decodeWord .sq ((9 + n) * 2 ^ 26 + 1 * 2 ^ 20 + 0xABCD * 2 ^ 4 + 5)) =
    ([.insw0, .insw16, .insw32, .insw48] : List (BitVec 6 → BitVec 16 → BitVec 3 → Instr)).map fun f => .ok (f 1 0xABCD 5) := rfl

theorem test_decode_memory :
    decodeWord .sq 0b010000_000001_000010_0011_10_1_1111_101 = .ok (.ld 1 2 3 2 1 15 5)
    ∧ decodeWord .sq 0b010001_000001_000010_0011_11_0_0111_101 = .ok (.st 1 2 3 3 7 5)
    ∧ decodeWord .sq 0b101000_0001_000010_00000000_0000_0_101 = .ok (.hld 1 2 5)
    ∧ decodeWord .sq 0b101001_0001_000010_00000000_0000_0_101 = .ok (.hst 1 2 5) := ⟨rfl, rfl, rfl, rfl⟩

theorem test_decode_branch : (List.range 6).map (fun n => decodeWord .sq (si (0x18 + n) 1 2 0x400 3)) =
    ([.beq, .bne, .blt, .bge, .bltu, .bgeu] : List (BitVec 6 → BitVec 6 → BitVec 11 → BitVec 3 → Instr)).map fun f =>
      .ok (f 1 2 0x400 3) := rfl

theorem test_decode_transfer :
    decodeWord .sq 0b011110_10000000000000000000001_010 = .ok (.j 0x400001 2)
    ∧ decodeWord .sq 0b011111_10000000000000000000001_010 = .ok (.jal 0x400001 2)
    ∧ decodeWord .sq 0b100000_000000_000001_10000000001_010 = .ok (.jr 1 0x401 2)
    ∧ decodeWord .sq 0b100001_000000_000001_10000000001_010 = .ok (.jalr 1 0x401 2)
    ∧ decodeWord .sq 0b100010_000001_10000000000000001_010 = .ok (.loop 1 0x10001 2)
    ∧ decodeWord .sq 0b100011_100000000001_10000000001_010 = .ok (.loopi 0x801 0x401 2) := ⟨rfl, rfl, rfl, rfl, rfl, rfl⟩

theorem test_decode_handles :
    decodeWord .sq 0b101010_0001_000000_10000001_0000_0_010 = .ok (.dput 1 0x81 2)
    ∧ decodeWord .sq 0b101011_0001_000000_10000001_0000_0_010 = .ok (.dget 1 0x81 2)
    ∧ decodeWord .sq 0b101100_0001_000010_00000000_1011_0_010 = .ok (.hset 1 2 11 2)
    ∧ decodeWord .sq 0b101101_0001_000010_00000000_1011_0_010 = .ok (.hget 1 2 11 2)
    ∧ decodeWord .sq 0b101110_000001_101_100_00000000000_010 = .ok (.lntw 1 5 4 2) := ⟨rfl, rfl, rfl, rfl, rfl⟩

theorem test_decode_control :
    decodeWord .sq 0b110000_000000_000001_10000000001_010 = .ok (.fork 1 0x401 2)
    ∧ decodeWord .sq 0b110001_000000_000000_0000000_1001_010 = .ok (.rdv 9 2)
    ∧ decodeWord .sq 0b110010_000000_000000_1000001_0011_010 = .ok (.waitf 65 3 2)
    ∧ decodeWord .sq 0b110011_000000_000000_000_10000001_010 = .ok (.waite 0x81 2)
    ∧ decodeWord .sq 0b110100_000001_000010_000011_00010_010 = .ok (.waita 1 2 3 2 2)
    ∧ decodeWord .sq 0b110101_000000_000000_0000_1_100001_010 = .ok (.bara 1 33 2)
    ∧ decodeWord .sq 0b110110_000001_000000_0000_0_001111_010 = .ok (.barw 1 0 15 2)
    ∧ decodeWord .sq 0b110111_000000_000000_000_10000001_010 = .ok (.evset 0x81 2)
    ∧ decodeWord .sq 0b111000_000000_000000_000_10000001_010 = .ok (.evclr 0x81 2)
    ∧ decodeWord .sq 0b111001_1000000000000001_1001_000_010 = .ok (.fenceC 0x8001 9 2)
    ∧ decodeWord .sq 0b111010_000000_000001_000000_00000_010 = .ok (.clkdiv 1 2)
    ∧ decodeWord .sq 0b111011_000000_000000_01000000001_010 = .ok (.swpt 0x201 2)
    ∧ decodeWord .sq 0b111101_10000000000000000000001_010 = .ok (.idle 0x400001 2) :=
  ⟨rfl, rfl, rfl, rfl, rfl, rfl, rfl, rfl, rfl, rfl, rfl, rfl, rfl⟩

theorem test_decode_system :
    decodeWord .sq (sr 0x3E 1 0 0x10 0 2) = .ok (.csrr 1 0x10 2) ∧ decodeWord .sq (sr 0x3E 0 1 0x10 1 2) = .ok (.csrw 1 0x10 2)
    ∧ decodeWord .sq (sr 0x3E 0 0 0 2 2) = .ok (.yield 2) ∧ decodeWord .sq (sr 0x3E 0 0 63 3 2) = .ok (.trap 63 2)
    ∧ decodeWord .sq (sr 0x3E 0 0 0 3 2) = .ok (.exit 2) ∧ decodeWord .sq (sr 0x3E 0 0 0 4 2) = .ok (.rett 2)
    ∧ decodeWord .sq (sr 0x3E 1 2 0 5 2) = .ok (.launch 1 2 2) ∧ decodeWord .sq (sr 0x3E 0 0 0 6 2) = .ok (.bkpt 2)
    ∧ decodeWord .sq (0x3F * 2 ^ 26 + 0x5A5A5A * 2 ^ 3 + 2) = .ok (.nop 0x5A5A5A 2) :=
  ⟨rfl, rfl, rfl, rfl, rfl, rfl, rfl, rfl, rfl⟩

/-- The worked examples of R69 to R72, and words of the listings of the programs (R415 to R420). -/
theorem test_decode_examples_sq :
    [0x40518A90, 0x28412340, 0x64403FE8, 0x8C014020, 0xB0CC0080, 0xD0928B18, 0xD8700340, 0xE6001140, 0xF8000018, 0x40418318,
      0xA800F000, 0xB8320000, 0xC0000E00, 0xC4000058, 0xC8000080, 0x301C0000].map (decodeWord .sq) =
    ([.ld 5 6 2 2 1 2 0, .insw16 4 0x1234 0, .bne 4 0 0x7FD 0, .loopi 5 4 0, .hset 3 12 8 0, .waita 9 10 11 3 0, .barw 7 1 40 0,
      .fenceC 0x8004 5 0, .exit 0, .ld 4 6 0 3 0 3 0, .dput 0 240 0, .lntw 3 1 0 0, .fork 0 0x1C0 0, .rdv 11 0, .waitf 1 0 0,
      .insw48 1 0xC000 0] : List Instr).map .ok := rfl

/-! ### Words of the vector engine (R73 to R76) -/

/-- Two sources and a destination, named 1, 2 and 3, under mask 4, with idle count 5. -/
def vrTwo (op : Nat) : Nat := op * 2 ^ 56 + 1 * 2 ^ 50 + 2 * 2 ^ 44 + 3 * 2 ^ 34 + 4 * 2 ^ 17 + 5

def fTwo : VR :=
  { vd := 1, va := 2, ma := 0, vb := 3, mb := 0, vc := 0, mc := 0, km := 4, bc := 0, be := 0, rq := 0, sat := 0, hold := 0, i := 5 }

theorem test_decode_vector_typed :
    [0x03, 0x08, 0x11, 0x25, 0x2F].map (fun op => decodeWord .ve (vrTwo op)) =
      [.ok (.vadd 3 fTwo), .ok (.vsub 0 fTwo), .ok (.vmul 1 fTwo), .ok (.vmin 5 fTwo), .ok (.vmax 7 fTwo)]
    ∧ decodeWord .ve (vrTwo 0x1A + 6 * 2 ^ 24) = .ok (.vfma 2 { fTwo with vc := 6 })
    ∧ decodeWord .ve (vrTwo 0x40 + 5 * 2 ^ 24) = .ok (.vcmp 0 { fTwo with vc := 5 })
    ∧ [0x52, 0x58, 0x65, 0x6F].map (fun op => decodeWord .ve (vrTwo op - 3 * 2 ^ 34 + (if op = 0x6F then 2 ^ 24 else 0))) =
      [.ok (.vrsum 2 { fTwo with vb := 0 }), .ok (.vrmax 0 { fTwo with vb := 0 }), .ok (.vrmin 5 { fTwo with vb := 0 }),
        .ok (.vscan 7 { fTwo with vb := 0, vc := 1 })] := ⟨rfl, rfl, rfl, rfl⟩

theorem test_decode_vector_plain :
    ([0x30, 0x38, 0x39, 0x3A, 0x3C, 0x3D, 0x3E, 0x3F, 0x71, 0x72, 0x73].map fun op => decodeWord .ve (vrTwo op)) =
      ([.vdiv, .vand, .vor, .vxor, .vsll, .vsrl, .vsra, .vsel, .dot16E4, .radd, .rsub] : List (VR → Instr)).map (fun f => .ok (f fTwo))
    ∧ ([0x31, 0x32, 0x33, 0x34, 0x35, 0x36, 0x37, 0x3B, 0x70, 0x75].map fun op => decodeWord .ve (vrTwo op - 3 * 2 ^ 34
        - (if op = 0x70 then 4 * 2 ^ 17 else 0))) =
      ([.vsqrt, .vrcp, .vrsq, .vexp2, .vlog2, .vabs, .vneg, .vnot] : List (VR → Instr)).map (fun f => Except.ok (f { fTwo with vb := 0 }))
        ++ [Except.ok (.vcomp2of4 { fTwo with vb := 0, km := 0 }), Except.ok (.vmov { fTwo with vb := 0 })]
    ∧ decodeWord .ve (vrTwo 0x48 - 2 ^ 34 + 3 * 2 ^ 24) = .ok (.vcvt { fTwo with vb := 2, vc := 3 })
    ∧ decodeWord .ve (vrTwo 0x49 + 2 * 2 ^ 34 - 4 * 2 ^ 17) = .ok (.vcvtb { fTwo with vb := 5, km := 0 }) := ⟨rfl, rfl, rfl, rfl⟩

theorem test_decode_vector_masks :
    ([0x78, 0x79, 0x7A].map fun op => decodeWord .ve (vrTwo op - 4 * 2 ^ 17)) =
      ([.kand, .kor, .kxor] : List (VR → Instr)).map (fun f => .ok (f { fTwo with km := 0 }))
    ∧ decodeWord .ve (0x7B * 2 ^ 56 + 1 * 2 ^ 50 + 2 * 2 ^ 44 + 5) = .ok (.knot { fTwo with vb := 0, km := 0 })
    ∧ decodeWord .ve (0x7C * 2 ^ 56 + 1 * 2 ^ 50 + 2 * 2 ^ 44 + 5) = .ok (.kfromv { fTwo with vb := 0, km := 0 })
    ∧ decodeWord .ve (0x7D * 2 ^ 56 + 1 * 2 ^ 50 + 2 * 2 ^ 44 + 4 * 2 ^ 17 + 5) = .ok (.vfromk { fTwo with vb := 0 })
    ∧ decodeWord .ve (0x76 * 2 ^ 56 + 1 * 2 ^ 50 + 4 * 2 ^ 17 + 7 * 2 ^ 11 + 2 ^ 10 + 5) =
        .ok (.vbcast { fTwo with va := 0, vb := 0, bc := 7, be := 1 })
    ∧ decodeWord .ve (0x77 * 2 ^ 56 + 1 * 2 ^ 50 + 4 * 2 ^ 17 + 5) = .ok (.viota { fTwo with va := 0, vb := 0 }) :=
  ⟨rfl, rfl, rfl, rfl, rfl, rfl⟩

/-- The memory format: V 1, DID 0x82, OFF22 0x200003, IDLE 5. -/
def vm (op km : Nat) : Nat := op * 2 ^ 56 + 1 * 2 ^ 50 + 0x82 * 2 ^ 42 + 0x200003 * 2 ^ 20 + km * 2 ^ 17 + 5

def fVm (km : BitVec 3) : VM := { v := 1, did := 0x82, off := 0x200003, km := km, bc := 0, be := 0, res := 0, i := 5 }

theorem test_decode_vector_memory :
    ([0x80, 0x81, 0x98, 0x99].map fun op => decodeWord .ve (vm op 6)) =
      ([.vld, .vst, .qld, .qst] : List (VM → Instr)).map (fun f => .ok (f (fVm 6)))
    ∧ ([0x74, 0x8C, 0x8D].map fun op => decodeWord .ve (vm op 0)) =
      ([.fprint, .tld, .tst] : List (VM → Instr)).map fun f => .ok (f (fVm 0)) := ⟨rfl, rfl⟩

/-- The tile format. -/
def fVt : VT := { v := 0, tn := 0, dir := 0, idx := 0, rows := 0, cols := 0, zr := 0, res := 0, km := 0, res2 := 0, i := 5 }

theorem test_decode_tile :
    decodeWord .ve (0x88 * 2 ^ 56 + 3 * 2 ^ 47 + 16 * 2 ^ 37 + 9 * 2 ^ 32 + 5) = .ok (.tcfg { fVt with tn := 3, rows := 16, cols := 9 })
    ∧ decodeWord .ve (0x88 * 2 ^ 56 + 3 * 2 ^ 47 + 16 * 2 ^ 37 + 9 * 2 ^ 32 + 2 ^ 31 + 5) =
        .ok (.tcfgZ { fVt with tn := 3, rows := 16, cols := 9, zr := 1 })
    ∧ ([0x89, 0x8A].map fun op => decodeWord .ve (op * 2 ^ 56 + 47 * 2 ^ 50 + 3 * 2 ^ 47 + 2 ^ 46 + 15 * 2 ^ 42 + 6 * 2 ^ 17 + 5)) =
        ([.tset, .tget] : List (VT → Instr)).map (fun f => .ok (f { fVt with v := 47, tn := 3, dir := 1, idx := 15, km := 6 }))
    ∧ decodeWord .ve (0x8B * 2 ^ 56 + 3 * 2 ^ 47 + 5) = .ok (.tzero { fVt with tn := 3 })
    ∧ decodeWord .ve (0x8E * 2 ^ 56 + 47 * 2 ^ 50 + 3 * 2 ^ 47 + 2 ^ 46 + 6 * 2 ^ 17 + 5) =
        .ok (.trsum { fVt with v := 47, tn := 3, dir := 1, km := 6 }) := ⟨rfl, rfl, rfl, rfl, rfl⟩

theorem test_decode_moment :
    ([0x90, 0x91, 0x92, 0x93, 0x95].map fun op => decodeWord .ve (vrTwo op)) =
      ([.qadd, .qsub, .qmul, .qfma, .qmake] : List (VR → Instr)).map (fun f => .ok (f fTwo))
    ∧ decodeWord .ve (vrTwo 0x94 - 3 * 2 ^ 34) = .ok (.qrelu { fTwo with vb := 0 })
    ∧ ([0, 1, 2].map fun c => decodeWord .ve (vrTwo 0x96 - 3 * 2 ^ 34 + c * 2 ^ 24)) =
        [.ok (.qcolMean { fTwo with vb := 0 }), .ok (.qcolVar { fTwo with vb := 0, vc := 1 }),
          .ok (.qcolSd { fTwo with vb := 0, vc := 2 })]
    ∧ decodeWord .ve (vrTwo 0x97 - 3 * 2 ^ 34 + 7 * 2 ^ 11 + 2 ^ 10) = .ok (.qscl { fTwo with vb := 0, bc := 7, be := 1 }) :=
  ⟨rfl, rfl, rfl, rfl⟩

def fVc : VC := { imm := 0, res := 0, bc := 0, be := 0, res2 := 0, i := 5 }

theorem test_decode_vector_control :
    decodeWord .ve (0xA0 * 2 ^ 56 + (0x801 * 2 ^ 12 + 0x802) * 2 ^ 32 + 5) = .ok (.vloop { fVc with imm := 0x801802 })
    ∧ decodeWord .ve (0xA1 * 2 ^ 56 + 4 * 2 ^ 32 + 7 * 2 ^ 11 + 5) = .ok (.vcsrr { fVc with imm := 4, bc := 7 })
    ∧ decodeWord .ve (0xA2 * 2 ^ 56 + 2 * 2 ^ 32 + 7 * 2 ^ 11 + 2 ^ 10 + 5) = .ok (.vcsrw { fVc with imm := 2, bc := 7, be := 1 })
    ∧ decodeWord .ve (0xA3 * 2 ^ 56 + 5) = .ok (.vrdv fVc) ∧ decodeWord .ve (0xA3 * 2 ^ 56 + 2 ^ 32 + 5) = .ok (.vrdvEnd { fVc with imm := 1 })
    ∧ decodeWord .ve (0xF0 * 2 ^ 56 + 0x800001 * 2 ^ 32 + 5) = .ok (.vidle { fVc with imm := 0x800001 })
    ∧ decodeWord .ve (0xFB * 2 ^ 56 + 0x1234567 * 2 ^ 3 + 5) = .ok (.vnop 3 0x1234567 5) := ⟨rfl, rfl, rfl, rfl, rfl, rfl, rfl⟩

/-- The worked examples of R76 and words of the listings. -/
theorem test_decode_examples_ve :
    [0x8951D40000020000, 0x8024440040083402, 0x4504000002002C06, 0xF000000300000000, 0xA000602800000000, 0x400C502C02040000,
      0xA200000100002400].map (decodeWord .ve) =
    ([.tset { fVt with v := 20, tn := 3, dir := 1, idx := 5, km := 1, i := 0 },
      .vld { v := 9, did := 17, off := 1024, km := 4, bc := 6, be := 1, res := 0, i := 2 },
      .vcmp 5 { fTwo with vd := 1, va := 0, vb := 0, vc := 2, km := 0, bc := 5, be := 1, i := 6 }, .vidle { fVc with imm := 3, i := 0 },
      .vloop { fVc with imm := 0x6028, i := 0 }, .vcmp 0 { fTwo with vd := 3, va := 5, vb := 11, vc := 2, km := 2, i := 0 },
      .vcsrw { fVc with imm := 1, bc := 4, be := 1, i := 0 }] : List Instr).map .ok := rfl

/-! ### Words of the matrix engine, the gather unit, the Ladle and the sieves (R77 to R82, R368, R370) -/

def fMx : MX :=
  { acc := 5, da := 0x81, db := 0x42, ta := 0, tb := 1, ga := 0, asy := 1, mov := 1, tsm := 0, lvl := 5, zc := 1, rq := 0, sat := 0
    bc := 7, be := 1, res := 0, i := 0x85 }

def fMd : MX := { fMx with db := 0, tb := 0, asy := 0, mov := 0, rq := 7, sat := 1, ta := 1 }

theorem test_decode_matrix :
    ((List.range 7).map fun op => decodeWord .me (op * 2 ^ 58 + 5 * 2 ^ 54 + 0x81 * 2 ^ 46 + 0x42 * 2 ^ 38 + 2 ^ 36 + 2 ^ 34 + 2 ^ 33
        + 5 * 2 ^ 29 + 2 ^ 28 + 7 * 2 ^ 18 + 2 ^ 17 + 0x85)) =
      ([.mmaF8, .mmaBf16, .mmaF32, .mmaB2e8, .mmaB2e4, .mmaMom, .mmv] : List (MX → Instr)).map (fun f => .ok (f fMx))
    ∧ ([8, 9].map fun op => decodeWord .me (op * 2 ^ 58 + 5 * 2 ^ 54 + 0x81 * 2 ^ 46 + 2 ^ 37 + 5 * 2 ^ 29 + 2 ^ 28 + 7 * 2 ^ 25
        + 2 ^ 24 + 7 * 2 ^ 18 + 2 ^ 17 + 0x85)) = ([.drain, .drainMom] : List (MX → Instr)).map (fun f => .ok (f fMd))
    ∧ decodeWord .me (0x0A * 2 ^ 58 + 5 * 2 ^ 54 + 5 * 2 ^ 29 + 0x85) =
        .ok (.azero { fMd with da := 0, ta := 0, zc := 0, rq := 0, sat := 0, bc := 0, be := 0 })
    ∧ decodeWord .me (0x0B * 2 ^ 58 + 5 * 2 ^ 54 + 0x81 * 2 ^ 46 + 2 ^ 37 + 5 * 2 ^ 29 + 7 * 2 ^ 18 + 2 ^ 17 + 0x85) =
        .ok (.aload { fMd with zc := 0, rq := 0, sat := 0 })
    ∧ [0x00C282C1301E0002, 0x148787C610000000, 0x1400408030000007, 0x2401000000000000].map (decodeWord .me) =
      ([.mmaF8 { fMx with acc := 3, da := 10, db := 11, tb := 0, asy := 0, mov := 0, tsm := 1, lvl := 1, i := 2 },
        .mmaMom { fMx with acc := 2, da := 30, db := 31, tb := 0, lvl := 0, bc := 0, be := 0, i := 0 },
        .mmaMom { fMx with acc := 0, da := 1, db := 2, tb := 0, asy := 0, mov := 0, lvl := 1, bc := 0, be := 0, i := 7 },
        .drainMom { fMd with acc := 0, da := 4, ta := 0, lvl := 0, zc := 0, rq := 0, sat := 0, bc := 0, be := 0, i := 0 }] :
        List Instr).map .ok := ⟨rfl, rfl, rfl, rfl, rfl⟩

def fMc : MC := { imm := 0, res := 0, bc := 0, be := 0, res2 := 0, i := 0x85 }

theorem test_decode_matrix_control :
    decodeWord .me (0x10 * 2 ^ 58 + 0x85) = .ok (.go fMc) ∧ decodeWord .me (0x11 * 2 ^ 58 + 16 * 2 ^ 34 + 0x85) = .ok (.mwait { fMc with imm := 16 })
    ∧ decodeWord .me (0x12 * 2 ^ 58 + 0x85) = .ok (.mrdv fMc) ∧ decodeWord .me (0x12 * 2 ^ 58 + 2 ^ 34 + 0x85) = .ok (.mrdvEnd { fMc with imm := 1 })
    ∧ decodeWord .me (0x13 * 2 ^ 58 + 2 * 2 ^ 34 + 7 * 2 ^ 18 + 0x85) = .ok (.mcsrr { fMc with imm := 2, bc := 7 })
    ∧ decodeWord .me (0x14 * 2 ^ 58 + 2 * 2 ^ 34 + 7 * 2 ^ 18 + 2 ^ 17 + 0x85) = .ok (.mcsrw { fMc with imm := 2, bc := 7, be := 1 })
    ∧ decodeWord .me (0x20 * 2 ^ 58 + 0x800001 * 2 ^ 34 + 0x85) = .ok (.midle { fMc with imm := 0x800001 })
    ∧ decodeWord .me (0x3B * 2 ^ 58 + 0x1234567 * 2 ^ 8 + 0x85) = .ok (.mnop 3 0x1234567 0x85) :=
  ⟨rfl, rfl, rfl, rfl, rfl, rfl, rfl, rfl⟩

def fGw : GW := { did := 0, off := 0, cnt := 0, bc := 0, be := 0, res := 0, i := 0x85 }

theorem test_decode_gather :
    decodeWord .gu 0x00A000040F800003 = .ok (.gidx { fGw with did := 40, off := 64, cnt := 31, i := 3 })
    ∧ decodeWord .gu (0x01 * 2 ^ 58 + 0x200001 * 2 ^ 28 + 31 * 2 ^ 23 + 7 * 2 ^ 17 + 2 ^ 16 + 0x85) =
        .ok (.gfill { fGw with off := 0x200001, cnt := 31, bc := 7, be := 1 })
    ∧ decodeWord .gu (0x02 * 2 ^ 58 + 0x85) = .ok (.grdv fGw) ∧ decodeWord .gu (0x02 * 2 ^ 58 + 2 ^ 50 + 0x85) = .ok (.grdvEnd { fGw with did := 1 })
    ∧ decodeWord .gu (0x03 * 2 ^ 58 + 0x800001 * 2 ^ 34 + 0x85) = .ok (.gidle { fGw with did := 0x80, off := 64 })
    ∧ decodeWord .gu (0x3B * 2 ^ 58 + 0x1234567 * 2 ^ 8 + 0x85) = .ok (.gnop 3 0x1234567 0x85) := ⟨rfl, rfl, rfl, rfl, rfl, rfl⟩

def fLw : LW :=
  { qn := 0, oc := 0, sco := 0, ord := 0, mov := 0, cw := 0, ba := 0, bdie := 0, bid := 0, dd := 0, ds := 0, dc := 0, offc := 0
    offd := 0, offs := 0, cnt := 0, aop := 0, i := 0 }

/-- A command with every field of a plain move in use. -/
def lwMove (op cnt : Nat) : Nat :=
  op * 2 ^ 120 + 3 * 2 ^ 118 + 9 * 2 ^ 114 + 5 * 2 ^ 110 + 2 ^ 107 + 2 ^ 106 + 2 ^ 105 + 33 * 2 ^ 99 + 0x81 * 2 ^ 91 + 0x82 * 2 ^ 83
    + 0x83 * 2 ^ 75 + 0x84 * 2 ^ 67 + 0x80001 * 2 ^ 47 + 0x80002 * 2 ^ 27 + cnt * 2 ^ 11 + 0x85

def fMove (cnt : BitVec 16) : LW :=
  { qn := 3, oc := 9, sco := 5, ord := 0, mov := 0, cw := 1, ba := 1, bdie := 1, bid := 33, dd := 0x81, ds := 0x82, dc := 0x83, offc := 0x84
    offd := 0x80001, offs := 0x80002, cnt := cnt, aop := 0, i := 0x85 }

theorem test_decode_ladle_moves :
    ([0x00, 0x03, 0x04, 0x10, 0x11].map fun op => decodeWord .ld (lwMove op 0x8001)) =
      ([.copy1d, .copyx, .scan, .xchg, .cmpx] : List (LW → Instr)).map (fun f => .ok (f (fMove 0x8001)))
    ∧ ([0x01, 0x02].map fun op => decodeWord .ld (lwMove op 0 + 2 ^ 108)) =
      ([.copy2d, .copy3d] : List (LW → Instr)).map (fun f => .ok (f { fMove 0 with mov := 1 }))
    ∧ decodeWord .ld (lwMove 0x45 0x8001 + 2 ^ 109 + 5 * 2 ^ 8) = .ok (.copy1dAcc 5 { fMove 0x8001 with ord := 1, aop := 5 })
    ∧ ([0x50, 0x61].map fun op => decodeWord .ld (lwMove op 0 + 2 ^ 8)) =
        [.ok (.copy2dAcc 0 { fMove 0 with aop := 1 }), .ok (.copy3dAcc 1 { fMove 0 with aop := 1 })] := ⟨rfl, rfl, rfl, rfl⟩

theorem test_decode_ladle_control :
    decodeWord .ld (0x20 * 2 ^ 120 + 4 * 2 ^ 110 + 9 * 2 ^ 11) = .ok (.qfence { fLw with sco := 4, cnt := 9 })
    ∧ decodeWord .ld (0x21 * 2 ^ 120 + 3 * 2 ^ 118 + 2 ^ 107 + 0x83 * 2 ^ 75 + 0x84 * 2 ^ 67) =
        .ok (.cwrite { fLw with qn := 3, cw := 1, dc := 0x83, offc := 0x84 })
    ∧ decodeWord .ld (0x22 * 2 ^ 120 + 3 * 2 ^ 118 + 2 ^ 106 + 15 * 2 ^ 99) = .ok (.barrive { fLw with qn := 3, ba := 1, bid := 15 })
    ∧ decodeWord .ld (0x19 * 2 ^ 120 + 3 * 2 ^ 118 + 0x81 * 2 ^ 91 + 15 * 2 ^ 75 + 0x80001 * 2 ^ 47 + 0x8001 * 2 ^ 11) =
        .ok (.deq { fLw with qn := 3, dd := 0x81, dc := 15, offd := 0x80001, cnt := 0x8001 })
    ∧ decodeWord .ld (0x30 * 2 ^ 120 + 0x80001 * 2 ^ 47 + 9 * 2 ^ 27) = .ok (.lidle { fLw with offd := 0x80001, offs := 9 })
    ∧ decodeWord .ld (0xFB * 2 ^ 120 + 0x1234567 * 2 ^ 8 + 7) = .ok (.lnop 0xB 0x1234567 7)
    ∧ decodeWord .ld (0x23 * 2 ^ 120 + 7) = .ok (.lrdv { fLw with i := 7 })
    ∧ decodeWord .ld (0x23 * 2 ^ 120 + 2 ^ 11) = .ok (.lrdvEnd { fLw with cnt := 1 })
    ∧ [0x00490800481860080020000000080004, 0x408D6E39402860100000000400200001, 0x20010800000060180000000000001800,
        0x18004000001800000000000000000800].map (decodeWord .ld) =
      ([.copy1d { fLw with qn := 1, oc := 2, sco := 4, cw := 1, dd := 9, ds := 3, dc := 12, offc := 1, offd := 64, cnt := 256, i := 4 },
        .copy1dAcc 0 { fLw with qn := 2, oc := 3, sco := 5, ord := 1, cw := 1, ba := 1, bdie := 1, bid := 7, dd := 40, ds := 5, dc := 12
                                offc := 2, offs := 128, cnt := 1024, i := 1 },
        .qfence { fLw with sco := 4, cw := 1, dc := 12, offc := 3, cnt := 3 }, .enq { fLw with sco := 1, ds := 3, cnt := 1 }] :
        List Instr).map .ok := ⟨rfl, rfl, rfl, rfl, rfl, rfl, rfl, rfl, rfl⟩

/-- OP, D, A, B, T, M, C of a sieve word. -/
def sa (op d a b t m c : Nat) : Nat := op * 2 ^ 26 + d * 2 ^ 22 + a * 2 ^ 18 + b * 2 ^ 14 + t * 2 ^ 11 + m * 2 ^ 9 + c * 2 ^ 6

theorem test_decode_sieve_scalar :
    ((List.range 9).map fun op => decodeWord .sv (sa op 1 2 3 0 0 0)) =
      ([.sieveAdd, .sieveSub, .sieveAnd, .sieveOr, .sieveXor, .sieveShl, .sieveShr, .sieveSar, .sieveSltu] :
        List (BitVec 4 → BitVec 4 → BitVec 4 → Instr)).map (fun f => .ok (f 1 2 3))
    ∧ decodeWord .sv (sa 9 1 2 0 0 0 0 + 0x20001) = .ok (.sieveAddi 1 2 0x20001)
    ∧ decodeWord .sv (sa 0x0A 1 0 0 0 0 0 + 0x20001) = .ok (.sieveMovi 1 0x20001)
    ∧ decodeWord .sv (sa 0x0B 1 0 0 0 0 0 + 0x2001) = .ok (.sieveMovhi 1 0x2001)
    ∧ ([0x28, 0x29, 0x2A].map fun op => decodeWord .sv (sa op 1 2 0 0 0 0 + 0x20001)) =
        ([.sieveBeq, .sieveBne, .sieveBltu] : List (BitVec 4 → BitVec 4 → BitVec 18 → Instr)).map (fun f => .ok (f 1 2 0x20001))
    ∧ decodeWord .sv (sa 0x2B 0 0 0 0 0 0 + 0x81 * 2 ^ 10 + 0x201) = .ok (.sieveLoop 0x81 0x201) := ⟨rfl, rfl, rfl, rfl, rfl, rfl⟩

theorem test_decode_sieve_vector :
    ([0x10, 0x11, 0x12, 0x13, 0x14, 0x15].map fun op => decodeWord .sv (sa op 1 2 3 5 2 0)) =
      ([.sieveVadd, .sieveVsub, .sieveVmin, .sieveVmax, .sieveVmul, .vscn] :
        List (BitVec 4 → BitVec 4 → BitVec 4 → BitVec 3 → BitVec 2 → Instr)).map (fun f => .ok (f 1 2 3 5 2))
    ∧ decodeWord .sv (sa 0x16 1 2 0 0 3 0) = .ok (.vsplat 1 2 3) ∧ decodeWord .sv (sa 0x17 3 2 1 2 1 6) = .ok (.sieveVcmp 3 2 1 2 1 6)
    ∧ decodeWord .sv (sa 0x18 1 2 3 0 3 0) = .ok (.sieveVsel 1 2 3 3) ∧ decodeWord .sv (sa 0x19 1 2 0 0 0 0 + 15) = .ok (.vext 1 2 15)
    ∧ decodeWord .sv (sa 0x1A 1 2 0 0 0 0 + 15) = .ok (.vins 1 2 15) := ⟨rfl, rfl, rfl, rfl, rfl, rfl⟩

theorem test_decode_sieve_packet :
    decodeWord .sv (sa 0x20 1 2 0 0 0 0 + 63) = .ok (.pld 1 2 63) ∧ decodeWord .sv (sa 0x21 1 2 0 0 0 0 + 63) = .ok (.pst 1 2 63)
    ∧ decodeWord .sv (sa 0x22 1 0 0 0 0 0 + 3) = .ok (.fld 1 3) ∧ decodeWord .sv (sa 0x23 0 2 0 0 0 0 + 3) = .ok (.fst 2 3)
    ∧ decodeWord .sv (sa 0x24 1 0 0 0 0 0 + 6) = .ok (.hdr 1 6) ∧ decodeWord .sv (sa 0x2C 0 2 3 0 0 0) = .ok (.send 2 3)
    ∧ decodeWord .sv (sa 0x2D 0 0 0 0 0 0) = .ok .drop ∧ decodeWord .sv (sa 0x2E 0 0 0 0 0 0) = .ok .sieveDone
    ∧ decodeWord .sv (sa 0x2F 0 0 0 0 0 0 + 0x81) = .ok (.traps 0x81)
    ∧ decodeWord .sv (0x3B * 2 ^ 26 + 0x1234567) = .ok (.snop 3 0x1234567) := ⟨rfl, rfl, rfl, rfl, rfl, rfl, rfl, rfl, rfl, rfl⟩

/-! ### Ill-formed words (R64): for each check of WellFormed, a word that differs from a legal one in that field alone -/

theorem test_wf_base : ([.vadd 3 fTwo, .vfma 2 fTwo, .vcvt { fTwo with vb := 2, vc := 3 }, .vld (fVm 0), .tcfg fVt, .vrdv fVc, .mmaF8 fMx,
    .drain fMd, .mrdv fMc, .gidx fGw, .copy1d (fMove 0), .qcolMean { fTwo with vb := 0 }] : List Instr).all Instr.wf = true := rfl

theorem test_ill_sq : ([.ld 1 2 0 3 1 0 0, .loop 1 0 0, .loopi 1 0 0, .hset 1 1 12 0, .hget 1 1 12 0, .lntw 1 6 0 0, .lntw 1 0 5 0, .rdv 0 0,
    .waitf 0 1 0, .bara 0 16 0, .barw 1 0 16 0, .fenceC 1 10 0, .csrr 1 6 0, .csrr 1 0x0F 0, .csrr 1 0x30 0,
    .csrw 1 0 0, .csrw 1 6 0, .trap 0 0] : List Instr).all (fun i => !i.wf) = true := rfl

theorem test_ill_ve_sources : ([.vadd 0 { fTwo with vd := 48 }, .vadd 0 { fTwo with va := 48 }, .vadd 0 { fTwo with ma := 4 },
    .vadd 0 { fTwo with vb := 48 }, .vadd 0 { fTwo with mb := 4 }, .vadd 0 { fTwo with bc := 1 }, .vadd 0 { fTwo with be := 1 },
    .vadd 0 { fTwo with be := 1, vb := 0, mb := 1 }, .vadd 0 { fTwo with be := 1, vb := 0, hold := 2 }, .vadd 0 { fTwo with vc := 1 },
    .vadd 0 { fTwo with mc := 1 }, .vadd 0 { fTwo with hold := 1 }, .vadd 0 { fTwo with rq := 1 }, .vadd 5 { fTwo with rq := 4 },
    .vfma 5 fTwo, .vfma 0 { fTwo with vc := 48 }, .vfma 0 { fTwo with mc := 4 }, .vfma 0 { fTwo with rq := 2 },
    .vmin 0 { fTwo with rq := 4 }, .vmax 0 { fTwo with sat := 1 }, .vdiv { fTwo with rq := 3 }, .vsqrt fTwo,
    .vsqrt { fTwo with vb := 0, mb := 1 }, .vsqrt { fTwo with vb := 0, hold := 2 }, .vsqrt { fTwo with vb := 0, be := 1 },
    .vsqrt { fTwo with vb := 0, bc := 1 }, .vneg { fTwo with vb := 0, rq := 4 }, .vand { fTwo with sat := 1 }, .vnot fTwo] :
    List Instr).all (fun i => !i.wf) = true := rfl

theorem test_ill_ve_codes : ([.vsel { fTwo with vc := 8 }, .vsel { fTwo with mc := 1 }, .vsel { fTwo with hold := 1 },
    .vcmp 0 { fTwo with vd := 8 }, .vcmp 0 { fTwo with vc := 7 }, .vcmp 5 { fTwo with vc := 6 }, .vcmp 0 { fTwo with vc := 8 },
    .vcmp 0 { fTwo with sat := 1 }, .vcvt { fTwo with vb := 5, vc := 3 }, .vcvt { fTwo with vb := 2, vc := 6 },
    .vcvt { fTwo with vb := 2, vc := 3, mb := 1 }, .vcvt { fTwo with vb := 2, vc := 3, hold := 2 }, .vcvt { fTwo with vb := 2, vc := 3, hold := 1 },
    .vcvt { fTwo with vb := 2, vc := 3, be := 1 }, .vcvt { fTwo with vb := 2, vc := 3, rq := 1 }, .vcvt { fTwo with vb := 2, vc := 3, mc := 1 },
    .vcvt { fTwo with vb := 2, vc := 3, mc := 4 }, .vcvt { fTwo with vb := 3, vc := 2, ma := 4 }, .vcvt { fTwo with vb := 2, vc := 1, mc := 4 },
    .vcvtb { fTwo with vb := 4, km := 0 }, .vcvtb { fTwo with vb := 5 }, .vcvtb { fTwo with vb := 5, km := 0, mb := 1 },
    .vcvtb { fTwo with vb := 5, km := 0, vc := 1 }, .vcvtb { fTwo with vb := 5, km := 0, hold := 2 },
    .vrsum 3 { fTwo with vb := 0 }, .vrmax 4 { fTwo with vb := 0 }, .vrmin 0 { fTwo with vb := 0, rq := 4 }, .vscan 3 fTwo,
    .vscan 0 { fTwo with vc := 2 }, .vscan 0 { fTwo with vc := 1 }, .vscan 0 { fTwo with mc := 1 }, .vscan 0 { fTwo with hold := 1 },
    .vcomp2of4 { fTwo with vb := 0 }, .vcomp2of4 { fTwo with vb := 0, km := 0, vc := 5 }, .dot16E4 { fTwo with rq := 4 },
    .vmov { fTwo with vb := 0, ma := 4 }, .vbcast { fTwo with va := 0, vb := 0 }, .vbcast { fTwo with vb := 0, be := 1 },
    .viota { fTwo with va := 0, vb := 0, bc := 1 }, .kand { fTwo with km := 0, vd := 8 }, .kand { fTwo with km := 0, va := 8 },
    .kand { fTwo with km := 0, vb := 8 }, .kand fTwo, .knot { fTwo with km := 0 }, .kfromv { fTwo with vb := 0, km := 0, vd := 8 },
    .kfromv { fTwo with vb := 0 }, .vfromk { fTwo with vb := 0, va := 8 }] : List Instr).all (fun i => !i.wf) = true := rfl

theorem test_ill_ve_rest : ([.fprint (fVm 1), .fprint { fVm 0 with v := 48 }, .vld { fVm 0 with v := 48 }, .vld { fVm 0 with res := 1 },
    .vld { fVm 0 with bc := 1 }, .tcfg { fVt with zr := 1 }, .tcfgZ fVt, .tcfg { fVt with v := 1 }, .tcfg { fVt with dir := 1 },
    .tcfg { fVt with idx := 1 }, .tcfg { fVt with km := 1 }, .tcfg { fVt with res := 1 }, .tcfg { fVt with res2 := 1 },
    .tset { fVt with v := 48 }, .tset { fVt with rows := 1 }, .tget { fVt with cols := 1 }, .tget { fVt with zr := 1 },
    .tzero { fVt with v := 1 }, .tzero { fVt with km := 1 }, .tld { fVm 0 with v := 8 }, .tst (fVm 1), .tld { fVm 0 with be := 1 },
    .trsum { fVt with idx := 1 }, .trsum { fVt with v := 48 }, .qadd { fTwo with vd := 16 }, .qadd { fTwo with va := 16 },
    .qsub { fTwo with vb := 16 }, .qmul { fTwo with ma := 1 }, .qmul { fTwo with hold := 4 }, .qadd { fTwo with rq := 4 },
    .qadd { fTwo with be := 1 }, .qadd { fTwo with vc := 1 }, .qfma { fTwo with vc := 16 }, .qrelu fTwo, .qmake { fTwo with va := 48 },
    .qmake { fTwo with sat := 1 }, .qcolMean { fTwo with vb := 0, vc := 1 }, .qcolSd { fTwo with vc := 2 }, .qscl { fTwo with vb := 0 },
    .qld { fVm 0 with v := 16 }, .vloop { fVc with imm := 0xFFF }, .vloop { fVc with imm := 0x1001, be := 1 },
    .vloop { fVc with imm := 0x1000, bc := 1 }, .vcsrr { fVc with imm := 5 }, .vcsrr { fVc with be := 1 }, .vcsrw { fVc with imm := 3, be := 1 },
    .vcsrw fVc, .vrdv { fVc with res := 1 }, .vrdv { fVc with imm := 1 }, .vrdvEnd { fVc with imm := 1, res2 := 1 },
    .vidle { fVc with imm := 1, be := 1 }, .vidle { fVc with bc := 1 }] : List Instr).all (fun i => !i.wf) = true := rfl

theorem test_ill_me_gu : ([.mmaF8 { fMx with res := 1 }, .mmaF8 { fMx with lvl := 6 }, .mmaF8 { fMx with be := 0 }, .mmaF8 { fMx with rq := 4 },
    .mmaF8 { fMx with sat := 1 }, .mmaF8 { fMx with asy := 0 }, .mmaMom { fMx with acc := 8 }, .mmv { fMx with ga := 1 },
    .drain { fMd with db := 1 }, .drain { fMd with tb := 1 }, .drain { fMd with ga := 1 }, .drain { fMd with asy := 1 },
    .drain { fMd with tsm := 1 }, .drain { fMd with rq := 1 }, .drainMom { fMd with acc := 8 }, .azero { fMd with zc := 0, rq := 0, sat := 0 },
    .aload { fMd with rq := 0, sat := 0 }, .go { fMc with imm := 1 }, .go { fMc with res := 1 }, .go { fMc with res2 := 1 },
    .mwait { fMc with imm := 17 }, .mwait { fMc with imm := 1, be := 1 }, .mwait { fMc with bc := 1 }, .mrdv { fMc with imm := 1 },
    .mrdvEnd fMc, .mcsrr { fMc with imm := 3 }, .mcsrw fMc, .midle { fMc with bc := 1 }, .gidx { fGw with res := 1 }, .gidx { fGw with bc := 1 },
    .gfill { fGw with did := 1 }, .grdv { fGw with off := 1 }, .grdvEnd fGw, .gidle { fGw with off := 1 }, .gidle { fGw with cnt := 1 },
    .gidle { fGw with be := 1, did := 1 }] : List Instr).all (fun i => !i.wf) = true := rfl

theorem test_ill_ld : ([.copy1d { fMove 0 with sco := 10 }, .copy1d { fMove 0 with ba := 0 }, .copy1d { fMove 0 with bdie := 0 },
    .copy1d { fMove 0 with cw := 0 }, .copy1d { fMove 0 with ord := 1 }, .copyx { fMove 0 with aop := 1 }, .copy2d (fMove 1),
    .scan { fMove 0 with mov := 1 }, .copy1dAcc 0 { fMove 0 with aop := 6 }, .copy1dAcc 0 { fMove 0 with aop := 3 },
    .copy1dAcc 7 { fMove 0 with aop := 5 }, .copy2dAcc 3 (fMove 1), .enq { fLw with cw := 1 }, .enq { fLw with dc := 16 },
    .enq { fLw with dd := 1 }, .enq { fLw with offd := 1 }, .deq { fLw with ds := 1 }, .deq { fLw with offs := 1 }, .qfence { fLw with qn := 1 },
    .qfence { fLw with oc := 1 }, .qfence { fLw with cnt := 16 }, .qfence { fLw with dd := 1 }, .cwrite fLw, .cwrite { fLw with cw := 1, cnt := 1 },
    .barrive fLw, .barrive { fLw with ba := 1, bid := 16 }, .lrdv { fLw with qn := 1 }, .lrdv { fLw with cnt := 1 }, .lrdvEnd fLw,
    .lidle { fLw with offs := 16 }, .lidle { fLw with sco := 1 }] : List Instr).all (fun i => !i.wf) = true := rfl

theorem test_ill_sv : ([.sieveVadd 1 2 3 7 0, .vscn 1 2 3 7 0, .sieveVcmp 0 1 2 7 0 0, .sieveVcmp 0 1 2 0 0 7, .sieveVcmp 0 1 2 3 0 6, .hdr 1 7,
    .traps 0] : List Instr).all (fun i => !i.wf) = true := rfl

/-- Bits that no field of an instruction takes, and opcodes that are marked illegal, make a word illegal. -/
theorem test_reserved_bits :
    ([(.sq, sr 0x0D 0 0 0 0 0), (.sq, sr 0 1 2 3 19 0), (.sq, sr 0x3E 0 0 0 7 0), (.sq, si 6 1 2 64 0), (.sq, 9 * 2 ^ 26 + 2 ^ 3),
      (.sq, sr 0x28 0 0 1 0 0), (.sq, sr 0x34 1 2 3 4 0), (.sq, sr 0x3B 0 0 0x20 0 0), (.sq, sr 0x3A 1 0 0 0 0), (.ve, 0x1D * 2 ^ 56),
      (.ve, 0x7E * 2 ^ 56), (.ve, 0xA4 * 2 ^ 56), (.me, 0x07 * 2 ^ 58), (.me, 0x15 * 2 ^ 58), (.gu, 0x04 * 2 ^ 58), (.ld, 0x05 * 2 ^ 120),
      (.ld, 0x24 * 2 ^ 120), (.ld, 0x68 * 2 ^ 120), (.sv, sa 0x30 0 0 0 0 0 0), (.sv, sa 0 1 2 3 1 0 0), (.sv, sa 0x19 1 2 0 0 0 0 + 16)] :
      List (Strm × Nat)).all (fun x => (decodeWord x.1 x.2).toOption.isNone) = true := rfl

/-! ### States that meet the premises of the statements: the service core of die 0 at an edge of stream `n`, its context and
its core changed in what the statement names -/

def at_ (n : Nat) (f : Ctx → Ctx := id) (g : Core → Core := id) : State :=
  { State.reset with focus := 1536, cores := [(1536, g { State.wordCore n 0 with ctx := f (State.wordCore n 0).ctx })] }

/-- Scalar register 1 holds `v`. -/
def s1 (v : Word) (c : Ctx) : Ctx := { c with s := Store.set c.s 1 v }

/-- The kernel has a lent window of 2 MiB in the scratchpad of core 3. -/
def lent (c : Ctx) : Ctx := { c with hdr := c.hdr + 32768#512 <<< (80 : Nat), lenders := [3] }

/-- Tensor `n` is entry `d`. -/
def tens (n : Nat) (d : BitVec 256) (c : Ctx) : Ctx := { c with desc := Store.set c.desc n d }

/-- A valid tensor of `dim0 × dim1` elements of format `fmt`, dim2 1, in space 0, at `base`, with STRIDE1. -/
def entry (fmt dim0 dim1 base stride1 : Nat) : BitVec 256 :=
  BitVec.ofNat 256 (2 ^ 255 + stride1 * 2 ^ 128 + 1 * 2 ^ 96 + dim1 * 2 ^ 80 + dim0 * 2 ^ 64 + fmt * 2 ^ 56 + base)

/-- A page of virtual addresses from 0 of ASID 0, in HBM of die 0. -/
def page (rd wr : Bool) : TlbE := { asid := 0, base := 0, size := 65536, tgt := 0, die := 0, addr := 0, rd := rd, wr := wr }

def go0 (c : Ctx) : Go := { ctx := c }

theorem wit_IssueFrame : ∀ n, n ≤ 4 → State.again (at_ n).ctx (.nop 0 0) n = false := by decide +kernel

/-- Two loops on their last pass end at the word, one in a last pass that R98 counts as 1 and one drained to 0; outside them no
loop, one that ends elsewhere, and one with two passes left. -/
theorem wit_NextWord :
    let done : List Loop := [{ start := 0, stop := 0, rem := 1, opener := 0 }, { start := 0, stop := 0, rem := 0, opener := 0 }]
    let c (rest : List Loop) : Ctx := (at_ 0 fun c => { c with sq := { c.sq with loops := done ++ rest } }).ctx
    (∀ rest ∈ ([[], [{ start := 0, stop := 4, rem := 1, opener := 0 }], [{ start := 0, stop := 0, rem := 2, opener := 0 }]] :
        List (List Loop)), (go0 (c rest)).jump = none
      ∧ (go0 (c rest)).after = none ∧ 0 ∉ (go0 (c rest)).ctx.toDrain ∧ ((go0 (c rest)).ctx.strm 0).loops = done ++ rest
      ∧ ∀ l ∈ done, l.stop = ((go0 (c rest)).ctx.strm 0).pc.toNat ∧ l.rem ≤ 1) := by decide +kernel

/-- The premises that the words of the streams share, at the last register. -/
theorem wit_room_registers : ∀ n, n ≤ 4 → (at_ n).ctx.outstanding < 12 ∧ 63 < (at_ n).ctx.sregs ∧ 47 < (at_ n).ctx.vregs
    ∧ 15 < (at_ n).ctx.qregs ∧ (at_ n).ctx.frame.step = 0#1 ∧ (at_ n).ctx.handler = false := by decide +kernel

theorem wit_ArithmeticWords : (at_ 0).mayIssue (.add 63 63 0 7) 0 ∧ (at_ 0).mayIssue (.remu 63 0 63 0) 0 ∧ (at_ 0).mayIssue (.slti 63 63 0x400 7) 0
    ∧ (at_ 0).mayIssue (.srai 63 63 63 7) 0 ∧ (at_ 0).room := by
  simp only [State.mayIssue, State.room]; decide +kernel

theorem wit_InsertWords : (at_ 0).mayIssue (.insw48 63 0xFFFF 7) 0 ∧ (at_ 0).room
    ∧ (∀ j, j < 64 → (0xFFFF#64).getLsbD j = if 0 ≤ j ∧ j < 0 + 16 then (0xFFFF#16).getLsbD (j - 0) else (0#64).getLsbD j)
    ∧ (∀ sh ∈ [16, 32, 48], ∀ j, j < 64 → (0xFFFF#64).getLsbD j = if sh ≤ j ∧ j < sh + 16 then (0#16).getLsbD (j - sh) else (0xFFFF#64).getLsbD j) := by
  simp only [State.mayIssue, State.room]; decide +kernel

/-- The last dword of the kernel's own scratchpad and of its lent window; their last 32 bytes for handles. -/
theorem wit_ScratchpadWords :
    let own (n : Nat) : State := at_ 0 (s1 (BitVec.ofNat 64 (8 * 2 ^ 60 + (2 ^ 21 - n))))
    let far (n : Nat) : State := at_ 0 (lent ∘ s1 (BitVec.ofNat 64 (9 * 2 ^ 60 + (2 ^ 21 - n))))
    (∀ n ∈ [8, 32], (2 ^ 21 - n) % n = 0 ∧ 2 ^ 21 - n < 2 ^ 21
      ∧ ((own n).ctx.rs 1).toNat = 8 * 2 ^ 60 + (2 ^ 21 - n) ∧ 2 ^ 21 - n + n ≤ (own n).ctx.spmSize
      ∧ (∀ l ∈ ((own n).ownLoc (2 ^ 21 - n)).run n, (own n).badAt l = false)
      ∧ ((far n).ctx.rs 1).toNat = 9 * 2 ^ 60 + (2 ^ 21 - n) ∧ 2 ^ 21 - n + n ≤ (far n).ctx.lentSize
      ∧ (∀ l ∈ ({ mem := .spm, unit := (far n).ctx.lenders.getD 0 0, off := 2 ^ 21 - n } : Loc).run n, (far n).badAt l = false))
    ∧ (∀ i ∈ [Instr.ld 63 1 0 3 0 0 0, .st 63 1 15 3 0 0, .hld 15 1 0, .hst 15 1 0], (own 8).mayIssue i 0 ∧ (far 8).mayIssue i 0)
    ∧ (own 8).room ∧ (far 8).room := by
  simp only [State.mayIssue, State.room]; decide +kernel

/-- The last dword of the Pantry, and the last of a cached page that may be read or written. -/
theorem wit_FarWords :
    let pan : State := at_ 0 (s1 (BitVec.ofNat 64 (10 * 2 ^ 60 + (2 ^ 26 - 8))))
    let virt (rd : Bool) : State := at_ 0 (s1 65528) fun k => { k with tlb := [page rd (!rd)] }
    (pan.ctx.rs 1).toNat = 10 * 2 ^ 60 + (2 ^ 26 - 8) ∧ (∀ l ∈ ({ mem := .pantry, unit := 0, off := 2 ^ 26 - 8 } : Loc).run 8, pan.badAt l = false)
    ∧ (∀ rd, ((virt rd).ctx.rs 1).toNat = 65528 ∧ (virt rd).invalidating (virt rd).ctx.asid.toNat 65528 = false
      ∧ (virt rd).me.lookup (virt rd).ctx.asid.toNat 65528 = .page (page rd (!rd)) ∧ (if rd then (page rd (!rd)).rd else (page rd (!rd)).wr) = true
      ∧ (∀ l ∈ ((page rd (!rd)).place 65528).run 8, (virt rd).badAt l = false)
      ∧ ∀ i ∈ [Instr.ld 63 1 0 3 0 0 0, .st 63 1 15 3 0 0, .hld 15 1 0, .hst 15 1 0], (virt rd).mayIssue i 0 ∧ pan.mayIssue i 0) := by
  simp only [State.mayIssue]; decide +kernel

/-- An address for each clause: misaligned; each hole at its first byte; one byte past each window; a register past SREGS; a
page that the walk found absent, one that misses, and one without the permission. -/
theorem wit_AccessFaults :
    let addr (a : Nat) (f : Ctx → Ctx := id) (g : Core → Core := id) : State := at_ 0 (f ∘ s1 (BitVec.ofNat 64 a)) g
    let small (c : Ctx) : Ctx := { c with hdr := c.hdr - 64 + 2 }
    (Instr.ld 2 1 0 3 0 0 0).wf = true ∧ ((addr (8 * 2 ^ 60 + 1)).ctx.rs 1).toNat % 8 ≠ 0
    ∧ (∀ a ∈ [2 ^ 52, 1 * 2 ^ 60, 7 * 2 ^ 60, 8 * 2 ^ 60 + 2 ^ 21, 9 * 2 ^ 60, 10 * 2 ^ 60 + 2 ^ 26, 11 * 2 ^ 60, 13 * 2 ^ 60],
        ((addr a).ctx.rs 1).toNat = a ∧ a % 8 = 0 ∧ (addr a).ctx.lentSize = 0)
    ∧ ((addr (8 * 2 ^ 60 + 2 ^ 20) fun c => { c with hdr := c.hdr - 16384#512 <<< (64 : Nat) }).ctx.spmSize < 2 ^ 20 + 8)
    ∧ ((addr (9 * 2 ^ 60 + 2 ^ 20) fun c => { lent c with hdr := (lent c).hdr - 16384#512 <<< (80 : Nat) }).ctx.lentSize < 2 ^ 20 + 8)
    ∧ (addr (8 * 2 ^ 60) small).ctx.sregs = 2
    ∧ (addr 0 id fun k => { k with xres := [(0, 0, none)] }).me.lookup 0 0 = .absent ∧ (addr 0).me.lookup 0 0 = .miss
    ∧ (addr 0).invalidating 0 0 = false
    ∧ (∀ b, (addr 0 id fun k => { k with tlb := [page b (!b)] }).me.lookup 0 0 = .page (page b (!b))) := by decide +kernel

theorem wit_TransferWords :
    (∀ i ∈ [Instr.beq 63 63 0x400 7, .bne 63 0 0x3FF 0, .blt 1 2 0 0, .bge 1 2 0 0, .bltu 1 2 0 0, .bgeu 1 2 0 0, .j 0x400000 7, .jal 0x3FFFFF 7,
      .jr 63 0x400 7, .jalr 63 0x3FF 7], (at_ 0).mayIssue i 0)
    ∧ (at_ 0).room ∧ 63 < (at_ 0).ctx.sregs
    ∧ ((at_ 0).ctx.rs 63 + BitVec.ofInt 64 (0x400#11 : BitVec 11).toInt).toNat % 4 = 0
    ∧ ((at_ 0).ctx.rs 63 + BitVec.ofInt 64 (0x3FF#11 : BitVec 11).toInt).toNat % 4 ≠ 0 := by
  simp only [State.mayIssue, State.room]; decide +kernel

/-- A full stack, an inner loop that would outlast the outer, an end word that is a branch or the end of the scratchpad; a count
of 0, of 1, and that of a drained loop. -/
theorem wit_LoopWords :
    let l : Loop := { start := 0, stop := 0, rem := 1, opener := 0 }
    let deep : State := at_ 0 fun c => { c with sq := { c.sq with loops := [l, l, l, l] } }
    let short : State := at_ 0 fun c => { c with sq := { c.sq with loops := [l] } }
    let held : State := at_ 0 fun c => { c with sq := { c.sq with save := BitVec.ofNat 64 (2 ^ 63 + 5) }, saveh := 1 }
    let branch : State := at_ 0 id fun k => { k with spm := setBytes [] 4 (leBytes 4 (0x18 * 2 ^ 26)) }
    let last : State := at_ 0 fun c => { c with sq := { c.sq with pc := 0x1FFFF8 } }
    (Instr.loopi 0 1 0).wf = true ∧ (∀ s ∈ [deep, short, held, branch, last, at_ 0], s.mayIssue (.loopi 1 1 0) 0)
    ∧ deep.ctx.sq.loops.length = 4 ∧ l.stop < 4 ∧ branch.natAt (branch.spmLocs 4 4) / 2 ^ 26 % 64 = 0x18
    ∧ last.ctx.sq.pc.toNat + 4 * 1 + 4 = last.ctx.spmSize ∧ last.natAt (last.spmLocs 0x1FFFFC 4) / 2 ^ 26 % 64 = 0
    ∧ held.ctx.sq.save.getLsbD 63 = true ∧ held.ctx.sq.save.toNat / 2 ^ 40 % 2 ^ 21 = held.ctx.sq.pc.toNat
    ∧ held.natAt (held.spmLocs 4 4) / 2 ^ 26 % 64 = 0 := by
  simp only [State.mayIssue]; decide +kernel

theorem wit_DescriptorWords : (at_ 0).mayIssue (.dput 15 255 7) 0 ∧ (at_ 0).mayIssue (.dget 15 255 7) 0 ∧ (at_ 0).room := by
  simp only [State.mayIssue, State.room]; decide +kernel

/-- Words of every field, and a field of the shadow table that lands. -/
theorem wit_FieldWords :
    let e : Eff := .lnt 5 4 0xFFFFFFFF
    let fl : Flight := { strm := 0, seq := 0, pc := 0, word := 0, a := 0, b := 0, c := 0, script := [(0, 2, e)] }
    let s : State := at_ 0 fun c => { c with flights := [fl], seq := 1 }
    (∀ n, n < 12 → (at_ 0).mayIssue (.hset 15 63 (BitVec.ofNat 4 n) 7) 0 ∧ (at_ 0).mayIssue (.hget 15 63 (BitVec.ofNat 4 n) 7) 0)
    ∧ (at_ 0).mayIssue (.lntw 63 5 4 7) 0 ∧ (at_ 0).room
    ∧ ∃ x, s.landing x ∧ x.eff = .lnt 5 4 0xFFFFFFFF := by
  simp only [State.mayIssue, State.room, State.landing]
  exact ⟨by decide +kernel, by decide +kernel, by decide +kernel, _, ⟨by decide +kernel, by decide +kernel, rfl, by decide +kernel⟩, rfl⟩


/-- A launch record whose four streams start at the last word that each may. -/
theorem wit_ForkWords :
    let r : Nat := 0x1FFFF8 + 0x1E00000 + 0x1FFFF8 * 2 ^ 32 + 0x1FFFF8 * 2 ^ 64 + 0x1FFFF0 * 2 ^ 96
    let s : State := at_ 0 id fun k => { k with spm := setBytes [] 0x40 (leBytes 64 r) }
    let joined : State := at_ 0 fun c => { c with forked := some 15, ve := { c.ve with on := true } }
    s.mayIssue (.fork 0 0x40 0) 0 ∧ s.room ∧ s.ctx.handler = false ∧ (∀ l ∈ (s.ownLoc 64).run 64, s.badAt l = false)
    ∧ (s.ctx.rs 0 + BitVec.ofInt 64 (0x40#11 : BitVec 11).toInt).toNat = 64 ∧ leNat (((s.ownLoc 64).run 64).map (s.forwarded s.ctx.seq)) = r
    ∧ (∀ n ∈ [1, 2, 3, 4], r.testBit (20 + n) = true ∧ (s.ctx.strm n).on = false
      ∧ r / 2 ^ (32 * (n - 1)) % 2 ^ 21 % (if n = 4 then 16 else 8) = 0 ∧ r / 2 ^ (32 * (n - 1)) % 2 ^ 21 < s.ctx.spmSize)
    ∧ (∀ k ∈ [25, 53, 85, 117], r / 2 ^ k % 2 ^ 7 = 0)
    ∧ (Instr.rdv 1 0).wf = true ∧ (s.ctx.strm 1).on = false ∧ joined.ctx.forked = some 15 ∧ (15 : Nat) ≠ (1#4 : BitVec 4).toNat
    ∧ joined.mayIssue (.rdv 1 0) 0 := by
  simp only [State.mayIssue, State.room]; decide +kernel

/-- A ring of one entry, empty and full; a word in the scratchpad that meets a condition, and one that does not. -/
theorem wit_WaitWords :
    let ring (produced : BitVec 32) : State := at_ 0 fun c => { tens 255 (entry 0x0E 1 1 0 4) c with rings := Store.set [] 61 produced }
    let word : State := at_ 0 (s1 (BitVec.ofNat 64 (8 * 2 ^ 60)))
    let d := Desc.of ((ring 0).ctx.desc.get 255)
    (∀ n ∈ [0, 1], (ring (BitVec.ofNat 32 n)).mayIssue (.waitf 1 15 0) 0) ∧ d.invalid = false ∧ d.dim2 = 1 ∧ d.fm.isBlock = false ∧ d.misaligned = false ∧ d.space = 0
    ∧ 15 < (ring 0).ctx.ringsN ∧ 1 ≤ d.dim1
    ∧ ((ring 0).ctx.rings.get 61 - (ring 0).ctx.rings.get 62).toNat = 0 ∧ ((ring 1).ctx.rings.get 61 - (ring 1).ctx.rings.get 62).toNat = 1
    ∧ word.mayIssue (.waita 63 1 0 0 0) 0 ∧ word.mayIssue (.waita 63 1 0 1 0) 0 ∧ word.room ∧ (word.ctx.rs 1).toNat % 4 = 0
    ∧ word.reach (word.ctx.rs 1) 4 false = .at .own (word.spmLocs 0 4) [] ∧ (∀ l ∈ word.spmLocs 0 4, word.badAt l = false)
    ∧ orderedBefore word.ctx word.ctx.seq 15 (word.spmLocs 0 4) = false ∧ word.ctx.flights = [] ∧ word.waitWord (firstLoc (word.spmLocs 0 4)) false = 0 := by
  simp only [State.mayIssue, State.room]; decide +kernel

theorem wit_WaiteWord :
    let s (v : BitVec 256) : State := at_ 0 fun c => { c with privEv := v }
    (∀ v ∈ [0, 2 ^ 255], (s (BitVec.ofNat 256 v)).mayIssue (.waite 255 0) 0)
    ∧ (s (BitVec.ofNat 256 (2 ^ 255))).ctxEv (s (BitVec.ofNat 256 (2 ^ 255))).ctx 255 = true ∧ (s 0).ctxEv (s 0).ctx 255 = false
    ∧ (s 0).ctx.evSeen = [] := by
  simp only [State.mayIssue]; decide +kernel

/-- A barrier with the sequencer of this kernel as its member: not declared, no member, to arrive, arrived, broken, passed. -/
theorem wit_BarrierWords :
    let s (b : Bar) (f : Ctx → Ctx := id) : State := at_ 0 fun c => f { c with bars := [(15, b)] }
    let me := (at_ 0).ctx.agent false false
    let less (c : Ctx) : Ctx := { c with hdr := c.hdr - 1#512 <<< (32 : Nat) }
    let past (c : Ctx) : Ctx := { c with lastArr := [(barKey false 15, 0)] }
    (∀ i ∈ [Instr.bara 0 15 0, .barw 63 0 15 0, .barw 0 0 15 0], (s {}).mayIssue i 0) ∧ (s {}).room
    ∧ (s {} less).ctx.barsN = 15 ∧ 15 < (s {}).ctx.barsN
    ∧ (s {}).bar 1536 false 15 = {} ∧ (s { members := [me], arrived := [me] }).bar 1536 false 15 = { members := [me], arrived := [me] }
    ∧ (s { members := [me], broken := true }).bar 1536 false 15 = { members := [me], broken := true } ∧ me ∉ ({} : Bar).members
    ∧ (outsOf (s {}).ctx) = [] ∧ (s { phase := 1 } past).bar 1536 false 15 = { phase := 1 }
    ∧ (∃ e ∈ (s { phase := 1 } past).ctx.lastArr, e.1 = barKey false 15 ∧ e.2 < 1) := by
  simp only [State.mayIssue, State.room]; decide +kernel

theorem wit_OutwardWords :
    let store : State := at_ 0 fun c => { c with flights := [{ strm := 0, seq := 0, pc := 0, word := 0, a := 0, b := 0, c := 0, script :=
      [(16, 4, .out (.store { mem := .pantry, unit := 0, off := 0 } [0] 2))] }] }
    let run : State := at_ 0 fun c => { c with ld := { c.ld with on := true } }
    (∀ i ∈ [Instr.evset 255 7, .evclr 255 7, .csrw 63 0x2F 7, .exit 7, .fenceC 0xFFFF 9 7], (at_ 0).mayIssue i 0) ∧ (at_ 0).room
    ∧ (run.ctx.ve.on || run.ctx.me.on || run.ctx.gu.on || run.ctx.ld.on) = true
    ∧ ((at_ 0).ctx.ve.on || (at_ 0).ctx.me.on || (at_ 0).ctx.gu.on || (at_ 0).ctx.ld.on) = false
    ∧ outsOf (at_ 0).ctx = [] ∧ (∃ o ∈ outsOf store.ctx, o.2 = .store { mem := .pantry, unit := 0, off := 0 } [0] 2)
    ∧ (4#16).getLsbD (2 : BitVec 4).toNat = true := by
  simp only [State.mayIssue, State.room]; decide +kernel

theorem wit_ReadRegister : (∀ x ∈ [0, 5, 0x10, 0x1F, 0x2F], (at_ 0).mayIssue (.csrr 63 x 7) 0) ∧ (at_ 0).room ∧ outsOf (at_ 0).ctx = []
    ∧ (at_ 0).ctx.opened = true := by
  simp only [State.mayIssue, State.room]; decide +kernel

/-- Divisors 4 and 16, and 3 and 17; a kernel with one switch point; a stop requested at a node boundary. -/
theorem wit_SwitchWords :
    let clk (v : Word) (e : List Nat) : State := at_ 0 fun c => { s1 v c with evSeen := e }
    let sw (e : List Nat) : State := at_ 0 fun c => { c with hdr := c.hdr + 1#512 <<< (100 : Nat), evSeen := e }
    let asked : State := at_ 0 fun c => { c with req := some .node }
    let ok (v : BitVec 32) : Bool := decide (v &&& 0xE0E0E0E0 = 0) && [0, 8, 16, 24].all fun k => decide (4 ≤ v.toNat / 2 ^ k % 32 ∧ v.toNat / 2 ^ k % 32 ≤ 16)
    ok 0x04100410 = true ∧ ok 0x04110410 = false ∧ ok 0x04100403 = false
    ∧ ((clk 0x04100410 []).ctx.rs 1).setWidth 32 = 0x04100410#32 ∧ (clk 0x04100410 [latchClk]).mayIssue (.clkdiv 1 0) 0
    ∧ (sw []).ctx.hdr.toNat / 2 ^ 100 % 2 ^ 11 = 1 ∧ (∀ e ∈ [[], [latchSwpt], [latchMoved]], (sw e).mayIssue (.swpt 0 0) 0 ∧ (sw e).ctx.evSeen = e)
    ∧ latchMoved ≠ latchSwpt ∧ (Instr.swpt 1 0).wf = true
    ∧ (at_ 0).mayIssue (.nop 0x7FFFFF 7) 0 ∧ asked.mayIssue (.yield 0) 0 ∧ asked.ctx.req ≠ none ∧ asked.ctx.sq.loops = []
    ∧ (at_ 0).ctx.req = none := by
  simp only [State.mayIssue]; decide +kernel

theorem wit_IdleWord : (at_ 0).mayIssue (.idle 0x7FFFFF 7) 0 ∧ (at_ 0).mayIssue (.idle 0 0) 0 := by
  simp only [State.mayIssue]; decide +kernel

/-- A context with a vector; a handler with nothing in flight, and one with something. -/
theorem wit_TrapWords :
    let vec : State := at_ 0 fun c => { c with frame := { c.frame with vec := 0x100 } }
    let inH (fs : List Flight) : State := at_ 0 fun c => { c with handler := true, flights := fs }
    let fl : Flight := { strm := 0, seq := 0, pc := 0, word := 0, a := 0, b := 0, c := 0, script := [(4, 2, .sreg 1 0)] }
    vec.ctx.handler = false ∧ vec.ctx.frame.vec ≠ 0 ∧ vec.ctx.sq.loops = [] ∧ (63 : BitVec 6) ≠ 0
    ∧ (inH []).ctx.handler = true ∧ (inH []).ctx.flights = [] ∧ (inH [fl]).ctx.flights ≠ [] := by decide +kernel

/-- An entry for the kernel's own node, in its scratchpad, and one for a node that is none. -/
def launchAt (node : Nat) : State :=
  { (at_ 0 (fun c => { s1 (BitVec.ofNat 64 (8 * 2 ^ 60 + 0x100)) c with launch := Config.poolBase + 256, evNode := Config.poolBase })
    fun k => { k with spm := setBytes [] 0x100 (leBytes 8 node) }) with nodes := [Config.poolBase] }

theorem wit_LaunchWord : ∀ node ∈ [Config.poolBase, 1], (launchAt node).ctx.handler = false ∧ (launchAt node).mayIssue (.launch 63 1 0) 0
    ∧ (launchAt node).room ∧ ((launchAt node).ctx.rs 1).toNat % 32 = 0
    ∧ (launchAt node).reach ((launchAt node).ctx.rs 1) 32 false = .at .own ((launchAt node).spmLocs 0x100 32) []
    ∧ (launchAt node).reach ((launchAt node).ctx.rs 1 + 128) 32 false = .at .own ((launchAt node).spmLocs 0x180 32) []
    ∧ leNat (((firstLoc ((launchAt node).spmLocs 0x100 32)).run 8).map (launchAt node).ownByte) % 2 ^ 52 = node
    ∧ (∀ l ∈ (launchAt node).spmLocs 0x100 160, (launchAt node).badAt l = false)
    ∧ (node / 2 ^ 41 = 0 ∧ node = (launchAt node).ctx.evNode ∧ (launchAt node).effAsid node = 0 ∧ (launchAt node).depthOf node < 7
        ∨ node < Config.poolBase) := by
  simp only [State.mayIssue, State.room]; decide +kernel

/-- Single step before the first word; stops by a nested trap, by a vector of 0 and by a cause of the fault domain. -/
theorem wit_StepAndStop :
    let step_ : State := at_ 0 fun c => { c with frame := { c.frame with vec := 0x100, step := 1 } }
    let free (f : Ctx → Ctx) : State := at_ 0 f fun k => { k with mark := none }
    step_.ctx.handler = false ∧ step_.ctx.frame.step = 1#1 ∧ step_.ctx.frame.vec ≠ 0 ∧ step_.room ∧ step_.ctx.sq.loops = []
    ∧ (free fun c => { c with handler := true }).me.mark = none ∧ (free fun c => { c with handler := true }).ctx.handler = true
    ∧ (free id).ctx.frame.vec = 0 ∧ (free id).ctx.launch = 0 := by
  simp only [State.room]; decide +kernel

/-! The vector engine. -/

/-- The last registers, a broadcast in place of B, and A held in its latch. -/
def fTop : VR := { fTwo with vd := 47, va := 47, vb := 47 }
def fHeld : VR := { fTwo with vd := 47, va := 47, vb := 0, be := 1, bc := 63, hold := 4 }
def latched (c : Ctx) : Ctx := { c with la := { v := 1, tag := 47, valid := true } }

theorem wit_VectorArithmetic : (∀ i ∈ [Instr.vadd 0 fTop, .vsub 7 { fTop with sat := 1 }, .vmul 4 { fTop with rq := 7 }, .vfma 0 { fTop with vc := 47 },
      .vmin 6 fTop, .vmax 2 fTop], (at_ 1).mayIssue i 1) ∧ (at_ 1).room ∧ (at_ 1).vrOk fTop [.a, .b] true
    ∧ (at_ 1).vrOk { fTop with vc := 47 } [.a, .b, .c] true ∧ (at_ 1 latched).mayIssue (.vadd 0 fHeld) 1 ∧ (at_ 1 latched).vrOk fHeld [.a, .b] true := by
  simp only [State.mayIssue, State.room, State.vrOk]; decide +kernel

theorem wit_VectorFunctions : (∀ i ∈ [Instr.vsqrt { fTop with vb := 0 }, .vrcp { fTop with vb := 0 }, .vrsq { fTop with vb := 0 }, .vexp2 { fTop with vb := 0 },
      .vlog2 { fTop with vb := 0 }, .vabs { fTop with vb := 0 }, .vneg { fTop with vb := 0 }, .vdiv fTop], (at_ 1).mayIssue i 1) ∧ (at_ 1).room
    ∧ (at_ 1).vrOk { fTop with vb := 0 } [.a] true ∧ (at_ 1).vrOk fTop [.a, .b] true := by
  simp only [State.mayIssue, State.room, State.vrOk]; decide +kernel

/-- A NaN, the least subnormal, the greatest number and an infinity of FP32 and of BF16. -/
theorem wit_RoundExact : (∀ f ∈ [Fm.fp32, .bf16], f.isFloat = true) ∧ (valOf .fp32 0x7FC00000).isNan = true
    ∧ (∀ x ∈ [1, 0x80000000, 0xFF7FFFFF], x < 2 ^ 32 ∧ (valOf .fp32 x).isNan = false ∧ (valOf .fp32 x).isInf = false)
    ∧ (valOf .bf16 0xFF80).isInf = true ∧ 0xFF80 < 2 ^ Fm.bits .bf16 := by decide +kernel

theorem wit_VectorLogic : (∀ i ∈ [Instr.vand fTop, .vsra fTop, .radd fTop, .rsub fTop, .vnot { fTop with vb := 0 }, .vsel { fTop with vc := 7 },
      .vmov { fTop with vb := 0, ma := 15 }, .vbcast { fTop with va := 0, vb := 0, be := 1, bc := 63 }, .viota { fTop with va := 0, vb := 0, be := 1 },
      .vfromk { fTop with va := 7, vb := 0 }, .vcmp 0 { fTop with vd := 7, vc := 6 }, .kfromv { fTop with vd := 7, vb := 0, km := 0 },
      .kand { fTwo with vd := 7, va := 7, vb := 7, km := 0 }, .knot { fTwo with vb := 0, km := 0 }], (at_ 1).mayIssue i 1)
    ∧ (at_ 1).room ∧ (at_ 1).vrOk fTop [.a, .b] true ∧ (at_ 1).vrOk { fTop with vd := 7, vc := 6 } [.a, .b] false
    ∧ (at_ 1).vrOk { fTop with va := 0, vb := 0, be := 1, bc := 63 } [] true := by
  simp only [State.mayIssue, State.room, State.vrOk]; decide +kernel

theorem wit_VectorAcross : (∀ i ∈ [Instr.vcvt { fTop with vb := 2, vc := 3 }, .vcvtb { fTop with vb := 5, km := 0 }, .vrsum 0 { fTop with vb := 0 },
      .vrmax 5 { fTop with vb := 0 }, .vrmin 2 { fTop with vb := 0 }, .vscan 7 { fTop with vb := 0, vc := 1 }, .vscan 0 fTop,
      .vcomp2of4 { fTop with vb := 0, vc := 4, km := 0 }, .dot16E4 { fTop with vc := 47 }], (at_ 1).mayIssue i 1) ∧ (at_ 1).room
    ∧ (at_ 1).vrOk { fTop with vb := 2, vc := 3 } [.a] true ∧ (at_ 1).vrOk { fTop with vb := 0, vc := 1 } [.a] true
    ∧ (at_ 1).vrOk fTop [.a, .b] true ∧ (at_ 1).vrOk { fTop with vc := 47 } [.a, .b, .c] true
    ∧ 31 < 1024 / (Fm.ofT ((4#6 : BitVec 6).setWidth 3)).bits / 4
    ∧ (7#3 ≠ 3 ∧ 7#3 ≠ 4 ∧ 127 < 1024 / (Fm.ofT 7#3).bits) := by
  simp only [State.mayIssue, State.room, State.vrOk]; decide +kernel

/-- The last 128 bytes of a tensor of FP32 in the scratchpad; an invalid, a far, a misaligned tensor; one element too far. -/
def fMem : VM := { v := 47, did := 255, off := 0, km := 0, bc := 0, be := 0, res := 0, i := 0 }

theorem wit_VectorMemory :
    let s (d : BitVec 256) : State := at_ 1 (tens 255 d)
    let good := entry 0 32 1 (2 ^ 21 - 128) 128
    let mom := entry 0x11 32 1 (2 ^ 21 - 256) 256
    let d (e : BitVec 256) : Desc := Desc.of ((s e).ctx.desc.get 255)
    let off (i : Int) : Int := i
    (∀ i ∈ [Instr.vld fMem, .vst fMem, .qld { fMem with v := 15 }, .qst { fMem with v := 15 }], (s good).mayIssue i 1) ∧ (s good).room
    ∧ (d good).invalid = false ∧ (d good).fm = .fp32 ∧ (d good).space = 0 ∧ (d good).misaligned = false
    ∧ (∀ e ∈ elemsSel 32 32 32 ((s good).ctx.rk 0) 0, 0 ≤ e.2 ∧ ((d good).split e.2).2.2 < (d good).dim2 ∧ (s good).ctx.elemOut (d good) ((d good).split e.2) = false)
    ∧ (∀ p ∈ (s good).elemPieces (d good) 32 ((s good).ctx.rk 0) (elemsSel 32 32 32 ((s good).ctx.rk 0) 0), (s good).badAt p.loc = false)
    ∧ (d mom).invalid = false ∧ (d mom).fm = .mom ∧ (∀ l, l < 32 → negVar (pairOf (BitVec.ofNat 2048 0) l).2 = false)
    ∧ (d 0).invalid = true ∧ (d (entry 0 32 1 1 128)).misaligned = true ∧ (d (good + 1#256 <<< (52 : Nat))).space = 1
    ∧ (s (good + 1#256 <<< (52 : Nat))).ctx.lentSize = 0
    ∧ (∃ e ∈ elemsSel 32 32 32 ((s good).ctx.rk 0) (off 1), ((d good).split e.2).2.2 = (d good).dim2)
    ∧ (d good).dim0 ≠ 0 ∧ (d good).dim1 ≠ 0 ∧ (d good).w ∈ [8, 16, 32, 64] := by
  simp only [State.mayIssue, State.room]; decide +kernel

/-- A stream of 129 bytes: its last byte stands alone in the second block. -/
theorem wit_FingerprintWord :
    let s (x : BitVec 1024) : State := at_ 1 fun c => { tens 255 (entry 8 129 1 0 129) c with v := Store.set [] 47 x }
    let check : BitVec 1024 := 1#1024 <<< (128 : Nat)
    let d := Desc.of ((s 0).ctx.desc.get 255)
    let f : VM := { fMem with off := 1 }
    (s check).mayIssue (.fprint f) 1 ∧ (s check).room ∧ d.invalid = false ∧ d.misaligned = false ∧ d.space = 0 ∧ d.streamLen = 129 ∧ 128 * 1 < d.streamLen
    ∧ (s check).ctx.outside 0 (d.streamAddr 128) 1 = false ∧ (s check).badAt ((s check).place 0 (d.streamAddr 128).toNat) = false
    ∧ lane ((s check).ctx.rv 47) 4 = 1 ∧ lane ((s 0).ctx.rv 47) 4 = 0 ∧ d.streamLen ≤ 128 + 128 := by
  simp only [State.mayIssue, State.room]; decide +kernel

/-- Tile 7 is another context's; is this one's, shaped 16 by 9, and unshaped. -/
theorem wit_TileWords :
    let s (sh : BitVec 16) : State := at_ 1 id fun k => { k with tshape := Store.set [] 7 sh }
    let other : State := at_ 1 id fun k => { k with towner := [] }
    let f : VT := { fVt with tn := 7 }
    other.me.owns 7 = false ∧ (s 0).me.owns 7 = true ∧ 7 < (s 0).ctx.tilesN
    ∧ (∀ i ∈ [Instr.tcfg { f with rows := 16, cols := 16 }, .tcfgZ { f with rows := 17, cols := 1, zr := 1 }, .tset { f with v := 47, idx := 15 },
        .tget { f with v := 47, idx := 8, dir := 1 }, .tzero f, .trsum { f with v := 47, dir := 1 }], (s 0x130).mayIssue i 1) ∧ (s 0x130).room
    ∧ (s 0x130).me.rows 7 = 16 ∧ (s 0x130).me.cols 7 = 9 ∧ (s 0).me.rows 7 = 0 := by
  simp only [State.mayIssue, State.room]; decide +kernel

/-- Tile 7 at the last rows and columns of an FP32 tensor, and one row past it. -/
theorem wit_TileMemory :
    let s (d : BitVec 256) (sh : BitVec 16) : State := at_ 1 (tens 255 d) fun k => { k with tshape := Store.set [] 7 sh }
    let f : VM := { fMem with v := 7, off := 7 }
    let good := entry 0 16 16 (2 ^ 21 - 1024) 64
    let d (e : BitVec 256) : Desc := Desc.of ((s e 0).ctx.desc.get 255)
    (∀ i ∈ [Instr.tld f, .tst f], (s good 0x130).mayIssue i 1) ∧ (s good 0x130).room ∧ (s good 0x130).me.owns 7 = true
    ∧ (d good).invalid = false ∧ (d good).fm = .fp32 ∧ (d good).space = 0 ∧ (d good).misaligned = false
    ∧ 7 < (s good 0x130).ctx.tilesN ∧ (s good 0x130).me.rows 7 = 16 ∧ (s good 0x130).me.cols 7 = 9
    ∧ 7 + 9 ≤ (d good).dim0 ∧ 16 ≤ (d good).dim1
    ∧ (∀ r, r < 16 → ∀ c, c < 9 → (s good 0x130).ctx.elemOut (d good) ((7 + c : Nat), (r : Nat), 0) = false
        ∧ ∀ l ∈ (firstLoc ((s good 0x130).elemLocs (d good) ((7 + c : Nat), (r : Nat), 0))).run 4, (s good 0x130).badAt l = false)
    ∧ (d 0).invalid = true ∧ (d (good + 1#256 <<< (52 : Nat))).space = 1 ∧ (s (good + 1#256 <<< (52 : Nat)) 0).ctx.lentSize = 0
    ∧ (d (entry 0 16 16 1 64)).misaligned = true ∧ (s good 0).me.rows 7 = 0
    ∧ (d (entry 0 15 16 0 64)).dim0 = 15 := by
  simp only [State.mayIssue, State.room]; decide +kernel

/-- The last moment registers; a pair with a negative variance, which QMAKE meets. -/
theorem wit_MomentWords :
    let f : VR := { fTwo with vd := 15, va := 15, vb := 15 }
    let one : VR := { f with vb := 0 }
    let neg : State := at_ 1 fun c => { c with v := Store.set [] 15 (BitVec.ofNat 1024 0x80000001) }
    (∀ i ∈ [Instr.qadd f, .qsub f, .qmul f, .qfma { f with vc := 15 }, .qrelu one, .qscl { one with be := 1, bc := 63 }, .qmake { f with va := 47, vb := 47 },
        .qcolMean { one with vd := 47 }, .qcolVar { one with vd := 47, vc := 1 }, .qcolSd { one with vd := 47, vc := 2 }], (at_ 1).mayIssue i 1)
    ∧ (at_ 1).room ∧ 15 < (at_ 1).ctx.qregs ∧ 47 < (at_ 1).ctx.vregs ∧ 63 < (at_ 1).ctx.sregs
    ∧ negVar (lane (neg.ctx.rv 15) 0) = true ∧ negVar (lane ((at_ 1).ctx.rv 15) 0) = false ∧ (at_ 1).ctx.rk 4 = 0xFFFFFFFF := by
  simp only [State.mayIssue, State.room]; decide +kernel

theorem wit_VectorControl :
    let l : Loop := { start := 0, stop := 0, rem := 1, opener := 0 }
    let s (ls : List Loop) (save : BitVec 64) (pc : Word) : State := at_ 1 fun c => { c with ve := { c.ve with loops := ls, save := save, pc := pc } }
    let i := Instr.vloop { fVc with imm := 0x1001 }
    (∀ x ∈ [s [l, l, l, l] 0 0, s [l] 0 0, s [] 0 0x1FFFF0, s [] 0x8000000000000000 0], x.mayIssue i 1) ∧ l.stop < 8
    ∧ (s [] 0 0x1FFFF0).ctx.ve.pc.toNat + 8 + 8 = (s [] 0 0).ctx.spmSize ∧ (s [] 0 0).natAt ((s [] 0 0).spmLocs 8 8) / 2 ^ 56 = 0
    ∧ (s [] 0x8000000000000000 0).ctx.ve.save.getLsbD 63 = true
    ∧ (∀ i ∈ [Instr.vcsrr { fVc with imm := 4, bc := 63 }, .vcsrw { fVc with imm := 2, bc := 63, be := 1 }, .vrdv fVc, .vrdvEnd { fVc with imm := 1 },
        .vidle { fVc with imm := 0xFFFFFF }, .vidle { fVc with be := 1, bc := 63 }, .vnop 7 0 7], (at_ 1).mayIssue i 1)
    ∧ (at_ 1).room ∧ (∀ n, n < 8 → (at_ 1).me.owns n = true)
    ∧ 0x3C00 < ((at_ 1 (s1 0x3C010000)).ctx.bcast 1 1).toNat / 2 ^ 16 % 2 ^ 15 ∧ ((at_ 1 (s1 0x3C000000)).ctx.bcast 1 1).toNat / 2 ^ 16 % 2 ^ 15 = 0x3C00
    -- a source held in a latch that another register filled
    ∧ vrHeld { fHeld with va := 46 } .a = true ∧ (at_ 1 latched).ctx.la.tag ≠ 46 ∧ (Instr.vadd 0 { fHeld with va := 46 }).wf = true := by
  simp only [State.mayIssue, State.room]
  refine ⟨by decide +kernel, by decide +kernel, by decide +kernel, by decide +kernel, by decide +kernel, by decide +kernel, by decide +kernel, ?_⟩
  exact ⟨by decide +kernel, by decide +kernel⟩

/-! The matrix engine and the gather unit. -/

/-- A nest of one step at level 0 and tensors 255 and 254 of E4M3 at the end of the scratchpad. -/
def mulAt (d : BitVec 256) (f : Ctx → Ctx := id) : State :=
  at_ 2 fun c => f (tens 255 d (tens 254 (entry 3 32 16 (2 ^ 21 - 512) 32) { c with lnt := Store.set [] 0 (1#144 <<< (128 : Nat)) }))

def fMul : MX := { fMx with acc := 15, da := 255, db := 254, tb := 0, asy := 0, mov := 0, lvl := 0, bc := 63, be := 1, i := 0 }

theorem wit_MultiplyWords :
    let good := entry 3 16 32 (2 ^ 21 - 512) 16
    let s := mulAt good
    let j := jobOf s.ctx .f8 false fMul
    let d (e : BitVec 256) : Desc := Desc.of ((mulAt e).ctx.desc.get 255)
    let db := Desc.of (s.ctx.desc.get 254)
    let full : State := mulAt good fun c => { c with asyncQ := List.replicate 16 j }
    let empty_ : State := mulAt good fun c => { c with lnt := [] }
    s.mayIssue (.mmaF8 fMul) 2 ∧ s.mayIssue (.mmaF8 { fMul with asy := 1, mov := 1 }) 2 ∧ s.room
    ∧ (d good).invalid = false ∧ db.invalid = false ∧ (d good).space = 0 ∧ db.space = 0 ∧ (d good).misaligned = false ∧ db.misaligned = false
    ∧ (d good).fm = .e4m3 ∧ db.fm = .e4m3 ∧ fMul.zc = 1#1 ∧ fMul.ga = 0#1 ∧ j.total = 1
    ∧ (∀ p ∈ (List.range j.total).map j.step, 0 ≤ p.c ∧ p.c ≤ 15 ∧ s.ctx.reserved p.c.toNat = false ∧ p.c.toNat < s.ctx.planesN ∧ 0 ≤ p.pa ∧ 0 ≤ p.pb
        ∧ s.ctx.opOut (d good) (j.aElems p) = false ∧ s.ctx.opOut db (j.bElems p) = false)
    ∧ tagSteps s j j.total ≠ none ∧ 63 < s.ctx.sregs
    ∧ full.ctx.asyncQ.length = 16 ∧ (d 0).invalid = true ∧ (d (good + 1#256 <<< (52 : Nat))).space = 1 ∧ s.ctx.lentSize = 0
    ∧ (d (entry 1 16 32 1 32)).misaligned = true ∧ (d (entry 1 16 32 0 32)).fm = .bf16
    ∧ (jobOf empty_.ctx .f8 false fMul).total = 0
    ∧ s.ctx.opOut (d (entry 3 16 32 (2 ^ 21 - 511) 16)) ({ j with da := entry 3 16 32 (2 ^ 21 - 511) 16 }.aElems (j.step 0)) = true := by
  simp only [State.mayIssue, State.room]; decide +kernel

theorem wit_GroupLands : let j := jobOf (mulAt (entry 3 16 32 0 16)).ctx .f8 false fMul
    j.form ≠ .mom ∧ (List.replicate 512 (none : Option Nat)).length = j.rowsN * j.kN ∧ (List.replicate 512 (some 0x38)).length = j.colsN * j.kN := by
  decide +kernel

/-- A drain to a tensor of FP32, a zero and a load of a plane. -/
theorem wit_DrainWords :
    let good := entry 0 32 32 (2 ^ 21 - 4096) 128
    let s := mulAt good
    let d (e : BitVec 256) : Desc := Desc.of ((mulAt e).ctx.desc.get 255)
    let ps := nestSteps ((List.range 1).map s.ctx.lnt.get) { pa := 0, pb := 0, c := 15, g := 0 }
    let f : MX := { fMd with acc := 15, da := 255, ta := 0, lvl := 0, bc := 63, i := 0 }
    (∀ i ∈ [Instr.drain f, .azero { f with da := 0, zc := 0, rq := 0, sat := 0, bc := 0, be := 0 }, .aload { f with zc := 0, rq := 0, sat := 0 },
        .drainMom { f with acc := 7 }], s.mayIssue i 2) ∧ s.room
    ∧ (d good).invalid = false ∧ (d good).fm = .fp32 ∧ (d good).space = 0 ∧ (d good).misaligned = false ∧ 63 < s.ctx.sregs
    ∧ (startPos s.ctx 1 63).1 = 0 ∧ ps ≠ []
    ∧ (∀ p ∈ ps, 0 ≤ p.c ∧ p.c ≤ 15 ∧ s.ctx.reserved p.c.toNat = false ∧ s.ctx.landing p.c.toNat = false ∧ 0 ≤ p.pa ∧ p.c.toNat < s.ctx.planesN
        ∧ s.ctx.opOut (d good) (allCells.map fun q => cellAt (d good) p.pa false q.1 q.2) = false)
    ∧ (∀ o ∈ drainOut s.ctx false f (d good) (envM s.ctx f.rq f.sat) ps, o.2.2 = false)
    ∧ (d 0).invalid = true ∧ (d (entry 8 32 32 0 32)).fm = .i8 ∧ (d (good + 1#256 <<< (52 : Nat))).space = 1 ∧ s.ctx.lentSize = 0
    ∧ (d (entry 0 32 32 2 128)).misaligned = true
    ∧ s.ctx.opOut (d (good + 4)) (allCells.map fun q => cellAt (d (good + 4)) 0 false q.1 q.2) = true := by
  simp only [State.mayIssue, State.room]; decide +kernel

theorem wit_MatrixControl :
    let job : Job := jobOf (at_ 2).ctx .f8 false fMul
    let busy : State := at_ 2 fun c => { c with asyncQ := List.replicate 16 job }
    let idx : State := at_ 3 (tens 255 (entry 0x0E 32 1 (2 ^ 21 - 128) 128))
    let d := Desc.of (idx.ctx.desc.get 255)
    (∀ i ∈ [Instr.go fMc, .mwait { fMc with imm := 16 }, .mwait { fMc with imm := 15 }, .mwait { fMc with be := 1, bc := 63 }, .mrdv fMc,
        .mrdvEnd { fMc with imm := 1 }, .mcsrr { fMc with imm := 2, bc := 63 }, .mcsrw { fMc with imm := 2, be := 1, bc := 63 }, .midle { fMc with imm := 0xFFFFFF },
        .mnop 7 0 255], busy.mayIssue i 2) ∧ busy.room ∧ busy.ctx.asyncQ.length = 16 ∧ (at_ 2).ctx.asyncQ.length = 0 ∧ 63 < busy.ctx.sregs
    ∧ (busy.ctx.bcast 2 63).toNat / 2 ^ 16 % 2 ^ 15 ≤ 0x3C00
    ∧ (∀ i ∈ [Instr.gidx { fGw with did := 255, cnt := 31 }, .gfill { fGw with off := 0x3FFFFF, cnt := 31, be := 1, bc := 63 }, .grdv fGw,
        .grdvEnd { fGw with did := 1 }, .gidle { fGw with did := 255, off := 0x3FFFC0 }, .gnop 7 0 255], idx.mayIssue i 3) ∧ idx.room
    ∧ d.invalid = false ∧ d.fm = .n32 ∧ d.space = 0 ∧ d.misaligned = false
    ∧ (∀ k, k ≤ 31 → (0 : Int) ≤ 0 + (k : Nat) ∧ (d.split (0 + (k : Nat))).2.2 < d.dim2 ∧ idx.ctx.elemOut d (d.split (0 + (k : Nat))) = false) := by
  simp only [State.mayIssue, State.room]; decide +kernel

/-! Words, steps and landing. -/

theorem wit_DecodeEncode : (Instr.addi 63 63 0x7FF 7).wf = true ∧ encode (.addi 63 63 0x7FF 7) = some (.sq, 0x07FFFFFF)
    ∧ 0x07FFFFFF < 2 ^ (8 * Strm.bytes .sq) := ⟨rfl, rfl, by decide⟩

theorem wit_EncodeDecode : 0x07FFFFFF < 2 ^ (8 * Strm.bytes .sq) ∧ decodeWord .sq 0x07FFFFFF = .ok (.addi 63 63 0x7FF 7) := ⟨by decide, rfl⟩

/-- The next act of the reset machine with one word placed is its issue; the word at the last address, past it, misaligned. -/
theorem wit_StepRunsWord :
    let s (nbits w : Nat) (f : Core → Core := id) : State := let r := State.reset.withFetchWord nbits w
      { r with cores := r.cores.map fun e => (e.1, f e.2) }
    let pc (v : Word) (k : Core) : Core := { k with ctx := { k.ctx with sq := { k.ctx.sq with pc := v } } }
    (∀ x ∈ [s 32 0x07FFFFFF, s 32 0x07FFFFFF (pc 0x1FFFFC), s 32 0x07FFFFFF (pc 0x200000), s 32 0x07FFFFFF (pc 2),
        s 32 0x07FFFFFF fun k => { k with ctx := { k.ctx with sq := { k.ctx.sq with stalled := false } } }],
      State.nextAct { x with turn := x.turn + 1 } = .word 1536 0)
    ∧ State.nextAct { s 64 0x0120213800020051 with turn := 1 } = .word 1536 1
    ∧ stallOf (.addi 63 63 0x7FF 7) = 0 ∧ decodeWord .ve 0x0120213800020051 = .ok (.vadd 1 { fTwo with vd := 8, va := 2, ma := 1, vb := 14, km := 1, sat := 1, hold := 2, i := 1 })
    ∧ 0x1FFFFC + 4 = (s 32 0 |>.core 1536).ctx.spmSize ∧ (s 32 0 |>.core 1536).tasteNow = false := by
  refine ⟨by decide +kernel, by decide +kernel, by decide +kernel, rfl, by decide +kernel, by decide +kernel⟩

/-- Events enough to wait that, whatever the choice at turn 1, one of them is taken. -/
def waiting : State := { State.reset with pend := List.replicate (Config.pick 1 + 2) (Instr.packetDrop, ({ n := 0, m := 1 } : EvArg)) }

theorem choose_long (s : State) (l : List Act) (h : 2 ≤ l.length) : s.choose l = l.getD (Config.pick s.turn % l.length) .tick := by
  match l, h with
  | a :: b :: l, _ =>
    have h : Config.pick s.turn % (l.length + 2) < (a :: b :: l).length := Nat.mod_lt _ (by omega)
    show (a :: b :: l).getD (Config.pick s.turn % (l.length + 2)) a = (a :: b :: l).getD (Config.pick s.turn % (l.length + 2)) .tick
    simp only [List.getD, List.getElem?_eq_getElem h, Option.getD_some]

theorem waiting_acts : State.waitingActs { waiting with turn := 1 } = (List.range (Config.pick 1 + 2)).map .take := by
  have h : State.pend { waiting with turn := 1 } = List.replicate (Config.pick 1 + 2) (Instr.packetDrop, ({ n := 0, m := 1 } : EvArg)) := rfl
  unfold State.waitingActs
  rw [h, List.length_replicate]
  congr 1
  rw [List.filter_eq_self]
  intro m hm
  rw [List.mem_range] at hm
  simp [hm, State.behind, State.inLine, State.carries]

theorem waiting_take : State.nextAct { waiting with turn := 1 } = .take (Config.pick 1) := by
  have h1 : State.midEdge { waiting with turn := 1 } = none := rfl
  have h2 : State.due { waiting with turn := 1 } = [] := by 
    unfold State.due; rfl
  have h3 : ∃ l, State.free_ { waiting with turn := 1 } = (List.range (Config.pick 1 + 2)).map .take ++ l := by
    unfold State.free_
    rw [waiting_acts]
    simp only [List.append_assoc]
    exact ⟨_, rfl⟩
  obtain ⟨l, h3⟩ := h3
  unfold State.nextAct
  rw [h1, h2, h3]
  show State.choose _ _ = _
  rw [choose_long _ _ (by simp; omega)]
  have hl : Config.pick 1 < (List.range (Config.pick 1 + 2)).length := by simp
  show List.getD _ (Config.pick 1 % _) _ = _
  rw [Nat.mod_eq_of_lt (by simp; omega), List.getD, List.getElem?_append_left (by simp)]
  simp

/-- A sieve's word and an event that waits in the queue. -/
theorem wit_StepRunsEvent :
    let sv : State := State.reset.withFetchWord 32 (0x22 * 2 ^ 26 + 1 * 2 ^ 22)
    State.nextAct { sv with turn := 1 } = .sword 0 0 ∧ (∃ r, (State.sv { sv with turn := 1, sfocus := 0 }).run = some r ∧
      (decodeWord .sv ((State.sv { sv with turn := 1, sfocus := 0 }).imem.get
        (((State.sv { sv with turn := 1, sfocus := 0 }).desc r.part).kbase + r.pc)).toNat).toOption = some (.fld 1 0))
    ∧ ∃ m e, State.nextAct { waiting with turn := 1 } = .take m ∧ waiting.pend[m]? = some e := by
  refine ⟨by decide +kernel, ⟨_, rfl, rfl⟩, Config.pick 1, (Instr.packetDrop, { n := 0, m := 1 }), waiting_take, ?_⟩
  show (List.replicate _ _)[_]? = _
  rw [List.getElem?_replicate, if_pos (by omega)]

/-- An item that lands: each effect, at the present edge. -/
def landAt (e : Eff) (f : Ctx → Ctx := id) (g : Core → Core := id) : State :=
  at_ 0 (fun c => f { c with flights := [{ strm := 1, seq := 0, pc := 0, word := 0, a := 0, b := 0, c := 0, script := [(0, 2, e)] }], seq := 1 }) g

/-- The next act is that item's event. -/
theorem wit_StepRunsEvent_lands : State.nextAct { landAt (.sreg 1 1) with turn := 1 } = .ev .resultLand 1536 {} := by decide +kernel

theorem wit_LandRegisters : ∀ e ∈ [Eff.sreg 0 1, .sreg 63 1, .hreg 15 1, .vreg 47 1 1 1, .qreg 15 1 1 1, .kreg 0 1, .kreg 7 1, .desc 255 1,
      .ix (List.replicate 32 1), .pzero [15], .prow 15 31 (List.replicate 32 1)], ∃ x, (landAt e).landing x ∧ x.eff = e := by
  simp only [State.landing]
  intro e he
  simp only [List.mem_cons, List.not_mem_nil, or_false] at he
  rcases he with rfl | rfl | rfl | rfl | rfl | rfl | rfl | rfl | rfl | rfl | rfl <;>
    exact ⟨_, ⟨by decide +kernel, by decide +kernel, rfl, by decide +kernel⟩, rfl⟩

theorem wit_LandControl : (∀ e ∈ [Eff.csr false 0 1, .csr true 1 1, .csr true 2 1, .tcfg 7 16 16 true, .tcfg 0 0 0 false, .tset 7 [(1792, 1), (2047, 2)]],
      ∃ x, (landAt e).landing x ∧ x.eff = e)
    ∧ (∀ n, n < 8 → ((landAt (.tcfg 7 16 16 true)).me.towner.find? fun o => o.1 = n) = some (n, ((at_ 0).ctx.launch, (at_ 0).ctx.p)))
    ∧ (([(1792, 1), (2047, 2)] : List (Nat × BitVec 32)).map (·.1)).Nodup ∧ ∀ e ∈ ([(1792, 1), (2047, 2)] : List (Nat × BitVec 32)), e.1 / 256 = 7 := by
  refine ⟨?_, by decide +kernel, by decide, by decide⟩
  simp only [State.landing]
  intro e he
  simp only [List.mem_cons, List.not_mem_nil, or_false] at he
  rcases he with rfl | rfl | rfl | rfl | rfl | rfl <;>
    exact ⟨_, ⟨by decide +kernel, by decide +kernel, rfl, by decide +kernel⟩, rfl⟩

/-- Two bytes at the end of the scratchpad, as loads, stores and a far load read them, and an outward action at its edge. -/
theorem wit_LandAccesses :
    let l (j : Nat) : Loc := { mem := .spm, unit := 1536, off := 2 ^ 21 - 2 + j }
    let h : Loc := { mem := .hbm, unit := 0, off := 64 }
    let ps : List Piece := [{ dst := 0, w := 8, loc := l 0, sh := 0 }, { dst := 8, w := 4, loc := l 1, sh := 4 }]
    let outs : List Out := [.store h [1, 2] 3, .evset 255, .evclr 0, .csrw 0x03 1, .csrw 0x05 1, .csrw 0x14 1, .csrw 0x18 1, .csrw 0x1A 1,
      .csrw 0x1B 1, .csrw 0x1C 1, .csrw 0x1F 1]
    (∀ e ∈ [Eff.store ps 0xFFF, .rdS 63 (l 0) 2 true 9, .rdH 15 { l 0 with off := 2 ^ 21 - 32 } 9, .rdV 47 ps 9, .rdQ 15 ps 1 9,
        .rdT 7 [(1792, { l 0 with off := 2 ^ 21 - 4 })] 9], ∃ x, (landAt e).landing x ∧ x.eff = e
          ∧ ((landAt e).ctx.flightOf x.seq).strm ≠ 0 ∧ orderedBefore (landAt e).ctx x.seq (classOf ((landAt e).ctx.flightOf x.seq)) [l 0, l 1] = false)
    ∧ Loc.distinct (ps.map (·.loc)) ∧ (∀ p ∈ ps, p.loc.mem ≠ .phy ∧ 0 < p.w ∧ p.sh + p.w ≤ 8)
    ∧ (∀ hnd ∈ [true, false], let e := Eff.far 15 h 8 true hnd []
        ∃ x, (landAt e).ctx.nextItem = some x ∧ x.eff = e ∧ x.t ≤ (landAt e).ctx.ctime
          ∧ orderedBefore (landAt e).ctx x.seq (classOf ((landAt e).ctx.flightOf x.seq)) (h.run 8) = false
          ∧ (landAt e).hbmHeld h = false ∧ (landAt e).hostClear (h.run 8) = landAt e)
    ∧ (∀ o ∈ outs, ∃ x, (landAt (.out o)).me.live = true ∧ (landAt (.out o)).readyOut = some (x, o) ∧ (landAt (.out o)).me.tasteBad = 0)
    ∧ h.mem ≠ .phy ∧ (at_ 0).ctx.asid = 0 ∧ (at_ 0).inWindow h = false ∧ (at_ 0).ctx.launch = 0 ∧ 4 < (at_ 0).ctx.frame.pcs.length := by
  refine ⟨?_, by simp only [Loc.distinct, Loc.same]; decide +kernel, by decide +kernel, ?_, ?_, by decide, by decide +kernel, by decide +kernel, by decide +kernel, by decide +kernel⟩
  · simp only [State.landing]
    intro e he
    simp only [List.mem_cons, List.not_mem_nil, or_false] at he
    rcases he with rfl | rfl | rfl | rfl | rfl | rfl <;>
      exact ⟨_, ⟨by decide +kernel, by decide +kernel, rfl, by decide +kernel⟩, rfl, by decide +kernel, by decide +kernel⟩
  · intro e he
    simp only [List.mem_cons, List.not_mem_nil, or_false] at he
    rcases he with rfl | rfl <;> exact ⟨_, rfl, rfl, by decide +kernel, by decide +kernel, by decide +kernel, by decide +kernel⟩
  · intro o ho
    simp only [List.mem_cons, List.not_mem_nil, or_false] at ho
    rcases ho with rfl | rfl | rfl | rfl | rfl | rfl | rfl | rfl | rfl | rfl | rfl <;> exact ⟨_, by decide +kernel, rfl, by decide +kernel⟩

theorem wit_TasterHolds :
    let o : Out := .evset 3
    let s (n : Nat) : State := landAt (.out o) id fun k => { k with tasteBad := n }
    let z (n : Nat) : State := landAt (.out o) (fun c => { c with freeze := [(0, .taster)] }) fun k => { k with tasteBad := n }
    (∃ x, (s 2).readyOut = some (x, o)) ∧ (s 2).me.live = true ∧ (s 2).me.tasteBad ≠ 0 ∧ (s 2).ctx.freeze = []
    ∧ (z 0).ctx.freeze = [(0, .taster)] ∧ (z 0).me.tasteBad = 0 ∧ (z 1).me.tasteBad ≠ 0 ∧ (z 1).ctx.launch = 0 := by
  refine ⟨⟨_, rfl⟩, ?_⟩
  decide +kernel

/-! The Ladle. -/


/-- The premises that LadleWords names, in its order: suits, reach, cached, may, aligned, inside, present, locks; then whether the
command has a queue that is full. -/
def ladConds (f : LW) (x : LSpec) (s : State) : List Bool :=
  let c := s.ctx
  let counts := decide (f.cw = 1#1)
  let dc := c.descOf f.dc.toNat
  let ds := x.ds ++ (if f.cw = 1#1 then [dc] else [])
  let ops := x.ops ++ (if f.cw = 1#1 then [LOp.els dc [dc.lsplit f.offc.toNat] true true] else [])
  let far (ok : LOp → Int → Bool) : Bool := ops.all fun o => o.addrs.all fun a => o.space != 3 || c.outside 3 a o.w || ok o a
  let page (a : Int) (ok : TlbE → Bool) : Bool := match s.ladXl a with
    | .page e => ok e
    | _ => true
  let rounds := if f.ord = 1#1 then assignRounds c.rounds x.elems else (c.rounds, x.elems)
  let bar := s.bar s.focus (decide (f.bdie = 1#1)) f.bid.toNat
  let declared := decide (f.bid.toNat < c.barsN)
  [ds.all (fun d => !d.invalid) && !x.bad && (!counts || decide (dc.fm = .n32))
  , ops.all (fun o => o.space != 1 || (c.lentSize != 0 && f.mov == 0#1)) && (f.ba == 0#1 || !declared || bar.members.contains (c.agent false true))
  , far fun _ a => s.ladXl a != .miss
  , far fun o a => page a fun e => (!o.rd || e.rd) && (!o.wr || e.rd || e.wr)
  , (ds ++ x.ringDs).all fun d => !d.misaligned
  , ops.all (fun o => !o.past && o.addrs.all fun a => !c.outside o.space a o.w) && !x.exceeds
      && (f.ba == 0#1 || (declared && decide (x.payload < 2 ^ 28)))
      && decide ((s.pagesOf (vaUses c ops)).length ≤ 1024) && decide (rounds.1.length ≤ 1024)
  , far fun o a => s.ladXl a != .absent && page a fun e => !o.wr || e.wr || !e.rd
  , decide (c.locksUsed + (s.pagesOf (vaUses c ops)).length ≤ 1024)
  , decide (c.queueLen f.qn.toNat < 32)]

/-- A destination of 16 elements of FP32 in virtual memory, a source in the kernel's scratchpad. -/
def ladAt (far near : BitVec 256) (f : Ctx → Ctx := id) (g : Core → Core := id) : State :=
  at_ 4 (fun c => f (tens 255 far (tens 254 near c))) g

def virt_ (base : Nat) : BitVec 256 := entry 0 16 1 base 64 + 3#256 <<< (52 : Nat)

/-- Queue 3, 16 elements. -/
def fCopy : LW := { fLw with qn := 3, dd := 255, ds := 254, cnt := 16 }

def fPoint : LW := { fCopy with ba := 1, bid := 15 }

theorem wit_LadleWords :
    let near := entry 0 16 1 (2 ^ 21 - 64) 64
    let pg (rd wr : Bool) (k : Core) : Core := { k with tlb := [page rd wr] }
    let s (far near : BitVec 256) (f : Ctx → Ctx := id) (g : Core → Core := pg true true) : State := ladAt far near f g
    let conds (w : LW) (t : State) : List Bool := ladConds w (moveSpec w 1 .copy false (fun d e => d.fm != e.fm) t) t
    let v := virt_ 64
    let cmd (n : Nat) : LCmd := { id := 0, kind := .copy, qn := 3, cls := 0, sco := 0, pages := List.replicate n (0, 65536) }
    let me : Nat := (at_ 4).ctx.agent false true
    let bar (b : Bar) (c : Ctx) : Ctx := { c with bars := [(15, b)] }
    let point (b : Bar) : State := s v near (bar b)
    let free : Bar := { members := [me] }
    let pay (b : Bar) : Nat := b.pend + (moveSpec fPoint 1 .copy false (fun d e => d.fm != e.fm) (point b)).payload
    (Instr.copy1d fCopy).wf = true
    ∧ conds fCopy (s v near) = List.replicate 9 true
    ∧ (conds fCopy (s 0 near)).head? = some false
    ∧ (conds { fCopy with cw := 1, dc := 255 } (s v near)).head? = some false
    ∧ (conds fCopy (s v (near + 1#256 <<< (52 : Nat)))).take 2 = [true, false]
    ∧ (conds fCopy (s v near id id)).take 3 = [true, true, false]
    ∧ (conds fCopy (s v near id (pg false false))).take 4 = [true, true, true, false]
    ∧ (conds fCopy (s (virt_ 65) near)).take 5 = [true, true, true, true, false]
    ∧ (conds fCopy (s v (entry 0 16 1 (2 ^ 21 - 60) 64))).take 6 = [true, true, true, true, true, false]
    ∧ (conds fCopy (s v near id (pg true false))).take 7 = [true, true, true, true, true, true, false]
    ∧ (conds fCopy (s v near id fun k => { k with xres := [(0, 0, none)] })).take 7 = [true, true, true, true, true, true, false]
    ∧ (conds fCopy (s v near fun c => { c with cmds := [cmd 1024] })) = [true, true, true, true, true, true, true, false, true]
    ∧ (conds fCopy (s v near fun c => { c with cmds := List.replicate 32 (cmd 0) })) = [true, true, true, true, true, true, true, true, false]
    ∧ (∀ b ∈ [free, { free with arrived := [me] }, { free with pend := 2 ^ 28 - 64 }, { free with pend := 2 ^ 28 - 65 }, { free with broken := true }],
        conds fPoint (point b) = List.replicate 9 true ∧ (point b).bar 1536 false 15 = b)
    ∧ (conds fPoint (point {})).take 2 = [true, false]
    ∧ pay { free with pend := 2 ^ 28 - 64 } = 2 ^ 28 ∧ pay { free with pend := 2 ^ 28 - 65 } < 2 ^ 28
    ∧ (moveSpec fCopy 1 .copy false (fun d e => d.fm != e.fm) (s v near)).noQueue = false := by
  refine ⟨rfl, ?_⟩
  decide +kernel

/-- A ring of 2 entries of 4 elements, a fence that names no queue, and the Ladle's control words. -/
theorem wit_LadleWords_rings :
    let f : LW := { fCopy with dc := 15, cnt := 2, offs := 0 }
    let s : State := ladAt (virt_ 64) (entry 0 16 1 0 64) (tens 255 (entry 0 4 2 (2 ^ 21 - 32) 16)) fun k => { k with tlb := [page true true] }
    let d := Desc.of (s.ctx.desc.get 254)
    let rd := s.ctx.ringDesc 15
    (∀ enq, (ringSpec f enq s).wait = (if enq then none else some (.ringFill 15 2)) ∧ (ringSpec f enq s).exceeds = false
      ∧ (ringSpec { f with cnt := 3 } enq s).exceeds = true)
    ∧ d.invalid = false ∧ ringBad rd = false ∧ rd.dim0 * rd.w / 8 / 4 = 4
    ∧ (Instr.qfence { fLw with cnt := 0 }).wf = true
    ∧ ∀ i ∈ [Instr.lrdv { fLw with i := 255 }, .lrdvEnd { fLw with cnt := 1 }, .lidle { fLw with offd := 0xFFFFF, offs := 0xF }, .lnop 0xF (2 ^ 112 - 1) 255], s.mayIssue i 4 := by
  simp only [State.mayIssue]
  exact ⟨by decide +kernel, by decide +kernel, by decide +kernel, by decide +kernel, rfl, by decide +kernel⟩

/-- Core 1536 in the midst of Ladle commands, at the act `m` on element `k` of command 5. -/
def ladRun (cmds : List LCmd) (k : Nat) (f : Ctx → Ctx := id) (g : State → State := id) : State :=
  g { at_ 4 (fun c => f { c with cmds := cmds, lseq := 9 }) with arg := { n := 1536, m := 5, k := k } }

def cmd5 : LCmd := { id := 5, kind := .copy, qn := 3, cls := 0, sco := 0 }

/-- Whether act `e` of command `x` may be performed in `z`, which holds that command once and stands on no other access to host memory. -/
def portReady (z : State) (x : LCmd) (e : Nat) : Bool :=
  let h := homeOf z.arg
  let c := z.ctxAt h
  decide (c.cmds.find? (fun y => y.id = z.arg.m) = some x) && decide ((c.cmds.map (·.id)).Nodup) && (z.ladActs h x).contains (.port e)
    && decide ((z.noteStart h x.id).hostDone (z.actLocs h x.id (.port e)) (h, x.id, e) = z.noteStart h x.id)

/-- Whether the bytes `dst` are such as a port action combines. -/
def plainAt (z : State) (dst : List Loc) : Bool :=
  !z.anyBad dst && dst.all fun l => l.mem != .phy && !z.inWindow l && !z.hbmHeld l

/-- Four bytes of HBM or of host memory, in the last element of one command, and a value to combine with them; of host memory, with
and without the bytes that an I/O die has read of it. -/
theorem wit_LadleEvents :
    let dst := ({ mem := .hbm, unit := 7, off := 64 } : Loc).run 4
    let far := ({ mem := .host, unit := 0, off := 0x4000 } : Loc).run 4
    let y (dst : List Loc) (old : Option (List Byte)) : LElem :=
      { src := ({ mem := .spm, unit := 1536, off := 0 } : Loc).run 4, dst := dst, val := some [1, 2, 3, 4], old := old }
    let y2 : LElem := { y dst none with val := some [0, 0, 0, 0, 5, 6, 7, 8] }
    let x (kind : LKind) (ord : Bool) (y : LElem) : LCmd := { cmd5 with kind := kind, ord := ord, elems := [{ y with done := true }, y], bar := some (false, 15), payload := 8 }
    let s (x : LCmd) : State := ladRun [x] 1
    let due (z : State) (dst : List Loc) : Nat × Nat := z.ordDue (z.ordSt (z.ordKey (homeOf z.arg)) (firstLoc dst))
    let ok (x : LCmd) (dst : List Loc) : Bool := portReady (s x) x 1 && plainAt (s x) dst && !(s x).ladViolates (s x).ctx dst
    (∀ f ∈ [(Fm.fp32, 0), (.fp32, 1), (.fp32, 2), (.i32, 3), (.n32, 4), (.rq32, 5)], ∀ ord, f.1.bits / 8 = 4 ∧
      ∀ z ∈ [(dst, none), (far, none), (far, some [9, 9, 9, 9])], ok (x (.acc f.1 f.2) ord (y z.1 z.2)) z.1 = true
        ∧ due (s (x (.acc f.1 f.2) ord (y z.1 z.2))) z.1 = (0, (s (x (.acc f.1 f.2) ord (y z.1 z.2))).ctx.p))
    ∧ (let x1 := x (.acc .fp32 0) true { y dst none with round := 1 }
      ok x1 dst = true ∧ due (s x1) dst ≠ (1, (s x1).ctx.p))
    ∧ ok (x .xchg false (y dst none)) dst = true ∧ ok (x .cmpx false y2) dst = true
    ∧ Loc.distinct dst ∧ Loc.distinct far := by
  simp only [Loc.distinct, Loc.same]; decide +kernel

/-- A violating write; a contribution that waits, in HBM and in both halves in host memory. -/
theorem wit_LadleEvents_order :
    let tbl := (State.hbmLoc Config.asidRoot).run 4
    let y (dst : List Loc) (old : Option (List Byte)) : LElem := { src := [], dst := dst, val := some [1, 2, 3, 4], old := old }
    let viol : LCmd := { cmd5 with kind := .xchg, elems := [y tbl none] }
    let bad : State := ladRun [viol] 0 fun c => { c with asid := 1 }
    let w : OrdWait := { round := 0, prod := 0, cmd := 5, elem := 0, bytes := [1, 2, 3, 4], fm := .fp32, op := 0 }
    let x (y : LElem) : LCmd := { cmd5 with kind := .acc .fp32 0, ord := true, elems := [{ y with ret := true }] }
    let o (dst : List Loc) : OrdSt := { launch := 1, loc := firstLoc dst, n := 1, round := 0, prod := 0, waits := [w] }
    let ord (y : LElem) : State := { (ladRun [x y] 0 id fun s => s.onDie 0 fun d => { d with ords := [o y.dst] }) with arg := { n := 0, k := 0 } }
    (bad.ladViolates bad.ctx tbl = true ∧ portReady bad viol 0 = true)
    ∧ ∀ q ∈ [(({ mem := .hbm, unit := 0, off := 64 } : Loc).run 4, none), (({ mem := .host, unit := 0, off := 0x4000 } : Loc).run 4, none),
        (({ mem := .host, unit := 0, off := 0x4000 } : Loc).run 4, some [9, 9, 9, 9])],
      let due := ord (y q.1 q.2)
      (due.die due.arg.n).ords[due.arg.k]? = some (o q.1) ∧ (o q.1).waits.find? (fun z => (z.round, z.prod) = due.ordDue (o q.1)) = some w
      ∧ due.producerHome 1 0 = some (.run 1536) ∧ plainAt due q.1 = true ∧ q.1.length = w.fm.bits / 8
      ∧ (due.ctxAt (.run 1536)).cmds.find? (fun z => z.id = w.cmd) = some (x (y q.1 q.2))
      ∧ due.hostDone (due.actLocs (.run 1536) 5 (.port 0)) (.run 1536, 5, 0) = due := by decide +kernel

/-- Retirement: a failed command, one of a queue that a violation stopped, a word that cannot be decoded at its first and its second
performance, a count that is due, a barrier arrival with and without an earlier one, fences and arrivals before which nothing waits. -/
theorem wit_LadleEvents_retire :
    let dst := ({ mem := .hbm, unit := 0, off := 64 } : Loc).run 4
    let b (r : Bar) (c : Ctx) : Ctx := { c with bars := [(15, r)] }
    let ret (x : LCmd) (f : Ctx → Ctx := id) (g : State → State := id) : State := ladRun [x] 0 f g
    let me := (at_ 4).ctx.agent false true
    let may (x : LCmd) (f : Ctx → Ctx := id) : Bool :=
      State.mayRetire (ret x f).ctx x && decide ((ret x f).ctxAt (homeOf (ret x f).arg) = (ret x f).ctx)
    let foul : LCmd := { cmd5 with kind := .cwrite, cw := some dst }
    let spoilt (s : State) : State := s.onDie 0 fun d => { d with hbmErr := [(64 / 32, 7)] }
    (∀ x ∈ [{ cmd5 with failed := true }, { cmd5 with cw := some dst, cdone := true }, cmd5, { cmd5 with bar := some (false, 15) },
        { cmd5 with kind := .barrive, bar := some (false, 15) }, { cmd5 with kind := .qfence 15, bar := some (false, 15) }, foul,
        { foul with tries := 1 }], may x = true)
    ∧ may { cmd5 with elems := [{ src := [], dst := [] }] } (fun c => { c with vq := [3] }) = true
    ∧ may cmd5 (fun c => { c with cmds := cmd5 :: [{ cmd5 with id := 6 }] }) = true
    ∧ (ret foul id spoilt).anyBad dst = true ∧ (ret foul).anyBad dst = false ∧ plainAt (ret foul) dst = true
    ∧ (ret cmd5 (b { members := [me] })).barAt (.run 1536) false 15 = { members := [me] }
    ∧ (ret cmd5 (b { members := [me], arrived := [me] })).barAt (.run 1536) false 15 = { members := [me], arrived := [me] }
    ∧ 3 ∉ (ret cmd5).ctx.vq := by decide +kernel

/-- A command performed again after an error; a Ladle command and a matrix command that core 1 may take from core 0. -/
theorem wit_LadleEvents_takes :
    let y : LElem := { src := [], dst := [] }
    let again : LCmd := { cmd5 with elems := [{ y with done := true }, { y with bad := true }] }
    let scan : LCmd := { cmd5 with kind := .scan .fp32 [], elems := [{ y with bad := true }, y] }
    let job : Job := { mov := true, asy := true, id := 7 }
    let two (c : Ctx) (b : Bool) : State :=
      { State.reset with cores := [(0, { live := true, ctx := c }), (1, {})], ref := 256, arg := { n := 1, m := 0, b := b } }
    let lad : State := two { cmds := [{ cmd5 with mov := true, elems := [y] }] } false
    let mat : State := two { asyncQ := [job] } true
    (∀ x ∈ [again, scan], (ladRun [x] 0).ctx.cmds.find? (fun z => z.id = 5) = some x ∧ x.tries = 0 ∧ x.failed = false ∧ (∃ y ∈ x.elems, y.bad = true))
    ∧ (∀ k, k < 2 → (again.elems.getD k y).done = true ∨ (again.elems.getD k y).bad = true)
    ∧ lad.nextServed 1 = some 0 ∧ lad.mayTake 1 0 false = true ∧ (lad.movCmd 0).isSome = true
    ∧ mat.nextServed 1 = some 0 ∧ mat.mayTake 1 0 true = true
    ∧ (mat.core 0).ctx.asyncQ.find? (fun j => j.mov && j.next = 0 && j.taker.isNone && !j.lent) = some job := by decide +kernel

/-! The sieves and the fabric. -/

/-- Tables that map the first GiB of ASID 0 to HBM of die 0 from 2 GiB on. -/
def mapped (s : State) : State :=
  ((s.setDword Config.asidRoot 0x50000001).setDword 0x50000000 0x50010001).setDword 0x50010000 0x8000000F

/-- Sieve 0 of I/O die 0 at address 0 of the partition `raw`, in a packet of one flit. -/
def sieveAt (f : SRun → SRun := id) (raw : Nat := 0) (g : Sieve → Sieve := id) (m : State → State := mapped) : State :=
  let x := State.wordSieve 0
  (m State.reset).setSieve 0 0 (g { x with run := x.run.map f, part := Store.set [] 0 (x.part.get 0 ||| BitVec.ofNat 256 raw) })

theorem wit_SieveWords :
    let l : Loop := { start := 0, stop := 0, rem := 1, opener := 0 }
    let ls : List (List Loop) := [[], [l], [l, { l with rem := 2 }], [l, { l with stop := 1 }]]
    let s : State := sieveAt id (255 * 2 ^ 240 + (Config.poolBase + 256) * 2 ^ 156)
    let dp := s.sv.desc 0
    let spot := (s.ioLocs dp.asid true 3 (dp.tring + 32 * 0) 32)
    (∀ x ∈ ls, ((sieveAt fun r => { r with loops := x }).sv.run.map (·.loops)) = some x)
    ∧ (∀ i ∈ [Instr.sieveAdd 15 15 15, .sieveMovi 15 0x20000, .sieveMovhi 15 0x3FFF, .sieveVadd 15 0 15 6 3, .vscn 15 0 15 0 3, .sieveVcmp 3 15 15 6 3 5,
        .sieveVcmp 3 15 15 2 3 6, .vsplat 15 15 3, .sieveVsel 15 0 15 3, .vext 15 0 15, .vins 15 0 15, .pld 15 15 63, .pst 15 0 0, .fld 15 3, .fst 15 3, .hdr 15 6,
        .sieveBeq 0 15 0x3FFFF, .send 15 15, .sieveLoop 255 0x3FF, .drop, .sieveDone, .traps 255, .snop 7 0x3FFFFFF], i.wf = true)
    ∧ (∀ c ∈ [508, 511, 512], (sieveAt fun r => { r with cycles := c }).sv.run.map (·.cycles) = some c)
    ∧ s.sv.queue = [] ∧ s.sv.run.map (fun r => (r.pkt.len, r.part)) = some (1, 0)
    ∧ dp.asid = 0 ∧ nodeBad dp.node = false ∧ dp.evb = 255
    ∧ ((sieveAt id 0 id id).ioLocs 0 true 3 0 32 = none)
    ∧ spot = some (({ mem := .hbm, unit := 0, off := 2 ^ 31 } : Loc).run 32)
    ∧ (∀ k ∈ ({ mem := .hbm, unit := 0, off := 2 ^ 31 } : Loc).run 32, k.mem ≠ .phy ∧ s.inWindow k = false ∧ s.hbmHeld k = false ∧ k ≠ State.hbmLoc (dp.node + 0x40 + dp.evb / 8)) := by
  refine ⟨by decide +kernel, ?_, by decide +kernel, by decide +kernel, by decide +kernel, by decide +kernel, by decide +kernel, by decide +kernel,
    by decide +kernel, by decide +kernel, by decide +kernel⟩
  intro i hi
  simp only [List.mem_cons, List.not_mem_nil, or_false] at hi
  rcases hi with rfl | rfl | rfl | rfl | rfl | rfl | rfl | rfl | rfl | rfl | rfl | rfl | rfl | rfl | rfl | rfl | rfl | rfl | rfl | rfl | rfl | rfl | rfl <;> rfl

/-- The first GiB of ASID 3 is the one of module HBM that holds the tables. -/
def mapped3 (s : State) : State :=
  ((s.setDword (Config.asidRoot + 24) 0x50000001).setDword 0x50000000 0x50010001).setDword 0x50010000 0x4000000F

/-- A trap record that is written, and one whose page maps a translation table under another ASID; a target of a pair that was
never assigned, and of one that was. -/
theorem wit_SieveWords_records :
    let s : State := sieveAt id (255 * 2 ^ 240 + (Config.poolBase + 256) * 2 ^ 156)
    let dp := s.sv.desc 0
    let ls := ({ mem := .hbm, unit := 0, off := 2 ^ 31 } : Loc).run 32
    let lost : State := sieveAt id (3 * 2 ^ 208) id mapped3
    let tbl := ({ mem := .hbm, unit := 0, off := Config.asidRoot } : Loc).run 32
    let send (gen : Nat) : State := sieveAt id (gen * 2 ^ 224 + 1 * 2 ^ 29) fun x => { x with target := Store.set [] 0 (1#128 <<< (127 : Nat)) }
    (∀ l ∈ ls, l.mem ≠ .host) ∧ s.inTables ls = false ∧ s.badAt (State.hbmLoc (dp.node + 0x40 + dp.evb / 8)) = false
    ∧ lost.ioLocs 3 true 3 0 32 = some tbl ∧ lost.inTables tbl = true ∧ (lost.sv.desc 0).asid = 3
    ∧ (∀ g ∈ [0, 7], ((send g).sv.desc 0).tcount ≠ 0 ∧ ((send g).sv.target.get 0).toNat / 2 ^ 127 = 1)
    ∧ (send 0).unassigned 0 0 = false ∧ (send 7).unassigned 0 7 = true := by decide +kernel

/-- A packet of KIND `kind` for module `dmod` from ASID `asid`, that counts at counter `cnt`, of `flow`, with `body`. -/
def packet (kind dmod asid cnt flow : Nat) (body : List (BitVec 512)) (sv : Nat := 0) (arg : Nat := 0) : Packet :=
  { head := BitVec.ofNat 512 (header 0 kind dmod asid 7 cnt 64 body.length + sv + flow * 2 ^ (128 + 32) + arg * 2 ^ 256), body := body }

theorem wit_FabricEvents_packets :
    let at0 (p : Packet) (b : Bool) (f : Iod → Iod := id) (m : State → State := mapped) : State :=
      { (m State.reset).onIod 0 f with arg := { n := 0, m := 11, pkt := p, b := b }, retired := [(9, 7)] }
    let imp (d : Iod) : Iod := { d with import_ := Store.set [] 0 (BitVec.ofNat 64 (2 ^ 63 + 3 * 2 ^ 32 + 0 * 2 ^ 16 + 7)) }
    let good : Packet := packet 0 0 0 0xFFF 0 [1, 2]
    let badP : Packet := { good with head := good.head ||| 3#512 <<< (62 : Nat) }
    let own : State := at0 good true
    let word : List Loc := ({ mem := .pantry, unit := 0, off := 0x3FFF800 } : Loc).run 4
    let ls := ({ mem := .hbm, unit := 0, off := 2 ^ 31 + 64 } : Loc).run 128
    badP.bad = true ∧ good.bad = false ∧ good.dmod = Config.moduleId ∧ (packet 0 1 0 0 0 []).dmod ≠ Config.moduleId
    ∧ (own.iod 0).removed = false ∧ good.sasid = 0 ∧ good.gen = 7 ∧ (0, 7) ∉ own.retired ∧ (packet 0 0 9 0 0 [1]).sasid = 9 ∧ (9, 7) ∈ own.retired
    ∧ ((at0 good false).iod 0).import_.get 0 = 0 ∧ ((at0 good false imp).iod 0).import_.get 0 = BitVec.ofNat 64 (2 ^ 63 + 3 * 2 ^ 32 + 0 * 2 ^ 16 + 7)
    ∧ (packet 0 0 3 0 0 [1]).sasid = 3 ∧ (packet 0 0 0 0 0 [1] 1).sv = true ∧ good.sv = false
    ∧ own.invalidating 0 64 = false ∧ ({ own with invGo := true, invBase := 0, invLen := 65536 } : State).invalidating 0 64 = true
    ∧ own.ioLocs 0 true (State.ioFuel good.size) good.addr good.size = some ls ∧ ls.length = good.size ∧ good.size ≤ good.bytes.length
    ∧ (∀ l ∈ ls, l.mem ≠ .phy ∧ own.inWindow l = false ∧ own.hbmHeld l = false ∧ l ∉ word)
    ∧ (∀ l ∈ ls, l.mem ≠ .host) ∧ own.inTables ls = false ∧ own.anyBad word = false
    ∧ (own.onDie 0 fun d => { d with panErr := Store.set [] (0x3FFF800 / 32) 7 }).anyBad word = true
    ∧ (let x : State := at0 (packet 0 0 3 0xFFF 0 [1, 2]) true id mapped3
      let p := x.arg.pkt
      let ls := ({ mem := .hbm, unit := 0, off := Config.asidRoot + 64 } : Loc).run 128
      p.sasid = 3 ∧ x.ioLocs 3 true (State.ioFuel p.size) p.addr p.size = some ls ∧ x.inTables ls = true)
    ∧ (at0 good true id id).ioLocs 0 true (State.ioFuel good.size) good.addr good.size = none
    ∧ own.ioLocs 0 false (State.ioFuel 128) good.addr 128 = some ls ∧ good.len = 2 ∧ own.anyBad ls = false
    ∧ (own.onDie 0 fun d => { d with hbmErr := Store.set [] ((2 ^ 31 + 64) / 32) 7 }).anyBad ls = true
    ∧ (packet 4 0 0 0 0 [] 0 5).arg = 5 ∧ (packet 4 0 0 0 0 []).cnt = 0 := by decide +kernel

/-- Packets for a sieve: no partition that fits, one that does, with the queue empty, filled to 63 and full; the loader's five
verdicts on partition 0; the end of a partition; ports; the notify table. -/
theorem wit_FabricEvents_sieves :
    let p : Packet := packet 0 0 0 0xFFF 4095 [1] 1
    let raw := 7 * 2 ^ 224
    let idle (x : Sieve) : Sieve := { x with run := none }
    let q (n : Nat) (x : Sieve) : Sieve := { x with queue := List.replicate n (true, p) }
    let s (g : Sieve → Sieve) : State := { sieveAt id raw g with arg := { n := 0, m := 11, pkt := p, b := true } }
    let fits (x : State) (k e : Nat) : Bool :=
      let d := (x.sieve 0 0).desc k
      d.v && decide (d.fbase ≤ e) && decide (e < d.fbase + d.fcount) && d.asid = 0 && d.gen = 7
    let desc (len : Nat) (more : Nat := 0) : Nat := 1 * 2 ^ 71 + len * 2 ^ 44 + more
    let load (raw : Nat) (words : Store 32) (other : Nat := 0) : State :=
      let x : Sieve := { imem := words, part := Store.set (Store.set [] 1 (BitVec.ofNat 256 other)) 0 (BitVec.ofNat 256 raw) }
      { (State.reset.setSieve 0 0 x).onIod 0 fun d => { d with loading := [(0, 0)] } with arg := { n := 0 } }
    let y (t : State) : Part := (t.sieve 0 0).desc 0
    p.flow / 2 ^ 12 = 0 ∧ p.flow % 2 ^ 12 = 4095 ∧ (p.sasid, p.gen) ∉ (s id).retired
    ∧ fits (s id) 0 4095 = true ∧ (∀ k, k < 64 → fits { sieveAt with arg := (s id).arg } k 4095 = false)
    ∧ ((s (q 64)).sieve 0 0).queue.length = 64 ∧ ((s (q 63)).sieve 0 0).queue.length < 64 ∧ ((s (q 63)).sieve 0 0).run.isSome = true
    ∧ ((s idle).sieve 0 0).queue = [] ∧ ((s idle).sieve 0 0).run = none
    ∧ (∀ r ∈ [0, desc 0, 4097 * 2 ^ 71 + 2 ^ 44, desc 1 (65 * 2 ^ 29), desc 1 (4095 * 2 ^ 84) + 2 ^ 71, desc 2 (4095 * 2 ^ 56)],
        (y (load r [])).fcount = 0 ∨ (y (load r [])).klen = 0 ∨ 4096 < (y (load r [])).fcount ∨ 64 < (y (load r [])).tcount
          ∨ 4096 < (y (load r [])).fbase + (y (load r [])).fcount ∨ 4096 < (y (load r [])).kbase + (y (load r [])).klen)
    ∧ (y (load (desc 1 1) [])).reserved = true
    ∧ ((load (desc 1) []).iod 0).loading = (0, 0) :: []
    ∧ (match decodeWord .sv 0x3B000000 with | .error _ => true | .ok _ => false) = true := by decide +kernel

theorem wit_FabricEvents_ports :
    let s (f : Iod → Iod := id) : State := { State.reset.onIod 0 f with arg := { n := 0, m := 11, k := 0 } }
    let unload : State := { sieveAt fun r => { r with part := 0 } with arg := { n := 0, m := 0, k := 0 } }
    let arm : State := { State.reset with notify := Store.set [] 61 (BitVec.ofNat 64 (2 ^ 63)), arg := { n := 61 } }
    let lk (mask : Bool) : State := { arm with links := tput 0 { up := true, msix := Store.set [] 63 (if mask then 0 else 1#128 <<< (96 : Nat)) } arm.links }
    11 < Config.portsPerIod ∧ 11 ∉ ((s id).iod 0).portDown ∧ 11 ∈ ((s fun d => { d with portDown := [11] }).iod 0).portDown
    ∧ (∃ r ∈ (unload.sieve 0 0).run, r.part = unload.arg.k)
    ∧ (∃ r ∈ (sieveAt id 0 fun x => { x with unload := [0] }).sv.run, r.part ∈ (sieveAt id 0 fun x => { x with unload := [0] }).sv.unload ∧ r.cycles + 1 ≤ 512)
    ∧ (sieveAt id 0 fun x => { x with unload := [0] }).sv.queue = []
    ∧ (arm.notify.get 61).getLsbD 63 = true ∧ (arm.notify.get 60).getLsbD 63 = false ∧ 61 < 62
    ∧ ((lk true).link 0).up = true ∧ (((lk true).link 0).msix.get 63).getLsbD 96 = false ∧ (((lk false).link 0).msix.get 63).getLsbD 96 = true := by decide +kernel

/-- The host's window 0: HBM at the edge of its GiB, the Pantry and a scratchpad at their last bytes and one past them. -/
theorem wit_FabricEvents_aperture :
    let w (tgt base : Nat) : BitVec 64 := BitVec.ofNat 64 (2 ^ 63 + tgt * 2 ^ 60 + base * 2 ^ 30)
    let s (tgt base m : Nat) (f : Link → Link := id) : State :=
      { State.reset with links := tput 0 (f { up := true, apwin := Store.set [] 0 (w tgt base) }) State.reset.links
                         arg := { n := 0, m := m, b := true, bytes := [1, 2] } }
    let fld (t : State) : Nat × Nat × Nat := let v := ((t.link 0).apwin.get (t.arg.m / 2 ^ 30)).toNat
      (v / 2 ^ 60 % 8, v / 2 ^ 30 % 2 ^ 22, t.arg.m % 2 ^ 30)
    (∀ t ∈ [s 0 255 (2 ^ 30 - 2), s 0 0 7, s 1 0 (2 ^ 26 - 2), s 1 0 (2 ^ 26 - 1), s 2 0 (384 * 2 ^ 20 - 2), s 0 256 0, s 3 0 0],
        (t.link 0).removed = false ∧ (t.link 0).up = true ∧ (t.link 0).frozen = false ∧ (t.die 0).removed = false ∧ t.boot.phase ≠ 0x80)
    ∧ fld (s 0 255 (2 ^ 30 - 2)) = (0, 255, 2 ^ 30 - 2) ∧ fld (s 1 0 (2 ^ 26 - 1)) = (1, 0, 2 ^ 26 - 1) ∧ fld (s 0 256 0) = (0, 256, 0) ∧ fld (s 3 0 0) = (3, 0, 0)
    ∧ ((s 0 0 0 fun l => { l with frozen := true }).link 0).frozen = true
    ∧ min 2 (8 - (s 0 0 7).arg.m % 8) = 1 ∧ min 2 (8 - (s 0 0 6).arg.m % 8) = 2
    ∧ (Loc.run { mem := .spm, unit := 191, off := 2 ^ 21 - 2 } 2).length = (s 2 0 (384 * 2 ^ 20 - 2)).arg.bytes.length := by decide +kernel

/-! The events of a core. -/

theorem wit_CoreEvents_rendezvous :
    let open_ (f : Ctx → Ctx := id) : State := at_ 0 fun c => f { c with rdv := 1, sq := { c.sq with park := .stand, due := 0 }, ve := { on := true, park := .ending } }
    let seg : State := open_ fun c => { c with forked := some 0, ctime := 4, segs := 1 }
    let named (s : State) (n : Nat) : Bool := decide (1 ≤ n ∧ n ≤ 4) && s.ctx.rdv.getLsbD (n - 1)
    (∀ s ∈ [open_, seg, open_ fun c => { c with ve := { c.ve with park := .stand } }, open_ fun c => { c with req := some .loop },
      open_ fun c => { c with req := some .loop, toDrain := [0] }, open_ fun c => { c with forked := some 0, segs := 0, ctime := 4, flights := [{ strm := 0, seq := 0, pc := 0, word := 0 }] }], s.me.live = true ∧ s.ctx.sq.park = .stand ∧ s.ctx.sq.on = true ∧ s.ctx.freeze = [] ∧ s.ctx.handler = false
      ∧ s.ctx.mode = .running ∧ (∀ n, n ≤ 4 → named s n = true → (s.ctx.strm n).park ≠ .no ∧ s.ctx.ctime % s.ctx.div n = 0)
      ∧ s.ctx.ctime % s.ctx.div 0 = 0 ∧ (s.ctx.forked = none ∨ s.ctx.segs = 0 ∨ s.ctx.flights = []) ∧ named s 1 = true) := by
  decide +kernel

/-- A divisor that rises with one stream due later and the others not; a variant that changes, one that stays, and a stream off its
switch point; the end of a freeze. -/
theorem wit_CoreEvents_switches :
    let clk : State := at_ 0 fun c => { c with ctime := 5, freeze := [(0, .clk 0x08080808)], ve := { on := true, due := 12 } }
    let map : List Nat := (List.range 15).map fun i => if i < 5 then 0 else 64
    let sw (v : Nat) (f : Ctx → Ctx := id) : State := at_ 0 fun c => f { c with freeze := [(0, .swpt 0)], swmap := map, ve := { on := true }, hdr := BitVec.ofNat 512 (v * 0x5555 * 2 ^ 112) }
    let stand (c : Ctx) : Ctx := { c with ve := { c.ve with park := .stand } }
    let wait : State := at_ 0 fun c => { c with freeze := [(0, .barw false 15 0), (0, .event 0)], privEv := 1, bars := [(15, { phase := 1, members := [0] })] }
    let ok (s : State) : Bool := s.ctx.flights = [] && s.me.tasteBad = 0 && s.ctx.freeze.all fun f => f.2 != .taster
    clk.ctx.freeze.find? (fun f => isClk f.2) = some (0, .clk 0x08080808) ∧ ok clk = true
    ∧ (∀ n, n ≤ 4 → clk.ctx.div n ≠ 0 ∧ Ctx.div { clk.ctx with clkdiv := 0x08080808 } n ≠ 0) ∧ clk.ctx.ctime < clk.ctx.ve.due ∧ clk.ctx.me.due ≤ clk.ctx.ctime
    ∧ (∀ s ∈ [sw 0, sw 1, sw 1 stand, sw 1 fun c => { c with ve := { c.ve with pc := 8 } }], s.ctx.freeze.find? (fun f => isSwpt f.2) = some (0, .swpt 0) ∧ ok s = true)
    ∧ (sw 1).ctx.hdr.toNat / 2 ^ (112 + 2 * (sw 1).levelOf (sw 1).ctx) % 4 = 1 ∧ (sw 1).ctx.variant = 0 ∧ (sw 1).ctx.sq.loops = [] ∧ (sw 1).ctx.ve.loops = []
    ∧ (sw 1 stand).ctx.ve.park = .stand
    ∧ wait.me.live = true ∧ wait.ctx.freeze ≠ [] ∧ (∀ f ∈ wait.ctx.freeze, wait.clears f.2 = true)
    ∧ (let stepped : State := at_ 0 fun c => { c with freeze := [(0, .launch)], frame := { c.frame with step := 1, vec := 64 } }
      stepped.me.live = true ∧ (∀ f ∈ stepped.ctx.freeze, stepped.clears f.2 = true) ∧ stepped.ctx.handler = false
        ∧ stepped.ctx.frame.vec ≠ 0) := by decide +kernel

/-- A walk that the die's cache answers, one that the tables answer, one that finds no page; a tile without an owner, one of a
context that lives and has changed it, and one of a launch. -/
theorem wit_CoreEvents_fills :
    let e := page true true
    let x (m : State → State) : State := let s := at_ 0 fun c => { c with freeze := [(0, .xlat 0 64)] }; m s
    let die (s : State) : State := s.onDie 0 fun d => { d with tlb := [e] }
    let tile (owner : List (Nat × (Nat × Nat))) (mine : Nat := 0) (shape : Nat := 2 ^ 12 + 16 + 32 * 16) : State :=
      let s := at_ 0 (fun c => { c with freeze := [(0, .tile 7)], launch := mine }) fun k => { k with towner := owner, tshape := Store.set [] 7 (BitVec.ofNat 16 shape) }
      { s with cores := s.cores ++ [(1537, { live := true, ctx := { launch := 0x10000000, p := 3 } })] }
    let lives (s : State) (o : Nat × Nat) : Bool := s.homes.any fun h => (s.ctxAt h).launch = o.1 && (s.ctxAt h).p = o.2 && (s.ctxAt h).mode != .exiting
    (∀ m ∈ [id, die, mapped], (x m).invalidating 0 64 = false ∧ (x m).ctx.freeze = [(0, .xlat 0 64)])
    ∧ (((x die).die (dieOf (x die).focus)).tlb.find? fun e => e.holds 0 64) = some e ∧ (((x mapped).die (dieOf (x mapped).focus)).tlb.find? fun e => e.holds 0 64) = none
    ∧ ((x mapped).walk 0 64).isSome = true ∧ (x id).walk 0 64 = none
    ∧ (∀ s ∈ [tile [], tile [(7, (0x10000000, 3))], tile [(7, (0x10000000, 3))] 0 0, tile [(7, (0x20000000, 0))], tile [] 0x20000000],
        s.ctx.freeze = [(0, .tile 7)] ∧ (s.me.towner.find? fun o => o.1 = 7).map (·.2) ≠ some (s.ctx.launch, s.ctx.p))
    ∧ lives (tile [(7, (0x10000000, 3))]) (0x10000000, 3) = true ∧ lives (tile [(7, (0x20000000, 0))]) (0x20000000, 0) = false
    ∧ ((tile []).me.tshape.get 7).getLsbD 12 = true ∧ ((tile [] 0 0).me.tshape.get 7).getLsbD 12 = false
    ∧ (tile [(7, (0x10000000, 3))]).spillOf 0x10000000 3 = none ∧ (tile [(7, (0x10000000, 3))]).saveBase 0x10000000 = 0
    ∧ (tile [(7, (0x10000000, 3))]).boot.phase ≠ phSafe
    ∧ (let s := tile [(7, (0x10000000, 3))]
      ({ s with cores := s.cores.map fun e => (e.1, { e.2 with ctx := { e.2.ctx with lenders := [3] } }) } : State).spillOf 0x10000000 3 = some 3) := by decide +kernel

/-- The save area of the third context from address 0 on does not meet the SAVE field of a node above it. -/
theorem wit_CoreEvents_area (i : Nat) (h : i < 0x4000) :
    State.hbmLoc (0 + 3 * 0x820000 + (0x1DB0 + i)) ∉ (State.hbmLoc (0x10000000 + 96)).run 8 := by
  intro hl
  have := (Loc.mem_run.1 hl).2.2
  simp only [State.hbmLoc] at this
  omega

/-- Phases that end on a core and on a die; a matrix command with a step to run, one at its end, and one that reads an error. -/
theorem wit_CoreEvents_engines :
    let full : Bar := { phase := 3, members := [0, 1], arrived := [1, 0] }
    let b : State := { at_ 0 fun c => { c with bars := [(15, full)], defer := [(false, 15)] } with arg := { n := 1536, k := 15 } }
    let d : State := { State.reset.onDie 0 fun d => { d with bars := [((5, 63), full)] } with arg := { n := 0, k := 63, v := 1, u := 5 } }
    let ends (x : Bar) : Bool := !x.broken && !x.members.isEmpty && x.pend = 0 && x.members.all x.arrived.contains
    let good := entry 3 16 32 (2 ^ 21 - 512) 16
    let q (f : Job → Job) (g : Ctx → Ctx := id) (h : Core → Core := id) : State :=
      let s := mulAt good
      let j := f (jobOf s.ctx .f8 false { fMul with asy := 1 })
      { s with cores := s.cores.map fun e => (e.1, h { e.2 with ctx := g { e.2.ctx with asyncQ := [j] } }), arg := { k := 0 } }
    let bad (k : Core) : Core := { k with err := Store.set [] (65536 - 16) 0xFF }
    let lead (j : Job) : Job := { j with zc := true }
    let rep (keep : Bool) (c : Ctx) : Ctx :=
      { c with freeze := [(2, .replay ((c.asyncQ.head?).map (·.id)))], window := if keep then c.asyncQ else [] }
    let good (s : State) : Option Bool := (s.ctx.failing ((s.ctx.asyncQ.head?).map (·.id))).map s.replayGood
    let owned (c : Ctx) : Ctx := { c with flights := [{ strm := 2, seq := 7, pc := 0, word := 0, script := [(40, 1, .pzero ((c.asyncQ.headD {}).planes 0))] }] }
    let got (s : State) : Job := s.ctx.asyncQ.headD {}
    ends (b.barAt (homeOf b.arg) false 15) = true ∧ homeOf b.arg ∈ b.homes ∧ ends (pget {} (d.die 0).bars (5, 63)) = true
    ∧ (∀ s ∈ [q id, q fun j => { j with next := j.total }, q id id bad, q fun j => { j with taker := some 1 }], s.ctx.asyncQ[0]? = some (got s) ∧ s.mayRunJob 0 = true)
    ∧ (got (q id)).next < (got (q id)).total ∧ (got (q fun j => { j with next := j.total })).total ≤ (got (q fun j => { j with next := j.total })).next
    ∧ (q id).anyBad ((q id).stepLocs (got (q id)) 0) = false ∧ (q id id bad).anyBad ((q id id bad).stepLocs (got (q id id bad)) 0) = true
    ∧ (q id).ctx.pendingOn ((got (q id)).planes 0) = none ∧ (q id owned).ctx.pendingOn ((got (q id)).planes 0) = some (40, 1, 7)
    ∧ (q id owned).mayRunJob 0 = true
    ∧ good (q lead (rep true)) = some true ∧ good (q lead (rep false)) = some false ∧ good (q (fun j => { j with zc := false }) (rep true)) = some false
    ∧ good (q lead (rep true) bad) = some false ∧ ({} : Ctx).failing none = none := by decide +kernel

theorem wit_CoreEvents_ends :
    let c1 : BitVec 32 × BitVec 64 × BitVec 64 := (BitVec.ofNat 32 (2 ^ 28 + 3 * 2 ^ 16 + 0x0B), 4, 5)
    let t : State := at_ 0 (fun c => { c with causes := [c1, c1], frame := { c.frame with vec := 64 } }) fun k => { k with mark := none }
    let fl : Flight := { strm := 0, seq := 0, pc := 0, word := 0, script := [(0, 2, .out .exitKernel)] }
    let x : State := at_ 0 fun c => { c with mode := .exiting, flights := [fl], seq := 1 }
    t.ctx.causes = c1 :: [c1] ∧ mayDeliver t.me = true ∧ t.ctx.frame.vec ≠ 0 ∧ c1.1.toNat % 256 ≠ 0x0A ∧ c1.1.toNat % 256 ≠ 0x1A
    ∧ x.me.live = true ∧ x.ctx.mode = .exiting ∧ x.ctx.freeze = [] ∧ x.ctx.cmds = [] ∧ x.ctx.asyncQ = []
    ∧ (∀ i ∈ x.ctx.items, i.eff.isExit = true ∧ i.t ≤ x.ctx.ctime) ∧ x.me.tasteBad = 0 := by decide +kernel

/-! Pre-emption, resumption and the kill. -/

/-- A node of the pool, and a launch of one core on it that runs on core 3. -/
def nodeN : Nat := Config.poolBase + 256

def launchN : Launch :=
  { node := nodeN, parent := Config.rootNode, seq := 1, n := 1, heat := 0, prio := 0, dies := [], cores := [3], asid := 0, gen := 0, hdr := State.fullHeader, set := 0
    image := 0, prec := 0xFFFFFFFF, params := [], started := 0, exited := [], saved := [], byOwner := false, wanted := false, level := 7, killed := false }

/-- That launch, its node's first dword `w`, core 3 as `f` and `g` say. -/
def runN (w : Nat) (f : Ctx → Ctx := id) (g : Core → Core := id) (l : Launch := launchN) : State :=
  let c := { newCtx State.fullHeader nodeN 0 0 0 0 0 [] [] with sq := { on := true } }
  ({ State.reset with cores := [(3, g { live := true, ctx := f c })], launches := [l], focus := 3, arg := { n := nodeN } } : State).setDword nodeN (BitVec.ofNat 64 w)

theorem wit_StopEvents_asked :
    let w (kind grade : Nat) : Nat := kind * 2 ^ 10 + grade * 2 ^ 8
    let s (kind grade : Nat) (f : Ctx → Ctx := id) : State := runN (w kind grade) f
    let esc (g : Grade) : State := { runN (w 3 0) fun c => { c with req := some g } with arg := { n := 3 } }
    (∀ g, g < 4 → (∀ e ∈ (s 3 g).cores, e.2.ctx.mode ≠ .faulted) ∧ ((s 3 g).dword nodeN).toNat / 2 ^ 10 % 8 = 3 ∧ ((s 3 g).dword nodeN).toNat / 2 ^ 8 % 4 = g
      ∧ (∃ l, (s 3 g).launchOf nodeN = some l ∧ l.killed = false ∧ (s 3 g).runs l = true) ∧ ((s 3 g).core 3).live = true ∧ ((s 3 g).core 3).ctx.launch = nodeN)
    ∧ ((s 1 0).dword nodeN).toNat / 2 ^ 10 % 8 = 1 ∧ nodeN ∈ (s 1 0).lineage 9 nodeN
    ∧ ((s 3 0 fun c => { c with handler := true }).core 3).ctx.handler = true
    ∧ (∀ g ∈ [Grade.node, .loop], ((esc g).core 3).live = true ∧ ((esc g).core 3).ctx.req = some g ∧ ((esc g).core 3).ctx.reqAt + 0 * 3760 ≤ (esc g).ref)
    ∧ ((esc .node).dword (((esc .node).core 3).ctx.launch + 40)).toNat = 0 := by
  simp only [State.launchOf]
  refine ⟨fun g hg => ?_, by decide +kernel, by decide +kernel, by decide +kernel, by decide +kernel, by decide +kernel⟩
  have : g = 0 ∨ g = 1 ∨ g = 2 ∨ g = 3 := by omega
  rcases this with rfl | rfl | rfl | rfl <;> exact ⟨by decide +kernel, by decide +kernel, by decide +kernel, ⟨launchN, by decide +kernel, rfl, by decide +kernel⟩, by decide +kernel, by decide +kernel⟩

/-- A loop drain, with the vector engine in its prologue, the Ladle at its end and matrix commands queued; a trap-grade stop, with
and without a wait that has issued; a stopped context with nothing in its queues, held, saved, and where it resumes. -/
theorem wit_StopEvents_stops :
    let w3 := 3 * 2 ^ 10
    let job : Job := { id := 7 }
    let drain (p : Park) : State := runN w3 fun c => { c with
      req := some .loop, rdv := 9, sq := { c.sq with park := .stand }, ve := { on := true, park := .stand, save := BitVec.ofNat 64 (2 ^ 63 + 64 * 2 ^ 40 + 2 ^ 32) }
      ld := { on := true, park := p }, asyncQ := [job] }
    let trap (fr : List (Nat × Freeze)) (due : Nat) : State := runN w3 (fun c => { c with req := some .trap, freeze := fr, ctime := 8, sq := { c.sq with due := due } })
      fun k => { k with mark := some (8, k.ctx) }
    let stop (m : CtxMode) : State := runN w3 fun c => { c with mode := m }
    (∀ p ∈ [Park.ending, .stand], (drain p).me.live = true ∧ (drain p).ctx.mayRelease = true ∧ (drain p).ctx.req = some .loop ∧ (drain p).ctx.toDrain = []
        ∧ (drain p).ctx.flights = [] ∧ (drain p).ctx.ld.park ≠ .no)
    ∧ State.mayStopTrap (trap [] 8).me = true ∧ (trap [] 8).ctx.freeze = []
    ∧ State.mayStopTrap (trap [(0, .barw false 15 0)] 8).me = true ∧ (∃ f ∈ (trap [(0, .barw false 15 0)] 12).ctx.freeze, (trap [(0, .barw false 15 0)] 12).ctx.standing f = false)
    ∧ State.mayStopTrap (trap [(0, .barw false 15 0)] 12).me = true
    ∧ (∀ m ∈ [CtxMode.stoppedLoop, .stoppedTrap], (stop m).me.live = true ∧ (stop m).ctx.mode = m ∧ (stop m).ctx.cmds = [] ∧ (stop m).ctx.asyncQ = [] ∧ (stop m).me.taking = 0
        ∧ (stop m).me.held = none ∧ (stop m).ctx.launch ≠ 0 ∧ (stop m).boot.phase ≠ phSafe ∧ (stop m).nodeState nodeN ≠ 4) := by decide +kernel

/-- A held context to evict; one held and one saved to resume, of each grade; a node whose launch has failed; kills. -/
theorem wit_StopEvents_moves :
    let w (st : Nat) : Nat := 3 * 2 ^ 10 + st * 2 ^ 4
    let c (m : CtxMode) : Ctx := { newCtx State.fullHeader nodeN 0 0 0 0 0 [] [] with mode := m }
    let held (m : CtxMode) : State := { runN (w 3) id (fun k => { k with live := false, ctx := {}, held := some (c m) }) { launchN with wanted := true } with arg := { n := nodeN } }
    let saved (m : CtxMode) : State := { runN (w 3) id (fun k => { k with live := false, ctx := {} }) { launchN with wanted := true, saved := [(0, c m)] } with arg := { n := nodeN } }
    let mine (c : Ctx) : Bool := decide (c.launch = nodeN) && decide (c.p = 0)
    let owner : State := runN (w 3) id id { launchN with byOwner := true }
    let failed : State := runN (w 4) fun c => { c with mode := .faulted }
    (∀ m ∈ [CtxMode.stoppedNode, .stoppedLoop, .stoppedTrap],
      (let s := held m;
        (s.core 3).held = some (c m) ∧ (s.core 3).live = false ∧ (c m).launch ≠ 0 ∧ (c m).spmSize ≤ 2 ^ 21 ∧ (c m).lentSize ≤ 3 * 2 ^ 21 ∧ s.saveBase nodeN < 2 ^ 41
        ∧ s.saveBase nodeN + (c m).p * 0x820000 + 0x820000 < 2 ^ 41 ∧ s.boot.phase ≠ phSafe
        ∧ s.launchOf nodeN = some { launchN with wanted := true } ∧ s.mayResume { launchN with wanted := true } = true
        ∧ s.cores.find? (fun e => e.2.live && mine e.2.ctx && decide (e.2.ctx.mode = .faulted)) = none
        ∧ (s.cores.find? fun e => e.2.held.any mine).map (·.1) = some 3
        ∧ (s.core 3).lendTo = none ∧ (s.core 3).taking = 0 ∧ (s.core 3).svc ≠ 2 ∧ (c m).badResume = none))
    ∧ (∀ m ∈ [CtxMode.stoppedNode, .stoppedLoop],
      (let s := saved m;
        let l := { launchN with wanted := true, saved := [(0, c m)] };
        s.launchOf nodeN = some l ∧ s.mayResume l = true ∧ (s.cores.find? fun e => e.2.held.any mine) = none ∧ l.saved.find? (fun e => e.1 = 0) = some (0, c m)
        ∧ (∃ k ∈ s.resumeCore l 0, s.makeRoom k l.hdr = (0, s)) ∧ (c m).badResume = none
        ∧ (s.cores.find? (fun e => e.2.live && mine e.2.ctx && decide (e.2.ctx.mode = .faulted))) = none))
    ∧ owner.nodeState nodeN = 3 ∧ (runN (w 3)).launchOf nodeN = some launchN ∧ launchN.byOwner = false
    ∧ (owner.dword nodeN).toNat / 2 ^ 10 % 8 = 3 ∧ owner.nodeState nodeN ≠ 4 ∧ owner.launchOf nodeN = some { launchN with byOwner := true }
    ∧ failed.nodeState nodeN = 4 ∧ (∃ h ∈ failed.homes, (failed.ctxAt h).launch = nodeN ∧ (failed.ctxAt h).mode = .faulted) := by decide +kernel

theorem wit_StopEvents_kills :
    let w3 := 3 * 2 ^ 10
    let s (n : Nat) : State := { runN w3 with retired := List.replicate n (9, 9) }
    let many (s : State) : Nat := ((s.launches.filter fun l => (s.lineage 9 l.node).contains nodeN).filter fun l => !l.killed).length
    let q (ls : List Launch) : State := { runN w3 with launches := ls, kills := [(nodeN, 0, 0)], arg := { n := nodeN } }
    64 < (s 64).retired.length + many (s 64) ∧ (s 63).retired.length + many (s 63) = 64
    ∧ launchN ∈ (s 63).launches ∧ nodeN ∈ (s 63).lineage 9 launchN.node
    ∧ (∀ ls ∈ [[], [{ launchN with killed := true }]], (q ls).kills.find? (fun k => k.1 = nodeN) = some (nodeN, 0, 0) ∧ (q ls).quiet (nodeN, 0, 0) = true)
    ∧ (q []).launchOf nodeN = none ∧ (q [{ launchN with killed := true }]).launchOf nodeN = some { launchN with killed := true }
    ∧ (∀ x ∈ (State.hbmLoc (launchN.parent + 56)).run 8, x ∉ (State.hbmLoc nodeN).run 8) := by decide +kernel

/-! Launches, tables and the partition selector. -/

/-- The root node with a ring of two slots and room for a launch, as its dwords `more` say further. -/
def rootS (more : List (Nat × Nat) := []) (s : State := State.reset) : State :=
  let r := Config.rootNode
  ([(r + 16, 1536 + 0xFFFF * 2 ^ 16 + 0xFFFF * 2 ^ 32), (r + 24, 0xFFFF), (r + 32, r + 0x1000), (r + 40, 2)] ++ more).foldl
    (fun s e => s.setDword e.1 (BitVec.ofNat 64 e.2)) s

/-- An image at 0x100000 with a header record and 64 bytes of scratchpad. -/
def imageS (s : State) : State :=
  s.writeAt ((State.hbmLoc 0x100000).run 152) (leBytes 4 0x494B5846 ++ leBytes 2 1 ++ leBytes 2 2 ++ leBytes 4 1 ++ leBytes 4 64 ++ leBytes 64 State.fullHeader.toNat
    ++ leBytes 4 2 ++ leBytes 4 64 ++ List.replicate 64 0)

theorem wit_LaunchEvents_entries :
    let r := Config.rootNode
    let host (more : List (Nat × Nat)) (n : Nat := r) : State := { rootS more with arg := { n := n } }
    let m := (host []).launchNode r 1
    let slot2 : List Loc := (State.hbmLoc ((host []).slotOf r 1 + 16)).run 8
    let start (cores wait prec : Nat) (st : Nat := 1) : State := { imageS (rootS [(r + 48, 1), (r + 0x1008, 0x100000), (r + 0x1010, cores + prec * 2 ^ 32), (r + 0x1048, wait), (m, st * 2 ^ 4)]) with
      boot := { State.reset.boot with phase := 4 }, nodes := [r], arg := { n := r } }
    (∀ s ∈ [host [] 0, host [(r + 8, 1), (r, 7 * 2 ^ 13)], host [(r + 40, 0)], host [(r + 48, 2)]],
        nodeBad s.arg.n = true ∨ 7 ≤ s.depthOf s.arg.n ∨ s.ringOk s.arg.n = false ∨ s.ringFull s.arg.n = true)
    ∧ nodeBad r = false ∧ (host []).depthOf r = 0 ∧ (host []).ringOk r = true ∧ (host []).ringFull r = false
    ∧ (∀ x ∈ (State.hbmLoc (r + 48)).run 8, x ∉ (State.hbmLoc m).run 16) ∧ (∀ o ∈ [0, 32, 40], ∀ x ∈ (State.hbmLoc (r + o)).run 8, x ∉ slot2)
    ∧ (∀ s ∈ [start 0 0 0, start 1537 0 0, start 1 1 0, start 1536 0 0, start 1 0 0xFFFFFFFF], s.boot.phase = 4 ∧ s.started r + 1 ≤ s.seqOf r ∧ s.launchNode r 1 = m
        ∧ s.nodeState m ≠ 5 ∧ s.launchOf m = none ∧ s.parentBad r = false)
    ∧ (start 1 0 0 5).nodeState m = 5 ∧ ({ start 1 0 0 with launches := [{ launchN with node := m }] } : State).launchOf m = some { launchN with node := m }
    ∧ ((start 1 0 0).setDword (r + 8) 1).parentBad r = true
    ∧ (start 0 0 0).entryDword r 1 2 % 2 ^ 16 = 0 ∧ (start 1537 0 0).entryDword r 1 2 % 2 ^ 16 = 1537
    ∧ State.hbmLoc (m + 112) ∉ (State.hbmLoc (r + 56)).run 8 ∧ (∀ a ∈ ((start 0 0 0).setNodeState m 4).lineage 9 m, State.hbmLoc (a + 112) ≠ State.hbmLoc m)
    ∧ State.hbmLoc m ∉ (State.hbmLoc (r + 56)).run 8
    ∧ ¬ ((start 1 1 0).evOf r &&& (start 1 1 0).entryMask r 1 9 = (start 1 1 0).entryMask r 1 9)
    ∧ (∀ p ∈ [0, 0xFFFFFFFF], let s := start 1 0 p;
        s.evOf r &&& s.entryMask r 1 9 = s.entryMask r 1 9 ∧ s.entryDword r 1 1 % 2 ^ 52 = 0x100000 ∧ s.saveBase m + 1 * 0x820000 < 2 ^ 41
        ∧ s.entryDword r 1 2 / 2 ^ 32 = p
        ∧ (∃ im ∈ s.imageAt 0x100000, headerBad im.hdr = false ∧ im.spm.2 = 64
            ∧ s.fits r 1 (hdrHeat im.hdr) (im.hdr.toNat / 2 ^ 64 % 2 ^ 16) 0x100000 = true ∧ im.hdr.toNat / 2 ^ 37 % 2 ^ 7 ≤ 64
            ∧ ∃ ks ∈ s.placement 1 (hdrHeat im.hdr) 0, ∀ k ∈ ks, (s.die (dieOf k)).bars = [])
        ∧ (∀ h ∈ s.homes, (s.ctxAt h).launch ≠ m)) := by decide +kernel

theorem wit_LaunchEvents_rest :
    let r := Config.rootNode
    let fin (exited : List Nat) (killed : Bool) : State := runN 0 id id { launchN with exited := exited, killed := killed }
    let fw (m len k : Nat) (w : BitVec 512 := State.fullHeader - 32768#512 <<< (64 : Nat) + 2#512 <<< (64 : Nat)) : State :=
      { State.reset with boot := { State.reset.boot with power := true, phase := phTrain }, arg := { n := 7, m := m, k := k, w := w, b := true, bytes := List.replicate len 7 } }
    let tt (period : Nat) (full : Bool) : State :=
      State.onDie { rootS ((if full then [(r + 48, 2)] else []) ++ [(0x200000, r)]) with boot := { State.reset.boot with phase := 4 }, arg := { n := 7, k := 63 }, clock := { State.reset.clock with ns := 100 } } 7 fun d => { d with
          tt := Store.set [] 63 (BitVec.ofNat 256 (100 * 2 ^ 192 + period * 2 ^ 128 + 2 ^ 116 + 0x200000 * 2 ^ 64)) }
    let rot : State := { State.reset with ref := 4 * 3760000, arg := { n := 7 } }
    let cfg (v : Nat) : State := { State.reset with arg := { n := 7, v := BitVec.ofNat 64 v } }
    (∀ l ∈ [{ launchN with exited := [], killed := false }, { launchN with exited := [0], killed := true }, { launchN with exited := [0], killed := false }],
      (fin l.exited l.killed).launchOf nodeN = some l)
    ∧ (∀ o, o < 160 → State.hbmLoc (launchN.parent + o) ≠ State.hbmLoc nodeN)
    ∧ ¬ (launchN.seq ≤ (fin [0] false).doneOf launchN.parent ∨ (launchN.parent, launchN.seq) ∈ (fin [0] false).ended)
    ∧ (({ fin [0] false with ended := [(launchN.parent, launchN.seq)] } : State).launchOf nodeN).isSome = true
    ∧ (∀ e, e < 256 → (fin [0] false).badAt (State.hbmLoc (launchN.parent + 64 + e / 8)) = false)
    ∧ (let s := fw (2 ^ 21 - 65536) 128 96;
        s.boot.power = true ∧ s.boot.phase ≠ phRom ∧ s.boot.phase ≠ phSafe ∧ (s.die 7).routine = none ∧ ¬ ((s.core 1543).live = true ∧ (s.core 1543).ctx.awake = true) ∧ headerBad s.arg.w = false ∧ s.arg.m % 65536 = 0 ∧ s.arg.w.toNat / 2 ^ 64 % 2 ^ 16 * 64 = 128
        ∧ s.arg.m + 128 ≤ 2 ^ 21 ∧ s.arg.bytes.length ≤ 128 ∧ s.arg.k + 32 ≤ 128 ∧ s.arg.w.toNat / 2 ^ 80 % 2 ^ 17 = 0)
    ∧ (∀ f, ∀ p ∈ [0, 30], let s := tt p f; let e := (s.die 7).tt.get 63
        s.boot.phase = 4 ∧ e.getLsbD 116 = true ∧ e.toNat / 2 ^ 192 ≤ s.clock.ns ∧ s.clock.ns + e.toNat / 2 ^ 128 % 2 ^ 64 < 2 ^ 64 ∧ e.toNat / 2 ^ 128 % 2 ^ 64 = p
        ∧ e.toNat / 2 ^ 64 % 2 ^ 52 = 0x200000 ∧ leNat ((s.bytesAt ((State.hbmLoc 0x200000).run 160)).take 8) % 2 ^ 52 = r ∧ s.depthOf r < 7 ∧ s.ringOk r = true ∧ s.ringFull r = f)
    ∧ (∀ o, o < 160 → State.hbmLoc (r + o) ∉ (State.hbmLoc ((tt 0 false).slotOf r ((tt 0 false).seqOf r + 1))).run 160)
    ∧ (rot.die 7).rotAt + (rot.die 7).hob.toNat * 3760000 ≤ rot.ref
    ∧ (∀ v ∈ [1, 16], 1 ≤ (cfg v).arg.v.toNat % 32 ∧ (cfg v).arg.v.toNat % 32 ≤ 16) ∧ (∀ v ∈ [0, 17, 31], ¬ (1 ≤ (cfg v).arg.v.toNat % 32 ∧ (cfg v).arg.v.toNat % 32 ≤ 16)) := by decide +kernel

/-- A selector of four plans with two that tie; the invalidation of a range, with and without a page lock in it. -/
theorem wit_LaunchEvents_select :
    let r := Config.rootNode
    let n := r + 512
    let sel (kind k : Nat) : State := { rootS [(n, kind * 2 ^ 10), (n + 32, r + 0x1000), (n + 40, 2), (n + 104, k * 2 ^ 52 + 0x300000), (n + 128, 9), (n + 136, 5), (n + 144, 5), (n + 152, 6),
        (0x300000, 0x310000), (0x300008, 0x320000), (0x300010, 0x330000), (0x300018, 0x340000), (0x320000, 3)] with arg := { n := n } }
    let inv (locked : Bool) (v : Nat := 1) : State := { at_ 4 fun c => { c with cmds := if locked then [{ cmd5 with pages := [(0, 65536)] }] else [] } with
      invGo := true, invBase := 0, invLen := 65536, arg := { v := BitVec.ofNat 64 v } }
    (sel 1 4).nodeKind n ≠ 2
    ∧ (∀ k ∈ [1, 4], let s := sel 2 k;
        nodeBad n = false ∧ s.nodeKind n = 2 ∧ s.nodeField n 13 55 52 = k ∧ tget 0 s.planAt (n + 3) = 0 ∧ s.doneOf n = s.seqOf n ∧ s.depthOf n < 7 ∧ s.ringOk n = true
        ∧ s.boot.phase ≠ phSafe ∧ (∀ i, i < s.ringSlots n → nodeBad (s.launchNode n (s.seqOf n + 1 + i)) = false)
        ∧ s.nodeField n 13 51 0 < 2 ^ 41 ∧ (∀ i, i < k → (s.dword (0x300000 + 8 * i)).toNat % 2 ^ 52 < 2 ^ 41
            ∧ s.seqOf n + s.natAt ((State.hbmLoc ((s.dword (0x300000 + 8 * i)).toNat % 2 ^ 52)).run 4) < 2 ^ 64) ∧ s.ringSlots n = 2)
    ∧ (∀ o, o < 160 → r + 512 + o < r + 0x1000)
    ∧ (inv false).arg.v.getLsbD 0 = true ∧ (inv false 2).arg.v.getLsbD 0 = false ∧ (inv true).rangeLocked = true ∧ (inv false).rangeLocked = false ∧ (inv false).invGo = true := by decide +kernel

/-! Collective plans and queue pairs. -/

/-- A plan's request for `nr` ranks of module 0, or a malformed one, at 0x400000. -/
theorem wit_PlanEvents_requests :
    let h (nr : Nat) : Nat := nr + 0 * 2 ^ 16 + 10 * 2 ^ 26 + 64 * 2 ^ 32
    let s (h : Nat) (a : Nat := 0x400000) (f : Iod → Iod := id) : State :=
      { (State.reset.writeAt ((State.hbmLoc 0x400000).run 64) (leBytes 64 h)).onIod 1 f with arg := { n := 1, v := BitVec.ofNat 64 a } }
    let su : Setup := { handle := 5, req := 0x400000, wait := [(0, 0xFFF, 0), (3, 0, 1)], sent := [0, 3], deadline := 100, tries := [] }
    let busy : State := s (h 2) 0x400000 fun d => { d with setup := some su }
    let entry (s : State) (r : Nat) : Nat := s.natAt ((State.hbmLoc (0x400000 + 64 + 32 * r)).run 32)
    let head (s : State) : Nat := s.natAt ((State.hbmLoc 0x400000).run 64)
    (busy.iod 1).setup.isSome = true ∧ ((s (h 2)).iod 1).setup = none
    ∧ (∀ x ∈ [0, h 4097, h 2 + 9 * 2 ^ 16, h 2 + 3 * 2 ^ 20, h 2 + 2 ^ 23, h 2 + 2 * 2 ^ 24, h 2 - 2 ^ 26, h 2 + 7 * 2 ^ 26, h 2 + 2 ^ 80],
        let n := head (s x); n % 2 ^ 16 < 1 ∨ 4096 < n % 2 ^ 16 ∨ 8 < n / 2 ^ 16 % 2 ^ 4 ∨ 2 < n / 2 ^ 20 % 2 ^ 3 ∨ n / 2 ^ 23 % 2 ≠ 0 ∨ 1 < n / 2 ^ 24 % 2 ^ 2
          ∨ n / 2 ^ 26 % 2 ^ 6 < 10 ∨ 16 < n / 2 ^ 26 % 2 ^ 6 ∨ n / 2 ^ 80 ≠ 0)
    ∧ (s (h 2) (2 ^ 41)).arg.v.toNat = 2 ^ 41
    ∧ (let n := head (s (h 2));
        n % 2 ^ 16 = 2 ∧ n / 2 ^ 16 % 2 ^ 4 = 0 ∧ n / 2 ^ 20 % 2 ^ 3 = 0 ∧ n / 2 ^ 23 % 2 = 0 ∧ n / 2 ^ 24 % 2 ^ 2 = 0 ∧ n / 2 ^ 26 % 2 ^ 6 = 10 ∧ n / 2 ^ 80 = 0
        ∧ ∀ r, r < 2 → entry (s (h 2)) r = 0)
    ∧ ((s (h 2) 5 fun d => { d with made := [(5, h 2, [0, 3])] }).iod 1).made.find? (fun e => e.1 = 5) = some (5, h 2, [0, 3])
    ∧ (busy.clock.ns ≤ su.deadline ∧ su.deadline < ({ busy with clock := { busy.clock with ns := 101 } } : State).clock.ns ∧ su.handle < 2 ^ 32) := by decide +kernel

/-- Set-up packets: a bad record, an accepted one for ranks and for a node, an unaccepted one; grants and refusals that wait. -/
theorem wit_PlanEvents_setup :
    let rec_ (sop node status : Nat) : Nat := sop + 1 * 2 ^ 16 + 2 * 2 ^ 32 + node * 2 ^ 48 + 0 * 2 ^ 96 + 1 * 2 ^ 108 + 10 * 2 ^ 130 + status * 2 ^ 136 + 64 * 2 ^ 160
    let q (slot : Nat) : PlanPart := { handle := 2048 + slot, record := 0, ranks := [(0, 0)], live := true, right := 0 }
    let su (wait : List (Nat × Nat × Nat)) (n : Nat := 0) : Setup := { handle := 5, req := 0x400000, wait := wait, sent := [0, 3], deadline := 100, tries := List.replicate n 1 }
    let s (r : Nat) (own : Bool := true) (plans : List PlanPart := []) (st : Option Setup := none) (ns : Nat := 0) : State :=
      { State.reset.onIod 1 (fun d => { d with setup := st }) with
        arg := { n := 1, m := 11, b := own, pkt := setupPacket 0 5 r [1, 2] }, plans := plans, clock := { State.reset.clock with ns := ns } }
    let ok (t : State) : Bool := !(t.iod 1).removed && !t.arg.pkt.bad && !t.arg.pkt.ctlBad && t.arg.pkt.dmod = Config.moduleId && t.arg.pkt.plan = 5
    let ctl : Packet := let p := setupPacket 0 5 0 [1, 2]; { p with head := p.head ||| 1#512 <<< (192 : Nat) }
    let wait := [(0, 0xFFF, 0), (0, 0, 0)]
    (ctl.ctlBad = true ∧ ctl.kind = 5 ∧ ctl.bad = false ∧ ctl.dmod = Config.moduleId)
    ∧ (∀ t ∈ [s (rec_ 0 0xFFF 0), s (rec_ 15 0 0), s (rec_ 0 0xFFF 0) false, s (rec_ 0 0xFFF 0) true [q 5], s (rec_ 1 0 0) true [] (some (su wait))], ok t = true)
    ∧ recordBad (s (rec_ 15 0 0)).arg.pkt.first = true ∧ recordBad (s (rec_ 0 0xFFF 0)).arg.pkt.first = false
    ∧ ((s 0 false).iod 1).import_.get 0 = 0
    ∧ (s (rec_ 0 0xFFF 0)).arg.pkt.first / 2 ^ 48 % 2 ^ 12 = 0xFFF ∧ (s (rec_ 0 0xFFF 0)).plans = []
    ∧ (∃ x ∈ [q 5], x.ranks ≠ [] ∧ x.slot = 5 ∧ x.handle ≠ 5)
    ∧ (∀ w ∈ [wait, [(0, 0, 0)]], ∀ ns ∈ [100, 101], let t := s (rec_ 1 0 0) true [] (some (su w)) ns;
        (t.iod (t.arg.pkt.first / 2 ^ 16 % 2)).setup = some (su w) ∧ (su w).handle = t.arg.pkt.plan ∧ (t.arg.pkt.smod, t.arg.pkt.first / 2 ^ 48 % 2 ^ 12, t.arg.pkt.first / 2 ^ 96 % 2 ^ 12) ∈ (su w).wait)
    ∧ wait.erase (0, 0, 0) ≠ [] ∧ [(0, 0, 0)].erase (0, 0, 0) = []
    ∧ (∀ st ∈ [1, 2, 3], (s (rec_ 2 0 st)).arg.pkt.first / 2 ^ 136 % 2 ^ 8 = st) ∧ ¬ ((su wait 16).tries.length < 16) ∧ (su wait 15).tries.length < 16
    ∧ (0, 0) ∉ (s 0).retired ∧ ((s 0).iod 1).portDown = [] := by decide +kernel

/-- A module that holds as many nodes as it may. -/
def planQ : PlanPart := { handle := 1, record := 2 ^ 60, ranks := [], live := true, right := 0 }

theorem wit_PlanEvents_nodes (n : Nat) : ((List.replicate n planQ).filter fun x => x.node != 0xFFF && x.niod = 1).length = n := by
  have h : (planQ.node != 0xFFF && planQ.niod = 1) = true := by decide +kernel
  rw [List.filter_eq_self.2 (fun a ha => by rw [(List.mem_replicate.1 ha).2]; exact h), List.length_replicate]

/-- The chunk buffers of `n` such nodes: none where there is no node, above any bound where there are enough. -/
theorem wit_PlanEvents_buffers (n : Nat) :
    let buf (x : PlanPart) : Nat := 4 * (x.csize / x.esize false * x.esize true)
    let q : PlanPart := { planQ with record := 2 ^ 60 + 10 * 2 ^ 130 }
    (((List.replicate n q).filter fun x => x.node != 0xFFF && x.niod = 1).map buf).sum = n * buf q ∧ 0 < buf q ∧ buf q < 96 * 2 ^ 20 := by
  intro buf q
  have h : (q.node != 0xFFF && q.niod = 1) = true := by decide +kernel
  refine ⟨?_, by decide +kernel, by decide +kernel⟩
  rw [List.filter_eq_self.2 (fun a ha => by rw [(List.mem_replicate.1 ha).2]; exact h), List.map_replicate, List.sum_replicate_nat]

/-- The plan of two ranks of module 0 and one element of FP32 a chunk: its combining node, and rank 1 with a result address and
counter. -/
def planN (live : Bool := true) : PlanPart :=
  { handle := 5, record := 2 * 2 ^ 32 + 0 * 2 ^ 48 + 10 * 2 ^ 130 + 1 * 2 ^ 160, ranks := [], live := live, right := 0 }

def planR (cnt : Nat := 0xFFF) : PlanPart :=
  { handle := 5, record := 2 * 2 ^ 32 + 0xFFF * 2 ^ 48 + 1 * 2 ^ 96 + 1 * 2 ^ 108 + 10 * 2 ^ 130 + 1 * 2 ^ 160
    ranks := [(1, BitVec.ofNat 256 (64 * 2 ^ 128 + 128 * 2 ^ 64 + cnt * 2 ^ 12))], live := true, right := 0 }

/-- A contribution or a result of plan 5: the low bits `addr`, rank 1, 4 bytes. -/
def redPacket (addr rank : Nat) : Packet :=
  { head := BitVec.ofNat 512 (header 0 1 0 0 7 0xFFF addr 1 + 5 * 2 ^ 128 + rank * 2 ^ (192 + 52) + 4 * 2 ^ 256), body := [0x3F800000] }

/-- The two chunks of the combining node: the right one alone, and both. -/
theorem wit_PlanEvents_chunks :
    let c : Chunk := { plan := 5, node := 0, rank := 0, iter := 0, chunk := 0, esc := false, bad := false, off := 0, bytes := [0, 0, 0x80, 0x3F] }
    let x : Chunk := { c with rank := 1, bytes := (redPacket 0 1).bytes.take (redPacket 0 1).size }
    let s (l : List Chunk) : State := { State.reset with chunks := l }
    (s [x]).wholeChunk planN 0 0 0 0 = none ∧ (s [c, x]).wholeChunk planN 0 planN.first 0 0 = some (false, false, [0, 0, 0x80, 0x3F])
    ∧ (s [c, x]).wholeChunk planN 0 (planN.first + 2 ^ (1 - 1)) 0 0 = some (false, false, [0, 0, 0x80, 0x3F]) := by decide +kernel

theorem wit_PlanEvents_data :
    let c : Chunk := { plan := 5, node := 0, rank := 0, iter := 0, chunk := 0, esc := false, bad := false, off := 0, bytes := [0, 0, 0x80, 0x3F] }
    let s (p : Packet) (plans : List PlanPart) (j : Nat) (chunks : List Chunk := []) : State :=
      { mapped State.reset with arg := { n := 0, m := 11, j := j, b := true, pkt := p }, plans := plans, chunks := chunks }
    let node (chunks : List Chunk) : State := s (redPacket 0 1) [planN] 1 chunks
    let res (cnt : Nat) : State := s (redPacket (1 + 2 * 0xFFF) 1) [planR cnt] 0
    let ls := ({ mem := .hbm, unit := 0, off := 2 ^ 31 + 64 } : Loc).run 4
    let word (cnt : Nat) : List Loc := if cnt = 0xFFF then [] else ({ mem := .pantry, unit := cnt / 512, off := 0x3FFF800 + 4 * (cnt % 512) } : Loc).run 4
    (∀ t ∈ [node [], node [c], res 0xFFF, res 0xFFE], (t.iod 0).removed = false ∧ t.arg.pkt.bad = false ∧ t.arg.pkt.dmod = Config.moduleId
      ∧ t.pairFor 0 t.arg.pkt true = some (0, 7) ∧ (0, 7) ∉ t.retired ∧ t.arg.pkt.sv = false)
    ∧ (redPacket 0 1).addr % 2 = 0 ∧ (node []).plans.find? (fun r => r.handle = (redPacket 0 1).plan && some r.node = some (1 - 1) && r.live && r.asid = 0) = some planN
    ∧ ((node []).iod planN.niod).removed = false ∧ nodePlace planN.nr (planLevels planN.nr) planN.node = some (1, 0)
    ∧ (∀ cnt ∈ [0xFFE, 0xFFF], let t := res cnt; let p := t.arg.pkt;
        p.addr % 2 = 1 ∧ p.addr / 2 % 4096 = 0xFFF ∧ ¬ (p.addr / 2 ^ 13 % 2 = 1) ∧ p.esc = false ∧ t.chunks = [] ∧ t.rankPart p.plan p.rank = some (planR cnt)
        ∧ (planR cnt).rank p.rank = some (64 * 2 ^ 128 + 128 * 2 ^ 64 + cnt * 2 ^ 12) ∧ (p.bytes.take p.size).length = (planR cnt).count p.chunk * (planR cnt).esize false
        ∧ (planR cnt).count p.chunk * (planR cnt).esize false = 4 ∧ t.ioLocs 0 true (State.ioFuel 4) (64 + p.chunk * (planR cnt).csize) 4 = some ls
        ∧ (∀ l ∈ ls, l.mem ≠ .phy ∧ t.inWindow l = false ∧ t.hbmHeld l = false ∧ l ∉ word cnt) ∧ t.anyBad (word cnt) = false
        ∧ (planR cnt).asid = 0)
    ∧ ({ res 0xFFF with diesT := [] } : State).ioLocs 0 true (State.ioFuel 4) 64 4 = none := by decide +kernel

/-- Triggers: the next iteration, one ahead, the farthest ahead, one behind; contributions that read and that cannot. -/
theorem wit_PlanEvents_triggers :
    let s (h r i : Nat) (m : State → State := mapped) : State :=
      { m State.reset with plans := [planR], arg := { n := 0, m := 5, v := BitVec.ofNat 64 (h + r * 2 ^ 32 + i * 2 ^ 44) } }
    let v (t : State) : Nat := t.arg.v.toNat
    (v (s 6 1 0)) % 2 ^ 32 % 2048 ≠ (0 * 256 + 5) % 2048 ∧ (s 5 2 0).rankPart 5 2 = none
    ∧ (∀ i ∈ [0, 1, 2 ^ 19 - 1, 2 ^ 19, 2 ^ 20 - 1], let t := s 5 1 i;
        v t % 2 ^ 32 = 5 ∧ v t / 2 ^ 32 % 2 ^ 12 = 1 ∧ v t / 2 ^ 44 = i ∧ t.rankPart 5 1 = some planR ∧ t.trigs = [] ∧ t.nextIter 5 1 = 0)
    ∧ planR.elems * planR.esize false = 4 ∧ (s 5 1 0).ioLocs 0 false (State.ioFuel 4) 128 4 = some (({ mem := .hbm, unit := 0, off := 2 ^ 31 + 128 } : Loc).run 4)
    ∧ (s 5 1 0 id).ioLocs 0 false (State.ioFuel 4) 128 4 = none := by decide +kernel

/-- Queue pair 63 of I/O die 1, ASID 0: TAIL one past the slot seen, and TAIL seen; a work entry whose counter has reached its
threshold, one that has not, one without a counter, one that repeats. -/
theorem wit_PlanEvents_queues :
    let ctxt (asid : Nat := 0) : Nat := 2 ^ 255 + 0 * 2 ^ 232 + asid * 2 ^ 216 + 8 * 2 ^ 80 + 0 * 2 ^ 96 + 1 * 2 ^ 32
    let entry (trig thr : Nat) (rep : Nat := 0) : Nat := trig + 0xFFF * 2 ^ 12 + (if rep = 0 then 0 else 2 ^ 59) + thr * 2 ^ 64 + 128 * 2 ^ 128 + (64 + 0xFFF * 2 ^ 52) * 2 ^ 192 + (64 + rep * 2 ^ 32) * 2 ^ 256
    let post (tail seen : Nat) : State := State.onIod { (mapped State.reset).writeAt (({ mem := .hbm, unit := 0, off := 2 ^ 31 } : Loc).run 64) (leBytes 64 (entry 0 0)) with
      arg := { n := 1, m := 63, v := BitVec.ofNat 64 tail } } 1 fun d => { d with qp := Store.set [] 63 (BitVec.ofNat 256 (ctxt)), qseen := tput 63 seen [] }
    let w (trig thr rep : Nat) : Armed := { slot := 0, entry := BitVec.ofNat 512 (entry trig thr rep), fired := 0 }
    let fire (trig thr rep : Nat) (asid : Nat := 0) (m : State → State := mapped) : State := State.onIod { m State.reset with arg := { n := 1, m := 63, k := 0 } } 1 fun d => { d with
      qp := Store.set [] 63 (BitVec.ofNat 256 (ctxt asid)), qseen := tput 63 1 [], armed := [(63, w trig thr rep)] }
    (∀ p ∈ [(1, 1), (1, 0)], tget 0 ((post p.1 p.2).iod 1).qseen 63 = p.2)
    ∧ (let t := post 1 0; let c := ((t.iod 1).qp.get 63).toNat;
        c / 2 ^ 255 = 1 ∧ c / 2 ^ 80 % 2 ^ 16 ≠ 0 ∧ (t.iod 1).removed = false ∧ ((t.iod 1).armed.filter fun a => a.1 = 63).length < 64
        ∧ t.slotLocs 1 63 0 false = some (({ mem := .hbm, unit := 0, off := 2 ^ 31 } : Loc).run 64)
        ∧ t.anyBad (({ mem := .hbm, unit := 0, off := 2 ^ 31 } : Loc).run 64) = false ∧ State.workBad (t.natAt (({ mem := .hbm, unit := 0, off := 2 ^ 31 } : Loc).run 64)) = false)
    ∧ (∀ t ∈ [(0, 0, 0), (0, 1, 0), (0xFFF, 0, 0), (0, 0, 2), (0, 2 ^ 31 + 1, 0)],
        ((fire t.1 t.2.1 t.2.2).iod 1).armed.find? (fun a => a.1 = 63 && a.2.slot = 0) = some (63, w t.1 t.2.1 t.2.2))
    ∧ ((fire 0 0 0).counter 0 + 2 ^ 32 - 0) % 2 ^ 32 < 2 ^ 31 ∧ 2 ^ 31 ≤ ((fire 0 1 0).counter 0 + 2 ^ 32 - 1) % 2 ^ 32
    ∧ (3, 0) ∉ (fire 0 0 0 3).pairs ∧ ((fire 0 0 0 3).iod 1).qp.get 63 = BitVec.ofNat 256 (ctxt 3)
    ∧ (fire 0 0 0).invalidating 0 128 = false ∧ (fire 0 0 0 0 id).ioLocs 0 false (State.ioFuel 64) 128 64 = none
    ∧ (fire 0 0 0).ioLocs 0 false (State.ioFuel 64) 128 64 = some (({ mem := .hbm, unit := 0, off := 2 ^ 31 + 128 } : Loc).run 64)
    ∧ (fire 0 0 0).anyBad (({ mem := .hbm, unit := 0, off := 2 ^ 31 + 128 } : Loc).run 64) = false ∧ (0, 0) ∉ (fire 0 0 0).retired
    ∧ (∀ l ∈ ({ mem := .hbm, unit := 0, off := 2 ^ 31 + 128 } : Loc).run 64, (fire 0 0 0).inWindow l = false ∧ (fire 0 0 0).hbmHeld l = false)
    ∧ (fire 0 0 0).anyBad ((State.counterLoc 0).run 4) = false
    ∧ tget 0 ((fire 0 0 0).iod 1).qseen 63 = 1 := by decide +kernel

/-! The time base and power. -/

/-- A PTP message of sequence `q`: one step or two, of domain `dom`. -/
def ptp (q two dom : Nat) : Packet :=
  { head := BitVec.ofNat 512 (header 2 7 0 0 0 0 0 1), body := [BitVec.ofNat 512 (dom * 2 ^ 32 + two * 2 ^ 49 + q * 2 ^ 248)] }

theorem wit_ClockAndPower_clock :
    let s (p : Packet) (f : Clock → Clock := id) : State := { State.reset with arg := { n := 0, m := 11, b := false, pkt := p }, clock := f State.reset.clock }
    let ours (t : State) : Bool := t.arg.pkt.smod = t.clock.ctl.toNat % 2 ^ 12 && ptpField t.arg.pkt 4 1 = t.clock.ctl.toNat / 2 ^ 12 % 2 ^ 8
    (∀ t ∈ [s (ptp 9 0 0), s (ptp 9 1 0), s (ptp 9 0 1)], (t.iod 0).removed = false ∧ t.arg.pkt.bad = false ∧ t.arg.pkt.dmod = Config.moduleId ∧ t.arg.pkt.ctlBad = false)
    ∧ (∀ k ∈ [6, 7], let p : Packet := { head := BitVec.ofNat 512 (header 1 k 0 0 0 0 0 1), body := [0] };
        p.ctlBad = true ∧ p.kind = k ∧ p.bad = false ∧ p.dmod = Config.moduleId)
    ∧ ours (s (ptp 9 0 0)) = true ∧ ours (s (ptp 9 0 1)) = false ∧ ptpTwoStep (ptp 9 0 0) = false ∧ ptpTwoStep (ptp 9 1 0) = true ∧ ptpSeq (ptp 9 0 0) = 9
    ∧ (s (ptp 9 0 0) fun c => { c with sync := some (4, 0, 9) }).clock.sync = some (4, 0, 9)
    ∧ (let t := s (ptp 9 0 0) fun c => { c with delayT3 := some (4, 9), last := some (1, 2) };
        t.clock.delayT3 = some (4, 9) ∧ t.clock.last = some (1, 2))
    ∧ (let t := s (ptp 9 0 0) fun c => { c with lock := true, ns := 8 * 62500000 + 1 }; t.clock.lock = true ∧ t.clock.lastSync + 8 * t.syncInterval < t.clock.ns)
    ∧ (s (ptp 9 0 0) fun c => { c with lock := true }).clock.lastSync + 8 * (s (ptp 9 0 0)).syncInterval ≥ (s (ptp 9 0 0)).clock.ns := by decide +kernel

/-- A ready module with a lease to 2 ms from now, neighbour 3 at module 9. -/
def powered (f : Power → Power := id) (pkt : Packet := ptp 0 0 0) (ns : Nat := 100) : State :=
  { State.reset with
    clock := { State.reset.clock with lock := true, ns := ns }
    boot := { State.reset.boot with phase := 4 }
    power := f { State.reset.power with lease := 5, expiry := 2000100, tokens := 400, coord := 0, nbr := BitVec.ofNat 52 (2 ^ 51 + 0 * 2 ^ 36) }
    arg := { n := 0, m := 11, pkt := pkt, v := BitVec.ofNat 64 (400 * 2 ^ 48 + 3 * 2 ^ 46) } }

theorem wit_ClockAndPower_tokens :
    let rec_ (op lease expiry tokens : Nat) : Nat := lease + expiry * 2 ^ 64 + tokens * 2 ^ 128 + op * 2 ^ 144 + 0 * 2 ^ 148 + 7 * 2 ^ 160
    let s (r : Nat) (f : Power → Power := id) (ns : Nat := 100) : State := powered f (tokenPacket 0 r) ns
    let first (t : State) : Nat := t.arg.pkt.first
    let near (t : State) (m : Nat) : Bool := (List.range 4).any fun j => t.power.nbr.getLsbD (48 + j) && m = t.power.nbr.toNat / 2 ^ (12 * j) % 2 ^ 12
    let dropped (t : State) : Bool := let r := first t; let op := r / 2 ^ 144 % 2 ^ 4
      r / 2 ^ 192 != 0 || decide (3 < op) || !t.clock.lock || (op = 0 && t.arg.pkt.smod != t.power.coord.toNat) || (op != 0 && !near t t.arg.pkt.smod)
    let offer : Trade := { who := 0, trade := 7, k := 400, expiry := 2000100, lease := 5, at_ := 100, applied := false }
    let acc (t : State) : Option Trade := t.power.offers.find? fun w => w.who = 0 && w.trade = 7 && true && w.lease = 5 && w.expiry = 2000100
    (∀ t ∈ [s (rec_ 0 5 0 0), s (rec_ 0 6 2000100 9), s (rec_ 1 5 1000100 9), s (rec_ 1 5 1000101 9), s (rec_ 2 5 2000100 400), s (rec_ 3 5 2000100 9)],
      (t.iod 0).removed = false ∧ t.arg.pkt.bad = false ∧ t.arg.pkt.dmod = Config.moduleId ∧ t.arg.pkt.ctlBad = false ∧ dropped t = false ∧ t.boot.phase = 4)
    ∧ (∀ t ∈ [s (rec_ 4 5 0 0), s (2 ^ 192), s (rec_ 0 5 0 0) (fun p => { p with coord := 1 }), s (rec_ 1 5 0 0) (fun p => { p with nbr := 0 })], dropped t = true)
    ∧ (first (s (rec_ 0 6 2000100 9))) % 2 ^ 64 = 6 ∧ first (s (rec_ 1 5 1000101 9)) / 2 ^ 64 % 2 ^ 64 = 1000101
    ∧ acc (s (rec_ 2 5 2000100 400) fun p => { p with offers := [offer] }) = some offer ∧ acc (s (rec_ 2 5 2000100 400) (fun p => { p with offers := [offer] }) 1000101) = some offer
    ∧ (∃ w ∈ (s (rec_ 3 5 2000100 9) fun p => { p with accepted := [offer] }).power.accepted, w.who = first (s (rec_ 3 5 2000100 9)) / 2 ^ 148 % 2 ^ 12 ∧ w.trade = 7 ∧ w.applied = false)
    ∧ offer.k ≤ (s 0).power.tokens.toNat - 0 ∧ 100 ≤ offer.at_ + 1000000 ∧ ¬ (1000101 ≤ offer.at_ + 1000000) := by decide +kernel

theorem wit_ClockAndPower_power :
    let lvl (n : Nat) (v : Nat) (l : Bool := false) : State := { powered (fun p => { p with lock := l }) with arg := { n := n, v := BitVec.ofNat 64 v } }
    let th (t : State) : Power := if t.arg.n = 1 then { t.power with lvlth1 := t.arg.v } else { t.power with lvlth0 := t.arg.v }
    let rising (t : State) : Bool := (List.range 7).all fun i => decide (State.threshold (th t) i < State.threshold (th t) (i + 1))
    let drawn (k : Nat) : State := { runN (3 * 2 ^ 10) with arg := { k := k } }
    (powered id).power.nbr.getLsbD (48 + 3) = true ∧ (powered id).power.lease ≠ 0 ∧ (powered id).clock.ns < (powered id).power.expiry.toNat
    ∧ (powered id).arg.v.toNat / 2 ^ 48 = 400 ∧ (powered id).arg.v.toNat / 2 ^ 46 % 2 ^ 2 = 3 ∧ (powered id).power.out = []
    ∧ rising (lvl 1 0x023001E001E00140) = false ∧ rising (lvl 1 0x023001E001900141) = true ∧ rising (lvl 0 0x00F000A000500000) = true ∧ (lvl 0 0 true).power.lock = true
    ∧ (lvl 0 0x10000).arg.v.setWidth 16 = 0#16 ∧ (lvl 0 1).arg.v.setWidth 16 ≠ 0#16
    ∧ (powered id (ptp 0 0 0) 999).clock.ns < (powered id).power.simAt + 1000 ∧ (powered id).power.simAt + 1000 ≤ (powered id (ptp 0 0 0) 1000).clock.ns
    ∧ (drawn 281).power.budget < 281 ∧ launchN ∈ (drawn 281).launches ∧ (drawn 281).runs launchN = true ∧ launchN.killed = false
    ∧ (∀ e ∈ (drawn 281).cores, ¬ (e.2.live = true ∧ e.2.ctx.launch = launchN.node ∧ e.2.ctx.req ≠ none)) := by decide +kernel

/-! Errors, violations, removed parts; bring-up; the mailbox. -/

/-- The generator of R389, and its example: a row of zeros but for 1 in bank 31. -/
theorem test_checkSyms : genPoly 4 = [0x0F, 0x36, 0x78, 0x40] ∧ checkSyms 4 (List.replicate 31 0 ++ [1]) = [0x0F, 0x36, 0x78, 0x40] := by decide +kernel

theorem wit_ReliabilityEvents_banks :
    let s (f : Core → Core) (m : Nat := 65535) (b : Bool := false) : State := { at_ 0 id f with arg := { n := 1536, m := m, b := b } }
    let row (e : BitVec 36) (stuck : List Nat) (k : Core) : Core := { k with wb := [65535], err := Store.set [] 65535 e, stuck := stuck }
    let bank (n : Nat) : State := s (fun k => { k with failed := List.range n }) 35 true
    let hits (n : Nat) : State := s (fun k => { k with hits := List.replicate n (35, 0) }) 35
    let walk (n : Nat) (w : Bool) : State := s fun k => { k with walk := n, walking := w, svc := 1, err := Store.set [] n 3 }
    (∀ st ∈ [[], [35]], 65535 ∈ ((s (row (2 ^ 35) st)).core 1536).wb) ∧ 3 ∉ ((s (row 1 []) 3).core 1536).wb
    ∧ ((s (row (2 ^ 35) [35])).core 1536).stuckBits.getLsbD 35 = true
    ∧ (∀ n ∈ [0, 2], 35 < 36 ∧ 35 ∉ ((bank n).core 1536).failed ∧ (bank n).arg.b = true ∧ ((bank n).core 1536).failed.length = n) ∧ 16 ≤ (hits 16).recentHits 1536 35 ∧ (hits 15).recentHits 1536 35 < 16
    ∧ (∀ n ∈ [0, 65534, 65535], ((walk n true).core 1536).walking = true ∧ ((walk n true).core 1536).walk = n) ∧ ((walk 0 false).core 1536).walking = false := by decide +kernel

def dieS (e : BitVec 36) (due : List (Nat × Bool)) (watch : List (Nat × Nat × Nat) := []) : Die :=
  { hbmScrub := [{}, {}, {}, { pos := 2 ^ 31 - 1, due := due }], hbmErr := Store.set [] (2 ^ 33 - 1) e, panErr := Store.set [] 255 e
    panScrub := [(255, { due := due })], watch := watch }

/-- The last unit of the fourth stack and the first of the last bank of the Pantry, with no, one, two and three errors; a write-back
due there; a row that is watched. -/
theorem wit_ReliabilityEvents_scrub :
    (State.reset.onDie 7 fun _ => dieS 1 []).die 7 = dieS 1 [] ∧ (dieS 0 []).hbmScrub.length = 4 ∧ ((dieS 0 []).scrub 4 0).pos = 2 ^ 31 - 1 ∧ ((dieS 0 []).scrub 0 255).pos = 0
    ∧ ([0, 1, 3, 7].map fun e => ((dieS e []).errs 4).get ((4 - 1) * 2 ^ 31 + ((dieS e []).scrub 4 0).pos)) = [0, 1, 3, 7]
    ∧ ([0, 1, 3, 7].map fun e => ((dieS e []).errs 0).get (256 * ((dieS e []).scrub 0 255).pos + 255)) = [0, 1, 3, 7]
    ∧ popCount (0 : BitVec 36) 36 = 0 ∧ popCount (1 : BitVec 36) 36 = 1 ∧ popCount (3 : BitVec 36) 36 = 2 ∧ popCount (7 : BitVec 36) 36 = 3
    ∧ (∀ i, i < 32 → ((dieS 0 []).errs 0).get (32 * 7 + i) = 0) ∧ ((dieS 1 []).errs 0).get (32 * 7 + 31) ≠ 0
    ∧ (0, 7, 14) ∈ (dieS 0 [] [(0, 7, 14)]).watch ∧ 14 + 1 < 16
    ∧ ∀ b : Bool, ((dieS 3 [(2 ^ 33 - 1, b)]).scrub 4 (2 ^ 33 - 1)).due.find? (fun z => z.1 = 2 ^ 33 - 1) = some (2 ^ 33 - 1, b)
      ∧ ((dieS 3 [(255, b)]).scrub 0 255).due.find? (fun z => z.1 = 255) = some (255, b) := by decide +kernel

theorem wit_ReliabilityEvents_violations :
    let s (v : Viol) : State := { runN 0 with arg := { viol := v, n := 0 } }
    let held : State := { runN 0 id fun k => { k with live := false, held := some k.ctx } with arg := { viol := .tableWrite 3 1 true } }
    ((s (.pairUnknown 3)).core 3).live = true ∧ ((s (.pairUnknown 4)).core 4).live = false ∧ ((s (.tableWrite 3 1 true)).core 3).ctx.launch ≠ 0
    ∧ (s (.pairUnknown 3)).boot.phase ≠ phSafe
    ∧ (held.core 3).live = false ∧ (held.core 3).held.isSome = true ∧ ((s (.tableWrite 4 1 true)).core 4).held = none
    ∧ (∀ l, (runN 0).launchOf nodeN = some l → State.hbmLoc (nodeN + 112) ∉ (State.hbmLoc (l.parent + 56)).run 8) ∧ (runN 0).launchOf nodeN = some launchN := by
  have h : (runN 0).launchOf nodeN = some launchN := by decide +kernel
  refine ⟨by decide +kernel, by decide +kernel, by decide +kernel, by decide +kernel, by decide +kernel, by decide +kernel, by decide +kernel, fun l hl => ?_, h⟩
  cases Option.some.inj (h.symm.trans hl)
  decide +kernel

/-- A launch with a core on the die that is removed. -/
theorem wit_ReliabilityEvents_parts : dieOf 3 = 0 ∧ launchN ∈ (runN 0).launches ∧ 3 ∈ launchN.cores := by decide +kernel

theorem wit_BootEvents :
    let s (ph : Nat) (f : Boot → Boot := id) (lock : Bool := false) : State := { State.reset with
      boot := f { State.reset.boot with power := true, phase := BitVec.ofNat 8 ph }, clock := { State.reset.clock with lock := lock }, arg := { n := 7, b := true, j := 0 } }
    let phy (ctl : BitVec 64) (held : List (Nat × BitVec 64)) (m : Nat) (v : BitVec 64) : State :=
      { State.reset.onDie 7 fun d => { d.phySet 0x20 ctl with phyHeld := held } with arg := { n := 7, m := m, v := v } }
    let routine (on report : Bool) : State :=
      let t := (s 2).onDie 7 fun d => { d with routine := some (1, 2, 64) }
      { t with cores := [(1543, { live := on, spm := if report then [(64, 1)] else [] })] }
    let idle (t : State) : Bool := ((t.die 7).phyGet 0x20).getLsbD 63
    let busy : State := phy 0 [(0, 5), (0x10, 7), (0x808, 1)] 0x18 3
    (s 0 fun b => { b with power := false }).boot.power = false ∧ (s 0).boot.power = true ∧ (s 0).boot.phase = 0 ∧ (s 0).boot.booted = none
    ∧ (∀ n ∈ [1, 2, 3, 4], (s n).boot.phase = BitVec.ofNat 8 n) ∧ (s 3 id true).clock.lock = true ∧ (s 3).clock.lock = false
    ∧ (s 4).arg.b = true ∧ ((s 4).link 0).removed = false
    -- no routine, one that runs, one whose report says that it has trained, one whose report says otherwise
    ∧ (s 2).arg.b = true ∧ ((s 2).die 7).routine = none
    ∧ (∀ on r, let t : State := routine on r; (t.die 7).routine = some (1, 2, 64) ∧ t.serviceRuns 7 = on ∧ t.boot.phase = 2
        ∧ t.anyBad (Loc.run { mem := .spm, unit := 1543, off := 64 } 8) = false)
    ∧ (routine false false).natAt (Loc.run { mem := .spm, unit := 1543, off := 64 } 8) = 0
    ∧ (routine false true).natAt (Loc.run { mem := .spm, unit := 1543, off := 64 } 8) = 1
    -- a core with three stuck banks, and none; all channels trained
    ∧ (∃ e ∈ ({ s 1 with cores := [(3, { stuck := [1, 2, 3] })] } : State).cores, 3 ≤ popCount e.2.stuckBits 36)
    ∧ (∀ e ∈ (s 1).cores, ¬ 3 ≤ popCount e.2.stuckBits 36)
    ∧ (∀ d, d < 8 → (s 2).serviceRuns d = false ∧ ((s 2).die d).routine = none)
    ∧ idle (phy (BitVec.ofNat 64 (2 ^ 63)) [] 0x18 3) = true ∧ idle busy = false ∧ (∀ h ∈ (busy.die 7).phyHeld, h.1 % 0x800 = 0 ∨ h.1 % 0x800 = 8 ∨ h.1 % 0x800 = 0x10)
    ∧ (∀ h ∈ (busy.die 7).phyHeld, ∀ h' ∈ (busy.die 7).phyHeld, h'.1 = h.1 → h' = h) ∧ busy.arg.m / 0x800 * 0x800 = 0 := by decide +kernel

theorem wit_MailboxAndRegisters_mailbox :
    let s (op ph : Nat) (args : Store 8 := []) (f : Boot → Boot := id) (lock : Bool := false) : State := { State.reset with
      boot := f { State.reset.boot with power := true, phase := BitVec.ofNat 8 ph, mailq := [1] }
      links := tput 1 { up := true, mail := { go := true, op := BitVec.ofNat 8 op, args := args } } State.reset.links
      power := { State.reset.power with lock := lock }, arg := { n := 1 } }
    let turn (t : State) (op : Nat) : Bool := t.boot.mailq.head? = some 1 && (t.link 1).mail.go && (t.link 1).mail.op.toNat = op
    let arg (t : State) (o k : Nat) : Nat := leNat (getBytes (t.link 1).mail.args o k)
    (∀ op, op < 256 → turn (s op 4) op = true) ∧ turn (s 3 0x80) 3 = true ∧ (s 9 0x80).boot.phase = 0x80 ∧ ((s 1 4).link 0).up = false ∧ ((s 1 4).link 1).up = true
    ∧ turn { s 1 4 with boot := State.reset.boot } 1 = false
    ∧ (s 4 3).boot.phase ≠ 4 ∧ (s 8 0x80).boot.phase = 0x80
    ∧ (let t := s 3 4 [(0, 8)]; 7 < arg t 0 1) ∧ (let t := s 3 4 [(0, 7), (1, 11), (2, 15)]; arg t 0 1 = 7 ∧ arg t 1 1 = 11 ∧ arg t 2 1 = 15 ∧ (t.core 1535).svc < 4 ∧ (t.core 1535).walk < 2 ^ 17 ∧ (t.core 1535).failed = [])
    ∧ (let t := s 5 4 [(0, 1)]; arg t 0 2 % 8 ≠ 0) ∧ arg (s 5 4 [(0, 0x68)]) 0 2 = 0x68 ∧ arg (s 5 4 [(0, 0x60)]) 0 2 = 0x60
    ∧ arg (s 6 4 [(0, 0x40)]) 0 2 = 0x40 ∧ (s 6 4 [] id true).power.lock = true ∧ (s 6 4).power.lock = false
    ∧ (2 ^ 25 < (arg (s 8 4 [(0, 0xAA), (1, 0xAA), (2, 2)]) 0 4 + 1) * 192) ∧ (arg (s 8 4 [(0, 0xA9), (1, 0xAA), (2, 2)]) 0 4 + 1) * 192 ≤ 2 ^ 25
    ∧ (s 8 4 [] fun b => { b with booted := some false }).boot.booted = some false := by decide +kernel

theorem wit_MailboxAndRegisters_registers :
    let s (m o j : Nat) (f : Link → Link := id) (g : State → State := id) : State := { g State.reset with
      links := tput 1 (f { up := true }) State.reset.links, arg := { n := 1, m := m, k := o, j := j, bytes := leBytes 8 (5 * 2 ^ 4) } }
    let ok (t : State) : Bool := !(t.link 1).removed && (t.link 1).up && !(t.link 1).frozen && t.arg.j = 0 && t.arg.bytes.length = 8 && t.arg.k % 8 = 0
    let live (t : State) (o : Nat) : Bool := t.liveNode ((Config.poolBase + o) / 256 * 256)
    (∀ t ∈ [s 0 0 0, s 0 0x10000 0, s 0 0x101F8 0, s 0 0x38000 0, s 2 0 0, s 2 48 0, s 2 56 0, s 2 256 0, s 2 (0x20000000 - 8) 0, s 2 (0x22000000 + 0x1000000 + 0x100000 + 8 * 4095) 0, s 2 (0x24000000 + 8 * 61) 0], ok t = true)
    -- reads: within a register, past its end, and of a unit of the pool that cannot be decoded
    ∧ (let t : State := { s 0 0x10 0 with arg := { n := 1, m := 0, k := 0x10, b := true, u := 8 } }
      t.arg.u.toNat ≤ min t.arg.u.toNat (8 - t.arg.k % 8) ∧ min 16 (8 - t.arg.k % 8) < 16)
    ∧ (let t : State := { s 2 64 0 with diesT := [] }.onDie 0 fun d => { d with hbmErr := Store.set [] ((Config.poolBase + 64) / 32) 7 }
      t.anyBad ((State.hbmLoc (Config.poolBase + 64)).run 8) = true ∧ (s 2 64 0).anyBad ((State.hbmLoc (Config.poolBase + 64)).run 8) = false)
    ∧ (∀ t ∈ [s 0 0x108 0, s 2 64 0, s 2 8 0, s 2 0x20000000 0], ok t = true) ∧ (s 2 0x20000000 0).boot.phase ≠ phReady
    -- the notify entry: written anew, written as it stands, naming no node
    ∧ (s 2 (0x24000000 + 8 * 61) 0).notify.get 61 = 0 ∧ nodeBad ((2 ^ 63 : Nat) % 2 ^ 52) = true ∧ nodeBad ((2 ^ 63 + Config.rootNode) % 2 ^ 52) = false
    ∧ (2 ^ 63 + Config.rootNode) / 2 ^ 52 % 2 ^ 8 = 0 ∧ (s 2 0 0).evBit Config.rootNode 0 = false
    ∧ ((s 0 0 0).link 1).mail.go = false ∧ ((s 0 0 0 fun l => { l with mail := { l.mail with go := true } }).link 1).mail.go = true
    ∧ ((s 2 0 0 fun l => { l with frozen := true }).link 1).frozen = true ∧ ((s 2 0 0 fun l => { l with up := false }).link 1).up = false
    ∧ (s 2 0x1FFFFFF8 1).arg.j ≠ 0 ∧ (s 2 0 0).power.lock = false ∧ (s 2 0 0).boot.phase ≠ 0x80
    ∧ live (s 2 0 0) 0 = true ∧ live (s 2 0 0) 256 = false ∧ live (s 2 0 0) (0x20000000 - 8) = false ∧ ((s 0 0 0).iod 1).removed = false
    ∧ leNat (s 2 0 0).arg.bytes / 2 ^ 4 % 2 ^ 4 = 5 := by decide +kernel

end Sys2Proof.Tests
end

section
/-!
PROOFS. The landing of accesses and of outward actions: what RESULT_LAND, FAR_LOAD_RETURN and OUTWARD_ACTION_PERFORM leave
behind in memory, in the context and in the schedule (R62, R88, R128, R263, R266).
-/

namespace Sys2Proof.Machine

/-! ### Bits of a byte with a piece stored into it -/

/-- A number cut into the bits below a field, the field, and the bits above it. -/
theorem exists_field_split (w lo n : Nat) : ∃ a m r, w = 2 ^ lo * (2 ^ n * a + m) + r ∧ m < 2 ^ n ∧ r < 2 ^ lo :=
  ⟨w / 2 ^ lo / 2 ^ n, w / 2 ^ lo % 2 ^ n, w % 2 ^ lo, by rw [Nat.div_add_mod, Nat.div_add_mod],
    Nat.mod_lt _ (Nat.two_pow_pos _), Nat.mod_lt _ (Nat.two_pow_pos _)⟩

theorem putBits_field_split {lo n a m r : Nat} (v : Nat) (hn : 0 < n) (hm : m < 2 ^ n) (hr : r < 2 ^ lo) :
    putBits (2 ^ lo * (2 ^ n * a + m) + r) (lo + n - 1) lo v = 2 ^ lo * (2 ^ n * a + v % 2 ^ n) + r := by
  have hlen : lo + n - 1 + 1 - lo = n := by omega
  have hfield : (2 ^ lo * (2 ^ n * a + m) + r) / 2 ^ lo % 2 ^ n = m := by
    rw [Nat.mul_add_div (Nat.two_pow_pos _), Nat.div_eq_of_lt hr, Nat.add_zero, Nat.mul_add_mod, Nat.mod_eq_of_lt hm]
  simp only [putBits, hlen, hfield]
  rw [Nat.mul_add, Nat.mul_add, Nat.mul_comm m, Nat.mul_comm (v % 2 ^ n)]
  omega

/-- A number with a field replaced shows the new value inside the field and its old bits outside. -/
theorem testBit_putBits (w lo n v j : Nat) (hn : 0 < n) :
    (putBits w (lo + n - 1) lo v).testBit j = if lo ≤ j ∧ j < lo + n then v.testBit (j - lo) else w.testBit j := by
  obtain ⟨a, m, r, rfl, hm, hr⟩ := exists_field_split w lo n
  rw [putBits_field_split v hn hm hr]
  simp only [Nat.testBit_two_pow_mul_add _ hr, Nat.testBit_two_pow_mul_add _ hm,
    Nat.testBit_two_pow_mul_add _ (Nat.mod_lt v (Nat.two_pow_pos n)), Nat.testBit_mod_two_pow]
  by_cases hlo : j < lo
  · simp [hlo, Nat.not_le.2 hlo]
  · by_cases hin : j - lo < n
    · have : lo ≤ j ∧ j < lo + n := by omega
      simp [hlo, hin, this]
    · have : ¬ j < lo + n := by omega
      simp [hlo, hin, this]

/-- The bits of a byte after a store of a piece: those of the register inside the piece, its own elsewhere. -/
theorem getLsbD_putPiece (p : Piece) (src : BitVec 2048) (b : Byte) {j : Nat} (hj : j < 8) (hw : 0 < p.w) :
    (putPiece p src b).getLsbD j =
      if p.sh ≤ j ∧ j < p.sh + p.w then src.getLsbD (p.dst + j - p.sh) else b.getLsbD j := by
  rw [putPiece, BitVec.getLsbD_ofNat, testBit_putBits _ _ _ _ _ hw, Nat.testBit_div_two_pow]
  by_cases hin : p.sh ≤ j ∧ j < p.sh + p.w
  · have : j - p.sh + p.dst = p.dst + j - p.sh := by omega
    simp [hj, hin, this, BitVec.getLsbD]
  · simp [hj, hin, BitVec.getLsbD]

/-! ### Moment pairs as a load writes them -/

theorem packElems_lt (w : Nat) (xs : List Nat) : packElems w xs < 2 ^ (w * xs.length) := by
  induction xs with
  | nil => simp [packElems]
  | cons x xs ih =>
    have hx : x % 2 ^ w < 2 ^ w := Nat.mod_lt _ (Nat.two_pow_pos _)
    have : 2 ^ w * (packElems w xs + 1) ≤ 2 ^ w * 2 ^ (w * xs.length) := Nat.mul_le_mul_left _ ih
    rw [Nat.mul_succ] at this
    rw [packElems, List.length_cons, Nat.mul_succ, Nat.pow_add, Nat.mul_comm (2 ^ (w * _))]
    omega

/-- An element of a packed list is read back. -/
theorem packElems_elem (w : Nat) {xs : List Nat} {l : Nat} (hl : l < xs.length) :
    packElems w xs / 2 ^ (w * l) % 2 ^ w = xs[l] % 2 ^ w := by
  induction xs generalizing l with
  | nil => simp at hl
  | cons x xs ih =>
    have hx : x % 2 ^ w < 2 ^ w := Nat.mod_lt _ (Nat.two_pow_pos _)
    cases l with
    | zero => simp [packElems]
    | succ l =>
      rw [packElems, Nat.mul_succ, Nat.add_comm (w * l), Nat.pow_add, ← Nat.div_div_eq_div_mul,
        Nat.add_mul_div_left _ _ (Nat.two_pow_pos _), Nat.div_eq_of_lt hx, Nat.zero_add, ih (Nat.lt_of_succ_lt_succ hl),
        List.getElem_cons_succ]

/-- A register that its packed elements fill is their number. -/
theorem toNat_ofNat_packElems {n w : Nat} {xs : List Nat} (h : n = w * xs.length) :
    (BitVec.ofNat n (packElems w xs)).toNat = packElems w xs := by
  rw [BitVec.toNat_ofNat, h]
  exact Nat.mod_eq_of_lt (packElems_lt w xs)

/-- A pair is the two halves of a 64-bit element. -/
theorem pairOf_eq (q : BitVec 2048) (l : Nat) :
    pairOf q l = (q.toNat / 2 ^ (64 * l) % 2 ^ 64 % 2 ^ 32, q.toNat / 2 ^ (64 * l) % 2 ^ 64 / 2 ^ 32) := by
  rw [pairOf, Nat.pow_add, ← Nat.div_div_eq_div_mul]
  generalize q.toNat / 2 ^ (64 * l) = v
  refine Prod.ext ?_ ?_ <;> simp only <;> omega

theorem toNat_ofPairs {ps : List Pair} (hn : ps.length = 32) :
    (ofPairs ps).toNat = packElems 64 (ps.map fun p => p.1 + p.2 * 2 ^ 32) :=
  toNat_ofNat_packElems (by rw [List.length_map, hn])

/-- A pair packed into a moment register is read back. -/
theorem pairOf_ofPairs {ps : List Pair} {l : Nat} (hn : ps.length = 32) (hl : l < ps.length) (hmean : ps[l].1 < 2 ^ 32)
    (hvar : ps[l].2 < 2 ^ 32) : pairOf (ofPairs ps) l = ps[l] := by
  rw [pairOf_eq, toNat_ofPairs hn, packElems_elem 64 (by rwa [List.length_map]), List.getElem_map]
  generalize ps[l] = p at *
  refine Prod.ext ?_ ?_ <;> simp only <;> omega

theorem posZero_lt {v : Nat} (h : v < 2 ^ 32) : posZero v < 2 ^ 32 := by
  unfold posZero; split <;> omega

/-- A load of moment pairs keeps each mean and each variance but −0, which becomes +0 (R19, R191). -/
theorem pairOf_cleanPairs (q : BitVec 2048) {l : Nat} (hl : l < 32) :
    pairOf (cleanPairs q) l = ((pairOf q l).1, posZero (pairOf q l).2) := by
  have hmean : (pairOf q l).1 < 2 ^ 32 := Nat.mod_lt _ (Nat.two_pow_pos _)
  have hvar : (pairOf q l).2 < 2 ^ 32 := Nat.mod_lt _ (Nat.two_pow_pos _)
  rw [cleanPairs, pairOf_ofPairs (by simp) (by simpa using hl) (by simpa using hmean) (by simpa using posZero_lt hvar)]
  simp

/-! ### What taking parts from the schedule and adding parts to it leave of a context -/

theorem takeItem_prune_frame (c : Ctx) (x : Item) : { (c.takeItem x).prune with flights := c.flights } = c := rfl

theorem addItems_frame (c : Ctx) (x : Item) (n : Nat) (es : List (Nat × Nat × Eff)) :
    { (c.takeItem x).addItems n es with flights := c.flights } = c := rfl

theorem addItems_prune_frame (c : Ctx) (x : Item) (n : Nat) (es : List (Nat × Nat × Eff)) :
    { ((c.takeItem x).addItems n es).prune with flights := c.flights } = c := by cases c; rfl

/-- The context after a read of the vector engine by the word of the part `x`. -/
def Ctx.afterRead (c : Ctx) (x : Item) (es : List (Nat × Nat × Eff)) : Ctx :=
  ({ c.takeItem x with probes := c.probes.filter fun p => p.seq != x.seq }.addItems x.seq es).prune

theorem afterRead_frame (c : Ctx) (x : Item) (es : List (Nat × Nat × Eff)) :
    { c.afterRead x es with flights := c.flights, probes := c.probes } = c := by cases c; rfl

namespace State

/-! ### Writes of bytes leave the contexts of the cores -/

/-- The core in focus and every core's context stand in `t` as in `s`. -/
def sameContexts (s t : State) : Prop := t.focus = s.focus ∧ ∀ n, (t.core n).ctx = (s.core n).ctx

theorem sameContexts_refl (s : State) : s.sameContexts s := ⟨rfl, fun _ => rfl⟩

theorem sameContexts.trans {s t u : State} (h : s.sameContexts t) (g : t.sameContexts u) : s.sameContexts u :=
  ⟨g.1.trans h.1, fun n => (g.2 n).trans (h.2 n)⟩

theorem sameContexts.ctx_eq {s t : State} (h : s.sameContexts t) : t.ctx = s.ctx := by
  rw [ctx, me, h.1]; exact h.2 _

theorem sameContexts_foldl {α : Type} {f : State → α → State} (h : ∀ s a, sameContexts s (f s a)) (l : List α) (s : State) :
    s.sameContexts (l.foldl f s) := by
  induction l generalizing s with
  | nil => exact sameContexts_refl s
  | cons a l ih => exact (h s a).trans (ih _)

theorem sameContexts_setCore (s : State) (n : Nat) {k : Core} (h : k.ctx = (s.core n).ctx) :
    s.sameContexts (s.setCore n k) := by
  refine ⟨rfl, fun m => ?_⟩
  rw [core_setCore]
  split
  · next e => rw [e, h]
  · rfl

theorem sameContexts_setMemory (s : State) (m : Mem) (u : Nat) (v : Store 8) : s.sameContexts (s.setMemory m u v) := by
  cases m with
  | spm => exact sameContexts_setCore s u rfl
  | _ => exact sameContexts_refl s

theorem sameContexts_setByte (s : State) (l : Loc) (b : Byte) : s.sameContexts (s.setByte l b) := by
  refine (sameContexts_setMemory s l.mem l.unit (Store.set (s.memory l.mem l.unit) l.off b)).trans ?_
  unfold setByte
  generalize s.setMemory l.mem l.unit (Store.set (s.memory l.mem l.unit) l.off b) = t
  cases l.mem <;> dsimp only
  case spm =>
    split
    · exact sameContexts_refl t
    · exact sameContexts_setCore t _ rfl
  case pantry | hbm | cxl => split <;> exact sameContexts_refl t
  case host | phy => exact sameContexts_refl t

theorem sameContexts_putBytes (s : State) (ls : List Loc) (bs : List Byte) : s.sameContexts (s.putBytes ls bs) := by
  induction ls generalizing s bs with
  | nil => cases bs <;> exact sameContexts_refl s
  | cons l ls ih =>
    cases bs with
    | nil => exact sameContexts_refl s
    | cons b bs => exact (sameContexts_setByte s l b).trans (ih _ bs)

theorem sameContexts_freshUnit (s : State) (l : Loc) : s.sameContexts (s.freshUnit l) := by
  unfold freshUnit
  cases l.mem with
  | spm => exact sameContexts_setCore s _ rfl
  | _ => exact sameContexts_refl s

theorem sameContexts_fresh (s : State) (ls : List Loc) : s.sameContexts (s.fresh ls) := by
  unfold fresh
  split
  · exact sameContexts_refl s
  · refine sameContexts_foldl (fun t l => ?_) _ s
    exact sameContexts_freshUnit t l

theorem sameContexts_writeAt (s : State) (ls : List Loc) (bs : List Byte) : s.sameContexts (s.writeAt ls bs) := by
  cases ls with
  | nil => exact sameContexts_refl s
  | cons l ls =>
    simp only [writeAt]
    split
    · exact sameContexts_refl s
    · split
      · exact sameContexts_refl s
      · refine ((sameContexts_fresh s _).trans (sameContexts_putBytes _ _ bs)).trans (sameContexts_foldl (fun t w => ?_) _ _)
        exact sameContexts_refl t

/-! ### The bytes of a store's pieces -/

/-- The pieces of a register stored one after the other, as RESULT_LAND stores them. -/
def putPieces (s : State) (ps : List Piece) (src : BitVec 2048) : State :=
  ps.foldl (fun s p => s.setByte p.loc (putPiece p src (s.byteAt p.loc))) s

theorem putPieces_cons (s : State) (p : Piece) (ps : List Piece) (src : BitVec 2048) :
    s.putPieces (p :: ps) src = (s.setByte p.loc (putPiece p src (s.byteAt p.loc))).putPieces ps src := rfl

theorem sameContexts_putPieces (s : State) (ps : List Piece) (src : BitVec 2048) : s.sameContexts (s.putPieces ps src) :=
  sameContexts_foldl (fun t _ => sameContexts_setByte t _ _) ps s

/-- A byte that no piece lies in stays. -/
theorem byteAt_putPieces_apart (s : State) {l : Loc} {ps : List Piece} (src : BitVec 2048) (h : l.apart (ps.map (·.loc))) :
    (s.putPieces ps src).byteAt l = s.byteAt l := by
  induction ps generalizing s with
  | nil => rfl
  | cons p ps ih =>
    have ⟨hp, hps⟩ := Loc.apart_cons.1 h
    rw [putPieces_cons, ih _ hps, byteAt_setByte_ne _ _ hp]

/-- Where no two pieces lie in one byte, the byte of each holds its piece. -/
theorem byteAt_putPieces {s : State} {ps : List Piece} (src : BitVec 2048) (hd : Loc.distinct (ps.map (·.loc)))
    (hm : ∀ p ∈ ps, p.loc.mem ≠ .phy) {p : Piece} (hp : p ∈ ps) :
    (s.putPieces ps src).byteAt p.loc = putPiece p src (s.byteAt p.loc) := by
  induction ps generalizing s with
  | nil => simp at hp
  | cons q ps ih =>
    have ⟨hq, hps⟩ := Loc.distinct_cons.1 hd
    rw [putPieces_cons]
    rcases List.mem_cons.1 hp with rfl | hp
    · have hapart : p.loc.apart (ps.map (·.loc)) := fun k hk e => hq k hk (Loc.same_symm e)
      rw [byteAt_putPieces_apart _ src hapart, byteAt_setByte_same _ _ (Loc.same_refl _) (hm p (by simp))]
    · rw [ih hps (fun k hk => hm k (by simp [hk])) hp, byteAt_setByte_ne _ _ (hq _ (List.mem_map_of_mem hp))]

/-! ### RESULT_LAND of an access -/

/-- `t` is `s` with the present part of word `x.seq` taken from the schedule and `es` added to what the word has to come. -/
def schedules (s t : State) (x : Item) (es : List (Nat × Nat × Eff)) : Prop :=
  s.sameMemory t ∧ { t.ctx with flights := s.ctx.flights } = s.ctx
    ∧ t.ctx.flights = ((s.ctx.takeItem x).addItems x.seq es).prune.flights

/-- The same of a read of the vector engine: its word cannot fault any more, and the copy kept for its trap is dropped. -/
def schedulesVec (s t : State) (x : Item) (es : List (Nat × Nat × Eff)) : Prop :=
  s.sameMemory t ∧ { t.ctx with flights := s.ctx.flights, probes := s.ctx.probes } = s.ctx
    ∧ t.ctx.probes = s.ctx.probes.filter (fun p => p.seq != x.seq)
    ∧ t.ctx.flights = ((s.ctx.takeItem x).addItems x.seq es).prune.flights

theorem schedules_touch (s : State) (ls : List Loc) (x : Item) (es : List (Nat × Nat × Eff)) :
    s.schedules ((s.touch ls).setCtx ((s.ctx.takeItem x).addItems x.seq es).prune) x es := by
  unfold schedules
  rw [ctx_setCtx]
  exact ⟨fun l => by rw [byteAt_setCtx, byteAt_touch], addItems_prune_frame _ x _ es, rfl⟩

theorem schedulesVec_touch (s : State) (ls : List Loc) (x : Item) (es : List (Nat × Nat × Eff)) :
    s.schedulesVec ((s.touch ls).setCtx (s.ctx.afterRead x es)) x es := by
  unfold schedulesVec
  rw [ctx_setCtx]
  exact ⟨fun l => by rw [byteAt_setCtx, byteAt_touch], afterRead_frame _ x es, rfl, rfl⟩

/-- A part lands by its effect alone where R418 does not hold it back, its data is good, and the Taster has nothing to
withhold of it. -/
theorem exec_resultLand_of_landing {s : State} {x : Item} (h : s.landing x) (ho : x.eff.isOut = false)
    (hh : heldBack s.ctx (s.ctx.flightOf x.seq) x = false) (hr : s.replayLocs x.eff = []) (hf : s.dataFault x.eff = none)
    (ht : s.landTasted (s.ctx.flightOf x.seq) x = s.landEff x) : exec .resultLand s = .next (s.landEff x) := by
  obtain ⟨hlive, hfreeze, hnext, hdue⟩ := h
  have hb : s.badRead x.eff = false := by rw [badRead, hr]; rfl
  have hpart : s.landPart x = s.landEff x := by simp [landPart, hb, hf, ht]
  show execResultLand s = _
  simp [execResultLand, hnext, ho, hlive, hfreeze, hdue, hh, hpart]

end State

end Sys2Proof.Machine

namespace Sys2Proof

/-- The places of a run, from its first upward. -/
theorem Loc.getElem?_run (l : Loc) {n j : Nat} (h : j < n) : (l.run n)[j]? = some { l with off := l.off + j } := by
  induction n generalizing l j with
  | zero => omega
  | succ n ih =>
    cases j with
    | zero => rfl
    | succ j =>
      rw [Loc.run, List.getElem?_cons_succ, ih _ (Nat.lt_of_succ_lt_succ h)]
      simp only [Nat.add_assoc, Nat.add_comm 1 j]

end Sys2Proof

namespace Sys2Proof.Machine

/-- The parts of a schedule that read memory in lockstep for a register of the sequencer, a vector register or a tile. -/
def Eff.isRead : Eff → Bool
  | .rdS .. | .rdH .. | .rdV .. | .rdQ .. | .rdT .. => true
  | _ => false

namespace State

/-- The Taster has nothing to withhold where no comparison disagrees (R398). -/
theorem tasterHolds_none {s : State} (h : s.me.tasteBad = 0) : s.tasterHolds = none := if_pos h

/-- A lockstep store lands (R88, R128): where the Taster has produced it, the bytes of its pieces are written. -/
theorem exec_resultLand_store {s : State} {x : Item} {ps : List Piece} {src : BitVec 2048} (h : s.landing x)
    (he : x.eff = .store ps src)
    (hf : (s.ctx.flightOf x.seq).strm ≠ 0
      ∨ (orderedBefore s.ctx x.seq (classOf (s.ctx.flightOf x.seq)) (ps.map (·.loc)) = false ∧ s.me.tasteBad = 0)) :
    exec .resultLand s
      = .next (((s.fresh (ps.map (·.loc))).putPieces ps src).setCtx (s.ctx.takeItem x).prune) := by
  have hland : s.landEff x = ((s.fresh (ps.map (·.loc))).putPieces ps src).setCtx (s.ctx.takeItem x).prune := by
    simp only [landEff, he]; rfl
  have hheld : heldBack s.ctx (s.ctx.flightOf x.seq) x = false := by
    rcases hf with hf | ⟨hf, -⟩ <;> simp [heldBack, he, hf]
  have htaste : s.landTasted (s.ctx.flightOf x.seq) x = s.landEff x := by
    rcases hf with hf | ⟨-, hf⟩
    · unfold landTasted
      split
      · next h0 _ => exact absurd h0 hf
      · rfl
    · unfold landTasted
      split
      · rw [tasterHolds_none hf]; rfl
      · rfl
  rw [← hland]
  exact exec_resultLand_of_landing h (by rw [he]; rfl) hheld (by rw [he]; rfl) (by rw [he]; rfl) htaste

/-- An access that reads lands by its effect alone where R418 does not hold it back and its data is good. -/
theorem exec_resultLand_read {s : State} {x : Item} (h : s.landing x) (hr : x.eff.isRead = true)
    (hh : heldBack s.ctx (s.ctx.flightOf x.seq) x = false) (hf : s.dataFault x.eff = none) :
    exec .resultLand s = .next (s.landEff x) := by
  have htaste : s.landTasted (s.ctx.flightOf x.seq) x = s.landEff x := by
    unfold landTasted
    split
    · next he => rw [he] at hr; exact absurd hr Bool.false_ne_true
    · rfl
  have hpart : x.eff.isOut = false ∧ s.replayLocs x.eff = [] := by
    unfold Eff.isRead at hr
    split at hr
    case h_6 => exact absurd hr Bool.false_ne_true
    all_goals next he => rw [he]; exact ⟨rfl, rfl⟩
  exact exec_resultLand_of_landing h hpart.1 hh hpart.2 hf htaste

theorem loadAt_memory {s : State} {loc : Loc} (n : Nat) {k : Nat} (hm : loc.mem ≠ .phy) :
    s.loadAt n loc k = leNat ((loc.run k).map (s.forwarded n)) := if_neg hm

/-- A scalar load of the sequencer lands (R86, R92, R266). -/
theorem exec_resultLand_rdS {s : State} {x : Item} {d : Nat} {loc : Loc} {n : Nat} {sx : Bool} {land : Nat}
    (h : s.landing x) (he : x.eff = .rdS d loc n sx land) (hm : loc.mem ≠ .phy)
    (hf : (s.ctx.flightOf x.seq).strm ≠ 0
      ∨ orderedBefore s.ctx x.seq (classOf (s.ctx.flightOf x.seq)) (loc.run n) = false) :
    exec .resultLand s = .next ((s.touch (loc.run n)).setCtx ((s.ctx.takeItem x).addItems x.seq
      [(land, 2, .sreg d (loadVal (leNat ((loc.run n).map (s.forwarded x.seq))) n sx))]).prune) := by
  have hheld : heldBack s.ctx (s.ctx.flightOf x.seq) x = false := by
    rcases hf with hf | hf <;> simp [heldBack, he, hf]
  rw [← loadAt_memory x.seq hm]
  refine (exec_resultLand_read h (by rw [he]; rfl) hheld (by rw [he]; rfl)).trans ?_
  simp only [landEff, he]

/-- A load of a handle lands (R86, R92, R266). -/
theorem exec_resultLand_rdH {s : State} {x : Item} {d : Nat} {loc : Loc} {land : Nat}
    (h : s.landing x) (he : x.eff = .rdH d loc land) (hm : loc.mem ≠ .phy)
    (hf : (s.ctx.flightOf x.seq).strm ≠ 0
      ∨ orderedBefore s.ctx x.seq (classOf (s.ctx.flightOf x.seq)) (loc.run 32) = false) :
    exec .resultLand s = .next ((s.touch (loc.run 32)).setCtx ((s.ctx.takeItem x).addItems x.seq
      [(land, 2, .hreg d (BitVec.ofNat 256 (leNat ((loc.run 32).map (s.forwarded x.seq)))))]).prune) := by
  have hheld : heldBack s.ctx (s.ctx.flightOf x.seq) x = false := by
    rcases hf with hf | hf <;> simp [heldBack, he, hf]
  rw [← loadAt_memory x.seq hm]
  refine (exec_resultLand_read h (by rw [he]; rfl) hheld (by rw [he]; rfl)).trans ?_
  simp only [landEff, he]

theorem anyBad_pieces {s : State} {ps : List Piece} (h : ∀ p ∈ ps, s.badAt p.loc = false) :
    s.anyBad (ps.map (·.loc)) = false := by
  simpa [anyBad] using h

theorem anyBad_cells {s : State} {cells : List (Nat × Loc)} (h : ∀ e ∈ cells, ∀ l ∈ e.2.run 4, s.badAt l = false) :
    s.anyBad (cells.flatMap fun e => e.2.run 4) = false := by
  simpa [anyBad] using h

/-- A read of a vector register whose data is good lands (R140). -/
theorem exec_resultLand_rdV {s : State} {x : Item} {d : Nat} {ps : List Piece} {land : Nat}
    (h : s.landing x) (he : x.eff = .rdV d ps land) (hb : ∀ p ∈ ps, s.badAt p.loc = false) :
    exec .resultLand s = .next ((s.touch (ps.map (·.loc))).setCtx (s.ctx.afterRead x
      [(land, 2, .vreg d (BitVec.ofNat 1024 (pieceMask ps)) (BitVec.ofNat 1024 (gather s.byteAt ps)) fNone)])) := by
  have hdata : s.dataFault x.eff = none := by simp only [dataFault, he, anyBad_pieces hb]; rfl
  refine (exec_resultLand_read h (by rw [he]; rfl) (by simp [heldBack, he]) hdata).trans ?_
  simp only [landEff, he]; rfl

/-- A read of moment pairs whose data is good lands (R191): no variance of a lane that takes part is negative. -/
theorem exec_resultLand_rdQ {s : State} {x : Item} {d : Nat} {ps : List Piece} {k : BitVec 32} {land : Nat}
    (h : s.landing x) (he : x.eff = .rdQ d ps k land) (hb : ∀ p ∈ ps, s.badAt p.loc = false)
    (hv : ∀ l, l < 32 → k.getLsbD l = true → negVar (pairOf (BitVec.ofNat 2048 (gather s.byteAt ps)) l).2 = false) :
    exec .resultLand s = .next ((s.touch (ps.map (·.loc))).setCtx (s.ctx.afterRead x
      [(land, 2, .qreg d k (cleanPairs (BitVec.ofNat 2048 (gather s.byteAt ps))) fNone)])) := by
  have hvar : ((List.range 32).any fun l => k.getLsbD l && negVar (pairOf (BitVec.ofNat 2048 (gather s.byteAt ps)) l).2)
      = false := by
    simpa only [List.any_eq_false, List.mem_range, Bool.and_eq_true, not_and, Bool.not_eq_true] using hv
  have hdata : s.dataFault x.eff = none := by simp only [dataFault, he, anyBad_pieces hb, hvar]; rfl
  refine (exec_resultLand_read h (by rw [he]; rfl) (by simp [heldBack, he]) hdata).trans ?_
  simp only [landEff, he]; rfl

/-- A read of a tile's cells whose data is good lands (R148). -/
theorem exec_resultLand_rdT {s : State} {x : Item} {n : Nat} {cells : List (Nat × Loc)} {land : Nat}
    (h : s.landing x) (he : x.eff = .rdT n cells land) (hb : ∀ e ∈ cells, ∀ l ∈ e.2.run 4, s.badAt l = false) :
    exec .resultLand s = .next ((s.touch (cells.flatMap fun e => e.2.run 4)).setCtx (s.ctx.afterRead x
      [(land, 2, .tset n (cells.map fun e => (e.1, BitVec.ofNat 32 (s.natAt (e.2.run 4)))))])) := by
  have hdata : s.dataFault x.eff = none := by simp only [dataFault, he, anyBad_cells hb]; rfl
  refine (exec_resultLand_read h (by rw [he]; rfl) (by simp [heldBack, he]) hdata).trans ?_
  simp only [landEff, he]; rfl

/-! ### FAR_LOAD_RETURN -/

section
variable {s : State} {x : Item} {d : Nat} {loc : Loc} {n : Nat} {sx hnd : Bool} {got : List Byte}

/-- What a far load has found after its next access of a memory that no window, no PHY register and no SAFE keeps from it:
the bytes so far and those of the next single-copy-atomic unit (R263). -/
def farBytes (s : State) (seq : Nat) (loc : Loc) (n : Nat) (got : List Byte) : List Byte :=
  got ++ (Loc.run { loc with off := loc.off + got.length } (min (n - got.length) (scaSize loc.mem))).map (s.forwarded seq)

/-- The register write that a whole far load schedules. -/
def farEff (d n : Nat) (sx hnd : Bool) (bs : List Byte) : Eff :=
  if hnd then .hreg d (BitVec.ofNat 256 (leNat bs)) else .sreg d (loadVal (leNat bs) n sx)

theorem farPiece_memory {seq : Nat} (hm : loc.mem ≠ .phy) (hh : s.hbmHeld loc = false) (hw : s.inWindow loc = false) :
    got ++ s.farPiece seq loc n got = s.farBytes seq loc n got := by
  simp [farPiece, farBytes, hm, hh, hw]

/-- A far load of a pair that was never assigned is a violation (R401). -/
theorem exec_farLoadReturn_unassigned (hn : s.ctx.nextItem = some x) (he : x.eff = .far d loc n sx hnd got)
    (ht : x.t ≤ s.ctx.ctime) (ho : orderedBefore s.ctx x.seq (classOf (s.ctx.flightOf x.seq)) (loc.run n) = false)
    (hu : s.unassigned s.ctx.asid.toNat s.ctx.gen.toNat = true) :
    exec .farLoadReturn s = .next (s.post .violation { viol := .pairUnknown s.focus }) := by
  show execFarLoadReturn s = _
  simp [execFarLoadReturn, hn, he, ht, ho, hu]

/-- A far load that has not found all of its bytes goes on with the next unit (R263). -/
theorem exec_farLoadReturn_part (hn : s.ctx.nextItem = some x) (he : x.eff = .far d loc n sx hnd got)
    (ht : x.t ≤ s.ctx.ctime) (ho : orderedBefore s.ctx x.seq (classOf (s.ctx.flightOf x.seq)) (loc.run n) = false)
    (hm : loc.mem ≠ .phy) (hu : s.unassigned s.ctx.asid.toNat s.ctx.gen.toNat = false) (hh : s.hbmHeld loc = false)
    (hw : s.inWindow loc = false) (hc : s.hostClear (loc.run n) = s) (hb : (s.farBytes x.seq loc n got).length < n) :
    exec .farLoadReturn s = .next (s.setCtx ((s.ctx.takeItem x).addItems x.seq
      [(x.t, x.ph, .far d loc n sx hnd (s.farBytes x.seq loc n got))])) := by
  show execFarLoadReturn s = _
  simp [execFarLoadReturn, hn, he, ht, ho, hu, hc, farPiece_memory hm hh hw, hb]

/-- A far load that has found all of its bytes lands four ticks after its edge (R86). -/
theorem exec_farLoadReturn_whole (hn : s.ctx.nextItem = some x) (he : x.eff = .far d loc n sx hnd got)
    (ht : x.t ≤ s.ctx.ctime) (ho : orderedBefore s.ctx x.seq (classOf (s.ctx.flightOf x.seq)) (loc.run n) = false)
    (hm : loc.mem ≠ .phy) (hu : s.unassigned s.ctx.asid.toNat s.ctx.gen.toNat = false) (hh : s.hbmHeld loc = false)
    (hw : s.inWindow loc = false) (hc : s.hostClear (loc.run n) = s) (hb : n ≤ (s.farBytes x.seq loc n got).length) :
    exec .farLoadReturn s = .next ((s.touch (loc.run n)).setCtx ((s.ctx.takeItem x).addItems x.seq
      [(x.t + 4 * s.ctx.div 0, 2, farEff d n sx hnd (s.farBytes x.seq loc n got))]).prune) := by
  show execFarLoadReturn s = _
  simp [execFarLoadReturn, hn, he, ht, ho, hu, hc, farPiece_memory hm hh hw, Nat.not_lt.2 hb, farEff]

end

/-! ### OUTWARD_ACTION_PERFORM -/

/-- An action whose turn has come is performed where the Taster confirms it (R88, R397). -/
theorem exec_outwardActionPerform_ready {s : State} {x : Item} {o : Out} (hl : s.me.live = true)
    (hr : s.readyOut = some (x, o)) (ht : s.me.tasteBad = 0) : exec .outwardActionPerform s = .next (s.performOut x o) := by
  show execOutwardActionPerform s = _
  cases o <;> simp [execOutwardActionPerform, hl, hr, tasterHolds_none ht]

/-- Where the translation tables lie does not depend on a context. -/
theorem inTables_setCtx (s : State) (c : Ctx) (ls : List Loc) : (s.setCtx c).inTables ls = s.inTables ls := rfl

/-- A far store that no rule refuses writes its bytes (R88, R401). -/
theorem performOut_store {s : State} {x : Item} {o : Out} {loc : Loc} {bs : List Byte} {k : BitVec 4}
    (ho : o = .store loc bs k ∨ o = .piece loc bs k) (hm : loc.mem ≠ .phy)
    (ht : s.ctx.asid = 0 ∨ s.inTables (loc.run bs.length) = false)
    (hu : s.unassigned s.ctx.asid.toNat s.ctx.gen.toNat = false)
    (hc : (s.setCtx (s.ctx.takeItem x)).hostClear (loc.run bs.length) = s.setCtx (s.ctx.takeItem x)) :
    s.performOut x o
      = ((s.setCtx (s.ctx.takeItem x)).writeAt (loc.run bs.length) bs).setCtx (s.ctx.takeItem x).prune := by
  have htab : (s.ctx.asid != 0 && (s.setCtx (s.ctx.takeItem x)).inTables (loc.run bs.length)) = false := by
    rw [inTables_setCtx]
    rcases ht with ht | ht <;> simp [ht]
  have hun : (s.setCtx (s.ctx.takeItem x)).unassigned s.ctx.asid.toNat s.ctx.gen.toNat = false := hu
  have hctx : ((s.setCtx (s.ctx.takeItem x)).writeAt (loc.run bs.length) bs).ctx = s.ctx.takeItem x := by
    rw [(sameContexts_writeAt _ _ _).ctx_eq, ctx_setCtx]
  rcases ho with rfl | rfl <;> simp only [performOut, hm, htab, hun, hc, hctx] <;> rfl

/-- A write of consecutive bytes whose first lies in no window and is not held leaves each of them as written. -/
theorem byteAt_writeAt_run {s : State} {loc : Loc} {bs : List Byte} (hm : loc.mem ≠ .phy) (hw : s.inWindow loc = false)
    (hh : s.hbmHeld loc = false) {j : Nat} (hj : j < bs.length) :
    (s.writeAt (loc.run bs.length) bs).byteAt { loc with off := loc.off + j } = bs.getD j 0 := by
  obtain ⟨n, hn⟩ := Nat.exists_eq_succ_of_ne_zero (Nat.ne_zero_of_lt hj)
  have hbytes : (s.putBytes (loc.run bs.length) bs).bytesAt (loc.run bs.length) = bs :=
    bytesAt_putBytes s _ bs (Loc.distinct_run _ _) (fun l hl => by rwa [(Loc.mem_run.1 hl).1]) (Loc.run_length _ _)
  have hput : (s.writeAt (loc.run bs.length) bs).byteAt { loc with off := loc.off + j }
      = (s.putBytes (loc.run bs.length) bs).byteAt { loc with off := loc.off + j } := by
    rw [hn]; exact byteAt_writeAt s loc _ _ bs ⟨hw, hh⟩
  have hget := congrArg (fun l : List Byte => l.getD j 0) hbytes
  simp only [bytesAt, List.getD_eq_getElem?_getD, List.getElem?_map, Loc.getElem?_run loc hj, Option.map_some,
    Option.getD_some] at hget
  rw [hput, hget, List.getD_eq_getElem?_getD]

/-- An event vector with bit `e` set or cleared shows the new bit there and its own elsewhere (R114). -/
theorem getLsbD_putBit (m : BitVec 256) (e : Nat) (v : Bool) {j : Nat} (hj : j < 256) :
    (if v then m ||| 1#256 <<< e else m &&& ~~~ (1#256 <<< e)).getLsbD j = if j = e then v else m.getLsbD j := by
  have hbit : (1#256 <<< e).getLsbD j = decide (j = e) := by
    rw [← BitVec.twoPow_eq, BitVec.getLsbD_twoPow]
    by_cases h : j = e
    · subst h; simp [hj]
    · simp [h, Ne.symm h]
  cases v with
  | false =>
    simp only [Bool.false_eq_true, if_false, BitVec.getLsbD_and, BitVec.getLsbD_not, hbit, hj, decide_true, Bool.true_and]
    by_cases h : j = e <;> simp [h]
  | true =>
    simp only [if_true, BitVec.getLsbD_or, hbit]
    by_cases h : j = e <;> simp [h]

/-- An event bit of a context that serves no launch node is a bit of its own vector (R114, R415). -/
theorem ctxPutEv_noLaunch {s : State} (e : Nat) (v : Bool) (hl : s.ctx.launch = 0) :
    ∃ seen, s.ctxPutEv s.focus e v = s.setCtx { s.ctx with
      privEv := if v then s.ctx.privEv ||| 1#256 <<< e else s.ctx.privEv &&& ~~~ (1#256 <<< e), evSeen := seen } :=
  ⟨_, if_pos hl⟩

/-- EVSET and EVCLR of a context that serves no launch node, performed. -/
theorem performOut_event {s : State} {x : Item} {o : Out} {e : Nat} (v : Bool) (hl : s.ctx.launch = 0)
    (ho : o = if v then .evset e else .evclr e) :
    ∃ seen, s.performOut x o = s.setCtx ({ s.ctx.takeItem x with
      privEv := if v then s.ctx.privEv ||| 1#256 <<< e else s.ctx.privEv &&& ~~~ (1#256 <<< e), evSeen := seen }.prune) := by
  have hl1 : (s.setCtx (s.ctx.takeItem x)).ctx.launch = 0 := by rw [ctx_setCtx]; exact hl
  obtain ⟨seen, hput⟩ := ctxPutEv_noLaunch e v hl1
  rw [ctx_setCtx, setCtx_setCtx, setCtx_focus] at hput
  refine ⟨seen, ?_⟩
  cases v <;> subst ho <;>
    simp only [performOut, if_true, if_false, Bool.false_eq_true, hput, ctx_setCtx, setCtx_setCtx] <;> rfl

/-- A CSRW that is performed writes its register (R119). -/
theorem performOut_csrw (s : State) (x : Item) (r : Nat) (v : Word) :
    s.performOut x (.csrw r v)
      = { s with free := s.free + 1 }.setCtx (writeCsr (redo s.free) (s.ctx.takeItem x) r v).prune := by
  have hfree (c : Ctx) : { s.setCtx c with free := s.free + 1 } = { s with free := s.free + 1 }.setCtx c := rfl
  simp only [performOut, setCtx_free, hfree, ctx_setCtx, setCtx_setCtx]

end State

/-! ### The registers that a CSRW writes -/

/-- A CSRW changes the trap frame, SAVEH and the sequencer's SAVE alone. -/
theorem writeCsr_frame (redo : Flight → Flight) (c : Ctx) (r : Nat) (v : Word) :
    ∃ frame saveh save, writeCsr redo c r v = { c with frame := frame, saveh := saveh, sq := { c.sq with save := save } } := by
  unfold writeCsr
  split
  case h_9 => dsimp only; split <;> exact ⟨_, _, _, rfl⟩
  all_goals exact ⟨_, _, _, rfl⟩

/-- The same of the context that a CSRW leaves once its part is taken from the schedule. -/
theorem writeCsr_prune_frame (redo : Flight → Flight) (c : Ctx) (x : Item) (r : Nat) (v : Word) :
    { (writeCsr redo (c.takeItem x) r v).prune with
        flights := c.flights, frame := c.frame, saveh := c.saveh
        sq := { (writeCsr redo (c.takeItem x) r v).prune.sq with save := c.sq.save } } = c := by
  obtain ⟨frame, saveh, save, hw⟩ := writeCsr_frame redo (c.takeItem x) r v
  rw [hw]
  cases c; rfl

theorem writeCsr_pcs (redo : Flight → Flight) (c : Ctx) {n : Nat} (v : Word) (hn : n ≤ 4) (hl : n < c.frame.pcs.length) :
    (writeCsr redo c (0x10 + n) v).frame.pcs.getD n 0 = v.setWidth 21 := by
  have hset : (writeCsr redo c (0x10 + n) v).frame.pcs = c.frame.pcs.set n (v.setWidth 21) := by
    obtain rfl | rfl | rfl | rfl | rfl : n = 0 ∨ n = 1 ∨ n = 2 ∨ n = 3 ∨ n = 4 := by omega
    all_goals rfl
  rw [hset, List.getD_eq_getElem?_getD, List.getElem?_set_self hl, Option.getD_some]

/-! ### What each event leaves behind -/

namespace State

/-- A lockstep store changes the bytes of its pieces alone. -/
theorem resultLand_store_bytes {s : State} {x : Item} {ps : List Piece} {src : BitVec 2048} (h : s.landing x)
    (he : x.eff = .store ps src)
    (hf : (s.ctx.flightOf x.seq).strm ≠ 0
      ∨ (orderedBefore s.ctx x.seq (classOf (s.ctx.flightOf x.seq)) (ps.map (·.loc)) = false ∧ s.me.tasteBad = 0))
    (hm : ∀ p ∈ ps, p.loc.mem ≠ .phy) :
    ∃ t, exec .resultLand s = .next t ∧ { t.ctx with flights := s.ctx.flights } = s.ctx
      ∧ t.ctx.flights = (s.ctx.takeItem x).prune.flights
      ∧ (∀ l, l.apart (ps.map (·.loc)) → t.byteAt l = s.byteAt l)
      ∧ (Loc.distinct (ps.map (·.loc)) → ∀ p ∈ ps, t.byteAt p.loc = putPiece p src (s.byteAt p.loc)) := by
  refine ⟨_, exec_resultLand_store h he hf, ?_⟩
  rw [ctx_setCtx]
  refine ⟨takeItem_prune_frame _ x, rfl, fun l hl => ?_, fun hd p hp => ?_⟩
  · rw [byteAt_setCtx, byteAt_putPieces_apart _ _ hl, byteAt_fresh]
  · rw [byteAt_setCtx, byteAt_putPieces src hd hm hp, byteAt_fresh]

section
variable {s : State} {x : Item} {o : Out} (hlive : s.me.live = true) (hready : s.readyOut = some (x, o))
  (htaste : s.me.tasteBad = 0)
include hlive hready htaste

/-- A far store that is performed writes its bytes, and no others. -/
theorem outwardActionPerform_store {loc : Loc} {bs : List Byte} {k : BitVec 4}
    (ho : o = .store loc bs k ∨ o = .piece loc bs k) (hm : loc.mem ≠ .phy)
    (ht : s.ctx.asid = 0 ∨ s.inTables (loc.run bs.length) = false)
    (hu : s.unassigned s.ctx.asid.toNat s.ctx.gen.toNat = false) (hw : s.inWindow loc = false) (hh : s.hbmHeld loc = false)
    (hc : (s.setCtx (s.ctx.takeItem x)).hostClear (loc.run bs.length) = s.setCtx (s.ctx.takeItem x)) :
    ∃ t, exec .outwardActionPerform s = .next t ∧ t.ctx.flights = (s.ctx.takeItem x).prune.flights
      ∧ (∀ l, l.apart (loc.run bs.length) → t.byteAt l = s.byteAt l)
      ∧ ∀ j, j < bs.length → t.byteAt { loc with off := loc.off + j } = bs.getD j 0 := by
  refine ⟨_, (exec_outwardActionPerform_ready hlive hready htaste).trans
    (congrArg _ (performOut_store ho hm ht hu hc)), ?_⟩
  rw [ctx_setCtx]
  refine ⟨rfl, fun l hl => ?_, fun j hj => ?_⟩
  · rw [byteAt_setCtx, byteAt_writeAt_apart _ _ _ hl, byteAt_setCtx]
  · rw [byteAt_setCtx]
    exact byteAt_writeAt_run (s := s.setCtx (s.ctx.takeItem x)) hm hw hh hj

/-- EVSET and EVCLR that are performed leave every other event bit and all of memory. -/
theorem outwardActionPerform_event {e : Nat} (ho : o = .evset e ∨ o = .evclr e) (he : e < 256) (hl : s.ctx.launch = 0) :
    ∃ t, exec .outwardActionPerform s = .next t ∧ s.sameMemory t ∧ t.ctx.privEv.getLsbD e = decide (o = .evset e)
      ∧ ∀ j, j < 256 → j ≠ e → t.ctx.privEv.getLsbD j = s.ctx.privEv.getLsbD j := by
  obtain ⟨v, hv⟩ : ∃ v : Bool, o = if v then .evset e else .evclr e := by
    rcases ho with rfl | rfl
    · exact ⟨true, rfl⟩
    · exact ⟨false, rfl⟩
  have hset : decide (o = .evset e) = v := by cases v <;> simp [hv]
  obtain ⟨seen, hperf⟩ := performOut_event v hl hv
  refine ⟨_, (exec_outwardActionPerform_ready hlive hready htaste).trans (congrArg _ hperf), byteAt_setCtx s _, ?_⟩
  rw [ctx_setCtx, hset]
  exact ⟨(getLsbD_putBit _ e v he).trans (if_pos rfl), fun j hj hne => (getLsbD_putBit _ e v hj).trans (if_neg hne)⟩

/-- A CSRW that is performed leaves its register in the context and all of memory. -/
theorem outwardActionPerform_csrw {r : Nat} {v : Word} (ho : o = .csrw r v) :
    ∃ t, exec .outwardActionPerform s = .next t ∧ s.sameMemory t
      ∧ t.ctx = (writeCsr (redo s.free) (s.ctx.takeItem x) r v).prune := by
  subst ho
  exact ⟨_, (exec_outwardActionPerform_ready hlive hready htaste).trans (congrArg _ (performOut_csrw s x r v)),
    fun l => byteAt_setCtx _ _ l, ctx_setCtx _ _⟩

end

end State

open State

/-- Settles O47: each event leaves the state that its lemma above gives, and the state's laws say what of it has changed. -/
theorem landAccesses : Obligations.LandAccesses := by
  intro s x c f free adds reads
  refine ⟨fun h => ⟨?store, ?rdS, ?rdH, ?rdV, ?rdQ, ?rdT⟩, ?far, fun o hlive hready htaste => ⟨?out, ?event, ?csrw⟩⟩
  case store =>
    intro ps src he hf hm
    obtain ⟨t, hexec, hframe, hflights, hapart, hbytes⟩ := resultLand_store_bytes h he hf hm
    refine ⟨t, hexec, hframe, hflights, hapart, fun hd p hp j hj hw _ => ?_⟩
    rw [hbytes hd p hp, getLsbD_putPiece p src _ hj hw]
  case rdS =>
    intro d loc n sx land he hm hf
    exact ⟨_, exec_resultLand_rdS h he hm hf, schedules_touch s _ x _⟩
  case rdH =>
    intro d loc land he hm hf
    exact ⟨_, exec_resultLand_rdH h he hm hf, schedules_touch s _ x _⟩
  case rdV =>
    intro d ps land he hb
    exact ⟨_, exec_resultLand_rdV h he hb, schedulesVec_touch s _ x _⟩
  case rdQ =>
    intro d ps k land he hb found hv
    exact ⟨_, _, exec_resultLand_rdQ h he hb hv, schedulesVec_touch s _ x _, fun l hl => pairOf_cleanPairs found hl⟩
  case rdT =>
    intro n cells land he hb
    exact ⟨_, exec_resultLand_rdT h he hb, schedulesVec_touch s _ x _⟩
  case far =>
    intro d loc n sx hnd got hn he ht ho hm
    refine ⟨exec_farLoadReturn_unassigned hn he ht ho, fun hu hh hw hc => ⟨fun hb => ?_, fun hb => ?_⟩⟩
    · refine ⟨_, exec_farLoadReturn_part hn he ht ho hm hu hh hw hc hb, byteAt_setCtx s _, ?_⟩
      rw [ctx_setCtx]
      exact ⟨addItems_frame _ x _ _, rfl⟩
    · exact ⟨_, exec_farLoadReturn_whole hn he ht ho hm hu hh hw hc hb, schedules_touch s _ x _⟩
  case out =>
    intro loc bs k ho hm ht hu hw hh hc
    exact outwardActionPerform_store hlive hready htaste ho hm ht hu hw hh hc
  case event =>
    intro e ho he hl
    exact outwardActionPerform_event hlive hready htaste ho he hl
  case csrw =>
    intro r v ho
    obtain ⟨t, hexec, hmem, hctx⟩ := outwardActionPerform_csrw hlive hready htaste ho
    refine ⟨t, hexec, hmem, ?_⟩
    rw [hctx]
    refine ⟨writeCsr_prune_frame _ _ x r v, ?_, ?_, ?pcs, ?_, ?_, ?_, ?_, ?_⟩
    case pcs =>
      rintro n hn rfl hl
      exact writeCsr_pcs _ _ v hn hl
    all_goals rintro rfl; rfl

end Sys2Proof.Machine
end
